-- ==== Sys2Proof/Word.lean ====
section
/-! DEFINITION. Sys2Proof/Word.lean: the word types of the block (00_scope.md rule R14). -/

namespace Sys2Proof

/-- One byte: a bus byte, a plane byte, a packed 8-bit register. -/
abbrev Byte := BitVec 8

/-- A 16-bit field: a coordinate field of an operation word, a controller row counter. -/
abbrev Half := BitVec 16

/-- The 32-bit `RESULT` register (rule R33). -/
abbrev ResultWord := BitVec 32

/-- A 64-bit host operation word (rule R75). -/
abbrev HostWord := BitVec 64

/-- The level of a digital line: `false` is 0, `true` is 1 (rule R16). -/
abbrev Level := Bool

end Sys2Proof
end

