-- ==== Sys2Proof/Config.lean ====
section
/-! DEFINITION. Sys2Proof/Config.lean: the construction parameters (00_scope.md rules R7 to R13, 46_controller_commands.md
rules R200, R219) and the free values: the answers and contents the spec leaves open (rule R17). -/

namespace Sys2Proof

/-- The colour set `{White, Black, Red}` (rule R77). -/
inductive Colour where
  | white | black | red
  deriving DecidableEq, Repr, Inhabited

/-- The two planes of controller RAM (00_scope.md, glossary). -/
inductive Plane where
  | bw | red
  deriving DecidableEq, Repr, Inhabited

/-- `ERROR_MODE` (rule R10). -/
inductive ErrorMode where
  | bestEffort | strict
  deriving DecidableEq, Repr, Inhabited

/-- `PIX_BW_SET_FOR` (rule R10): the colour whose pixels set the BW plane's bit. -/
inductive PixBw where
  | white | black
  deriving DecidableEq, Repr, Inhabited

/-- Which controller answers BUSY samples and RAM reads (rules R6, R17): any controller at all, or the reference
controller of 46_controller_commands.md section 3. -/
inductive Attached where
  | oracle | reference
  deriving DecidableEq, Repr, Inhabited

/-- The reference controller's power state (rule R221). -/
inductive CtlMode where
  | off | active | asleep
  deriving DecidableEq, Repr, Inhabited

/-- The 17 commands of the bus command set (rule R84), by name. -/
inductive BusCmd where
  | swReset | driverOutputControl | dataEntryMode | setRamXWindow | setRamYWindow | borderWaveform
  | displayUpdateControl1 | tempSensorSelect | displayUpdateControl2 | masterActivation | deepSleep
  | writeRamBw | writeRamRed | readRamOption | readRam | setRamXCounter | setRamYCounter
  deriving DecidableEq, Repr, Inhabited

/-- What the panel shows (rule R227): one colour for the border, and the native pixels row by row, `W * H` of them. -/
structure Image where
  border : Colour
  pixels : List Colour
  deriving DecidableEq, Repr, Inhabited

/-- The protocol table `PROTO` (rule R200): the 17 command codes and the fixed data. -/
structure Proto where
  swReset : Byte
  driverOutputControl : Byte
  dataEntryMode : Byte
  setRamXWindow : Byte
  setRamYWindow : Byte
  borderWaveform : Byte
  displayUpdateControl1 : Byte
  tempSensorSelect : Byte
  displayUpdateControl2 : Byte
  masterActivation : Byte
  deepSleep : Byte
  writeRamBw : Byte
  writeRamRed : Byte
  readRamOption : Byte
  readRam : Byte
  setRamXCounter : Byte
  setRamYCounter : Byte
  muxBias : Nat
  docPad : Byte
  dem : Byte
  borderWhite : Byte
  borderBlack : Byte
  borderRed : Byte
  duc1Init : List Byte
  duc1Normal : List Byte
  duc1Fast : List Byte
  tempInternal : Byte
  duc2Normal : Byte
  duc2Fast : Byte
  deepSleepData : List Byte
  rroBw : Byte
  rroRed : Byte
  deriving DecidableEq, Repr

/-- The 17 command codes of a table, in the order of rule R200. -/
def Proto.codes (p : Proto) : List Byte :=
  [p.swReset, p.driverOutputControl, p.dataEntryMode, p.setRamXWindow, p.setRamYWindow, p.borderWaveform,
    p.displayUpdateControl1, p.tempSensorSelect, p.displayUpdateControl2, p.masterActivation, p.deepSleep,
    p.writeRamBw, p.writeRamRed, p.readRamOption, p.readRam, p.setRamXCounter, p.setRamYCounter]

/-- The constraints on any table: distinct codes, distinct read options (rule R219), `MUX_BIAS` 0 or 1 and control-1
lists of one byte or more (rule R200). -/
abbrev Proto.wf (p : Proto) : Prop :=
  p.codes.Nodup ∧ p.rroBw ≠ p.rroRed ∧ p.muxBias ≤ 1 ∧ p.duc1Init ≠ [] ∧ p.duc1Normal ≠ [] ∧ p.duc1Fast ≠ []

/-- The construction parameters (rules R7 to R13), read-only for the block's lifetime (rule R22). `attached` is the
model's own: which controller answers (assumption 2). `RST_ACTIVE` is not here, since the source fixes it (rule R11). -/
structure Params where
  width : Nat
  height : Nat
  busId : Nat
  lineDc : Nat
  lineRst : Nat
  lineBusy : Nat
  /-- `none` is the sentinel `UNMANAGED`. -/
  lineCs : Option Nat
  maxChunk : Nat
  errorMode : ErrorMode
  busyTimeoutMs : Nat
  pixBwSetFor : PixBw
  dcCmd : Level
  csActive : Level
  busyActive : Level
  proto : Proto
  tSwrstSettle : Nat
  tPostAct : Nat
  busCfg : Nat
  busHz : Nat
  fastShowsRed : Bool
  attached : Attached
  deriving DecidableEq, Repr

/-- The constraints on the parameters: the panel size (rule R7), `MAX_CHUNK ≥ 2` (rule R9) and `PROTO` (rule R219). -/
abbrev Params.wf (c : Params) : Prop :=
  1 ≤ c.width ∧ c.width ≤ 2048 ∧ 1 ≤ c.height ∧ c.height ≤ 32767 ∧ 2 ≤ c.maxChunk ∧ c.proto.wf

/-- `RST_ACTIVE = 0` (rule R11): "reset pulse ≥20 ms low". -/
def Config.rstActive : Level := false

/-- `T_RST_IDLE` (rule R13), ms. -/
def Config.tRstIdle : Nat := 20

/-- `T_RST_PULSE` (rule R13), ms. -/
def Config.tRstPulse : Nat := 20

/-- `T_RST_SETTLE` (rule R13), ms. -/
def Config.tRstSettle : Nat := 30

/-- `T_POLL` (rule R13), ms. -/
def Config.tPoll : Nat := 1

/-! ## Free values
Each is an uninterpreted function of a draw number, which `State.draws` supplies and advances, and of a slot that keeps
the values of one draw apart. Nothing constrains them (rule R17; 93_implementation_defined.md U3 to U8, U12 to U23). -/

/-- A backend answer, a BUSY level, a controller bit (rule R17). -/
opaque Config.freeBool : Nat → Nat → Bool

/-- A byte the controller answers or holds, when the spec gives it no value (U3 to U6, U12). -/
opaque Config.freeByte : Nat → Nat → Byte

/-- A 16-bit controller register with no specified value (U12). -/
opaque Config.freeHalf : Nat → Nat → Half

/-- A length of a busy period (U8) or a controller count with no specified value. -/
opaque Config.freeNat : Nat → Nat → Nat

/-- A byte list held by the controller with no specified value (U12). -/
opaque Config.freeBytes : Nat → Nat → List Byte

/-- A colour shown where the spec gives none (U20). -/
opaque Config.freeColour : Nat → Nat → Colour

/-- A plane selection with no specified value (U12, U18). -/
opaque Config.freePlane : Nat → Nat → Plane

/-- The controller's power state after an event whose effect on it is not specified (U14, U22, U23). -/
opaque Config.freeMode : Nat → Nat → CtlMode

/-- The shown image after an event whose effect on the controller is not specified (U14, U22, U23). -/
opaque Config.freeImage : Nat → Nat → Option Image

/-- The controller's current command after an event whose effect on it is not specified (U14, U22, U23). -/
opaque Config.freeCmd : Nat → Nat → Option BusCmd

/-- The open parameter `FAST_SHOWS_RED` (rule R227), for which the spec gives no reference value: what
`Params.reference` holds for it (U21). -/
opaque Config.fastShowsRed : Bool

end Sys2Proof
end

