-- ==== Sys2Proof/Syntax.lean ====
section
/-! DEFINITION. Sys2Proof/Syntax.lean: the instructions, one constructor per row of spec/opcode_table.json: the 18 host
operations (rule R78) and the 17 bus commands (rule R84). -/

namespace Sys2Proof

/-- The surface rotation `ROT` (rule R23): 0°, 90°, 180°, 270°. -/
inductive Rotation where
  | deg0 | deg90 | deg180 | deg270
  deriving DecidableEq, Repr, Inhabited

/-- The instructions. A host operation carries its operands as rule R76 assembles them: coordinates and lengths are
mathematical integers, and a `DISPLAY_IMAGE` carries its presence bits (the buffers stand beside the word, rule R81).
A bus command carries the data bytes of its group (rule R85); `readRam` receives 2 bytes and sends none. -/
inductive Instr where
  | beginOp
  | prepare
  | displayImage (bwP redP : Bool)
  | clearDisplay
  | fillBlack
  | displayNormal
  | displayFast
  | setPixel (x y : Int) (c : Colour)
  | drawHline (x y w : Int) (c : Colour)
  | drawVline (x y h : Int) (c : Colour)
  | setRotation (r : Rotation)
  | setWhiteBorder
  | setBlackBorder
  | setRedBorder
  | getWidth
  | getHeight
  | getRotation
  | getStatus
  | swReset
  | driverOutputControl (rowsLo rowsHi pad : Byte)
  | dataEntryMode (dem : Byte)
  | setRamXWindow (first last : Byte)
  | setRamYWindow (firstLo firstHi lastLo lastHi : Byte)
  | borderWaveform (border : Byte)
  | displayUpdateControl1 (data : List Byte)
  | tempSensorSelect (sensor : Byte)
  | displayUpdateControl2 (control : Byte)
  | masterActivation
  | deepSleep (data : List Byte)
  | writeRamBw (data : List Byte)
  | writeRamRed (data : List Byte)
  | readRamOption (option : Byte)
  | readRam
  | setRamXCounter (xb : Byte)
  | setRamYCounter (lo hi : Byte)
  deriving DecidableEq, Repr

end Sys2Proof
end

