-- ==== Sys2Proof/WellFormed.lean ====
section
/-! DEFINITION. Sys2Proof/WellFormed.lean: which terms of `Instr` have an encoding. -/

namespace Sys2Proof

/-- An operand of 16 bits, two's complement (rule R76). -/
def fitsInt16 (v : Int) : Bool :=
  decide (-32768 ≤ v ∧ v ≤ 32767)

/-- Coordinates and lengths fit their 16-bit fields (rule R76); a control-1 list has one byte or more (rule R200); a
RAM write carries one byte or more (rules R83, R112). -/
def Instr.wf : Instr → Bool
  | .beginOp => true
  | .prepare => true
  | .displayImage _ _ => true
  | .clearDisplay => true
  | .fillBlack => true
  | .displayNormal => true
  | .displayFast => true
  | .setPixel x y _ => fitsInt16 x && fitsInt16 y
  | .drawHline x y w _ => fitsInt16 x && fitsInt16 y && fitsInt16 w
  | .drawVline x y h _ => fitsInt16 x && fitsInt16 y && fitsInt16 h
  | .setRotation _ => true
  | .setWhiteBorder => true
  | .setBlackBorder => true
  | .setRedBorder => true
  | .getWidth => true
  | .getHeight => true
  | .getRotation => true
  | .getStatus => true
  | .swReset => true
  | .driverOutputControl _ _ _ => true
  | .dataEntryMode _ => true
  | .setRamXWindow _ _ => true
  | .setRamYWindow _ _ _ _ => true
  | .borderWaveform _ => true
  | .displayUpdateControl1 data => !data.isEmpty
  | .tempSensorSelect _ => true
  | .displayUpdateControl2 _ => true
  | .masterActivation => true
  | .deepSleep _ => true
  | .writeRamBw data => !data.isEmpty
  | .writeRamRed data => !data.isEmpty
  | .readRamOption _ => true
  | .readRam => true
  | .setRamXCounter _ => true
  | .setRamYCounter _ _ => true

end Sys2Proof
end

