-- ==== Sys2Proof/Decode.lean ====
section
/-! DEFINITION. Sys2Proof/Decode.lean: the decoder of the host operation word (30_encoding.md rules R75 to R79) and of the
bus group (rules R82 to R85), total, rejecting by name; and after it the encoder. -/

namespace Sys2Proof

/-- Why a word or a group is not an instruction. -/
inductive DecodeError where
  /-- An `OPC` value not in rule R78. -/
  | unknownOpcode
  /-- A non-zero must-be-zero bit (rule R79). -/
  | nonZeroReserved
  /-- Colour code 3 (rule R77). -/
  | reservedColour
  /-- A group with no command byte. -/
  | emptyGroup
  /-- A command code outside `PROTO` (rule R220). -/
  | unknownCommand
  /-- A group whose data count is not its command's (rules R83, R85). -/
  | wrongDataCount
  deriving DecidableEq, Repr

/-- What decoding answers. -/
inductive Decoded where
  | ok (i : Instr)
  | illegal (e : DecodeError)
  deriving DecidableEq, Repr

def Decoded.toOption : Decoded → Option Instr
  | .ok i => some i
  | .illegal _ => none

/-! ## The host operation word -/

/-- The five fields of an operation word (rule R75). -/
structure HostFields where
  opc : Byte
  sub : Byte
  x : Half
  y : Half
  l : Half
  deriving DecidableEq, Repr

/-- `OPC = [7:0]`, `SUB = [15:8]`, `X = [31:16]`, `Y = [47:32]`, `L = [63:48]` (rule R75). -/
def HostFields.split (w : HostWord) : HostFields :=
  { opc := w.extractLsb' 0 8, sub := w.extractLsb' 8 8, x := w.extractLsb' 16 16, y := w.extractLsb' 32 16,
    l := w.extractLsb' 48 16 }

/-- The word with these fields (rule R75). -/
def HostFields.join (f : HostFields) : HostWord :=
  f.l ++ f.y ++ f.x ++ f.sub ++ f.opc

/-- `zext_2(word[9:8])`, the low two bits of `SUB` (rule R76). -/
def HostFields.sub2 (f : HostFields) : BitVec 2 :=
  f.sub.extractLsb' 0 2

/-- `SUB[7:2]`, which every row needs zero (rule R78). -/
def HostFields.subHigh (f : HostFields) : BitVec 6 :=
  f.sub.extractLsb' 2 6

/-- The colour of a code; 3 is reserved (rule R77). -/
def colourOfCode (c : BitVec 2) : Option Colour :=
  if c = 0#2 then some .white else if c = 1#2 then some .black else if c = 2#2 then some .red else none

/-- The rotation of a two-bit field: all four values are legal (rule R187). -/
def rotationOfCode (r : BitVec 2) : Rotation :=
  if r = 0#2 then .deg0 else if r = 1#2 then .deg90 else if r = 2#2 then .deg180 else .deg270

/-- A row with no operand: bits [63:8] must be zero (rule R78). -/
def decodePlain (f : HostFields) (i : Instr) : Decoded :=
  if f.sub = 0#8 ∧ f.x = 0#16 ∧ f.y = 0#16 ∧ f.l = 0#16 then .ok i else .illegal .nonZeroReserved

/-- A row whose operand is `SUB[1:0]`: bits [63:10] must be zero (rule R78). -/
def decodeSub (f : HostFields) (i : Instr) : Decoded :=
  if f.subHigh = 0#6 ∧ f.x = 0#16 ∧ f.y = 0#16 ∧ f.l = 0#16 then .ok i else .illegal .nonZeroReserved

/-- A pixel row: `SUB[7:2]` must be zero, and the colour code is not 3 (rules R78, R79). -/
def decodePixel (f : HostFields) (i : Colour → Instr) : Decoded :=
  if f.subHigh = 0#6 then
    match colourOfCode f.sub2 with
    | some c => .ok (i c)
    | none => .illegal .reservedColour
  else .illegal .nonZeroReserved

/-- The opcode map (rule R78), with the operand assembly of rule R76. -/
def decodeFields (f : HostFields) : Decoded :=
  if f.opc = 0x01#8 then decodePlain f .beginOp
  else if f.opc = 0x02#8 then decodePlain f .prepare
  else if f.opc = 0x10#8 then decodeSub f (.displayImage (f.sub.getLsbD 0) (f.sub.getLsbD 1))
  else if f.opc = 0x11#8 then decodePlain f .clearDisplay
  else if f.opc = 0x12#8 then decodePlain f .fillBlack
  else if f.opc = 0x20#8 then decodePlain f .displayNormal
  else if f.opc = 0x21#8 then decodePlain f .displayFast
  else if f.opc = 0x30#8 then
    if f.l = 0#16 then decodePixel f (.setPixel f.x.toInt f.y.toInt) else .illegal .nonZeroReserved
  else if f.opc = 0x31#8 then decodePixel f (.drawHline f.x.toInt f.y.toInt f.l.toInt)
  else if f.opc = 0x32#8 then decodePixel f (.drawVline f.x.toInt f.y.toInt f.l.toInt)
  else if f.opc = 0x40#8 then decodeSub f (.setRotation (rotationOfCode f.sub2))
  else if f.opc = 0x41#8 then decodePlain f .setWhiteBorder
  else if f.opc = 0x42#8 then decodePlain f .setBlackBorder
  else if f.opc = 0x43#8 then decodePlain f .setRedBorder
  else if f.opc = 0x50#8 then decodePlain f .getWidth
  else if f.opc = 0x51#8 then decodePlain f .getHeight
  else if f.opc = 0x52#8 then decodePlain f .getRotation
  else if f.opc = 0x53#8 then decodePlain f .getStatus
  else .illegal .unknownOpcode

/-- Decoding of a host operation word (rule R79), total. -/
def decodeHost (w : HostWord) : Decoded :=
  decodeFields (HostFields.split w)

/-! ## The bus group -/

/-- The code of a command in a table (rules R84, R200). -/
def Proto.code (p : Proto) : BusCmd → Byte
  | .swReset => p.swReset
  | .driverOutputControl => p.driverOutputControl
  | .dataEntryMode => p.dataEntryMode
  | .setRamXWindow => p.setRamXWindow
  | .setRamYWindow => p.setRamYWindow
  | .borderWaveform => p.borderWaveform
  | .displayUpdateControl1 => p.displayUpdateControl1
  | .tempSensorSelect => p.tempSensorSelect
  | .displayUpdateControl2 => p.displayUpdateControl2
  | .masterActivation => p.masterActivation
  | .deepSleep => p.deepSleep
  | .writeRamBw => p.writeRamBw
  | .writeRamRed => p.writeRamRed
  | .readRamOption => p.readRamOption
  | .readRam => p.readRam
  | .setRamXCounter => p.setRamXCounter
  | .setRamYCounter => p.setRamYCounter

/-- The command whose code a byte is, looked up in the order of rule R200. -/
def Proto.command (p : Proto) (b : Byte) : Option BusCmd :=
  if b = p.swReset then some .swReset
  else if b = p.driverOutputControl then some .driverOutputControl
  else if b = p.dataEntryMode then some .dataEntryMode
  else if b = p.setRamXWindow then some .setRamXWindow
  else if b = p.setRamYWindow then some .setRamYWindow
  else if b = p.borderWaveform then some .borderWaveform
  else if b = p.displayUpdateControl1 then some .displayUpdateControl1
  else if b = p.tempSensorSelect then some .tempSensorSelect
  else if b = p.displayUpdateControl2 then some .displayUpdateControl2
  else if b = p.masterActivation then some .masterActivation
  else if b = p.deepSleep then some .deepSleep
  else if b = p.writeRamBw then some .writeRamBw
  else if b = p.writeRamRed then some .writeRamRed
  else if b = p.readRamOption then some .readRamOption
  else if b = p.readRam then some .readRam
  else if b = p.setRamXCounter then some .setRamXCounter
  else if b = p.setRamYCounter then some .setRamYCounter
  else none

/-- A command with its data bytes (rule R85). -/
def assembleGroup : BusCmd → List Byte → Decoded
  | .swReset, [] => .ok .swReset
  | .driverOutputControl, [a, b, c] => .ok (.driverOutputControl a b c)
  | .dataEntryMode, [a] => .ok (.dataEntryMode a)
  | .setRamXWindow, [a, b] => .ok (.setRamXWindow a b)
  | .setRamYWindow, [a, b, c, d] => .ok (.setRamYWindow a b c d)
  | .borderWaveform, [a] => .ok (.borderWaveform a)
  | .displayUpdateControl1, a :: d => .ok (.displayUpdateControl1 (a :: d))
  | .tempSensorSelect, [a] => .ok (.tempSensorSelect a)
  | .displayUpdateControl2, [a] => .ok (.displayUpdateControl2 a)
  | .masterActivation, [] => .ok .masterActivation
  | .deepSleep, d => .ok (.deepSleep d)
  | .writeRamBw, a :: d => .ok (.writeRamBw (a :: d))
  | .writeRamRed, a :: d => .ok (.writeRamRed (a :: d))
  | .readRamOption, [a] => .ok (.readRamOption a)
  | .readRam, [] => .ok .readRam
  | .setRamXCounter, [a] => .ok (.setRamXCounter a)
  | .setRamYCounter, [a, b] => .ok (.setRamYCounter a b)
  | _, _ => .illegal .wrongDataCount

/-- Decoding of a bus group: its command byte, then its data bytes (rule R83). -/
def decodeGroup (p : Proto) : List Byte → Decoded
  | [] => .illegal .emptyGroup
  | b :: d =>
    match p.command b with
    | some c => assembleGroup c d
    | none => .illegal .unknownCommand

/-! ## Either form -/

/-- An instruction as the hardware stores it: a host operation word, or the bytes of a bus group. -/
inductive Code where
  | word (w : HostWord)
  | group (bytes : List Byte)
  deriving DecidableEq, Repr

/-- Decoding, total on every word and every byte list. -/
def decode (p : Proto) : Code → Decoded
  | .word w => decodeHost w
  | .group bs => decodeGroup p bs

/-! ## The reference profile and the opcode table -/

/-- The reference profile of rule R200, `[from general knowledge, not in source]`: the codes opcode_table.json uses. -/
def Proto.reference : Proto :=
  { swReset := 0x12, driverOutputControl := 0x01, dataEntryMode := 0x11, setRamXWindow := 0x44, setRamYWindow := 0x45,
    borderWaveform := 0x3C, displayUpdateControl1 := 0x21, tempSensorSelect := 0x18, displayUpdateControl2 := 0x22,
    masterActivation := 0x20, deepSleep := 0x10, writeRamBw := 0x24, writeRamRed := 0x26, readRamOption := 0x41,
    readRam := 0x27, setRamXCounter := 0x4E, setRamYCounter := 0x4F,
    muxBias := 1, docPad := 0x00, dem := 0x01, borderWhite := 0x05, borderBlack := 0x04, borderRed := 0x06,
    duc1Init := [0x00], duc1Normal := [0x00], duc1Fast := [0x40], tempInternal := 0x80, duc2Normal := 0xF7,
    duc2Fast := 0xC7, deepSleepData := [0x01], rroBw := 0x00, rroRed := 0x01 }

/-- How many data bytes a group carries at least (rule R85); the lists `DUC1_*` and the RAM data have one or more, and
`DEEP_SLEEP_DATA` is as long as the table says. -/
def BusCmd.dataCount (p : Proto) : BusCmd → Nat
  | .swReset => 0
  | .driverOutputControl => 3
  | .dataEntryMode => 1
  | .setRamXWindow => 2
  | .setRamYWindow => 4
  | .borderWaveform => 1
  | .displayUpdateControl1 => 1
  | .tempSensorSelect => 1
  | .displayUpdateControl2 => 1
  | .masterActivation => 0
  | .deepSleep => p.deepSleepData.length
  | .writeRamBw => 1
  | .writeRamRed => 1
  | .readRamOption => 1
  | .readRam => 0
  | .setRamXCounter => 1
  | .setRamYCounter => 2

/-- The group whose command byte is `b` and whose data bytes are zeros. -/
def zeroGroup (p : Proto) (b : Byte) : List Byte :=
  match p.command b with
  | some c => b :: List.replicate (c.dataCount p) 0#8
  | none => [b]

/-- An opcode-table word as the hardware stores it: 64 bits are a host operation word, 8 bits the command byte of a
group whose data bytes are zeros. -/
def tableCode (p : Proto) (nbits w : Nat) : Option Code :=
  if nbits = 64 then some (.word (BitVec.ofNat 64 w))
  else if nbits = 8 then some (.group (zeroGroup p (BitVec.ofNat 8 w)))
  else none

/-- The instruction the decoder reads from an opcode-table word, under the reference profile. -/
def decodeTableWord (nbits w : Nat) : Option Instr :=
  match tableCode Proto.reference nbits w with
  | some c => (decode Proto.reference c).toOption
  | none => none

/-! ## The encoder -/

/-- The colour code (rule R77). -/
def Colour.code : Colour → BitVec 2
  | .white => 0#2
  | .black => 1#2
  | .red => 2#2

/-- The rotation code (rule R187). -/
def Rotation.code : Rotation → BitVec 2
  | .deg0 => 0#2
  | .deg90 => 1#2
  | .deg180 => 2#2
  | .deg270 => 3#2

/-- A word with no operand. -/
def plainWord (opc : Byte) : HostWord :=
  HostFields.join { opc := opc, sub := 0, x := 0, y := 0, l := 0 }

/-- A word whose operand is `SUB[1:0]`. -/
def subWord (opc : Byte) (v : BitVec 2) : HostWord :=
  HostFields.join { opc := opc, sub := 0#6 ++ v, x := 0, y := 0, l := 0 }

/-- A word with a colour, coordinates and a length (rule R75): two's complement fields. -/
def pixelWord (opc : Byte) (c : Colour) (x y l : Int) : HostWord :=
  HostFields.join { opc := opc, sub := 0#6 ++ c.code, x := BitVec.ofInt 16 x, y := BitVec.ofInt 16 y, l := BitVec.ofInt 16 l }

/-- The words of an instruction (rules R75 to R78, R83 to R85). -/
def encode (p : Proto) : Instr → Code
  | .beginOp => .word (plainWord 0x01)
  | .prepare => .word (plainWord 0x02)
  | .displayImage bwP redP => .word (subWord 0x10 (BitVec.ofBool redP ++ BitVec.ofBool bwP))
  | .clearDisplay => .word (plainWord 0x11)
  | .fillBlack => .word (plainWord 0x12)
  | .displayNormal => .word (plainWord 0x20)
  | .displayFast => .word (plainWord 0x21)
  | .setPixel x y c => .word (pixelWord 0x30 c x y 0)
  | .drawHline x y w c => .word (pixelWord 0x31 c x y w)
  | .drawVline x y h c => .word (pixelWord 0x32 c x y h)
  | .setRotation r => .word (subWord 0x40 r.code)
  | .setWhiteBorder => .word (plainWord 0x41)
  | .setBlackBorder => .word (plainWord 0x42)
  | .setRedBorder => .word (plainWord 0x43)
  | .getWidth => .word (plainWord 0x50)
  | .getHeight => .word (plainWord 0x51)
  | .getRotation => .word (plainWord 0x52)
  | .getStatus => .word (plainWord 0x53)
  | .swReset => .group [p.swReset]
  | .driverOutputControl a b c => .group [p.driverOutputControl, a, b, c]
  | .dataEntryMode a => .group [p.dataEntryMode, a]
  | .setRamXWindow a b => .group [p.setRamXWindow, a, b]
  | .setRamYWindow a b c d => .group [p.setRamYWindow, a, b, c, d]
  | .borderWaveform a => .group [p.borderWaveform, a]
  | .displayUpdateControl1 d => .group (p.displayUpdateControl1 :: d)
  | .tempSensorSelect a => .group [p.tempSensorSelect, a]
  | .displayUpdateControl2 a => .group [p.displayUpdateControl2, a]
  | .masterActivation => .group [p.masterActivation]
  | .deepSleep d => .group (p.deepSleep :: d)
  | .writeRamBw d => .group (p.writeRamBw :: d)
  | .writeRamRed d => .group (p.writeRamRed :: d)
  | .readRamOption a => .group [p.readRamOption, a]
  | .readRam => .group [p.readRam]
  | .setRamXCounter a => .group [p.setRamXCounter, a]
  | .setRamYCounter a b => .group [p.setRamYCounter, a, b]

end Sys2Proof
end

