-- ==== Sys2Proof/Machine/Operands.lean ====
section
/-! DEFINITION. Sys2Proof/Machine/Operands.lean: the operand forms: sizes, byte order, the data of the bus groups, the
rotation map, byte address and mask, the bit modification, the vertical flip and the chunks. All are pure functions. -/

namespace Sys2Proof.Machine

/-! ## Sizes and byte order -/

/-- The row stride `S = ceil(W / 8)` (rule R8). -/
def stride (c : Params) : Nat := (c.width + 7) / 8

/-- `PLANE_BYTES = S * H` (rule R8). -/
def planeBytes (c : Params) : Nat := stride c * c.height

/-- `CS_MANAGED` is `LINE_CS != UNMANAGED` (rule R7). -/
def csManaged (c : Params) : Bool := c.lineCs.isSome

/-- `lo(v) = v[7:0]` (rule R14). -/
def lo (v : Nat) : Byte := BitVec.ofNat 8 v

/-- `hi(v) = v[15:8]` (rule R14). -/
def hi (v : Nat) : Byte := BitVec.ofNat 8 (v / 256)

/-- A 16-bit field with its low byte replaced (rule R59: the low byte comes first). -/
def withLowByte (v : Half) (b : Byte) : Half := v.extractLsb' 8 8 ++ b

/-- A 16-bit field with its high byte replaced. -/
def withHighByte (v : Half) (b : Byte) : Half := b ++ v.extractLsb' 0 8

/-- The role of a transaction (rule R82). -/
inductive Role where
  | cmd | data
  deriving DecidableEq, Repr

/-- The DC level of a role: `DC_CMD` for a command, `1 - DC_CMD` for data (rule R101). -/
def dcLevel (c : Params) : Role → Level
  | .cmd => c.dcCmd
  | .data => !c.dcCmd

/-! ## Data bytes of the bus groups (rule R85) -/

/-- `lo(H - MUX_BIAS)`, `hi(H - MUX_BIAS)`, `DOC_PAD` (rule R131). -/
def docData (c : Params) : List Byte :=
  [lo (c.height - c.proto.muxBias), hi (c.height - c.proto.muxBias), c.proto.docPad]

/-- `0x00`, `S - 1`. -/
def xWindowData (c : Params) : List Byte := [0#8, lo (stride c - 1)]

/-- `lo(H - 1)`, `hi(H - 1)`, `0x00`, `0x00`. -/
def yWindowData (c : Params) : List Byte := [lo (c.height - 1), hi (c.height - 1), 0#8, 0#8]

/-- `BORDER_BYTE` (rule R200). -/
def borderByte (p : Proto) : Colour → Byte
  | .white => p.borderWhite
  | .black => p.borderBlack
  | .red => p.borderRed

/-- The two update modes (rule R158). -/
inductive UpdateMode where
  | normal | fast
  deriving DecidableEq, Repr

/-- `DUC1_NORMAL` or `DUC1_FAST` (rule R162). -/
def duc1Of (p : Proto) : UpdateMode → List Byte
  | .normal => p.duc1Normal
  | .fast => p.duc1Fast

/-- `DUC2_NORMAL` or `DUC2_FAST` (rule R162). -/
def duc2Of (p : Proto) : UpdateMode → Byte
  | .normal => p.duc2Normal
  | .fast => p.duc2Fast

/-- The RAM-write command of a plane (rules R212, R213). -/
def writeCode (p : Proto) : Plane → Byte
  | .bw => p.writeRamBw
  | .red => p.writeRamRed

/-- The read option of a plane (rule R214). -/
def readOption (p : Proto) : Plane → Byte
  | .bw => p.rroBw
  | .red => p.rroRed

/-! ## Rotation (rules R24, R168, R169) -/

/-- `ROT` is 0 or 2. -/
def rotEven : Rotation → Bool
  | .deg0 => true
  | .deg90 => false
  | .deg180 => true
  | .deg270 => false

/-- The logical width `LW` (rule R24). -/
def logicalWidth (c : Params) (r : Rotation) : Nat := if rotEven r then c.width else c.height

/-- The logical height `LH` (rule R24). -/
def logicalHeight (c : Params) (r : Rotation) : Nat := if rotEven r then c.height else c.width

/-- `toNative` (rule R168), on unbounded integers. -/
def toNative (c : Params) (r : Rotation) (x y : Int) : Int × Int :=
  match r with
  | .deg0 => (x, y)
  | .deg90 => ((c.width : Int) - 1 - y, x)
  | .deg180 => ((c.width : Int) - 1 - x, (c.height : Int) - 1 - y)
  | .deg270 => (y, (c.height : Int) - 1 - x)

/-- `toLogical`, the declared inverse (rule R169). -/
def toLogical (c : Params) (r : Rotation) (nx ny : Int) : Int × Int :=
  match r with
  | .deg0 => (nx, ny)
  | .deg90 => (ny, (c.width : Int) - 1 - nx)
  | .deg180 => ((c.width : Int) - 1 - nx, (c.height : Int) - 1 - ny)
  | .deg270 => ((c.height : Int) - 1 - ny, nx)

/-- The bounds check, on logical coordinates (rule R170). -/
def inRange (c : Params) (r : Rotation) (x y : Int) : Bool :=
  decide (0 ≤ x ∧ x < logicalWidth c r ∧ 0 ≤ y ∧ y < logicalHeight c r)

/-! ## Byte address, mask and modification (rules R171, R176) -/

/-- `xb = nx div 8`. -/
def byteColumn (nx : Nat) : Nat := nx / 8

/-- `m = 1 << (7 - (nx mod 8))`. -/
def pixelMask (nx : Nat) : Byte := 1#8 <<< (7 - nx % 8)

/-- The colour of `PIX_BW_SET_FOR`. -/
def pixBwColour : PixBw → Colour
  | .white => .white
  | .black => .black

/-- `modifyBW(b, m, c) = (b & ~m) | (c == PIX_BW_SET_FOR ? m : 0)`. -/
def modifyBw (p : Params) (b m : Byte) (c : Colour) : Byte :=
  (b &&& ~~~m) ||| (if c = pixBwColour p.pixBwSetFor then m else 0#8)

/-- `modifyRED(r, m, c) = (r & ~m) | (c == Red ? m : 0)`. -/
def modifyRed (r m : Byte) (c : Colour) : Byte :=
  (r &&& ~~~m) ||| (if c = Colour.red then m else 0#8)

/-! ## Frames (rules R104, R141, R143) -/

/-- The first `h` rows of `s` bytes each, in reversed order: source row `y` goes to row `h - 1 - y`, whole. -/
def flipRows (s : Nat) : Nat → List Byte → List Byte
  | 0, _ => []
  | h + 1, buf => flipRows s h (buf.drop s) ++ buf.take s

/-- `flip(buf)` (rule R141). -/
def flip (c : Params) (buf : List Byte) : List Byte := flipRows (stride c) c.height buf

/-- `fill(n, b)` (rule R143). -/
def fill (n : Nat) (b : Byte) : List Byte := List.replicate n b

/-- `FILL_WHITE = 0xFF` (rule R61). -/
def fillWhite : Byte := 0xFF#8

/-- `FILL_BLACK = 0x00` (rule R61). -/
def fillBlackByte : Byte := 0x00#8

/-- `FILL_NORED = 0x00` (rule R61). -/
def fillNoRed : Byte := 0x00#8

/-- `ceil(len / size)`, the number of transfers of a payload (rule R104). -/
def chunkCount (size len : Nat) : Nat := (len + size - 1) / size

/-- Chunk `k` of a payload: `payload[k*MAX_CHUNK .. min((k+1)*MAX_CHUNK, len)]` (rule R103). -/
def chunk (size : Nat) (payload : List Byte) (k : Nat) : List Byte := (payload.drop (k * size)).take size

/-- The transfers of a payload, in order (rule R104). -/
def chunks (size : Nat) (payload : List Byte) : List (List Byte) :=
  (List.range (chunkCount size payload.length)).map (chunk size payload)

end Sys2Proof.Machine
end

