-- ==== Sys2Proof/Machine/Profile.lean ====
section
/-! DEFINITION. Sys2Proof/Machine/Profile.lean: the reference values of the construction parameters (93_implementation_defined.md
part B; 95_test_vectors.md, conventions). They are one choice of the parameters, the one the reset state holds; every claim
quantifies over the parameters (assumption 1). -/

namespace Sys2Proof.Machine

/-- The reference parameters: the source's 400 by 300 panel, the reference polarities and profile, `MAX_CHUNK = 4096`,
`BestEffort`, no timeout, `PIX_BW_SET_FOR = White`, 10 and 100 ms, with the reference controller attached. The identifiers
and the bus configuration are used by no rule. `FAST_SHOWS_RED` has no reference value and is left free. -/
def referenceParams : Params :=
  { width := 400, height := 300, busId := 0, lineDc := 0, lineRst := 0, lineBusy := 0, lineCs := some 0,
    maxChunk := 4096, errorMode := .bestEffort, busyTimeoutMs := 0, pixBwSetFor := .white,
    dcCmd := false, csActive := false, busyActive := true, proto := Proto.reference,
    tSwrstSettle := 10, tPostAct := 100, busCfg := 0, busHz := 0,
    fastShowsRed := Config.fastShowsRed, attached := .reference }

end Sys2Proof.Machine
end

