-- ==== Sys2Proof/Machine/State.lean ====
section
/-! DEFINITION. Sys2Proof/Machine/State.lean: everything the spec gives the machine (10_state.md; 46_controller_commands.md
rule R221 for the reference controller), the trace and results of the observation (rule R18), the environment's answers
(rule R17), and the state at construction (rule R39). -/

namespace Sys2Proof.Machine

/-! ## Registers of the block -/

/-- `CSTATE` (rule R27). Values 5 to 7 are never held. -/
inductive CState where
  | uninitialized | reset | ready | busy | asleep
  deriving DecidableEq, Repr, Inhabited

/-- `SURF` by its fields (rule R23). `BORDER = 3` is never held. -/
structure Surf where
  rot : Rotation
  border : Colour
  deriving DecidableEq, Repr

/-- `STAT` by its fields (rule R26). -/
structure Stat where
  cstate : CState
  begun : Bool
  ramvBw : Bool
  ramvRed : Bool
  inop : Bool
  deriving DecidableEq, Repr

/-- The bits of `FAULT`, by name (rule R31). -/
inductive FaultBit where
  | setupFail | busFail | stall | seqViol | notBegun | illegalOp | concurrent
  deriving DecidableEq, Repr, Inhabited

/-- `FAULT` by its bits (rule R31). -/
structure FaultReg where
  setupFail : Bool
  busFail : Bool
  stall : Bool
  seqViol : Bool
  notBegun : Bool
  illegalOp : Bool
  concurrent : Bool
  deriving DecidableEq, Repr

/-- The output latches `DCL`, `RSTL`, `CSL` (rule R34): `none` is ⊥, never driven. -/
structure Lines where
  dc : Option Level
  rst : Option Level
  cs : Option Level
  deriving DecidableEq, Repr

/-- The output lines (rule R16). -/
inductive LineName where
  | dc | rst | cs
  deriving DecidableEq, Repr

/-- The kinds of a log record (rules R253, R267). -/
inductive LogKind where
  | busFail | stall
  deriving DecidableEq, Repr

/-- The events of the trace (rule R16). -/
inductive Event where
  | line (l : LineName) (v : Level)
  | sample (v : Level)
  | delay (t : Nat)
  | xfer (tx : List Byte) (ok : Bool)
  | xferIn (n : Nat) (rx : List Byte) (ok : Bool)
  | log (k : LogKind)
  | acquire (ok : Bool)
  deriving DecidableEq, Repr

/-- The two busy waits (rule R127): after the soft-reset command, and after the activation command. -/
inductive WaitPoint where
  | softReset | activation
  deriving DecidableEq, Repr

/-- The hidden micro-sequencer position (rule R21): between operations, inside a busy wait with `polls` delays done, or
about to send one bus group (assumption 6). -/
inductive Micro where
  | idle
  | waiting (point : WaitPoint) (polls : Nat)
  | sending (group : List Byte)
  deriving DecidableEq, Repr

/-- One host operation as the host issues it: the word, and the image buffers beside it (rules R75, R81). A buffer the
word does not present is not read. -/
structure HostOp where
  word : HostWord
  imgBw : List Byte
  imgRed : List Byte
  deriving DecidableEq, Repr

/-! ## The reference controller and the environment -/

/-- One plane of controller RAM: the bytes that are defined, by address, addresses strictly rising. An unlisted byte is
undefined: it reads as any value (rule R221). -/
abbrev Memory := List Host.Cell

/-- The reference controller (rule R221). `busyLeft`, `busyPlan`, `cmd` and `got` are what rules R218 and R226 imply: how
many later samples of the busy period read asserted, the lengths of the periods to come (the environment's answers), the
command being received, and how many of its data bytes have come. -/
structure Controller where
  mode : CtlMode
  busy : Bool
  busyLeft : Nat
  busyPlan : List Nat
  ramBw : Memory
  ramRed : Memory
  xs : Byte
  xe : Byte
  ys : Half
  ye : Half
  xc : Byte
  yc : Half
  mux : Half
  dem : Byte
  readSel : Plane
  rdPhase : Nat
  border : Byte
  duc1 : List Byte
  duc2 : Byte
  temp : Byte
  shown : Option Image
  cmd : Option BusCmd
  got : Nat
  deriving DecidableEq, Repr

/-- The backend's answers (rules R6, R17). `reliable` is the convention of 95_test_vectors.md: every transfer and every
acquisition succeeds. `scripted` gives them in order, and when a script has run out each further answer is free. -/
inductive Backend where
  | reliable
  | scripted (acquires transfers : List Bool)
  deriving DecidableEq, Repr

/-- The environment's answers that are not the controller's own: the backend, the BUSY levels and the inbound bytes to
come (free when the script has run out), and the concurrent host (rule R255): `early` holds, for each word the host issues
while `INOP = 1`, how many further events pass before it. `early = []` is the sequential host of rule R21. -/
structure Env where
  backend : Backend
  samples : List Level
  bytes : List Byte
  early : List Nat
  deriving DecidableEq, Repr

/-! ## The state -/

/-- The machine's state: the block's registers and latches, its hidden position and buffers, the host's program, the
observation so far, the attached controller and the environment. `draws` numbers the free values (assumption 3), `rx` holds
the bytes of the last inbound transfer, a local of the pseudocode of rules R109 and R175. -/
structure State where
  cfg : Params
  program : List HostOp
  opIdx : Nat
  surf : Surf
  stat : Stat
  fault : FaultReg
  result : ResultWord
  results : List ResultWord
  lines : Lines
  tb : List Byte
  rx : List Byte
  micro : Micro
  trace : List Event
  ctl : Controller
  env : Env
  draws : Nat
  deriving DecidableEq, Repr

/-! ## Stops -/

/-- Why the machine stops. No instruction stops it. -/
inductive Fault where
  /-- Raised by `step` when `opIdx = N` and no operation is in progress: the program has ended and its final state stands
  (rules R18, R21). Safe: nothing further is claimed of the machine. -/
  | programEnded
  deriving DecidableEq, Repr

/-- Why something has no meaning. -/
inductive Refusal where
  /-- An instruction whose arm of `exec` has no meaning yet. None is left. Safe. -/
  | notModelled (mnemonic : String)
  /-- Raised by `step` when the micro-sequencer is about to send bytes that are no group of rule R85: the block never
  does (rule R86), and the spec gives such a code no effect (rule R220). Safe. -/
  | notABusGroup
  deriving DecidableEq, Repr

/-! ## Construction -/

/-- The controller at the start of the program (rule R221): off, RAM undefined, nothing shown; the other fields are
unspecified, and hold the values of assumption 4 until the first hardware reset makes them free. -/
def Controller.initial : Controller :=
  { mode := .off, busy := false, busyLeft := 0, busyPlan := [], ramBw := [], ramRed := [], xs := 0, xe := 0, ys := 0, ye := 0,
    xc := 0, yc := 0, mux := 0, dem := 0, readSel := .bw, rdPhase := 0, border := 0, duc1 := [], duc2 := 0, temp := 0,
    shown := none, cmd := none, got := 0 }

/-- The environment with nothing scripted: every answer is free, and the host is sequential. -/
def Env.initial : Env :=
  { backend := .scripted [] [], samples := [], bytes := [], early := [] }

/-- The state at construction with these parameters (rule R39). -/
def State.fresh (c : Params) : State :=
  { cfg := c
    program := []
    opIdx := 0
    surf := { rot := .deg0, border := .white }
    stat := { cstate := .uninitialized, begun := false, ramvBw := false, ramvRed := false, inop := false }
    fault := { setupFail := false, busFail := false, stall := false, seqViol := false, notBegun := false,
               illegalOp := false, concurrent := false }
    result := 0
    results := []
    lines := { dc := none, rst := none, cs := none }
    tb := List.replicate (planeBytes c) 0
    rx := []
    micro := .idle
    trace := []
    ctl := Controller.initial
    env := Env.initial
    draws := 0 }

/-- Construction (rule R270): a block with parameters out of their bounds cannot be constructed (rules R7, R9, R219; U29). -/
def State.construct (c : Params) : Option State :=
  if c.wf then some (State.fresh c) else none

/-- The machine right after construction, with the reference parameters. -/
def State.reset : State := State.fresh referenceParams

end Sys2Proof.Machine
end

