-- ==== Sys2Proof/Machine/Memory.lean ====
section
/-! DEFINITION. Sys2Proof/Machine/Memory.lean: the named operations over one plane of controller RAM (20_memory.md rules R51, R52;
46_controller_commands.md rules R221, R223): a list of (address, byte) cells, addresses strictly rising; an unlisted byte is
undefined. -/

namespace Sys2Proof.Machine

/-- The address of RAM byte `(X, Y)`: `X` is a byte and `Y` has 16 bits (rules R216, R217). -/
def ramAddr (x : Byte) (y : Half) : Nat := y.toNat * 256 + x.toNat

/-- The byte at an address, or `none` where RAM is undefined. -/
def Memory.read : Memory → Nat → Option Byte
  | [], _ => none
  | (k, v) :: m, a => if k = a then some v else Memory.read m a

/-- RAM with the byte at an address replaced, in canonical form. -/
def Memory.write : Memory → Nat → Byte → Memory
  | [], a, b => [(a, b)]
  | (k, v) :: m, a, b =>
    if a < k then (a, b) :: (k, v) :: m
    else if a = k then (a, b) :: m
    else (k, v) :: Memory.write m a b

/-- Every address is above a bound, and they rise strictly. -/
def Memory.above : Nat → Memory → Bool
  | _, [] => true
  | n, (k, _) :: m => decide (n < k) && Memory.above k m

/-- The canonical form: addresses strictly rising. -/
def Memory.wf : Memory → Bool
  | [] => true
  | (k, _) :: m => Memory.above k m

/-- Whether `(X, Y)` is a byte of the planes: `X < S` and `Y < H` (rule R51). -/
def inPlane (p : Params) (x : Byte) (y : Half) : Bool :=
  decide (x.toNat < stride p ∧ y.toNat < p.height)

/-- The byte of a plane at `(X, Y)`: `none`, any value, where it is undefined or no byte of the plane (assumption 7). -/
def planeRead (p : Params) (m : Memory) (x : Byte) (y : Half) : Option Byte :=
  if inPlane p x y then Memory.read m (ramAddr x y) else none

/-- A plane with the byte at `(X, Y)` written; outside the plane nothing is stored (assumption 7). -/
def planeWrite (p : Params) (m : Memory) (x : Byte) (y : Half) (b : Byte) : Memory :=
  if inPlane p x y then Memory.write m (ramAddr x y) b else m

end Sys2Proof.Machine
end

