-- ==== Sys2Proof/Machine/Controller.lean ====
section
/-! DEFINITION. Sys2Proof/Machine/Controller.lean: the reference controller (46_controller_commands.md section 3): what a bus
byte, an inbound byte, a BUSY sample and the hardware reset do to it. `n` is the draw number of the free values. -/

namespace Sys2Proof.Machine

/-- The controller after an event whose effect on it the spec does not specify: any registers, any mode, RAM undefined
(U14, U22, U23; rules R220, R230). The environment's busy plan is not the controller's, and stays. -/
def Controller.unspecified (c : Controller) (n : Nat) : Controller :=
  { mode := Config.freeMode n 0, busy := Config.freeBool n 0, busyLeft := Config.freeNat n 0, busyPlan := c.busyPlan,
    ramBw := [], ramRed := [],
    xs := Config.freeByte n 0, xe := Config.freeByte n 1, ys := Config.freeHalf n 0, ye := Config.freeHalf n 1,
    xc := Config.freeByte n 2, yc := Config.freeHalf n 2, mux := Config.freeHalf n 3, dem := Config.freeByte n 3,
    readSel := Config.freePlane n 0, rdPhase := Config.freeNat n 1, border := Config.freeByte n 4,
    duc1 := Config.freeBytes n 0, duc2 := Config.freeByte n 5, temp := Config.freeByte n 6,
    shown := Config.freeImage n 0, cmd := Config.freeCmd n 0, got := Config.freeNat n 2 }

/-- The hardware reset, when RST returns to its inactive level (rule R222): `Active` from any mode, every register other
than `shown` unspecified, both planes undefined, no command in progress. It is not busy when the block's first command
comes (rules R230, R282; assumption 9). -/
def Controller.hardReset (c : Controller) (n : Nat) : Controller :=
  { Controller.unspecified c n with mode := .active, busy := false, busyLeft := 0, shown := c.shown, cmd := none, got := 0 }

/-- A busy period begins (rule R226): its length in later samples is the environment's. -/
def Controller.startBusy (c : Controller) (n : Nat) : Controller :=
  match c.busyPlan with
  | k :: ks => { c with busy := true, busyLeft := k, busyPlan := ks }
  | [] => { c with busy := true, busyLeft := Config.freeNat n 0 }

/-- `SW_RESET` (rule R201): the registers it names go to unspecified values, RAM is unchanged. `mux`, which it does not name,
goes with them (U12; assumption 23). -/
def Controller.softReset (c : Controller) (n : Nat) : Controller :=
  { c with
    dem := Config.freeByte n 3, xs := Config.freeByte n 0, xe := Config.freeByte n 1, ys := Config.freeHalf n 0,
    ye := Config.freeHalf n 1, xc := Config.freeByte n 2, yc := Config.freeHalf n 2, border := Config.freeByte n 4,
    duc1 := Config.freeBytes n 0, duc2 := Config.freeByte n 5, temp := Config.freeByte n 6,
    readSel := Config.freePlane n 0, mux := Config.freeHalf n 3 }

/-- The counter advance (rule R224) for `dem = 0x01`; for any other value it is unspecified (rule R203; U17). DESIGN CHOICE
(assumption 22): with a counter outside its window, `xc + 1` at `0xFF` and `yc - 1` at `0` wrap modulo `2^8` and `2^16`; the rule
does not say. -/
def Controller.advance (c : Controller) (n : Nat) : Controller :=
  if c.dem = 0x01#8 then
    if c.xc ≠ c.xe then { c with xc := c.xc + 1 }
    else if c.yc ≠ c.ye then { c with xc := c.xs, yc := c.yc - 1 }
    else { c with xc := c.xs, yc := c.ys }
  else { c with xc := Config.freeByte n 2, yc := Config.freeHalf n 2 }

/-- One plane of the controller's RAM. -/
def Controller.plane (c : Controller) : Plane → Memory
  | .bw => c.ramBw
  | .red => c.ramRed

/-- A RAM data byte (rule R223): written at the counters, which then advance. -/
def Controller.ramWrite (p : Params) (c : Controller) (n : Nat) (pl : Plane) (b : Byte) : Controller :=
  Controller.advance
    (match pl with
     | .bw => { c with ramBw := planeWrite p c.ramBw c.xc c.yc b }
     | .red => { c with ramRed := planeWrite p c.ramRed c.xc c.yc b }) n

/-- Whether `duc1` and `duc2` hold the fast values (rule R227). -/
def Controller.holdsFast (p : Params) (c : Controller) : Bool :=
  decide (c.duc1 = p.proto.duc1Fast ∧ c.duc2 = p.proto.duc2Fast)

/-- The border colour `border` selects, where exactly one colour has that byte; otherwise any (rule R227; U20). -/
def Controller.borderColour (p : Params) (c : Controller) (n : Nat) : Colour :=
  match [Colour.white, Colour.black, Colour.red].filter (fun k => borderByte p.proto k == c.border) with
  | [k] => k
  | _ => Config.freeColour n 0

/-- Bit `7 - (nx mod 8)` of a plane byte (rules R52, R60). -/
def pixelBit (b : Byte) (nx : Nat) : Bool := b.getLsbD (7 - nx % 8)

/-- The plane byte of a native pixel, if defined (rule R52). -/
def pixelByte (m : Memory) (nx ny : Nat) : Option Byte := Memory.read m (ny * 256 + nx / 8)

/-- The colour a native pixel shows (rule R227): Red if its RED bit is 1 and RED is shown, else White if its BW bit is 1,
else Black. Where a bit that matters is undefined, any colour (rule R221; U20). -/
def Controller.pixelColour (p : Params) (c : Controller) (n : Nat) (nx ny : Nat) : Colour :=
  let red : Option Bool :=
    if Controller.holdsFast p c && !p.fastShowsRed then some false
    else (pixelByte c.ramRed nx ny).map (fun b => pixelBit b nx)
  let bw : Option Bool := (pixelByte c.ramBw nx ny).map (fun b => pixelBit b nx)
  match red, bw with
  | some true, _ => .red
  | some false, some true => .white
  | some false, some false => .black
  | _, _ => Config.freeColour n (1 + ny * p.width + nx)

/-- `image(RAM_BW, RAM_RED)`, native row by native row (rule R227). -/
def Controller.image (p : Params) (c : Controller) (n : Nat) : Image :=
  { border := Controller.borderColour p c n,
    pixels := (List.range (p.width * p.height)).map
      (fun k => Controller.pixelColour p c n (k % p.width) (k / p.width)) }

/-- Deep sleep (rules R211, R228): `Asleep`, both planes undefined, `busy` any value, `shown` kept. -/
def Controller.sleep (c : Controller) (n : Nat) : Controller :=
  { c with mode := .asleep, busy := Config.freeBool n 0, busyLeft := Config.freeNat n 0, ramBw := [], ramRed := [] }

/-- A command whose data was cut short by the next command (rule R218): the bytes it did not receive are unspecified. -/
def Controller.cutShort (c : Controller) (n : Nat) : Controller :=
  match c.cmd, c.got with
  | some .driverOutputControl, 0 => { c with mux := Config.freeHalf n 3 }
  | some .driverOutputControl, 1 => { c with mux := withHighByte c.mux (Config.freeByte n 7) }
  | some .dataEntryMode, 0 => { c with dem := Config.freeByte n 3 }
  | some .setRamXWindow, 0 => { c with xs := Config.freeByte n 0, xe := Config.freeByte n 1 }
  | some .setRamXWindow, 1 => { c with xe := Config.freeByte n 1 }
  | some .setRamYWindow, 0 => { c with ys := Config.freeHalf n 0, ye := Config.freeHalf n 1 }
  | some .setRamYWindow, 1 => { c with ys := withHighByte c.ys (Config.freeByte n 7), ye := Config.freeHalf n 1 }
  | some .setRamYWindow, 2 => { c with ye := Config.freeHalf n 1 }
  | some .setRamYWindow, 3 => { c with ye := withHighByte c.ye (Config.freeByte n 7) }
  | some .borderWaveform, 0 => { c with border := Config.freeByte n 4 }
  | some .displayUpdateControl1, 0 => { c with duc1 := Config.freeBytes n 0 }
  | some .tempSensorSelect, 0 => { c with temp := Config.freeByte n 6 }
  | some .displayUpdateControl2, 0 => { c with duc2 := Config.freeByte n 5 }
  | some .readRamOption, 0 => { c with readSel := Config.freePlane n 0 }
  | some .setRamXCounter, 0 => { c with xc := Config.freeByte n 2 }
  | some .setRamYCounter, 0 => { c with yc := Config.freeHalf n 2 }
  | some .setRamYCounter, 1 => { c with yc := withHighByte c.yc (Config.freeByte n 7) }
  | _, _ => c

/-- What a command does when its command byte arrives (rules R201, R210, R211, R215). -/
def Controller.start (p : Params) (c : Controller) (n : Nat) (cmd : BusCmd) : Controller :=
  match cmd with
  | .swReset => Controller.startBusy (Controller.softReset c n) n
  | .masterActivation => Controller.startBusy { c with shown := some (Controller.image p c n) } n
  | .deepSleep => if p.proto.deepSleepData.length = 0 then Controller.sleep c n else c
  | .readRam => { c with rdPhase := 0 }
  | .driverOutputControl => c
  | .dataEntryMode => c
  | .setRamXWindow => c
  | .setRamYWindow => c
  | .borderWaveform => c
  | .displayUpdateControl1 => c
  | .tempSensorSelect => c
  | .displayUpdateControl2 => c
  | .writeRamBw => c
  | .writeRamRed => c
  | .readRamOption => c
  | .setRamXCounter => c
  | .setRamYCounter => c

/-- A command byte (rule R218): it ends the command before it and starts its own; a code outside `PROTO` has no specified
effect (rule R220). -/
def Controller.command (p : Params) (c : Controller) (n : Nat) (b : Byte) : Controller :=
  match p.proto.command b with
  | some cmd => Controller.start p { Controller.cutShort c n with cmd := some cmd, got := 0 } n cmd
  | none => Controller.unspecified c n

/-- The plane a read option selects; any plane for a byte that is neither (rule R214; U18). -/
def Controller.optionPlane (p : Params) (n : Nat) (b : Byte) : Plane :=
  if b = p.proto.rroBw then .bw else if b = p.proto.rroRed then .red else Config.freePlane n 0

/-- Data byte number `got` of the command `cmd` (rules R202 to R217). A byte beyond the command's count is ignored, except
RAM data (rule R218). -/
def Controller.datum (p : Params) (c : Controller) (n : Nat) (cmd : BusCmd) (got : Nat) (b : Byte) : Controller :=
  match cmd, got with
  | .driverOutputControl, 0 => { c with mux := withLowByte c.mux b }
  | .driverOutputControl, 1 => { c with mux := withHighByte c.mux b }
  | .dataEntryMode, 0 => { c with dem := b }
  | .setRamXWindow, 0 => { c with xs := b }
  | .setRamXWindow, 1 => { c with xe := b }
  | .setRamYWindow, 0 => { c with ys := withLowByte c.ys b }
  | .setRamYWindow, 1 => { c with ys := withHighByte c.ys b }
  | .setRamYWindow, 2 => { c with ye := withLowByte c.ye b }
  | .setRamYWindow, 3 => { c with ye := withHighByte c.ye b }
  | .borderWaveform, 0 => { c with border := b }
  | .displayUpdateControl1, 0 => { c with duc1 := [b] }
  | .displayUpdateControl1, _ + 1 => { c with duc1 := c.duc1 ++ [b] }
  | .tempSensorSelect, 0 => { c with temp := b }
  | .displayUpdateControl2, 0 => { c with duc2 := b }
  | .deepSleep, k => if k + 1 = p.proto.deepSleepData.length then Controller.sleep c n else c
  | .writeRamBw, _ => Controller.ramWrite p c n .bw b
  | .writeRamRed, _ => Controller.ramWrite p c n .red b
  | .readRamOption, 0 => { c with readSel := Controller.optionPlane p n b }
  | .setRamXCounter, 0 => { c with xc := b }
  | .setRamYCounter, 0 => { c with yc := withLowByte c.yc b }
  | .setRamYCounter, 1 => { c with yc := withHighByte c.yc b }
  | _, _ => c

/-- A data byte (rule R218). Data before any command has no specified effect (U19). -/
def Controller.data (p : Params) (c : Controller) (n : Nat) (b : Byte) : Controller :=
  match c.cmd with
  | some cmd => { Controller.datum p c n cmd c.got b with got := c.got + 1 }
  | none => Controller.unspecified c n

/-- Traffic before the first hardware reset: its effect is not specified, but only a hardware reset leaves `Off` (rules R221, R222;
assumption 8). -/
def Controller.offTraffic (c : Controller) (n : Nat) : Controller := { Controller.unspecified c n with mode := .off }

/-- One byte from the block. Held in reset (rule R222) or asleep (rule R228) it is ignored; before the first hardware reset
or while busy its effect is not specified (rules R221, R230; assumption 8). -/
def Controller.byteIn (p : Params) (held : Bool) (role : Role) (n : Nat) (c : Controller) (b : Byte) : Controller :=
  if held then c
  else match c.mode with
    | .asleep => c
    | .off => Controller.offTraffic c n
    | .active =>
      if c.busy then Controller.unspecified c n
      else match role with
        | .cmd => Controller.command p c n b
        | .data => Controller.data p c n b

/-- The bytes of a transfer, in order (rules R57, R69). -/
def Controller.bytesIn (p : Params) (held : Bool) (role : Role) : Nat → Controller → List Byte → Controller
  | _, c, [] => c
  | n, c, b :: bs => Controller.bytesIn p held role (n + 1) (Controller.byteIn p held role n c b) bs

/-- One inbound byte after `READ_RAM` (rule R225): the first is a dummy, any value, and the counters stay; a later one is
the byte at the counters, any value where RAM is undefined, and the counters advance. `a` is the any-value answer. -/
def Controller.ramByte (p : Params) (n : Nat) (c : Controller) (a : Byte) : Byte × Controller :=
  if c.rdPhase = 0 then (a, { c with rdPhase := 1 })
  else ((planeRead p (Controller.plane c c.readSel) c.xc c.yc).getD a,
    { Controller.advance c n with rdPhase := c.rdPhase + 1 })

/-- One inbound byte. Without a `READ_RAM` before it, or busy, or before the first hardware reset, the spec specifies
neither the byte nor the effect; held or asleep the controller ignores the traffic (rules R222, R228). -/
def Controller.byteOut (p : Params) (held : Bool) (n : Nat) (c : Controller) (a : Byte) : Byte × Controller :=
  if held then (a, c)
  else match c.mode with
    | .asleep => (a, c)
    | .off => (a, Controller.offTraffic c n)
    | .active =>
      if c.busy then (a, Controller.unspecified c n)
      else match c.cmd with
        | some .readRam => Controller.ramByte p n c a
        | _ => (a, Controller.unspecified c n)

/-- The inbound bytes of a transfer, in order, one any-value answer beside each. -/
def Controller.bytesOut (p : Params) (held : Bool) : Nat → Controller → List Byte → List Byte × Controller
  | _, c, [] => ([], c)
  | n, c, a :: as =>
    let r := Controller.byteOut p held n c a
    let rest := Controller.bytesOut p held (n + 1) r.2 as
    (r.1 :: rest.1, rest.2)

/-- Whether the reference controller's own `busy` answers a BUSY sample; while it is held in reset, asleep or off, `busy` is
unspecified (rules R221, R222, R228; U13): the sample is a free answer, and the field, whatever it holds, is not read (assumption
3). -/
def Controller.answersBusy (held : Bool) (c : Controller) : Bool :=
  !held && decide (c.mode = .active)

/-- The controller after a BUSY sample: a busy period reads asserted for `busyLeft` more samples, and then is over (rule
R226). -/
def Controller.afterSample (c : Controller) : Controller :=
  if c.busy then
    if c.busyLeft = 0 then { c with busy := false } else { c with busyLeft := c.busyLeft - 1 }
  else c

/-- Whether a BUSY sample reads asserted now (rules R221, R226). -/
def Controller.busyNow (c : Controller) : Bool := c.busy && decide (c.busyLeft ≠ 0)

end Sys2Proof.Machine
end

