-- ==== Sys2Proof/Machine/Flags.lean ====
section
/-! DEFINITION. Sys2Proof/Machine/Flags.lean: the packed registers `SURF`, `STAT`, `FAULT` (10_state.md rules R23, R26, R31), the
fault bits and codes (60_exceptions.md rule R253), and the status word (45_surface_config.md rule R196). -/

namespace Sys2Proof.Machine

/-- The code of `CSTATE` (rule R27). -/
def cstateCode : CState → BitVec 3
  | .uninitialized => 0#3
  | .reset => 1#3
  | .ready => 2#3
  | .busy => 3#3
  | .asleep => 4#3

/-- The code of `BORDER` (rule R23). -/
def borderCode : Colour → BitVec 2
  | .white => 0#2
  | .black => 1#2
  | .red => 2#2

/-- The code of `ROT` (rule R23). -/
def rotCode : Rotation → BitVec 2
  | .deg0 => 0#2
  | .deg90 => 1#2
  | .deg180 => 2#2
  | .deg270 => 3#2

/-- `SURF`: `ROT` [1:0], `BORDER` [3:2], [7:4] read as 0 (rule R23). -/
def packSurf (s : Surf) : Byte :=
  0#4 ++ borderCode s.border ++ rotCode s.rot

/-- `STAT`: `CSTATE` [2:0], `BEGUN` [3], `RAMV_BW` [4], `RAMV_RED` [5], `INOP` [6], [7] reads as 0 (rule R26). -/
def packStat (s : Stat) : Byte :=
  0#1 ++ BitVec.ofBool s.inop ++ BitVec.ofBool s.ramvRed ++ BitVec.ofBool s.ramvBw ++ BitVec.ofBool s.begun ++
    cstateCode s.cstate

/-- `FAULT`: `SETUP_FAIL` [0] to `CONCURRENT` [6], [7] reads as 0 (rule R31). -/
def packFault (f : FaultReg) : Byte :=
  0#1 ++ BitVec.ofBool f.concurrent ++ BitVec.ofBool f.illegalOp ++ BitVec.ofBool f.notBegun ++ BitVec.ofBool f.seqViol ++
    BitVec.ofBool f.stall ++ BitVec.ofBool f.busFail ++ BitVec.ofBool f.setupFail

/-- Whether a fault bit is set. -/
def faultGet (f : FaultReg) : FaultBit → Bool
  | .setupFail => f.setupFail
  | .busFail => f.busFail
  | .stall => f.stall
  | .seqViol => f.seqViol
  | .notBegun => f.notBegun
  | .illegalOp => f.illegalOp
  | .concurrent => f.concurrent

/-- A sticky set of one fault bit (rules R32, R245). -/
def faultSet (f : FaultReg) : FaultBit → FaultReg
  | .setupFail => { f with setupFail := true }
  | .busFail => { f with busFail := true }
  | .stall => { f with stall := true }
  | .seqViol => { f with seqViol := true }
  | .notBegun => { f with notBegun := true }
  | .illegalOp => { f with illegalOp := true }
  | .concurrent => { f with concurrent := true }

/-- The code of a fault: its bit position plus one (rule R253). -/
def faultCode : FaultBit → Nat
  | .setupFail => 1
  | .busFail => 2
  | .stall => 3
  | .seqViol => 4
  | .notBegun => 5
  | .illegalOp => 6
  | .concurrent => 7

/-- The result of an aborted operation: `0x80000000 | code` (rules R33, R252). -/
def abortResult (f : FaultBit) : ResultWord :=
  0x80000000#32 ||| BitVec.ofNat 32 (faultCode f)

/-- `zext_32(FAULT) << 16 | zext_32(STAT') << 8 | zext_32(SURF)`, where `STAT'` is `STAT` with `INOP` read as 0 (rule R196). -/
def statusWord (s : State) : ResultWord :=
  (packFault s.fault).setWidth 32 <<< 16 ||| (packStat { s.stat with inop := false }).setWidth 32 <<< 8 |||
    (packSurf s.surf).setWidth 32

/-- The ground of `SEQ_VIOL` for a display or pixel operation: `CSTATE ≠ Ready` (rule R250). -/
def notReady (s : State) : Bool := decide (s.stat.cstate ≠ .ready)

/-- The ground of `SEQ_VIOL` for an update: not `Ready`, or a plane not written (rules R157, R250). -/
def updateUnprepared (s : State) : Bool :=
  notReady s || !s.stat.ramvBw || !s.stat.ramvRed

end Sys2Proof.Machine
end

