-- ==== Sys2Proof/Machine/Ops.lean ====
section
/-! DEFINITION. Sys2Proof/Machine/Ops.lean: the named operations over the state: the field updates, the faults and their three
consequences (60_exceptions.md), the event primitives (00_scope.md rule R16), the command/data framer
(40_command_channel.md) and the busy wait (41_power_sequencer.md rule R127). -/

namespace Sys2Proof.Machine

/-! ## Field updates -/

def State.record (s : State) (e : Event) : State := { s with trace := s.trace ++ [e] }
def State.raise (s : State) (f : FaultBit) : State := { s with fault := faultSet s.fault f }
def State.setLine (s : State) (l : LineName) (v : Level) : State :=
  match l with
  | .dc => { s with lines := { s.lines with dc := some v } }
  | .rst => { s with lines := { s.lines with rst := some v } }
  | .cs => { s with lines := { s.lines with cs := some v } }
def State.setCtl (s : State) (c : Controller) (draws : Nat) : State := { s with ctl := c, draws := draws }
/-- The attached reference controller goes to any value (U22; assumption 8). -/
def State.loseCtl (s : State) : State := s.setCtl (Controller.unspecified s.ctl s.draws) (s.draws + 1)
def State.setEnv (s : State) (e : Env) : State := { s with env := e }
def State.setDraws (s : State) (n : Nat) : State := { s with draws := n }
def State.setRx (s : State) (r : List Byte) : State := { s with rx := r }
def State.setTb (s : State) (t : List Byte) : State := { s with tb := t }
def State.setCstate (s : State) (c : CState) : State := { s with stat := { s.stat with cstate := c } }
def State.setBegun (s : State) : State := { s with stat := { s.stat with begun := true } }
def State.setRamv (s : State) (bw red : Bool) : State := { s with stat := { s.stat with ramvBw := bw, ramvRed := red } }
def State.setInop (s : State) (b : Bool) : State := { s with stat := { s.stat with inop := b } }
def State.setSurf (s : State) (f : Surf) : State := { s with surf := f }
def State.setMicro (s : State) (m : Micro) : State := { s with micro := m }

/-- A host operation ends: `RESULT` is written once, the result joins the list of results, and `opIdx` advances by 1
(rules R18, R21, R33). -/
def State.finish (s : State) (r : ResultWord) : State :=
  { s with result := r, results := s.results ++ [r], opIdx := s.opIdx + 1 }

/-! ## How an operation goes on -/

/-- After a step of an operation: it goes on, or it has ended or been suspended. -/
inductive Flow where
  | cont (s : State)
  | stop (s : State)
  deriving DecidableEq, Repr

/-- The next step of an operation, run only if it goes on (rule R19). -/
def Flow.bind (f : Flow) (k : State → Flow) : Flow :=
  match f with
  | .cont s => k s
  | .stop s => .stop s

/-- The state reached. -/
def Flow.state : Flow → State
  | .cont s => s
  | .stop s => s

/-! ## Faults: refuse, complete, abort (rules R245, R252, R256) -/

/-- A refusal at the entry checks: the bit, `RESULT = 0`, `opIdx` advances, nothing else (rules R245, R256). -/
def refuse (f : FaultBit) (s : State) : State := (s.raise f).finish 0#32

/-- Completion: `RESULT` is written and `INOP` cleared (rule R256 step 5). -/
def complete (r : ResultWord) (s : State) : State := ((s.finish r).setInop false).setMicro .idle

/-- The end of an operation whose last step goes on: it completes with a result. -/
def Flow.finish (f : Flow) (r : ResultWord) : State :=
  match f with
  | .cont s => complete r s
  | .stop s => s

/-- Whether a word the host issues passes decode: a row of the table, and every present image buffer exactly
`PLANE_BYTES` long (rules R79, R81, R249). -/
def imageFits (c : Params) (op : HostOp) (bwP redP : Bool) : Bool :=
  (!bwP || decide (op.imgBw.length = planeBytes c)) && (!redP || decide (op.imgRed.length = planeBytes c))

def legalOp (c : Params) (op : HostOp) : Bool :=
  match decodeHost op.word with
  | .illegal _ => false
  | .ok (.displayImage bwP redP) => imageFits c op bwP redP
  | .ok _ => true

/-- The operation word the host issues while `opIdx` stands. -/
def State.fetch (s : State) : Option HostOp := s.program[s.opIdx]?

/-- The next word of the program, issued while an operation is in progress: `ILLEGAL_OP` if it does not decode, else
`CONCURRENT`; it is refused either way (rules R255, R256, R257). -/
def issueEarly (s : State) : State :=
  match s.program[s.opIdx + 1]? with
  | none => s
  | some op => if legalOp s.cfg op then refuse .concurrent s else refuse .illegalOp s

/-- After an event of a running operation, the concurrent host may issue its next word (rule R255). With `early = []`, the
sequential host of rule R21, nothing happens. -/
def hostTick (s : State) : State :=
  if s.stat.inop then
    match s.env.early with
    | [] => s
    | 0 :: rest => issueEarly (s.setEnv { s.env with early := rest })
    | (k + 1) :: rest => s.setEnv { s.env with early := k :: rest }
  else s

/-! ## Events -/

/-- One event, appended to the trace in execution order (rule R16). -/
def emit (e : Event) (s : State) : State := hostTick (s.record e)

/-- Whether the controller is held in reset: `RSTL = RST_ACTIVE` (rule R222). -/
def heldInReset (s : State) : Bool := decide (s.lines.rst = some Config.rstActive)

/-- What a level driven on a line does to the reference controller: RST back to its inactive level resets it (rules R120,
R222). The latch is still the old one. -/
def lineEffect (l : LineName) (v : Level) (s : State) : State :=
  if s.cfg.attached = .reference ∧ l = .rst ∧ heldInReset s = true ∧ v = !Config.rstActive then
    s.setCtl (Controller.hardReset s.ctl s.draws) (s.draws + 1)
  else s

/-- `Line(l, v)` (rules R16, R34). -/
def driveLine (l : LineName) (v : Level) (s : State) : State :=
  emit (.line l v) ((lineEffect l v s).setLine l v)

/-- `Delay(t)` (rule R16). -/
def delay (t : Nat) (s : State) : State := emit (.delay t) s

/-- The backend's answer to the next transfer (rule R17; U7). -/
def transferOk (s : State) : Bool :=
  match s.env.backend with
  | .reliable => true
  | .scripted _ (b :: _) => b
  | .scripted _ [] => Config.freeBool s.draws 1

/-- The state after that answer is taken. -/
def transferNext (s : State) : State :=
  match s.env.backend with
  | .reliable => s
  | .scripted as (_ :: bs) => s.setEnv { s.env with backend := .scripted as bs }
  | .scripted _ [] => s.setDraws (s.draws + 1)

/-- The backend's answer to `Acquire()` (rule R118; U7). -/
def acquireOk (s : State) : Bool :=
  match s.env.backend with
  | .reliable => true
  | .scripted (a :: _) _ => a
  | .scripted [] _ => Config.freeBool s.draws 2

/-- The state after that answer is taken. -/
def acquireNext (s : State) : State :=
  match s.env.backend with
  | .reliable => s
  | .scripted (_ :: as) bs => s.setEnv { s.env with backend := .scripted as bs }
  | .scripted [] _ => s.setDraws (s.draws + 1)

/-- The role the controller sees: the level of the DC latch (rule R101). -/
def wireRole (s : State) : Role :=
  if s.lines.dc = some (dcLevel s.cfg .cmd) then .cmd else .data

/-- What the bytes of a transfer do to the reference controller: taken in order; after a failed transfer its state is any
value (U22, U23). -/
def busOut (ok : Bool) (tx : List Byte) (s : State) : State :=
  match s.cfg.attached, ok with
  | .oracle, _ => s
  | .reference, true =>
    s.setCtl (Controller.bytesIn s.cfg (heldInReset s) (wireRole s) s.draws s.ctl tx) (s.draws + tx.length)
  | .reference, false => s.loseCtl

/-- `Xfer(tx)` (rule R16): one atomic transfer; its answer is `transferOk s`. -/
def xfer (tx : List Byte) (s : State) : State :=
  emit (.xfer tx (transferOk s)) (busOut (transferOk s) tx (transferNext s))

/-- `n` bytes that are any value: the environment's, free when the script has run out. -/
def anyBytes : Nat → State → List Byte × State
  | 0, s => ([], s)
  | n + 1, s =>
    match s.env.bytes with
    | b :: bs =>
      let r := anyBytes n (s.setEnv { s.env with bytes := bs })
      (b :: r.1, r.2)
    | [] =>
      let r := anyBytes n (s.setDraws (s.draws + 1))
      (Config.freeByte s.draws 8 :: r.1, r.2)

/-- The bytes an inbound transfer receives, in `rx`: the controller's, or any bytes where the controller is an oracle or the
transfer failed (rules R17, R109, R225; U5, U6). -/
def busIn (ok : Bool) (n : Nat) (s : State) : State :=
  let any := anyBytes n s
  match s.cfg.attached, ok with
  | .oracle, _ => any.2.setRx any.1
  | .reference, true =>
    let r := Controller.bytesOut s.cfg (heldInReset s) any.2.draws any.2.ctl any.1
    (any.2.setCtl r.2 (any.2.draws + n)).setRx r.1
  | .reference, false => any.2.loseCtl.setRx any.1

/-- `XferIn(n)` (rule R16): one atomic inbound transfer; its answer is `transferOk s` and its bytes stand in `rx`. -/
def xferIn (n : Nat) (s : State) : State :=
  let t := busIn (transferOk s) n (transferNext s)
  emit (.xferIn n t.rx (transferOk s)) t

/-- The level the next BUSY sample reads (rules R16, R35, R226). -/
def sampleLevel (s : State) : Level :=
  if s.cfg.attached = .reference ∧ Controller.answersBusy (heldInReset s) s.ctl = true then
    if Controller.busyNow s.ctl then s.cfg.busyActive else !s.cfg.busyActive
  else
    match s.env.samples with
    | v :: _ => v
    | [] => Config.freeBool s.draws 3

/-- The state after that answer is taken. -/
def sampleNext (s : State) : State :=
  if s.cfg.attached = .reference ∧ Controller.answersBusy (heldInReset s) s.ctl = true then
    s.setCtl (Controller.afterSample s.ctl) s.draws
  else
    match s.env.samples with
    | _ :: vs => s.setEnv { s.env with samples := vs }
    | [] => s.setDraws (s.draws + 1)

/-- `Sample()` (rule R16): the level is `sampleLevel s`. -/
def sample (s : State) : State := emit (.sample (sampleLevel s)) (sampleNext s)

/-- `Log(k)` (rule R16). -/
def logRecord (k : LogKind) (s : State) : State := emit (.log k) s

/-- `Acquire()` (rules R16, R118): its answer is `acquireOk s`. -/
def acquire (s : State) : State := emit (.acquire (acquireOk s)) (acquireNext s)

/-! ## Chip-select -/

/-- CS asserted, when the block manages it (rule R102). -/
def csAssert (s : State) : State :=
  if csManaged s.cfg then driveLine .cs s.cfg.csActive s else s

/-- CS deasserted, when the block manages it (rule R102). -/
def csDeassert (s : State) : State :=
  if csManaged s.cfg then driveLine .cs (!s.cfg.csActive) s else s

/-! ## Abort and the bus failure -/

/-- `Abort(code)` (rule R252): CS is deasserted if it is asserted, `CSTATE ← Uninitialized`, `RESULT ← 0x80000000 | code`,
`INOP ← 0`, and the operation ends. -/
def abort (f : FaultBit) (s : State) : State :=
  let t := if csManaged s.cfg ∧ s.lines.cs = some s.cfg.csActive then driveLine .cs (!s.cfg.csActive) s else s
  (((t.setCstate .uninitialized).finish (abortResult f)).setInop false).setMicro .idle

/-- `BUS_FAIL` with its log record, the first time only (rule R247). -/
def noteBusFailure (s : State) : State :=
  (if s.fault.busFail then s else logRecord .busFail s).raise .busFail

/-- `BusFailure()` (rule R247): in `BestEffort` mode the operation goes on, in `Strict` mode it aborts. -/
def busFailure (s : State) : Flow :=
  match s.cfg.errorMode with
  | .bestEffort => .cont (noteBusFailure s)
  | .strict => .stop (abort .busFail (noteBusFailure s))

/-- The controller after an abort: any value (rule R258; U22). An oracle controller is any value at all times. -/
def controllerLost (s : State) : State :=
  match s.cfg.attached with
  | .oracle => s
  | .reference => s.loseCtl

/-- `STALL` (rule R248): the bit, its log record every time, and the abort. The controller is any value after it, as it is after a
`BUS_FAIL` abort, where the failed transfer has already made it so (rule R258; U22). -/
def stallAbort (s : State) : State := abort .stall (controllerLost (logRecord .stall (s.raise .stall)))

/-! ## The framer -/

/-- The transfers of one transaction, in order (rules R103, R110): a failed one is not retried. -/
def sendChunks : List (List Byte) → State → Flow
  | [], s => .cont s
  | c :: cs, s => (if transferOk s then Flow.cont (xfer c s) else busFailure (xfer c s)).bind (sendChunks cs)

/-- `Frame(role, payload)` (rule R103). -/
def frame (role : Role) (payload : List Byte) (s : State) : Flow :=
  (sendChunks (chunks s.cfg.maxChunk payload) (csAssert (driveLine .dc (dcLevel s.cfg role) s))).bind
    fun t => .cont (csDeassert t)

/-- `sendCommand(b)` (rule R106). -/
def sendCommand (b : Byte) (s : State) : Flow := frame .cmd [b] s

/-- `sendData(b)` (rule R107). -/
def sendData (b : Byte) (s : State) : Flow := frame .data [b] s

/-- `sendDataBlock(bytes, length)` (rule R108). -/
def sendDataBlock (bytes : List Byte) (length : Nat) (s : State) : Flow := frame .data (bytes.take length) s

/-- The data transactions of a group, one byte each (rule R105). -/
def sendEach : List Byte → State → Flow
  | [], s => .cont s
  | b :: bs, s => (sendData b s).bind (sendEach bs)

/-- `Group(code, d)` (rule R105). -/
def group (code : Byte) (d : List Byte) (s : State) : Flow := (sendCommand code s).bind (sendEach d)

/-- `ReadFrame(n)` (rule R109): the bytes received stand in `rx`. -/
def readFrame (n : Nat) (s : State) : Flow :=
  let t := csAssert (driveLine .dc (dcLevel s.cfg .data) s)
  (if transferOk t then Flow.cont (xferIn n t) else busFailure (xferIn n t)).bind fun u => .cont (csDeassert u)

/-! ## The busy wait -/

/-- Whether a level of BUSY reads asserted (rule R124). -/
def busyAsserted (c : Params) (v : Level) : Bool := v == c.busyActive

/-- Whether an asserted sample after `n` delays stalls (rule R127). -/
def pollStalls (c : Params) (n : Nat) : Bool := decide (c.busyTimeoutMs ≠ 0 ∧ c.busyTimeoutMs ≤ n)

/-- One turn of the loop of `waitWhileBusy` (rules R125, R127), after `n` delays: a deasserted sample ends the wait and the
operation goes on with `rest`; an asserted one stalls, or delays and leaves the operation waiting (rule R126: a BUSY line
that never deasserts is an infinite run of turns). -/
def poll (point : WaitPoint) (n : Nat) (rest : State → Flow) (s : State) : Flow :=
  if busyAsserted s.cfg (sampleLevel s) then
    if pollStalls s.cfg n then .stop (stallAbort (sample s))
    else .stop ((delay Config.tPoll (sample s)).setMicro (.waiting point (n + 1)))
  else rest (sample s)

/-! ## Entry of a host operation -/

/-- The entry checks after decode (rule R256): a word issued while `INOP = 1` is refused; otherwise `INOP ← 1` and the body
runs. -/
def enterOp (body : State → State) (s : State) : State :=
  if s.stat.inop then refuse .concurrent s else body (s.setInop true)

/-- A host operation after decode: it always answers a next state. -/
def hostOp (body : State → State) (s : State) : Host.Outcome State Fault Refusal := .next (enterOp body s)

/-- `require BEGUN else NOT_BEGUN` (rule R251): the refusal completes the operation, with no other effect. -/
def requireBegun (body : State → State) (s : State) : State :=
  if s.stat.begun then body s else complete 0#32 (s.raise .notBegun)

/-- `if <ground>: raise SEQ_VIOL`, and the operation continues (rule R250). -/
def noteSequence (ground : Bool) (s : State) : State :=
  if ground then s.raise .seqViol else s

end Sys2Proof.Machine
end

