-- ==== Sys2Proof/Machine/BusCommands.lean ====
section
/-! DEFINITION. Sys2Proof/Machine/BusCommands.lean: the 17 bus commands (46_controller_commands.md section 2): the block sends the
command's group (30_encoding.md rules R83, R85), and the attached controller takes it. They are internal to the host
operations: they write no `RESULT` and do not move `opIdx`, unless a failed transfer aborts the operation (rule R252). -/

namespace Sys2Proof.Machine

/-- A group by itself (rule R105). -/
def busGroup (code : Byte) (d : List Byte) (s : State) : Host.Outcome State Fault Refusal :=
  .next (group code d s).state

/-- A RAM-write command and its data, one transaction (rule R83). -/
def busBlock (code : Byte) (d : List Byte) (s : State) : Host.Outcome State Fault Refusal :=
  .next ((sendCommand code s).bind (sendDataBlock d d.length)).state

/-- `SW_RESET` (rule R201). -/
def execSwReset (s : State) : Host.Outcome State Fault Refusal := busGroup s.cfg.proto.swReset [] s

/-- `DRIVER_OUTPUT_CONTROL` (rule R202). -/
def execDriverOutputControl (a b c : Byte) (s : State) : Host.Outcome State Fault Refusal :=
  busGroup s.cfg.proto.driverOutputControl [a, b, c] s

/-- `DATA_ENTRY_MODE` (rule R203). -/
def execDataEntryMode (a : Byte) (s : State) : Host.Outcome State Fault Refusal :=
  busGroup s.cfg.proto.dataEntryMode [a] s

/-- `SET_RAM_X_WINDOW` (rule R204). -/
def execSetRamXWindow (a b : Byte) (s : State) : Host.Outcome State Fault Refusal :=
  busGroup s.cfg.proto.setRamXWindow [a, b] s

/-- `SET_RAM_Y_WINDOW` (rule R205). -/
def execSetRamYWindow (a b c d : Byte) (s : State) : Host.Outcome State Fault Refusal :=
  busGroup s.cfg.proto.setRamYWindow [a, b, c, d] s

/-- `BORDER_WAVEFORM` (rule R206). -/
def execBorderWaveform (a : Byte) (s : State) : Host.Outcome State Fault Refusal :=
  busGroup s.cfg.proto.borderWaveform [a] s

/-- `DISPLAY_UPDATE_CONTROL_1` (rule R207). -/
def execDisplayUpdateControl1 (d : List Byte) (s : State) : Host.Outcome State Fault Refusal :=
  busGroup s.cfg.proto.displayUpdateControl1 d s

/-- `TEMP_SENSOR_SELECT` (rule R208). -/
def execTempSensorSelect (a : Byte) (s : State) : Host.Outcome State Fault Refusal :=
  busGroup s.cfg.proto.tempSensorSelect [a] s

/-- `DISPLAY_UPDATE_CONTROL_2` (rule R209). -/
def execDisplayUpdateControl2 (a : Byte) (s : State) : Host.Outcome State Fault Refusal :=
  busGroup s.cfg.proto.displayUpdateControl2 [a] s

/-- `MASTER_ACTIVATION` (rule R210). -/
def execMasterActivation (s : State) : Host.Outcome State Fault Refusal := busGroup s.cfg.proto.masterActivation [] s

/-- `DEEP_SLEEP` (rule R211). -/
def execDeepSleep (d : List Byte) (s : State) : Host.Outcome State Fault Refusal :=
  busGroup s.cfg.proto.deepSleep d s

/-- `WRITE_RAM_BW` (rule R212). -/
def execWriteRamBw (d : List Byte) (s : State) : Host.Outcome State Fault Refusal :=
  busBlock s.cfg.proto.writeRamBw d s

/-- `WRITE_RAM_RED` (rule R213). -/
def execWriteRamRed (d : List Byte) (s : State) : Host.Outcome State Fault Refusal :=
  busBlock s.cfg.proto.writeRamRed d s

/-- `READ_RAM_OPTION` (rule R214). -/
def execReadRamOption (a : Byte) (s : State) : Host.Outcome State Fault Refusal :=
  busGroup s.cfg.proto.readRamOption [a] s

/-- `READ_RAM` (rule R215): the read trigger, then 2 bytes received in one inbound transaction. -/
def execReadRam (s : State) : Host.Outcome State Fault Refusal :=
  .next ((sendCommand s.cfg.proto.readRam s).bind (readFrame 2)).state

/-- `SET_RAM_X_COUNTER` (rule R216). -/
def execSetRamXCounter (a : Byte) (s : State) : Host.Outcome State Fault Refusal :=
  busGroup s.cfg.proto.setRamXCounter [a] s

/-- `SET_RAM_Y_COUNTER` (rule R217). -/
def execSetRamYCounter (a b : Byte) (s : State) : Host.Outcome State Fault Refusal :=
  busGroup s.cfg.proto.setRamYCounter [a, b] s

end Sys2Proof.Machine
end

