-- ==== Sys2Proof/Machine/FrameTransfer.lean ====
section
/-! DEFINITION. Sys2Proof/Machine/FrameTransfer.lean: the plane writes, `DISPLAY_IMAGE`, `CLEAR_DISPLAY` and `FILL_BLACK`
(42_frame_transfer.md). -/

namespace Sys2Proof.Machine

/-- The counter reseed before a plane's data (rule R144) or a pixel access (rules R175, R177). -/
def seedCounters (xb yr : Nat) (s : State) : Flow :=
  (group s.cfg.proto.setRamXCounter [lo xb] s).bind fun s => group s.cfg.proto.setRamYCounter [lo yr, hi yr] s

/-- `RAMV_p ← 1` (rule R145). -/
def markWritten (p : Plane) (s : State) : State :=
  match p with
  | .bw => s.setRamv true s.stat.ramvRed
  | .red => s.setRamv s.stat.ramvBw true

/-- `writePlane(p, buf)` (rules R141, R145). DESIGN CHOICE (assumption 24): `TB` keeps the flipped plane afterwards, where U1 calls its
content between operations any value; nothing reads it before the next plane write. -/
def writePlane (p : Plane) (buf : List Byte) (s : State) : Flow :=
  (((seedCounters 0 (s.cfg.height - 1) s).bind
    fun s => sendCommand (writeCode s.cfg.proto p) (s.setTb (flip s.cfg buf))).bind
    fun s => sendDataBlock s.tb (planeBytes s.cfg) s).bind
    fun s => .cont (markWritten p s)

/-- The BW plane, then the RED plane (rule R147). -/
def writeFrame (bw red : List Byte) (s : State) : Flow :=
  (writePlane .bw bw s).bind (writePlane .red red)

/-- The host buffer of a plane, or its default fill (rule R147). -/
def planeSource (c : Params) (op : Option HostOp) (present : Bool) (p : Plane) : List Byte :=
  match present, p, op with
  | true, .bw, some o => o.imgBw
  | true, .red, some o => o.imgRed
  | _, .bw, _ => fill (planeBytes c) fillWhite
  | _, .red, _ => fill (planeBytes c) fillNoRed

/-- A full-frame operation (rules R148 to R150, R152): `NOT_BEGUN`, then `SEQ_VIOL`, then both planes. -/
def frameBody (bw red : List Byte) (s : State) : State :=
  requireBegun (fun s => (writeFrame bw red (noteSequence (notReady s) s)).finish 0#32) s

/-- Whether the buffers beside the current word fit its presence bits (rule R81). -/
def currentImageFits (bwP redP : Bool) (s : State) : Bool :=
  match s.fetch with
  | some op => imageFits s.cfg op bwP redP
  | none => !bwP && !redP

/-- `DISPLAY_IMAGE` (rule R148). A present buffer of another length makes the word illegal (rules R81, R249). The buffers are
those the host issued with the word (rule R70). -/
def execDisplayImage (bwP redP : Bool) (s : State) : Host.Outcome State Fault Refusal :=
  .next (if currentImageFits bwP redP s then
      enterOp (frameBody (planeSource s.cfg s.fetch bwP .bw) (planeSource s.cfg s.fetch redP .red)) s
    else refuse .illegalOp s)

/-- `CLEAR_DISPLAY` (rule R149): an all-white frame. -/
def execClearDisplay (s : State) : Host.Outcome State Fault Refusal :=
  hostOp (frameBody (fill (planeBytes s.cfg) fillWhite) (fill (planeBytes s.cfg) fillNoRed)) s

/-- `FILL_BLACK` (rule R150): an all-black frame. -/
def execFillBlack (s : State) : Host.Outcome State Fault Refusal :=
  hostOp (frameBody (fill (planeBytes s.cfg) fillBlackByte) (fill (planeBytes s.cfg) fillNoRed)) s

end Sys2Proof.Machine
end

