-- ==== Sys2Proof/Machine/PixelAddressing.lean ====
section
/-! DEFINITION. Sys2Proof/Machine/PixelAddressing.lean: `SET_PIXEL`, `DRAW_HLINE` and `DRAW_VLINE` (44_pixel_addressing.md). -/

namespace Sys2Proof.Machine

/-- `readRam(p, xb, yr)` (rule R175): the two bytes received stand in `rx`. -/
def readRam (p : Plane) (xb yr : Nat) (s : State) : Flow :=
  (((group s.cfg.proto.readRamOption [readOption s.cfg.proto p] s).bind
    fun s => seedCounters xb yr s).bind
    fun s => sendCommand s.cfg.proto.readRam s).bind
    fun s => readFrame 2 s

/-- The byte a RAM read returns: `rx[1]`; `rx[0]` is the dummy (rule R175). -/
def readByte (s : State) : Byte := s.rx.getD 1 0#8

/-- `writeRam(p, xb, yr, v)` (rule R177). -/
def writeRam (p : Plane) (xb yr : Nat) (v : Byte) (s : State) : Flow :=
  ((seedCounters xb yr s).bind
    fun s => sendCommand (writeCode s.cfg.proto p) s).bind
    fun s => sendData v s

/-- The read-modify-write of one native pixel (rules R174, R178): read BW, read RED, write BW, write RED. -/
def modifyPixel (nx ny : Nat) (c : Colour) (s : State) : Flow :=
  (readRam .bw (byteColumn nx) ny s).bind fun s1 =>
    (readRam .red (byteColumn nx) ny s1).bind fun s2 =>
      (writeRam .bw (byteColumn nx) ny (modifyBw s2.cfg (readByte s1) (pixelMask nx) c) s2).bind
        (writeRam .red (byteColumn nx) ny (modifyRed (readByte s2) (pixelMask nx) c))

/-- `SET_PIXEL` from its bounds check on (rules R170, R174): out of range nothing happens; before `BEGIN` the pixel is
refused; not `Ready` is recorded, and the pixel is drawn. -/
def pixelBody (x y : Int) (c : Colour) (s : State) : Flow :=
  if inRange s.cfg s.surf.rot x y then
    if s.stat.begun then
      modifyPixel (toNative s.cfg s.surf.rot x y).1.toNat (toNative s.cfg s.surf.rot x y).2.toNat c
        (noteSequence (notReady s) s)
    else .cont (s.raise .notBegun)
  else .cont s

/-- A horizontal run of `n` pixels from `(x, y)` (rule R179). -/
def hRun (y : Int) (c : Colour) : Nat → Int → State → Flow
  | 0, _, s => .cont s
  | n + 1, x, s => (pixelBody x y c s).bind (hRun y c n (x + 1))

/-- A vertical run of `n` pixels from `(x, y)` (rule R180). -/
def vRun (x : Int) (c : Colour) : Nat → Int → State → Flow
  | 0, _, s => .cont s
  | n + 1, y, s => (pixelBody x y c s).bind (vRun x c n (y + 1))

/-- `SET_PIXEL` (rule R174). -/
def execSetPixel (x y : Int) (c : Colour) (s : State) : Host.Outcome State Fault Refusal :=
  hostOp (fun s => (pixelBody x y c s).finish 0#32) s

/-- `DRAW_HLINE` (rule R179): no pixel when `w ≤ 0`. -/
def execDrawHline (x y w : Int) (c : Colour) (s : State) : Host.Outcome State Fault Refusal :=
  hostOp (fun s => (hRun y c w.toNat x s).finish 0#32) s

/-- `DRAW_VLINE` (rule R180): no pixel when `h ≤ 0`. -/
def execDrawVline (x y h : Int) (c : Colour) (s : State) : Host.Outcome State Fault Refusal :=
  hostOp (fun s => (vRun x c h.toNat y s).finish 0#32) s

end Sys2Proof.Machine
end

