-- ==== Sys2Proof/Machine/PowerSequencer.lean ====
section
/-! DEFINITION. Sys2Proof/Machine/PowerSequencer.lean: `BEGIN` and `PREPARE` (41_power_sequencer.md). -/

namespace Sys2Proof.Machine

/-- The body of `BEGIN` (rule R117). -/
def beginBody (s : State) : State :=
  if s.stat.begun then complete 1#32 s
  else if acquireOk s then complete 1#32 (csDeassert ((acquire s).setBegun))
  else complete 0#32 ((acquire s).raise .setupFail)

/-- `BEGIN` (rule R117). -/
def execBegin (s : State) : Host.Outcome State Fault Refusal := hostOp beginBody s

/-- `hardReset()` (rule R119). -/
def hardReset (s : State) : State :=
  delay Config.tRstSettle (driveLine .rst (!Config.rstActive)
    (delay Config.tRstPulse (driveLine .rst Config.rstActive
      (delay Config.tRstIdle (driveLine .rst (!Config.rstActive) s)))))

/-- `initSequence()` (rule R130): six groups in fixed order. -/
def initSequence (s : State) : Flow :=
  (((((group s.cfg.proto.driverOutputControl (docData s.cfg) s).bind
    fun s => group s.cfg.proto.dataEntryMode [s.cfg.proto.dem] s).bind
    fun s => group s.cfg.proto.setRamXWindow (xWindowData s.cfg) s).bind
    fun s => group s.cfg.proto.setRamYWindow (yWindowData s.cfg) s).bind
    fun s => group s.cfg.proto.borderWaveform [borderByte s.cfg.proto s.surf.border] s).bind
    fun s => group s.cfg.proto.displayUpdateControl1 s.cfg.proto.duc1Init s

/-- `PREPARE` up to its busy wait (rules R121, R133). -/
def prepareHead (s : State) : Flow :=
  sendCommand s.cfg.proto.swReset (hardReset ((s.setCstate .reset).setRamv false false))

/-- `PREPARE` after its busy wait (rules R121, R122, R133). -/
def prepareTail (s : State) : Flow :=
  (initSequence (delay s.cfg.tSwrstSettle s)).bind fun t => .cont (t.setCstate .ready)

/-- The body of `PREPARE` (rule R133). -/
def prepareBody (s : State) : State :=
  requireBegun (fun s => ((prepareHead s).bind (poll .softReset 0 prepareTail)).finish 0#32) s

/-- `PREPARE` (rule R133). -/
def execPrepare (s : State) : Host.Outcome State Fault Refusal := hostOp prepareBody s

end Sys2Proof.Machine
end

