-- ==== Sys2Proof/Machine/UpdateSequencer.lean ====
section
/-! DEFINITION. Sys2Proof/Machine/UpdateSequencer.lean: `DISPLAY_NORMAL` and `DISPLAY_FAST` (43_update_sequencer.md). -/

namespace Sys2Proof.Machine

/-- Steps 1 to 4 of the update, up to its busy wait (rule R158). -/
def updateHead (mode : UpdateMode) (s : State) : Flow :=
  ((((group s.cfg.proto.tempSensorSelect [s.cfg.proto.tempInternal] s).bind
    fun s => group s.cfg.proto.displayUpdateControl1 (duc1Of s.cfg.proto mode) s).bind
    fun s => group s.cfg.proto.displayUpdateControl2 [duc2Of s.cfg.proto mode] s).bind
    fun s => sendCommand s.cfg.proto.masterActivation s).bind
    fun s => .cont (s.setCstate .busy)

/-- Steps 5 and 6 of the update, after its busy wait (rule R158). -/
def updateTail (s : State) : Flow :=
  (group s.cfg.proto.deepSleep s.cfg.proto.deepSleepData (delay s.cfg.tPostAct s)).bind
    fun t => .cont ((t.setCstate .asleep).setRamv false false)

/-- `update(mode)` (rule R158). -/
def updateBody (mode : UpdateMode) (s : State) : State :=
  requireBegun (fun s =>
    ((updateHead mode (noteSequence (updateUnprepared s) s)).bind (poll .activation 0 updateTail)).finish 0#32) s

/-- `DISPLAY_NORMAL` (rule R159). -/
def execDisplayNormal (s : State) : Host.Outcome State Fault Refusal := hostOp (updateBody .normal) s

/-- `DISPLAY_FAST` (rule R160). -/
def execDisplayFast (s : State) : Host.Outcome State Fault Refusal := hostOp (updateBody .fast) s

end Sys2Proof.Machine
end

