-- ==== Sys2Proof/Machine/Resume.lean ====
section
/-! DEFINITION. Sys2Proof/Machine/Resume.lean: the next turn of a busy wait in progress (41_power_sequencer.md rules R126, R127), and
how an opcode-table word is placed where the next step fetches. -/

namespace Sys2Proof.Machine

/-- What follows the wait (rules R121, R158). -/
def afterWait : WaitPoint → State → Flow
  | .softReset => prepareTail
  | .activation => updateTail

/-- The next turn of the loop of `waitWhileBusy`, after `n` delays. -/
def resumeWait (point : WaitPoint) (n : Nat) (s : State) : State :=
  (poll point n (afterWait point) s).finish 0#32

/-- A host operation beside buffers of zeros where its word presents a plane. -/
def zeroHostOp (c : Params) (w : HostWord) : HostOp :=
  { word := w,
    imgBw := if w.getLsbD 8 then List.replicate (planeBytes c) 0#8 else [],
    imgRed := if w.getLsbD 9 then List.replicate (planeBytes c) 0#8 else [] }

/-- The program with an operation at an index, padded with the illegal word 0 if it is shorter. -/
def placeOp (program : List HostOp) (k : Nat) (op : HostOp) : List HostOp :=
  program.take k ++ List.replicate (k - program.length) { word := 0#64, imgBw := [], imgRed := [] } ++ op :: program.drop (k + 1)

/-- The state with a host operation, or a bus group, placed where the next step takes its instruction. -/
def placeCode (s : State) : Code → State
  | .word w => ((s.setMicro .idle).setInop false) |> fun t => { t with program := placeOp t.program t.opIdx (zeroHostOp t.cfg w) }
  | .group bs => s.setMicro (.sending bs)

end Sys2Proof.Machine
end

