-- ==== Sys2Proof/Machine/SurfaceConfig.lean ====
section
/-! DEFINITION. Sys2Proof/Machine/SurfaceConfig.lean: the surface operations and the queries (45_surface_config.md). They touch no
line and no bus, and are allowed before `BEGIN` and in every `CSTATE` (rule R197). -/

namespace Sys2Proof.Machine

/-- `ROT ← r` (rule R187). -/
def setRot (r : Rotation) (s : State) : State := s.setSurf { s.surf with rot := r }

/-- `BORDER ← c` (rules R189 to R191). -/
def setBorder (c : Colour) (s : State) : State := s.setSurf { s.surf with border := c }

/-- `SET_ROTATION` (rule R187). -/
def execSetRotation (r : Rotation) (s : State) : Host.Outcome State Fault Refusal :=
  hostOp (fun s => complete 0#32 (setRot r s)) s

/-- `SET_WHITE_BORDER` (rule R189). -/
def execSetWhiteBorder (s : State) : Host.Outcome State Fault Refusal :=
  hostOp (fun s => complete 0#32 (setBorder .white s)) s

/-- `SET_BLACK_BORDER` (rule R190). -/
def execSetBlackBorder (s : State) : Host.Outcome State Fault Refusal :=
  hostOp (fun s => complete 0#32 (setBorder .black s)) s

/-- `SET_RED_BORDER` (rule R191). -/
def execSetRedBorder (s : State) : Host.Outcome State Fault Refusal :=
  hostOp (fun s => complete 0#32 (setBorder .red s)) s

/-- `GET_WIDTH` (rule R193): `zext_32(LW)`. -/
def execGetWidth (s : State) : Host.Outcome State Fault Refusal :=
  hostOp (fun s => complete (BitVec.ofNat 32 (logicalWidth s.cfg s.surf.rot)) s) s

/-- `GET_HEIGHT` (rule R194): `zext_32(LH)`. -/
def execGetHeight (s : State) : Host.Outcome State Fault Refusal :=
  hostOp (fun s => complete (BitVec.ofNat 32 (logicalHeight s.cfg s.surf.rot)) s) s

/-- `GET_ROTATION` (rule R195): `zext_32(ROT)`. -/
def execGetRotation (s : State) : Host.Outcome State Fault Refusal :=
  hostOp (fun s => complete ((rotCode s.surf.rot).setWidth 32) s) s

/-- `GET_STATUS` (rule R196). -/
def execGetStatus (s : State) : Host.Outcome State Fault Refusal :=
  hostOp (fun s => complete (statusWord s) s) s

end Sys2Proof.Machine
end

