-- ==== Sys2Proof/Machine/Dispatch.lean ====
section
/-! DEFINITION. Sys2Proof/Machine/Dispatch.lean: one arm per instruction. -/

namespace Sys2Proof.Machine

def exec (i : Instr) (s : State) : Host.Outcome State Fault Refusal :=
  match i with
  | .beginOp => Sys2Proof.Machine.execBegin s
  | .prepare => Sys2Proof.Machine.execPrepare s
  | .displayImage bwP redP => Sys2Proof.Machine.execDisplayImage bwP redP s
  | .clearDisplay => Sys2Proof.Machine.execClearDisplay s
  | .fillBlack => Sys2Proof.Machine.execFillBlack s
  | .displayNormal => Sys2Proof.Machine.execDisplayNormal s
  | .displayFast => Sys2Proof.Machine.execDisplayFast s
  | .setPixel x y c => Sys2Proof.Machine.execSetPixel x y c s
  | .drawHline x y w c => Sys2Proof.Machine.execDrawHline x y w c s
  | .drawVline x y h c => Sys2Proof.Machine.execDrawVline x y h c s
  | .setRotation r => Sys2Proof.Machine.execSetRotation r s
  | .setWhiteBorder => Sys2Proof.Machine.execSetWhiteBorder s
  | .setBlackBorder => Sys2Proof.Machine.execSetBlackBorder s
  | .setRedBorder => Sys2Proof.Machine.execSetRedBorder s
  | .getWidth => Sys2Proof.Machine.execGetWidth s
  | .getHeight => Sys2Proof.Machine.execGetHeight s
  | .getRotation => Sys2Proof.Machine.execGetRotation s
  | .getStatus => Sys2Proof.Machine.execGetStatus s
  | .swReset => Sys2Proof.Machine.execSwReset s
  | .driverOutputControl a b c => Sys2Proof.Machine.execDriverOutputControl a b c s
  | .dataEntryMode a => Sys2Proof.Machine.execDataEntryMode a s
  | .setRamXWindow a b => Sys2Proof.Machine.execSetRamXWindow a b s
  | .setRamYWindow a b c d => Sys2Proof.Machine.execSetRamYWindow a b c d s
  | .borderWaveform a => Sys2Proof.Machine.execBorderWaveform a s
  | .displayUpdateControl1 d => Sys2Proof.Machine.execDisplayUpdateControl1 d s
  | .tempSensorSelect a => Sys2Proof.Machine.execTempSensorSelect a s
  | .displayUpdateControl2 a => Sys2Proof.Machine.execDisplayUpdateControl2 a s
  | .masterActivation => Sys2Proof.Machine.execMasterActivation s
  | .deepSleep d => Sys2Proof.Machine.execDeepSleep d s
  | .writeRamBw d => Sys2Proof.Machine.execWriteRamBw d s
  | .writeRamRed d => Sys2Proof.Machine.execWriteRamRed d s
  | .readRamOption a => Sys2Proof.Machine.execReadRamOption a s
  | .readRam => Sys2Proof.Machine.execReadRam s
  | .setRamXCounter a => Sys2Proof.Machine.execSetRamXCounter a s
  | .setRamYCounter a b => Sys2Proof.Machine.execSetRamYCounter a b s

end Sys2Proof.Machine
end

