-- ==== Sys2Proof/Machine/Step.lean ====
section
/-! DEFINITION. Sys2Proof/Machine/Step.lean: one step of the machine, and the placing of an opcode-table word. -/

namespace Sys2Proof.Machine

/-- One step. A busy wait in progress takes its next turn; a bus group about to be sent is decoded and run; otherwise the
host issues the word at `opIdx` (rule R21), which is decoded and run, or refused as illegal (rules R79, R249, R256). At the
end of the program the machine stops (rule R18). -/
def step (s : State) : Host.Outcome State Fault Refusal :=
  match s.micro with
  | .waiting point n => .next (resumeWait point n (s.setMicro .idle))
  | .sending bytes =>
    match decodeGroup s.cfg.proto bytes with
    | .ok i => exec i (s.setMicro .idle)
    | .illegal _ => .refused .notABusGroup
  | .idle =>
    match s.fetch with
    | none => .fault .programEnded
    | some op =>
      match decodeHost op.word with
      | .ok i => exec i s
      | .illegal _ => .next (refuse .illegalOp s)

/-- The state in which the next step runs exactly an opcode-table word: a host operation word at `opIdx` of the program,
beside buffers of zeros for the planes it presents, or a bus group about to be sent (assumption 6). -/
def State.withFetchWord (s : State) (nbits w : Nat) : State :=
  match tableCode s.cfg.proto nbits w with
  | some c => placeCode s c
  | none => s

end Sys2Proof.Machine
end

