-- ==== Sys2Proof/OpcodeTable.lean ====
section
/-! DEFINITION. Sys2Proof/OpcodeTable.lean: the rows of spec/opcode_table.json, for the claims that compare the decoder with them
(30_encoding.md rules R78, R79, R84). The decoder itself does not read this table. -/

namespace Sys2Proof

/-- A `HOSTOP` row. `colour` marks the rows where colour code 3 is illegal (rule R79). -/
structure HostRow where
  mnemonic : String
  mask : HostWord
  bits : HostWord
  colour : Bool
  deriving DecidableEq, Repr

/-- The 18 `HOSTOP` rows. -/
def hostRows : List HostRow :=
  [ { mnemonic := "BEGIN", mask := 0xFFFFFFFFFFFFFFFF#64, bits := 0x0000000000000001#64, colour := false },
    { mnemonic := "PREPARE", mask := 0xFFFFFFFFFFFFFFFF#64, bits := 0x0000000000000002#64, colour := false },
    { mnemonic := "DISPLAY_IMAGE", mask := 0xFFFFFFFFFFFFFCFF#64, bits := 0x0000000000000010#64, colour := false },
    { mnemonic := "CLEAR_DISPLAY", mask := 0xFFFFFFFFFFFFFFFF#64, bits := 0x0000000000000011#64, colour := false },
    { mnemonic := "FILL_BLACK", mask := 0xFFFFFFFFFFFFFFFF#64, bits := 0x0000000000000012#64, colour := false },
    { mnemonic := "DISPLAY_NORMAL", mask := 0xFFFFFFFFFFFFFFFF#64, bits := 0x0000000000000020#64, colour := false },
    { mnemonic := "DISPLAY_FAST", mask := 0xFFFFFFFFFFFFFFFF#64, bits := 0x0000000000000021#64, colour := false },
    { mnemonic := "SET_PIXEL", mask := 0xFFFF00000000FCFF#64, bits := 0x0000000000000030#64, colour := true },
    { mnemonic := "DRAW_HLINE", mask := 0x000000000000FCFF#64, bits := 0x0000000000000031#64, colour := true } ] ++
  [ { mnemonic := "DRAW_VLINE", mask := 0x000000000000FCFF#64, bits := 0x0000000000000032#64, colour := true },
    { mnemonic := "SET_ROTATION", mask := 0xFFFFFFFFFFFFFCFF#64, bits := 0x0000000000000040#64, colour := false },
    { mnemonic := "SET_WHITE_BORDER", mask := 0xFFFFFFFFFFFFFFFF#64, bits := 0x0000000000000041#64, colour := false },
    { mnemonic := "SET_BLACK_BORDER", mask := 0xFFFFFFFFFFFFFFFF#64, bits := 0x0000000000000042#64, colour := false },
    { mnemonic := "SET_RED_BORDER", mask := 0xFFFFFFFFFFFFFFFF#64, bits := 0x0000000000000043#64, colour := false },
    { mnemonic := "GET_WIDTH", mask := 0xFFFFFFFFFFFFFFFF#64, bits := 0x0000000000000050#64, colour := false },
    { mnemonic := "GET_HEIGHT", mask := 0xFFFFFFFFFFFFFFFF#64, bits := 0x0000000000000051#64, colour := false },
    { mnemonic := "GET_ROTATION", mask := 0xFFFFFFFFFFFFFFFF#64, bits := 0x0000000000000052#64, colour := false },
    { mnemonic := "GET_STATUS", mask := 0xFFFFFFFFFFFFFFFF#64, bits := 0x0000000000000053#64, colour := false } ]

/-- A `BUSCMD` row: the command, and its code under the reference profile. -/
structure BusRow where
  mnemonic : String
  command : BusCmd
  code : Byte
  deriving DecidableEq, Repr

/-- The 17 `BUSCMD` rows. -/
def busRows : List BusRow :=
  [ { mnemonic := "SW_RESET", command := .swReset, code := 0x12#8 },
    { mnemonic := "DRIVER_OUTPUT_CONTROL", command := .driverOutputControl, code := 0x01#8 },
    { mnemonic := "DATA_ENTRY_MODE", command := .dataEntryMode, code := 0x11#8 },
    { mnemonic := "SET_RAM_X_WINDOW", command := .setRamXWindow, code := 0x44#8 },
    { mnemonic := "SET_RAM_Y_WINDOW", command := .setRamYWindow, code := 0x45#8 },
    { mnemonic := "BORDER_WAVEFORM", command := .borderWaveform, code := 0x3C#8 },
    { mnemonic := "DISPLAY_UPDATE_CONTROL_1", command := .displayUpdateControl1, code := 0x21#8 },
    { mnemonic := "TEMP_SENSOR_SELECT", command := .tempSensorSelect, code := 0x18#8 },
    { mnemonic := "DISPLAY_UPDATE_CONTROL_2", command := .displayUpdateControl2, code := 0x22#8 } ] ++
  [ { mnemonic := "MASTER_ACTIVATION", command := .masterActivation, code := 0x20#8 },
    { mnemonic := "DEEP_SLEEP", command := .deepSleep, code := 0x10#8 },
    { mnemonic := "WRITE_RAM_BW", command := .writeRamBw, code := 0x24#8 },
    { mnemonic := "WRITE_RAM_RED", command := .writeRamRed, code := 0x26#8 },
    { mnemonic := "READ_RAM_OPTION", command := .readRamOption, code := 0x41#8 },
    { mnemonic := "READ_RAM", command := .readRam, code := 0x27#8 },
    { mnemonic := "SET_RAM_X_COUNTER", command := .setRamXCounter, code := 0x4E#8 },
    { mnemonic := "SET_RAM_Y_COUNTER", command := .setRamYCounter, code := 0x4F#8 } ]

/-- The mnemonic of an instruction's row. -/
def Instr.mnemonic : Instr → String
  | .beginOp => "BEGIN"
  | .prepare => "PREPARE"
  | .displayImage _ _ => "DISPLAY_IMAGE"
  | .clearDisplay => "CLEAR_DISPLAY"
  | .fillBlack => "FILL_BLACK"
  | .displayNormal => "DISPLAY_NORMAL"
  | .displayFast => "DISPLAY_FAST"
  | .setPixel _ _ _ => "SET_PIXEL"
  | .drawHline _ _ _ _ => "DRAW_HLINE"
  | .drawVline _ _ _ _ => "DRAW_VLINE"
  | .setRotation _ => "SET_ROTATION"
  | .setWhiteBorder => "SET_WHITE_BORDER"
  | .setBlackBorder => "SET_BLACK_BORDER"
  | .setRedBorder => "SET_RED_BORDER"
  | .getWidth => "GET_WIDTH"
  | .getHeight => "GET_HEIGHT"
  | .getRotation => "GET_ROTATION"
  | .getStatus => "GET_STATUS"
  | .swReset => "SW_RESET"
  | .driverOutputControl _ _ _ => "DRIVER_OUTPUT_CONTROL"
  | .dataEntryMode _ => "DATA_ENTRY_MODE"
  | .setRamXWindow _ _ => "SET_RAM_X_WINDOW"
  | .setRamYWindow _ _ _ _ => "SET_RAM_Y_WINDOW"
  | .borderWaveform _ => "BORDER_WAVEFORM"
  | .displayUpdateControl1 _ => "DISPLAY_UPDATE_CONTROL_1"
  | .tempSensorSelect _ => "TEMP_SENSOR_SELECT"
  | .displayUpdateControl2 _ => "DISPLAY_UPDATE_CONTROL_2"
  | .masterActivation => "MASTER_ACTIVATION"
  | .deepSleep _ => "DEEP_SLEEP"
  | .writeRamBw _ => "WRITE_RAM_BW"
  | .writeRamRed _ => "WRITE_RAM_RED"
  | .readRamOption _ => "READ_RAM_OPTION"
  | .readRam => "READ_RAM"
  | .setRamXCounter _ => "SET_RAM_X_COUNTER"
  | .setRamYCounter _ _ => "SET_RAM_Y_COUNTER"

end Sys2Proof
end

