-- ==== Sys2Proof/Safety.lean ====
section
/-! DEFINITION. Sys2Proof/Safety.lean: the terms claims are stated in: the conditions an operation runs under, the expected event
lists in the spec's own abbreviations, the framing rules as an automaton over the trace, and the invariants. -/

namespace Sys2Proof.Machine

/-! ## Conditions -/

/-- No operation is in progress. -/
abbrev Idle (s : State) : Prop := s.stat.inop = false

/-- The sequential host of rule R21: it issues no word while an operation is in progress (rule R255). -/
abbrev SequentialHost (s : State) : Prop := s.env.early = []

/-- Every transfer and every acquisition answers true (95_test_vectors.md, conventions). -/
abbrev Reliable (s : State) : Prop := s.env.backend = .reliable

/-- No transfer can abort an operation: `BestEffort`, or a reliable backend (rule R247). -/
abbrev NoBusAbort (s : State) : Prop := s.cfg.errorMode = .bestEffort ∨ s.env.backend = .reliable

/-- The reference controller is attached and takes bus bytes: `Active`, not busy, not held in reset (rules R222, R223, R230). -/
abbrev Listening (s : State) : Prop :=
  s.cfg.attached = .reference ∧ s.ctl.mode = .active ∧ s.ctl.busy = false ∧ heldInReset s = false

/-- The command the reference controller received last has all its data, so that the next command byte cuts nothing short (rule
R218). -/
def CommandDone (c : Controller) : Prop := ∀ n, Controller.cutShort c n = c

/-- The first BUSY sample of a wait the operation starts will read deasserted: the environment's next level, or a busy period of
no further asserted sample (rules R125, R226). -/
def FirstSampleClear (s : State) : Prop :=
  match s.cfg.attached with
  | .oracle => s.env.samples.head? = some (!s.cfg.busyActive)
  | .reference => s.ctl.busyPlan.head? = some 0

/-- The first BUSY sample of a wait the operation starts will read asserted. -/
def FirstSampleBusy (s : State) : Prop :=
  match s.cfg.attached with
  | .oracle => s.env.samples.head? = some s.cfg.busyActive
  | .reference => ∃ k, s.ctl.busyPlan.head? = some (k + 1)

/-- Where the reference controller is attached, it listens. -/
def ListensIfReference (s : State) : Prop := s.cfg.attached = .reference → Listening s

/-- The state after a refusal: the fault bit, `RESULT = 0`, and `opIdx` (rules R245, R258). -/
def refusedWith (f : FaultBit) (s : State) : State :=
  { s with fault := faultSet s.fault f, result := 0#32, results := s.results ++ [0#32], opIdx := s.opIdx + 1 }

/-- The state after a completion: `RESULT`, `INOP` and `opIdx` (rule R256 step 5). -/
def completedWith (r : ResultWord) (s : State) : State :=
  { s with result := r, results := s.results ++ [r], opIdx := s.opIdx + 1, stat := { s.stat with inop := false }, micro := .idle }

/-- The planes a full-frame operation writes, in host row order (rules R81, R147 to R150): the host's buffer where the word
presents one, the default fill where it does not. -/
def FrameOp (s : State) (i : Instr) (bw red : List Byte) : Prop :=
  (i = .clearDisplay ∧ bw = List.replicate (planeBytes s.cfg) 0xFF#8 ∧ red = List.replicate (planeBytes s.cfg) 0x00#8) ∨
  (i = .fillBlack ∧ bw = List.replicate (planeBytes s.cfg) 0x00#8 ∧ red = List.replicate (planeBytes s.cfg) 0x00#8) ∨
  (∃ op bwP redP, s.fetch = some op ∧ i = .displayImage bwP redP ∧
    bw = (if bwP then op.imgBw else List.replicate (planeBytes s.cfg) 0xFF#8) ∧
    red = (if redP then op.imgRed else List.replicate (planeBytes s.cfg) 0x00#8) ∧
    bw.length = planeBytes s.cfg ∧ red.length = planeBytes s.cfg)

/-- The update mode of an update operation (rules R159, R160). -/
def UpdateOp (i : Instr) (m : UpdateMode) : Prop :=
  (i = .displayNormal ∧ m = .normal) ∨ (i = .displayFast ∧ m = .fast)

/-- The line latches after a data transaction (rules R101, R102, R34). -/
def linesAfterData (s : State) (rst : Option Level) : Lines :=
  { dc := some (!s.cfg.dcCmd), rst := rst, cs := if csManaged s.cfg then some (!s.cfg.csActive) else s.lines.cs }

/-- The 18 host operations, against the 17 bus commands. -/
def isHostOp : Instr → Bool
  | .beginOp => true
  | .prepare => true
  | .displayImage _ _ => true
  | .clearDisplay => true
  | .fillBlack => true
  | .displayNormal => true
  | .displayFast => true
  | .setPixel _ _ _ => true
  | .drawHline _ _ _ _ => true
  | .drawVline _ _ _ _ => true
  | .setRotation _ => true
  | .setWhiteBorder => true
  | .setBlackBorder => true
  | .setRedBorder => true
  | .getWidth => true
  | .getHeight => true
  | .getRotation => true
  | .getStatus => true
  | .swReset => false
  | .driverOutputControl _ _ _ => false
  | .dataEntryMode _ => false
  | .setRamXWindow _ _ => false
  | .setRamYWindow _ _ _ _ => false
  | .borderWaveform _ => false
  | .displayUpdateControl1 _ => false
  | .tempSensorSelect _ => false
  | .displayUpdateControl2 _ => false
  | .masterActivation => false
  | .deepSleep _ => false
  | .writeRamBw _ => false
  | .writeRamRed _ => false
  | .readRamOption _ => false
  | .readRam => false
  | .setRamXCounter _ => false
  | .setRamYCounter _ _ => false

/-- Every bit set in one fault register is set in another (rule R32). -/
def faultLe (f g : FaultReg) : Prop := ∀ b, faultGet f b = true → faultGet g b = true

/-- What a bus transaction leaves alone: the configuration, the program, `SURF`, `STAT`, the transfer buffer and the
micro-sequencer position. -/
def SameBlock (s t : State) : Prop :=
  t.cfg = s.cfg ∧ t.program = s.program ∧ t.surf = s.surf ∧ t.stat = s.stat ∧ t.tb = s.tb ∧ t.micro = s.micro

/-! ## Failed transfers -/

/-- A transfer that answered false. -/
def failedTransfer : Event → Bool
  | .xfer _ ok => !ok
  | .xferIn _ _ ok => !ok
  | .line _ _ => false
  | .sample _ => false
  | .delay _ => false
  | .log _ => false
  | .acquire _ => false

/-- The log record of a failed transfer, the first time only (rule R247). -/
def busFailLog (s : State) : List Event := if s.fault.busFail then [] else [.log .busFail]

/-- CS deasserted, when the block manages it (rule R102). -/
def csRelease (c : Params) : List Event := if csManaged c then [.line .cs (!c.csActive)] else []

/-- How an operation in `Strict` mode ends: with no failed transfer and no bus abort, or at its first failed transfer, which is its
last: the log record, CS deasserted, and the abort (rules R247, R252). -/
def StrictEnd (s t : State) : Prop :=
  ∃ ev, t.trace = s.trace ++ ev ∧
    (((∀ e ∈ ev, failedTransfer e = false) ∧ t.fault.busFail = s.fault.busFail ∧ t.results ≠ s.results ++ [0x80000002#32]) ∨
      (∃ pre x, ev = pre ++ [x] ++ busFailLog s ++ csRelease s.cfg ∧ (∀ e ∈ pre, failedTransfer e = false) ∧
        failedTransfer x = true ∧ t.stat.cstate = .uninitialized ∧ t.stat.begun = s.stat.begun ∧ t.stat.inop = false ∧
        t.fault.busFail = true ∧ t.result = 0x80000002#32 ∧ t.results = s.results ++ [0x80000002#32] ∧ t.opIdx = s.opIdx + 1 ∧
        t.surf = s.surf ∧ t.micro = .idle))

/-- The transfers of one transaction in `BestEffort` mode, with their answers: each goes out once, and the first failure is logged
unless one was before (rules R103, R247). -/
def chunkEvents : Bool → List (List Byte) → List Bool → List Event
  | logged, c :: cs, ok :: oks =>
    [.xfer c ok] ++ (if ok || logged then [] else [.log .busFail]) ++ chunkEvents (logged || !ok) cs oks
  | _, _, _ => []

/-- The events up to outbound transfer number `k` (from 0), which fails. -/
def failAt : Nat → List Event → List Event
  | _, [] => []
  | 0, .xfer tx _ :: _ => [.xfer tx false]
  | k + 1, .xfer tx ok :: es => .xfer tx ok :: failAt k es
  | k, e :: es => e :: failAt k es

/-! ## Expected events, every transfer answering true -/

/-- One outbound transaction (rule R103). -/
def transactionEvents (c : Params) (r : Role) (parts : List (List Byte)) : List Event :=
  [.line .dc (dcLevel c r)] ++ (if csManaged c then [.line .cs c.csActive] else []) ++ parts.map (fun p => .xfer p true) ++
    (if csManaged c then [.line .cs (!c.csActive)] else [])

/-- `C(b)` (rule R135). -/
def cmdEvents (c : Params) (b : Byte) : List Event := transactionEvents c .cmd [[b]]

/-- `D(b)` (rule R135). -/
def dataEvents (c : Params) (b : Byte) : List Event := transactionEvents c .data [[b]]

/-- `BLK(bytes)` (42_frame_transfer.md): one data transaction, in chunks. -/
def blockEvents (c : Params) (bytes : List Byte) : List Event := transactionEvents c .data (chunks c.maxChunk bytes)

/-- `G(code, d)` (rule R105). -/
def groupEvents (c : Params) (code : Byte) (d : List Byte) : List Event := cmdEvents c code ++ d.flatMap (dataEvents c)

/-- `R(a, b)` (44_pixel_addressing.md): one inbound transaction of two bytes. -/
def readEvents (c : Params) (rx : List Byte) : List Event :=
  [.line .dc (!c.dcCmd)] ++ (if csManaged c then [.line .cs c.csActive] else []) ++ [.xferIn 2 rx true] ++
    (if csManaged c then [.line .cs (!c.csActive)] else [])

/-- `LINE(RST,1) DELAY(20) LINE(RST,0) DELAY(20) LINE(RST,1) DELAY(30)` (rule R119). -/
def resetEvents : List Event :=
  [.line .rst true, .delay 20, .line .rst false, .delay 20, .line .rst true, .delay 30]

/-- The six init groups (rule R129). -/
def initEvents (c : Params) (border : Colour) : List Event :=
  groupEvents c c.proto.driverOutputControl
      [lo (c.height - c.proto.muxBias), hi (c.height - c.proto.muxBias), c.proto.docPad] ++
    groupEvents c c.proto.dataEntryMode [c.proto.dem] ++
    groupEvents c c.proto.setRamXWindow [0#8, lo (stride c - 1)] ++
    groupEvents c c.proto.setRamYWindow [lo (c.height - 1), hi (c.height - 1), 0#8, 0#8] ++
    groupEvents c c.proto.borderWaveform [borderByte c.proto border] ++
    groupEvents c c.proto.displayUpdateControl1 c.proto.duc1Init

/-- The counter reseed (rules R144, R175, R177). -/
def seedEvents (c : Params) (xb yr : Nat) : List Event :=
  groupEvents c c.proto.setRamXCounter [lo xb] ++ groupEvents c c.proto.setRamYCounter [lo yr, hi yr]

/-- One plane write of the bytes `tb` in transfer order (rule R145). -/
def planeEvents (c : Params) (p : Plane) (tb : List Byte) : List Event :=
  seedEvents c 0 (c.height - 1) ++ cmdEvents c (writeCode c.proto p) ++ blockEvents c tb

/-- A frame: the BW plane, then the RED plane, each flipped (rules R145, R147). -/
def frameEvents (c : Params) (bw red : List Byte) : List Event :=
  planeEvents c .bw (flip c bw) ++ planeEvents c .red (flip c red)

/-- Steps 1 to 4 of the update (rule R158). -/
def activateEvents (c : Params) (m : UpdateMode) : List Event :=
  groupEvents c c.proto.tempSensorSelect [c.proto.tempInternal] ++
    groupEvents c c.proto.displayUpdateControl1 (duc1Of c.proto m) ++
    groupEvents c c.proto.displayUpdateControl2 [duc2Of c.proto m] ++ cmdEvents c c.proto.masterActivation

/-- Steps 5 and 6 of the update (rule R158). -/
def sleepEvents (c : Params) : List Event :=
  [.delay c.tPostAct] ++ groupEvents c c.proto.deepSleep c.proto.deepSleepData

/-- The RAM-read sequence of one plane (rule R175). -/
def readRamEvents (c : Params) (p : Plane) (xb yr : Nat) (rx : List Byte) : List Event :=
  groupEvents c c.proto.readRamOption [readOption c.proto p] ++ seedEvents c xb yr ++ cmdEvents c c.proto.readRam ++
    readEvents c rx

/-- The one-byte RAM write of one plane (rule R177). -/
def writeRamEvents (c : Params) (p : Plane) (xb yr : Nat) (v : Byte) : List Event :=
  seedEvents c xb yr ++ cmdEvents c (writeCode c.proto p) ++ dataEvents c v

/-- The events of a bus command, every transfer answering true (rules R83, R85, R105); the bytes `READ_RAM` receives stand in
`rx`. -/
def busEvents (c : Params) (rx : List Byte) : Instr → List Event
  | .swReset => groupEvents c c.proto.swReset []
  | .driverOutputControl a b d => groupEvents c c.proto.driverOutputControl [a, b, d]
  | .dataEntryMode a => groupEvents c c.proto.dataEntryMode [a]
  | .setRamXWindow a b => groupEvents c c.proto.setRamXWindow [a, b]
  | .setRamYWindow a b d e => groupEvents c c.proto.setRamYWindow [a, b, d, e]
  | .borderWaveform a => groupEvents c c.proto.borderWaveform [a]
  | .displayUpdateControl1 d => groupEvents c c.proto.displayUpdateControl1 d
  | .tempSensorSelect a => groupEvents c c.proto.tempSensorSelect [a]
  | .displayUpdateControl2 a => groupEvents c c.proto.displayUpdateControl2 [a]
  | .masterActivation => groupEvents c c.proto.masterActivation []
  | .deepSleep d => groupEvents c c.proto.deepSleep d
  | .writeRamBw d => cmdEvents c c.proto.writeRamBw ++ blockEvents c d
  | .writeRamRed d => cmdEvents c c.proto.writeRamRed ++ blockEvents c d
  | .readRamOption a => groupEvents c c.proto.readRamOption [a]
  | .readRam => cmdEvents c c.proto.readRam ++ readEvents c rx
  | .setRamXCounter a => groupEvents c c.proto.setRamXCounter [a]
  | .setRamYCounter a b => groupEvents c c.proto.setRamYCounter [a, b]
  | .beginOp | .prepare | .displayImage _ _ | .clearDisplay | .fillBlack | .displayNormal | .displayFast | .setPixel _ _ _
  | .drawHline _ _ _ _ | .drawVline _ _ _ _ | .setRotation _ | .setWhiteBorder | .setBlackBorder | .setRedBorder
  | .getWidth | .getHeight | .getRotation | .getStatus => []

/-! ## The framing rules as an automaton (rules R55, R65, R101, R102, R280) -/

/-- Where the wire is: between transactions, DC driven for a role, or inside a transaction of a role. -/
inductive Framing where
  | outside
  | armed (r : Role)
  | inside (r : Role)
  deriving DecidableEq, Repr

/-- The role of a DC level. -/
def roleOfLevel (c : Params) (v : Level) : Role := if v = c.dcCmd then .cmd else .data

/-- A transfer allowed inside a transaction: one code of `PROTO` in a command transaction (rules R55, R82); one byte or more,
and no more than `MAX_CHUNK`, in a data transaction (rule R104). -/
def transferAllowed (c : Params) (r : Role) (tx : List Byte) : Bool :=
  match r with
  | .cmd => c.proto.codes.any (fun b => tx == [b])
  | .data => !tx.isEmpty && decide (tx.length ≤ c.maxChunk)

/-- One event of a well-framed trace. With CS managed: DC first, then CS asserted, then transfers, then CS deasserted, and DC
and the other lines, waits and delays only outside. With CS unmanaged: no CS event, and DC first. -/
def framingNext (c : Params) (q : Framing) (e : Event) : Option Framing :=
  match q, e with
  | .outside, .line .dc v => some (if csManaged c then .armed (roleOfLevel c v) else .inside (roleOfLevel c v))
  | .outside, .line .cs v => if csManaged c ∧ v = !c.csActive then some .outside else none
  | .outside, .xfer _ _ => none
  | .outside, .xferIn _ _ _ => none
  | .outside, _ => some .outside
  | .armed r, .line .cs v => if v = c.csActive then some (.inside r) else none
  | .armed _, _ => none
  | .inside r, .xfer tx _ => if transferAllowed c r tx then some (.inside r) else none
  | .inside r, .xferIn n _ _ => if r = .data ∧ n ≤ c.maxChunk then some (.inside r) else none
  | .inside r, .log _ => some (.inside r)
  | .inside _, .line .cs v => if csManaged c ∧ v = !c.csActive then some .outside else none
  | .inside _, .line .dc v => if csManaged c then none else some (.inside (roleOfLevel c v))
  | .inside _, _ => if csManaged c then none else some .outside

/-- The framing automaton over a list of events. -/
def framingRun (c : Params) : Framing → List Event → Option Framing
  | q, [] => some q
  | q, e :: es =>
    match framingNext c q e with
    | some q' => framingRun c q' es
    | none => none

/-- Events that are whole transactions, in the order the framing rules ask. -/
def WellFramed (c : Params) (ev : List Event) : Prop :=
  ∃ q, framingRun c .outside ev = some q ∧ (csManaged c = true → q = .outside)

/-! ## Invariants -/

/-- The states a run visits: legal parameters; both planes of RAM canonical; `INOP` set exactly inside a busy wait, which
`CSTATE` names, and otherwise `CSTATE` as the host sees it (rules R28, R255); nothing before `BEGIN` (rule R29); one result
per completed operation, the last one in `RESULT` (rules R18, R33); CS never driven when unmanaged and never left asserted
(rules R34, R102); the transfer buffer one plane long (rule R36). -/
structure BlockInv (s : State) : Prop where
  params : s.cfg.wf
  ramBw : Memory.wf s.ctl.ramBw = true
  ramRed : Memory.wf s.ctl.ramRed = true
  inop : s.stat.inop = true ↔ ∃ p n, s.micro = .waiting p n
  waitReset : ∀ n, s.micro = .waiting .softReset n → s.stat.cstate = .reset
  waitBusy : ∀ n, s.micro = .waiting .activation n → s.stat.cstate = .busy
  seen : s.stat.inop = false → s.stat.cstate ≠ .reset ∧ s.stat.cstate ≠ .busy
  notBegun : s.stat.begun = false →
    s.stat.cstate = .uninitialized ∧ s.stat.ramvBw = false ∧ s.stat.ramvRed = false
  count : s.results.length = s.opIdx
  last : s.result = s.results.getLastD 0#32
  csUnmanaged : csManaged s.cfg = false → s.lines.cs = none
  csIdle : csManaged s.cfg = true → s.lines.cs ≠ some s.cfg.csActive
  buffer : s.tb.length = planeBytes s.cfg

/-- The block's view and the reference controller's mode agree (rule R229): in a run with no fault, on a reliable backend with
the sequential host. -/
structure Agrees (s : State) : Prop where
  attached : s.cfg.attached = .reference
  codes : s.cfg.proto.wf
  reliable : Reliable s
  sequential : SequentialHost s
  released : heldInReset s = false
  notSending : ∀ g, s.micro ≠ .sending g
  view : (∀ b, faultGet s.fault b = false) →
    match s.stat.cstate with
    | .uninitialized => s.ctl.mode = .off
    | .reset => s.ctl.mode = .active
    | .ready => s.ctl.mode = .active ∧ s.ctl.busy = false
    | .busy => s.ctl.mode = .active ∧ s.ctl.busy = true
    | .asleep => s.ctl.mode = .asleep

end Sys2Proof.Machine
end

