-- ==== Sys2Proof/Certificates/Slice0/Obligations.lean ====
section
/-! DEFINITION. Sys2Proof/Certificates/Slice0/Obligations.lean: the statements for the provers. -/

open Sys2Proof Sys2Proof.Machine

/-! ## Encoding -/

/-- Decoding what the encoder gives is the instruction, for every table and every well-formed instruction, with every operand
(rules R75 to R78, R83 to R85). -/
def Obligations.DecodeOfEncode : Prop :=
  ∀ (p : Proto) (i : Instr), p.wf → i.wf = true → decode p (encode p i) = .ok i

/-- Each word and each group that decodes has one meaning, and the encoder gives it back. -/
def Obligations.EncodeOfDecode : Prop :=
  ∀ (p : Proto) (x : Code) (i : Instr), decode p x = .ok i → i.wf = true ∧ encode p i = x

/-- Rule R79: a word decodes exactly to the row of the table whose mask and match it meets, with colour code 3 excluded in the
pixel rows; every other word is illegal, is refused with `ILLEGAL_OP`, and has no other effect.
That the refused word appends its result is read from the rules (log entry 21). -/
def Obligations.HostDecodingFollowsTable : Prop :=
  (∀ w i, decodeHost w = .ok i →
    ∃ r ∈ hostRows, r.mnemonic = i.mnemonic ∧ w &&& r.mask = r.bits ∧ (r.colour = true → w.extractLsb' 8 2 ≠ 3#2)) ∧
  (∀ w, ∀ r ∈ hostRows, w &&& r.mask = r.bits → (r.colour = true → w.extractLsb' 8 2 ≠ 3#2) →
    ∃ i, decodeHost w = .ok i ∧ i.mnemonic = r.mnemonic) ∧
  (∀ s op e, s.micro = .idle → s.fetch = some op → decodeHost op.word = .illegal e →
    step s = .next (refusedWith .illegalOp s))

/-- The worked encodings of rule R89, both ways, and its two illegal words. -/
def Obligations.WorkedEncodings : Prop :=
  (∀ wi ∈ [((0x0000000000000001 : HostWord), Instr.beginOp), (0x0000000000000002, .prepare),
      (0x0000000000000110, .displayImage true false), (0x0000000000000310, .displayImage true true),
      (0x0000000000000011, .clearDisplay), (0x0000000000000020, .displayNormal), (0x0000000000000021, .displayFast),
      (0x0000000500030230, .setPixel 3 5 .red), (0x00000000FFFF0130, .setPixel (-1) 0 .black),
      (0x000A000200000131, .drawHline 0 2 10 .black), (0x0002000300020032, .drawVline 2 3 2 .white),
      (0x0000000000000140, .setRotation .deg90), (0x0000000000000043, .setRedBorder), (0x0000000000000053, .getStatus)],
    decodeHost wi.1 = .ok wi.2 ∧ encode Proto.reference wi.2 = .word wi.1) ∧
  decodeHost 0x0000000000000330 = .illegal .reservedColour ∧
  decodeHost 0x0000000000000540 = .illegal .nonZeroReserved

/-- The 17 command codes of the reference profile (rule R200) decode to their commands.
The codes are the reference profile's, general knowledge in the spec itself (log entry 19). -/
def Obligations.BusCodesDecode : Prop :=
  ∀ r ∈ busRows, Proto.reference.command r.code = some r.command ∧
    ∃ i, decodeTableWord 8 r.code.toNat = some i ∧ i.mnemonic = r.mnemonic

/-! ## One step -/

/-- Between operations, a step runs the decoded word at `opIdx`. -/
def Obligations.StepRunsHostWord : Prop :=
  ∀ s op i, s.micro = .idle → s.fetch = some op → decodeHost op.word = .ok i → step s = exec i s

/-- When the micro-sequencer is about to send a bus group, a step runs the decoded group.
That a group can stand there by itself is the model's own choice (log entry 6). -/
def Obligations.StepRunsBusGroup : Prop :=
  ∀ s g i, s.micro = .sending g → decodeGroup s.cfg.proto g = .ok i → step s = exec i (s.setMicro .idle)

/-- Rule R249: the three grounds of `ILLEGAL_OP`, and the refusal.
That the refused word appends its result (log entry 21), and that the buffer check stands in the meaning of `DISPLAY_IMAGE` (log
entry 18), are read from the rules. -/
def Obligations.IllegalWordRefused : Prop :=
  (∀ s op e, s.micro = .idle → s.fetch = some op → decodeHost op.word = .illegal e →
    step s = .next (refusedWith .illegalOp s)) ∧
  (∀ w : HostWord, (∀ r ∈ hostRows, w &&& r.mask ≠ r.bits) → ∃ e, decodeHost w = .illegal e) ∧
  (∀ w : HostWord, w.extractLsb' 0 8 = 0x30#8 ∨ w.extractLsb' 0 8 = 0x31#8 ∨ w.extractLsb' 0 8 = 0x32#8 →
    w.extractLsb' 8 2 = 3#2 → ∃ e, decodeHost w = .illegal e) ∧
  (∀ s op bwP redP, s.fetch = some op →
    (bwP = true ∧ op.imgBw.length ≠ planeBytes s.cfg) ∨ (redP = true ∧ op.imgRed.length ≠ planeBytes s.cfg) →
    exec (.displayImage bwP redP) s = .next (refusedWith .illegalOp s))

/-- The program ends when `opIdx = N` (rules R18, R21), and bytes that are no group of the command set have no meaning.
That the machine stops by these names is the model's own choice (log entry 17). -/
def Obligations.EndOfProgramStops : Prop :=
  (∀ s, s.micro = .idle → s.opIdx = s.program.length → step s = .fault .programEnded) ∧
  (∀ s g e, s.micro = .sending g → decodeGroup s.cfg.proto g = .illegal e → step s = .refused .notABusGroup)

/-- A placed opcode-table word is what the next step runs (the model's own placing, log entry 6). -/
def Obligations.PlacedWordIsRun : Prop :=
  (∀ (s : State) (w : HostWord) i, decodeHost w = .ok i →
    step (s.withFetchWord 64 w.toNat) = exec i (s.withFetchWord 64 w.toNat)) ∧
  (∀ (s : State) (b : Byte) i, decodeGroup s.cfg.proto (zeroGroup s.cfg.proto b) = .ok i →
    step (s.withFetchWord 8 b.toNat) = exec i (s.setMicro .idle))

/-! ## Construction -/

/-- Rule R39: the state at construction, for every legal choice of the parameters. -/
def Obligations.ConstructionState : Prop :=
  ∀ c : Params, c.wf → ∃ s, State.construct c = some s ∧ s.opIdx = 0 ∧ s.surf.rot = .deg0 ∧ s.surf.border = .white ∧
    packSurf s.surf = 0 ∧ s.stat.cstate = .uninitialized ∧ s.stat.begun = false ∧ s.stat.ramvBw = false ∧
    s.stat.ramvRed = false ∧ s.stat.inop = false ∧ packStat s.stat = 0 ∧ packFault s.fault = 0 ∧ s.result = 0 ∧
    s.lines.dc = none ∧ s.lines.rst = none ∧ s.lines.cs = none ∧ s.cfg = c

/-- A block is constructed exactly when its parameters are within their bounds (rules R7, R9, R200, R219). -/
def Obligations.OnlyLegalParametersConstruct : Prop :=
  ∀ c : Params, (State.construct c).isSome = true ↔
    (1 ≤ c.width ∧ c.width ≤ 2048) ∧ (1 ≤ c.height ∧ c.height ≤ 32767) ∧ 2 ≤ c.maxChunk ∧ c.proto.codes.Nodup ∧
    c.proto.rroBw ≠ c.proto.rroRed ∧ c.proto.muxBias ≤ 1 ∧
    c.proto.duc1Init ≠ [] ∧ c.proto.duc1Normal ≠ [] ∧ c.proto.duc1Fast ≠ []

/-! ## Surface operations and queries -/

/-- Rule R187: `SET_ROTATION` writes `ROT` and `RESULT = 0`, and nothing else; all four values are legal; a word with bits [63:10]
non-zero is refused and leaves `ROT`; `LW` and `LH` follow the rotation, on every panel (rule R24); and the next pixel operation checks
its bounds under the new rotation.
That the refused word appends its result is read from the rules (log entry 21). -/
def Obligations.SetRotationWritesRot : Prop :=
  (∀ (p : Proto) (r : Rotation), encode p (.setRotation r) = .word (0x40#64 ||| (r.code.setWidth 64 <<< 8)) ∧
    decodeHost (0x40#64 ||| (r.code.setWidth 64 <<< 8)) = .ok (.setRotation r)) ∧
  (∀ r s, Idle s → exec (.setRotation r) s = .next (completedWith 0 { s with surf := { s.surf with rot := r } })) ∧
  (∀ s op, s.micro = .idle → s.fetch = some op → op.word.extractLsb' 0 8 = 0x40#8 → op.word.extractLsb' 10 54 ≠ 0#54 →
    step s = .next (refusedWith .illegalOp s)) ∧
  (∀ (c : Params) (r : Rotation),
    (r = .deg0 ∨ r = .deg180 → logicalWidth c r = c.width ∧ logicalHeight c r = c.height) ∧
    (r = .deg90 ∨ r = .deg270 → logicalWidth c r = c.height ∧ logicalHeight c r = c.width)) ∧
  (∀ r s, Idle s → ∃ t, exec (.setRotation r) s = .next t ∧ Idle t ∧
    (∀ x y, inRange t.cfg t.surf.rot x y = inRange s.cfg r x y) ∧
    (∀ x y c, inRange s.cfg r x y = false → exec (.setPixel x y c) t = .next (completedWith 0 t)) ∧
    (∀ x y c, inRange s.cfg r x y = true → s.stat.begun = false →
      exec (.setPixel x y c) t = .next (completedWith 0 { t with fault := { t.fault with notBegun := true } })))

/-- Rules R189, R190, R191: the border setters write `BORDER` and `RESULT = 0`, and nothing else; their encodings and examples. -/
def Obligations.BorderSettersWriteBorder : Prop :=
  (∀ s, Idle s →
    exec .setWhiteBorder s = .next (completedWith 0 { s with surf := { s.surf with border := .white } }) ∧
    exec .setBlackBorder s = .next (completedWith 0 { s with surf := { s.surf with border := .black } }) ∧
    exec .setRedBorder s = .next (completedWith 0 { s with surf := { s.surf with border := .red } })) ∧
  (∀ p, encode p .setWhiteBorder = .word 0x41 ∧ encode p .setBlackBorder = .word 0x42 ∧ encode p .setRedBorder = .word 0x43) ∧
  decodeHost 0x41 = .ok .setWhiteBorder ∧ decodeHost 0x42 = .ok .setBlackBorder ∧ decodeHost 0x43 = .ok .setRedBorder ∧
  (∀ r, packSurf { rot := r, border := .white } = 0x00#8 ||| (r.code.setWidth 8)) ∧
  packSurf { rot := .deg0, border := .black } = 0x04#8 ∧ packSurf { rot := .deg270, border := .red } = 0x0B#8

/-- Rules R193, R194, R195: the three queries return the logical width, the logical height and the rotation, and change nothing
but `RESULT`; their encodings and examples. -/
def Obligations.QueriesReadTheSurface : Prop :=
  (∀ s, Idle s →
    exec .getWidth s = .next (completedWith (BitVec.ofNat 32 (if s.surf.rot = .deg0 ∨ s.surf.rot = .deg180 then s.cfg.width
      else s.cfg.height)) s) ∧
    exec .getHeight s = .next (completedWith (BitVec.ofNat 32 (if s.surf.rot = .deg0 ∨ s.surf.rot = .deg180 then s.cfg.height
      else s.cfg.width)) s) ∧
    exec .getRotation s = .next (completedWith (s.surf.rot.code.setWidth 32) s)) ∧
  (∀ c r, c.wf → logicalWidth c r ≤ 32767 ∧ logicalHeight c r ≤ 32767) ∧
  decodeHost 0x50 = .ok .getWidth ∧ decodeHost 0x51 = .ok .getHeight ∧ decodeHost 0x52 = .ok .getRotation ∧
  (∀ p, encode p .getWidth = .word 0x50 ∧ encode p .getHeight = .word 0x51 ∧ encode p .getRotation = .word 0x52)

/-- Rule R196: `GET_STATUS` returns `FAULT`, `STAT` with `INOP` read as 0, and `SURF`, with bits [31:24] zero, and changes nothing
but `RESULT`; the five examples. -/
def Obligations.GetStatusReadsTheRegisters : Prop :=
  (∀ s, Idle s → exec .getStatus s = .next (completedWith
    ((packFault s.fault).setWidth 32 <<< 16 ||| (packStat { s.stat with inop := false }).setWidth 32 <<< 8 |||
      (packSurf s.surf).setWidth 32) s)) ∧
  (∀ s, (statusWord s).extractLsb' 24 8 = 0#8) ∧
  decodeHost 0x53 = .ok .getStatus ∧ (∀ p, encode p .getStatus = .word 0x53) ∧
  (∀ c : Params, statusWord (State.fresh c) = 0x00000000#32) ∧
  (∀ (c : Params) b v, let s := State.fresh c
    statusWord { s with stat := { s.stat with begun := true, inop := b } } = 0x00000800#32 ∧
    statusWord { s with stat := { cstate := .ready, begun := true, ramvBw := false, ramvRed := false, inop := v } } =
      0x00000A00#32 ∧
    statusWord { s with stat := { cstate := .ready, begun := true, ramvBw := true, ramvRed := true, inop := v } } =
      0x00003A00#32 ∧
    statusWord { s with stat := { cstate := .asleep, begun := true, ramvBw := false, ramvRed := false, inop := v } } =
      0x00000C00#32)

/-! ## Entry checks -/

/-- A legal word issued while `INOP = 1` is refused with `CONCURRENT` and has no other effect (rules R255, R256, R258).
That the refused word appends its result is read from the rules (log entry 21). -/
def Obligations.ConcurrentWordRefused : Prop :=
  ∀ i s, isHostOp i = true → s.stat.inop = true →
    (∀ bwP redP, i = .displayImage bwP redP → currentImageFits bwP redP s = true) →
    exec i s = .next (refusedWith .concurrent s)

/-- Rule R251: while `BEGUN = 0`, the six line-or-bus operations are refused, and so is each in-range pixel of `SET_PIXEL` and of
the lines; no event is emitted, and nothing but `FAULT`, `RESULT` and `opIdx` changes.
That the refused operation appends its result is read from the rules (log entry 21). -/
def Obligations.NotBegunRefused : Prop :=
  ∀ s, Idle s → s.stat.begun = false →
    (∀ i ∈ [Instr.prepare, .clearDisplay, .fillBlack, .displayNormal, .displayFast],
      exec i s = .next (completedWith 0 { s with fault := { s.fault with notBegun := true } })) ∧
    (∀ bwP redP, currentImageFits bwP redP s = true →
      exec (.displayImage bwP redP) s = .next (completedWith 0 { s with fault := { s.fault with notBegun := true } })) ∧
    (∀ x y c, inRange s.cfg s.surf.rot x y = true →
      exec (.setPixel x y c) s = .next (completedWith 0 { s with fault := { s.fault with notBegun := true } })) ∧
    (∀ x y w c, exec (.drawHline x y w c) s = .next (completedWith 0
      (if (List.range w.toNat).any (fun k => inRange s.cfg s.surf.rot (x + k) y) then
        { s with fault := { s.fault with notBegun := true } } else s))) ∧
    (∀ x y h c, exec (.drawVline x y h c) s = .next (completedWith 0
      (if (List.range h.toNat).any (fun k => inRange s.cfg s.surf.rot x (y + k)) then
        { s with fault := { s.fault with notBegun := true } } else s)))

/-- A word the concurrent host issues between the first event of a running `BEGIN` and its end (rule R255): it is refused, with
`ILLEGAL_OP` if it is illegal and `CONCURRENT` otherwise (rule R257), it writes `RESULT = 0` and emits nothing; `BEGIN` then goes on
unchanged and writes its own `RESULT`. That `opIdx` counts both words is rule R245.
How the concurrent host issues its word is the model's own choice (log entry 10).
That `TB` keeps its content between operations is the model's own choice (log entry 24). -/
def Obligations.EarlyWordRefused : Prop :=
  ∀ s op rest, Idle s → s.stat.begun = false → acquireOk s = true → s.env.early = 0 :: rest → rest = [] →
    s.program[s.opIdx + 1]? = some op →
    ∃ t, exec .beginOp s = .next t ∧
      t.fault = faultSet s.fault (if legalOp s.cfg op then .concurrent else .illegalOp) ∧
      t.results = s.results ++ [0#32, 1#32] ∧ t.result = 1#32 ∧ t.opIdx = s.opIdx + 2 ∧
      t.stat = { s.stat with begun := true, inop := false } ∧
      t.trace = s.trace ++ [.acquire true] ++ (if csManaged s.cfg then [.line .cs (!s.cfg.csActive)] else []) ∧
      t.surf = s.surf ∧ t.ctl = s.ctl ∧ t.tb = s.tb ∧ t.env.early = []

/-! ## BEGIN and PREPARE -/

/-- Rule R117: the three cases of `BEGIN`, each with the whole next state. -/
def Obligations.BeginAcquires : Prop :=
  (∀ s, Idle s → SequentialHost s →
    (s.stat.begun = true → exec .beginOp s = .next (completedWith 1 s)) ∧
    (s.stat.begun = false → acquireOk s = true → exec .beginOp s = .next (completedWith 1
      { acquireNext s with
        stat := { s.stat with begun := true }
        trace := s.trace ++ [.acquire true] ++ (if csManaged s.cfg then [.line .cs (!s.cfg.csActive)] else [])
        lines := { s.lines with cs := if csManaged s.cfg then some (!s.cfg.csActive) else s.lines.cs } })) ∧
    (s.stat.begun = false → acquireOk s = false → exec .beginOp s = .next (completedWith 0
      { acquireNext s with
        fault := { s.fault with setupFail := true }
        trace := s.trace ++ [.acquire false] }))) ∧
  decodeHost 0x0000000000000001 = .ok .beginOp ∧ (∀ p, encode p .beginOp = .word 0x0000000000000001)

/-- `PREPARE` from any `CSTATE`, with the first BUSY sample deasserted: the whole trace in order, and the registers (rules R119, R121,
R125, R130, R133).
That `TB` keeps its content between operations is the model's own choice (log entry 24). -/
def Obligations.PrepareRunsToReady : Prop :=
  ∀ s, Idle s → s.stat.begun = true → Reliable s → SequentialHost s → s.cfg.wf → FirstSampleClear s →
    ∃ t, exec .prepare s = .next t ∧
      t.trace = s.trace ++ resetEvents ++ cmdEvents s.cfg s.cfg.proto.swReset ++ [.sample (!s.cfg.busyActive)] ++
        [.delay s.cfg.tSwrstSettle] ++ initEvents s.cfg s.surf.border ∧
      t.stat = { s.stat with cstate := .ready, ramvBw := false, ramvRed := false } ∧
      t.lines = linesAfterData s (some true) ∧ t.fault = s.fault ∧ t.surf = s.surf ∧ t.tb = s.tb ∧
      t.result = 0 ∧ t.results = s.results ++ [0] ∧ t.opIdx = s.opIdx + 1 ∧ t.micro = .idle ∧ t.cfg = s.cfg ∧
      t.program = s.program

/-- What `PREPARE` leaves in the reference controller (rules R202 to R207, R222; test vector V8.1), whatever state it was in.
That the controller is not busy when the soft reset comes is read from the rules (log entry 9), and its busy period ends by a sample (log entry 11). -/
def Obligations.PrepareProgramsController : Prop :=
  ∀ s, Idle s → s.stat.begun = true → Reliable s → SequentialHost s → s.cfg.wf → s.cfg.attached = .reference → FirstSampleClear s →
    ∃ t, exec .prepare s = .next t ∧ t.ctl.mode = .active ∧ t.ctl.busy = false ∧
      t.ctl.mux = BitVec.ofNat 16 (s.cfg.height - s.cfg.proto.muxBias) ∧ t.ctl.dem = s.cfg.proto.dem ∧
      t.ctl.xs = 0 ∧ t.ctl.xe = BitVec.ofNat 8 (stride s.cfg - 1) ∧ t.ctl.ys = BitVec.ofNat 16 (s.cfg.height - 1) ∧
      t.ctl.ye = 0 ∧ t.ctl.border = borderByte s.cfg.proto s.surf.border ∧ t.ctl.duc1 = s.cfg.proto.duc1Init ∧
      t.ctl.ramBw = [] ∧ t.ctl.ramRed = [] ∧ t.ctl.shown = s.ctl.shown ∧ CommandDone t.ctl

/-! ## The busy wait -/

/-- With the first sample asserted, `PREPARE` and the updates stay in their wait after one delay: `INOP` is 1, `CSTATE` is `Reset` or
`Busy`, and nothing has been written to `RESULT` (rules R28, R125, R126, R127).
That an asserted sample ends the step is the model's own choice (log entry 5). -/
def Obligations.AssertedBusySuspends : Prop :=
  (∀ s, Idle s → s.stat.begun = true → Reliable s → SequentialHost s → s.cfg.wf → FirstSampleBusy s →
    ∃ t, exec .prepare s = .next t ∧ t.micro = .waiting .softReset 1 ∧
      t.trace = s.trace ++ resetEvents ++ cmdEvents s.cfg s.cfg.proto.swReset ++ [.sample s.cfg.busyActive, .delay 1] ∧
      t.stat = { cstate := .reset, begun := true, ramvBw := false, ramvRed := false, inop := true } ∧
      t.fault = s.fault ∧ t.surf = s.surf ∧ t.result = s.result ∧ t.results = s.results ∧ t.opIdx = s.opIdx) ∧
  (∀ s i m, UpdateOp i m → Idle s → s.stat.begun = true → Reliable s → SequentialHost s → s.cfg.wf → ListensIfReference s →
    FirstSampleBusy s →
    ∃ t, exec i s = .next t ∧ t.micro = .waiting .activation 1 ∧
      t.trace = s.trace ++ activateEvents s.cfg m ++ [.sample s.cfg.busyActive, .delay 1] ∧
      t.stat = { s.stat with cstate := .busy, inop := true } ∧
      t.fault = (if updateUnprepared s then { s.fault with seqViol := true } else s.fault) ∧
      t.surf = s.surf ∧ t.result = s.result ∧ t.results = s.results ∧ t.opIdx = s.opIdx)

/-- A waiting operation whose next sample reads deasserted goes on to its end (rules R121, R127, R133, R158).
Where a step ends is the model's own choice (log entry 5). -/
def Obligations.WaitEndsAndResumes : Prop :=
  (∀ s n, s.micro = .waiting .softReset n → Reliable s → SequentialHost s → s.cfg.wf → busyAsserted s.cfg (sampleLevel s) = false →
    ∃ t, step s = .next t ∧
      t.trace = s.trace ++ [.sample (!s.cfg.busyActive), .delay s.cfg.tSwrstSettle] ++ initEvents s.cfg s.surf.border ∧
      t.stat = { s.stat with cstate := .ready, inop := false } ∧ t.fault = s.fault ∧ t.surf = s.surf ∧ t.micro = .idle ∧
      t.result = 0 ∧ t.results = s.results ++ [0] ∧ t.opIdx = s.opIdx + 1) ∧
  (∀ s n, s.micro = .waiting .activation n → Reliable s → SequentialHost s → s.cfg.wf → busyAsserted s.cfg (sampleLevel s) = false →
    ∃ t, step s = .next t ∧
      t.trace = s.trace ++ [.sample (!s.cfg.busyActive)] ++ sleepEvents s.cfg ∧
      t.stat = { s.stat with cstate := .asleep, ramvBw := false, ramvRed := false, inop := false } ∧
      t.fault = s.fault ∧ t.surf = s.surf ∧ t.micro = .idle ∧
      t.result = 0 ∧ t.results = s.results ++ [0] ∧ t.opIdx = s.opIdx + 1)

/-- A waiting operation whose next sample reads asserted, with no timeout or fewer delays than the timeout, delays 1 ms and samples
again: only the trace, the poll count and the sampled input change (rules R126, R127).
Where a step ends is the model's own choice (log entry 5). -/
def Obligations.WaitKeepsPolling : Prop :=
  ∀ s point n, s.micro = .waiting point n → SequentialHost s → busyAsserted s.cfg (sampleLevel s) = true →
    s.cfg.busyTimeoutMs = 0 ∨ n < s.cfg.busyTimeoutMs →
    step s = .next { sampleNext s with
      trace := s.trace ++ [.sample s.cfg.busyActive, .delay 1]
      micro := .waiting point (n + 1) }

/-- At the first asserted sample after `BUSY_TIMEOUT_MS` delays the wait stalls: the bit, the log record, and the abort, which emits
no line event, leaves `RAMV_*`, `BEGUN` and `SURF`, and returns `0x80000003` (rules R127, R248, R252).
Where a step ends is the model's own choice (log entry 5).
The reference controller is any value after it (rule R258); with an oracle controller, which is not part of the state, the fields of
`ctl` stay. -/
def Obligations.WaitStallsAtTimeout : Prop :=
  ∀ s point n, s.micro = .waiting point n → SequentialHost s → busyAsserted s.cfg (sampleLevel s) = true →
    s.cfg.busyTimeoutMs ≠ 0 → s.cfg.busyTimeoutMs ≤ n → (csManaged s.cfg = true → s.lines.cs ≠ some s.cfg.csActive) →
    ∃ c n, (s.cfg.attached = .oracle → c = s.ctl ∧ n = (sampleNext s).draws) ∧
      step s = .next { sampleNext s with
        trace := s.trace ++ [.sample s.cfg.busyActive, .log .stall]
        fault := { s.fault with stall := true }
        stat := { s.stat with cstate := .uninitialized, inop := false }
        result := 0x80000003#32
        results := s.results ++ [0x80000003#32]
        opIdx := s.opIdx + 1
        micro := .idle
        ctl := c
        draws := n }

/-- Rule R126: with `BUSY_TIMEOUT_MS = 0`, a BUSY line that reads asserted `k` times keeps the operation waiting for `k` turns, with
`opIdx`, `RESULT` and every register as they were: no bound cuts the wait off.
Where a step ends is the model's own choice (log entry 5). -/
def Obligations.StuckBusyNeverCompletes : Prop :=
  ∀ (k : Nat) (s : State) point n rest, s.micro = .waiting point n → SequentialHost s → s.cfg.attached = .oracle → s.cfg.busyTimeoutMs = 0 →
    s.env.samples = List.replicate k s.cfg.busyActive ++ rest →
    core.run k s = .next { s with
      trace := s.trace ++ (List.replicate k [Event.sample s.cfg.busyActive, .delay 1]).flatten
      micro := .waiting point (n + k)
      env := { s.env with samples := rest } }

/-! ## Full frames -/

/-- A full-frame operation writes the BW plane and then the RED plane, each flipped and in one data transaction, in every `CSTATE` and
rotation; it sets both `RAMV` bits and records `SEQ_VIOL` when not `Ready` (rules R145, R147 to R152).
That `TB` keeps its content between operations is the model's own choice (log entry 24). -/
def Obligations.FullFrameRuns : Prop :=
  ∀ s i bw red, FrameOp s i bw red → Idle s → s.stat.begun = true → Reliable s → SequentialHost s → s.cfg.wf →
    ∃ t, exec i s = .next t ∧
      t.trace = s.trace ++ frameEvents s.cfg bw red ∧
      t.stat = { s.stat with ramvBw := true, ramvRed := true } ∧
      t.fault = (if s.stat.cstate = .ready then s.fault else { s.fault with seqViol := true }) ∧
      t.lines = linesAfterData s s.lines.rst ∧ t.surf = s.surf ∧ t.tb = Sys2Proof.Machine.flip s.cfg red ∧
      t.result = 0 ∧ t.results = s.results ++ [0] ∧ t.opIdx = s.opIdx + 1 ∧ t.micro = .idle ∧ t.cfg = s.cfg ∧
      t.program = s.program

/-- With failed transfers in `BestEffort` mode, and whatever the concurrent host does, a full frame still sets both `RAMV` bits, a
`PREPARE` whose wait ends still reaches `Ready`, an update whose wait ends still reaches `Asleep`, and pixels and lines still complete
with `RESULT = 0` (rules R133, R145, R158, R247). -/
def Obligations.BestEffortProceeds : Prop :=
  ∀ s, Idle s → s.stat.begun = true → s.cfg.errorMode = .bestEffort → s.cfg.wf →
    (∀ i bw red, FrameOp s i bw red → ∃ t, exec i s = .next t ∧ t.result = 0 ∧ t.micro = .idle ∧
      t.stat = { s.stat with ramvBw := true, ramvRed := true }) ∧
    (s.cfg.attached = .oracle → s.env.samples.head? = some (!s.cfg.busyActive) →
      (∃ t, exec .prepare s = .next t ∧ t.result = 0 ∧ t.micro = .idle ∧
        t.stat = { s.stat with cstate := .ready, ramvBw := false, ramvRed := false }) ∧
      (∀ i m, UpdateOp i m → ∃ t, exec i s = .next t ∧ t.result = 0 ∧ t.micro = .idle ∧
        t.stat = { s.stat with cstate := .asleep, ramvBw := false, ramvRed := false })) ∧
    (∀ x y c, ∃ t, exec (.setPixel x y c) s = .next t ∧ t.result = 0 ∧ t.micro = .idle ∧ t.stat = s.stat) ∧
    (∀ x y w c, ∃ t, exec (.drawHline x y w c) s = .next t ∧ t.result = 0 ∧ t.micro = .idle ∧ t.stat = s.stat) ∧
    (∀ x y h c, ∃ t, exec (.drawVline x y h c) s = .next t ∧ t.result = 0 ∧ t.micro = .idle ∧ t.stat = s.stat)

/-- The pseudo-operations of rule R88 for frames: `CLEAR_DISPLAY` is `DISPLAY_IMAGE bw=-, red=-`, and `FILL_BLACK` is
`DISPLAY_IMAGE bw=Z, red=-` with a buffer of zeros. -/
def Obligations.ClearAndFillAreDisplayImage : Prop :=
  (∀ s, exec .clearDisplay s = exec (.displayImage false false) s) ∧
  (∀ s op, s.fetch = some op → op.imgBw = List.replicate (planeBytes s.cfg) 0x00#8 →
    exec .fillBlack s = exec (.displayImage true false) s)

/-- Rule R146: after a full frame on a controller that `PREPARE` has set up, RAM byte `(X, Y)` of each plane holds byte `Y*S + X` of the
host's plane, for every byte of the plane, and the counters are back at `(0, H-1)`. -/
def Obligations.FrameLandsInRam : Prop :=
  ∀ s i bw red, FrameOp s i bw red → Idle s → s.stat.begun = true → Reliable s → SequentialHost s → s.cfg.wf → Listening s →
    CommandDone s.ctl → s.ctl.dem = 0x01#8 → s.ctl.xs = 0 → s.ctl.xe = BitVec.ofNat 8 (stride s.cfg - 1) →
    s.ctl.ys = BitVec.ofNat 16 (s.cfg.height - 1) → s.ctl.ye = 0 →
    ∃ t, exec i s = .next t ∧
      (∀ x y, x < stride s.cfg → y < s.cfg.height →
        planeRead s.cfg t.ctl.ramBw (BitVec.ofNat 8 x) (BitVec.ofNat 16 y) = bw[y * stride s.cfg + x]? ∧
        planeRead s.cfg t.ctl.ramRed (BitVec.ofNat 8 x) (BitVec.ofNat 16 y) = red[y * stride s.cfg + x]?) ∧
      t.ctl.xc = 0 ∧ t.ctl.yc = BitVec.ofNat 16 (s.cfg.height - 1) ∧ t.ctl.shown = s.ctl.shown ∧ t.ctl.busy = false

/-- Rule R154: the event count of one full-frame transfer with `CS_MANAGED`: `27 + n` events a plane and `2 * (27 + n)` a frame, where
`n = ceil(PLANE_BYTES / MAX_CHUNK)`; 31 and 62 for 400×300 with `MAX_CHUNK = 4096`. -/
def Obligations.FullFrameEventCount : Prop :=
  (∀ c : Params, c.wf → csManaged c = true → ∀ p tb, tb.length = planeBytes c →
    (planeEvents c p tb).length = 27 + (planeBytes c + c.maxChunk - 1) / c.maxChunk) ∧
  (∀ s i bw red, FrameOp s i bw red → Idle s → s.stat.begun = true → Reliable s → SequentialHost s → s.cfg.wf → csManaged s.cfg = true →
    ∃ t, exec i s = .next t ∧
      t.trace.length = s.trace.length + 2 * (27 + (planeBytes s.cfg + s.cfg.maxChunk - 1) / s.cfg.maxChunk) ∧
      (s.cfg.width = 400 → s.cfg.height = 300 → s.cfg.maxChunk = 4096 →
        27 + (planeBytes s.cfg + s.cfg.maxChunk - 1) / s.cfg.maxChunk = 31 ∧ t.trace.length = s.trace.length + 62))

/-! ## Updates -/

/-- An update with the first BUSY sample deasserted: the whole trace in order, and the registers; `SEQ_VIOL` is recorded when not `Ready`
or when a plane is not written (rules R157 to R160). The latches are those of the last transaction of the deep-sleep group: DC as its
role, CS inactive where managed; RST stays (rules R34, R101, R102).
That `TB` keeps its content between operations is the model's own choice (log entry 24). -/
def Obligations.UpdateRunsToAsleep : Prop :=
  ∀ s i m, UpdateOp i m → Idle s → s.stat.begun = true → Reliable s → SequentialHost s → s.cfg.wf → ListensIfReference s →
    FirstSampleClear s →
    ∃ t, exec i s = .next t ∧
      t.trace = s.trace ++ activateEvents s.cfg m ++ [.sample (!s.cfg.busyActive)] ++ sleepEvents s.cfg ∧
      t.stat = { s.stat with cstate := .asleep, ramvBw := false, ramvRed := false } ∧
      t.fault = (if s.stat.cstate = .ready ∧ s.stat.ramvBw = true ∧ s.stat.ramvRed = true then s.fault
        else { s.fault with seqViol := true }) ∧
      t.surf = s.surf ∧ t.tb = s.tb ∧ t.result = 0 ∧ t.results = s.results ++ [0] ∧ t.opIdx = s.opIdx + 1 ∧ t.micro = .idle ∧
      t.cfg = s.cfg ∧ t.program = s.program ∧ t.lines.rst = s.lines.rst ∧
      t.lines.cs = (if csManaged s.cfg then some (!s.cfg.csActive) else s.lines.cs) ∧
      t.lines.dc = some (if s.cfg.proto.deepSleepData = [] then s.cfg.dcCmd else !s.cfg.dcCmd)

/-- What an update shows (rules R210, R211, R227, R228): at every native pixel whose two bytes are defined, Red if its RED bit is 1 and
RED is shown, otherwise White if its BW bit is 1, otherwise Black; the border in the one colour whose byte `border` holds; then the
controller sleeps, its RAM undefined. In the fast mode RED is shown when `FAST_SHOWS_RED` says so; in the
normal mode it is shown where the table's normal and fast settings differ, since rule R227 tells the modes apart by them.
That the image is exactly these pixels and one border colour is the model's own choice (log entry 13). -/
def Obligations.UpdateShowsTheFrame : Prop :=
  ∀ s i m, UpdateOp i m → Idle s → s.stat.begun = true → Reliable s → SequentialHost s → s.cfg.wf → Listening s → CommandDone s.ctl →
    FirstSampleClear s →
    (m = .normal → s.cfg.proto.duc1Normal ≠ s.cfg.proto.duc1Fast ∨ s.cfg.proto.duc2Normal ≠ s.cfg.proto.duc2Fast) →
    ∃ t img, exec i s = .next t ∧ t.ctl.shown = some img ∧ t.ctl.mode = .asleep ∧ t.ctl.ramBw = [] ∧ t.ctl.ramRed = [] ∧
      img.pixels.length = s.cfg.width * s.cfg.height ∧
      (∀ nx ny b r, nx < s.cfg.width → ny < s.cfg.height →
        planeRead s.cfg s.ctl.ramBw (BitVec.ofNat 8 (nx / 8)) (BitVec.ofNat 16 ny) = some b →
        planeRead s.cfg s.ctl.ramRed (BitVec.ofNat 8 (nx / 8)) (BitVec.ofNat 16 ny) = some r →
        img.pixels[ny * s.cfg.width + nx]? = some
          (if r.getLsbD (7 - nx % 8) = true ∧ (m = .normal ∨ s.cfg.fastShowsRed = true) then .red
            else if b.getLsbD (7 - nx % 8) = true then .white else .black)) ∧
      (∀ k : Colour, s.ctl.border = borderByte s.cfg.proto k → (∀ j, borderByte s.cfg.proto j = borderByte s.cfg.proto k → j = k) →
        img.border = k)

/-! ## Pixels and lines -/

/-- Rule R170: the bounds check on logical coordinates is the check of the native ones, and an out-of-range pixel is a no-op: no event,
no fault (in any `CSTATE`, begun or not), all state other than `RESULT` (and `opIdx`) unchanged, `RESULT = 0`. -/
def Obligations.OutOfRangePixelIsNothing : Prop :=
  (∀ c r x y, inRange c r x y = true ↔
    (0 ≤ x ∧ x < (logicalWidth c r : Int)) ∧ (0 ≤ y ∧ y < (logicalHeight c r : Int))) ∧
  (∀ c r x y, inRange c r x y = true ↔
    (0 ≤ (toNative c r x y).1 ∧ (toNative c r x y).1 < c.width) ∧ (0 ≤ (toNative c r x y).2 ∧ (toNative c r x y).2 < c.height)) ∧
  (∀ s x y c, Idle s → inRange s.cfg s.surf.rot x y = false → exec (.setPixel x y c) s = .next (completedWith 0 s))

/-- An in-range pixel after `BEGIN`: read BW, read RED, write BW, write RED at the native pixel's byte, the written bytes being the read
ones with the one bit changed; `SEQ_VIOL` is recorded when not `Ready`, and no `RAMV` bit is written (rules R171, R174 to R178).
That `TB` keeps its content between operations is the model's own choice (log entry 24). -/
def Obligations.PixelReadsThenWrites : Prop :=
  ∀ s x y c, Idle s → s.stat.begun = true → Reliable s → SequentialHost s → s.cfg.wf → inRange s.cfg s.surf.rot x y = true →
    ∃ t b r, ∃ nx ny : Nat, exec (.setPixel x y c) s = .next t ∧
      toNative s.cfg s.surf.rot x y = ((nx : Int), (ny : Int)) ∧ nx / 8 < stride s.cfg ∧ ny < s.cfg.height ∧
      t.trace = s.trace ++ readRamEvents s.cfg .bw (nx / 8) ny b ++ readRamEvents s.cfg .red (nx / 8) ny r ++
        writeRamEvents s.cfg .bw (nx / 8) ny (modifyBw s.cfg (b.getD 1 0) (1#8 <<< (7 - nx % 8)) c) ++
        writeRamEvents s.cfg .red (nx / 8) ny (modifyRed (r.getD 1 0) (1#8 <<< (7 - nx % 8)) c) ∧
      b.length = 2 ∧ r.length = 2 ∧ t.stat = s.stat ∧
      t.fault = (if s.stat.cstate = .ready then s.fault else { s.fault with seqViol := true }) ∧
      t.surf = s.surf ∧ t.tb = s.tb ∧ t.lines = linesAfterData s s.lines.rst ∧
      t.result = 0 ∧ t.results = s.results ++ [0] ∧ t.opIdx = s.opIdx + 1 ∧ t.micro = .idle

/-- On the reference controller, `SET_PIXEL` changes the target bit of its byte in each plane, by the colour table of rule R176, and
every other byte of both planes reads as before, whatever the data-entry mode (rules R52, R173, R174, R223, R225). -/
def Obligations.PixelChangesItsBit : Prop :=
  ∀ s x y c b r, Idle s → s.stat.begun = true → Reliable s → SequentialHost s → s.cfg.wf → Listening s → CommandDone s.ctl →
    inRange s.cfg s.surf.rot x y = true →
    let nx := (toNative s.cfg s.surf.rot x y).1.toNat
    let ny := (toNative s.cfg s.surf.rot x y).2.toNat
    let xb := BitVec.ofNat 8 (nx / 8)
    let yr := BitVec.ofNat 16 ny
    planeRead s.cfg s.ctl.ramBw xb yr = some b → planeRead s.cfg s.ctl.ramRed xb yr = some r →
    ∃ t, exec (.setPixel x y c) s = .next t ∧
      planeRead s.cfg t.ctl.ramBw xb yr = some ((b &&& ~~~(1#8 <<< (7 - nx % 8))) |||
        (if c = pixBwColour s.cfg.pixBwSetFor then 1#8 <<< (7 - nx % 8) else 0)) ∧
      planeRead s.cfg t.ctl.ramRed xb yr = some ((r &&& ~~~(1#8 <<< (7 - nx % 8))) |||
        (if c = .red then 1#8 <<< (7 - nx % 8) else 0)) ∧
      (∀ X Y, X ≠ xb ∨ Y ≠ yr →
        planeRead s.cfg t.ctl.ramBw X Y = planeRead s.cfg s.ctl.ramBw X Y ∧
        planeRead s.cfg t.ctl.ramRed X Y = planeRead s.cfg s.ctl.ramRed X Y) ∧
      t.ctl.shown = s.ctl.shown ∧ t.ctl.mode = .active ∧ t.ctl.busy = false

/-- Lines iterate `SET_PIXEL` (rules R88, R179 to R181): drawing the first pixel and then the rest of the line gives the same trace, fault
bits, controller, lines and registers as the whole line, where no transfer aborts; a line completes with `RESULT = 0` and one `opIdx`.
That `TB` keeps its content between operations is the model's own choice (log entry 24). -/
def Obligations.LinesIteratePixels : Prop :=
  (∀ s x y (n : Nat) c, Idle s → SequentialHost s → NoBusAbort s →
    ∃ t u v, exec (.drawHline x y ((n : Int) + 1) c) s = .next t ∧ exec (.setPixel x y c) s = .next u ∧
      exec (.drawHline (x + 1) y (n : Int) c) u = .next v ∧
      t.trace = v.trace ∧ t.fault = v.fault ∧ t.ctl = v.ctl ∧ t.lines = v.lines ∧ t.stat = v.stat ∧ t.surf = v.surf ∧
      t.tb = v.tb ∧ t.env = v.env ∧ t.draws = v.draws ∧
      t.result = 0 ∧ t.results = s.results ++ [0] ∧ t.opIdx = s.opIdx + 1) ∧
  (∀ s x y (n : Nat) c, Idle s → SequentialHost s → NoBusAbort s →
    ∃ t u v, exec (.drawVline x y ((n : Int) + 1) c) s = .next t ∧ exec (.setPixel x y c) s = .next u ∧
      exec (.drawVline x (y + 1) (n : Int) c) u = .next v ∧
      t.trace = v.trace ∧ t.fault = v.fault ∧ t.ctl = v.ctl ∧ t.lines = v.lines ∧ t.stat = v.stat ∧ t.surf = v.surf ∧
      t.tb = v.tb ∧ t.env = v.env ∧ t.draws = v.draws ∧
      t.result = 0 ∧ t.results = s.results ++ [0] ∧ t.opIdx = s.opIdx + 1)

/-- A line of length zero or less draws nothing, emits nothing and sets no fault, before or after `BEGIN` (rules R88, R179, R180). -/
def Obligations.EmptyLineDrawsNothing : Prop :=
  ∀ s x y w c, Idle s → w ≤ 0 →
    exec (.drawHline x y w c) s = .next (completedWith 0 s) ∧ exec (.drawVline x y w c) s = .next (completedWith 0 s)

/-! ## The pure maps -/

/-- Rule R142: `flip` is its own inverse on every plane; row `y` goes to row `H-1-y`, and so twice to row `y`. -/
def Obligations.FlipIsItsOwnInverse : Prop :=
  (∀ (c : Params) (buf : List Byte), buf.length = planeBytes c →
    Sys2Proof.Machine.flip c (Sys2Proof.Machine.flip c buf) = buf) ∧
  (∀ (c : Params) (buf : List Byte) (y i : Nat), buf.length = planeBytes c → y < c.height → i < stride c →
    (Sys2Proof.Machine.flip c buf)[(c.height - 1 - y) * stride c + i]? = buf[y * stride c + i]? ∧
    c.height - 1 - (c.height - 1 - y) = y)

/-- Rule R104: the chunks of a payload: their count, their sizes, their concatenation, and the one framing window they share. -/
def Obligations.ChunksConcatenate : Prop :=
  (∀ (size : Nat) (payload : List Byte), 1 ≤ size →
    (chunks size payload).length = (payload.length + size - 1) / size ∧
    (chunks size payload).flatten = payload ∧
    (∀ k ch, (chunks size payload)[k]? = some ch →
      (k + 1 < (chunks size payload).length → ch.length = size) ∧
      (k + 1 = (chunks size payload).length → ch.length = payload.length - k * size) ∧ 1 ≤ ch.length ∧ ch.length ≤ size)) ∧
  (∀ s payload r, Reliable s → SequentialHost s → 1 ≤ s.cfg.maxChunk → ∃ t, frame r payload s = .cont t ∧
    t.trace = s.trace ++ [.line .dc (dcLevel s.cfg r)] ++ (if csManaged s.cfg then [.line .cs s.cfg.csActive] else []) ++
      (chunks s.cfg.maxChunk payload).map (fun ch => .xfer ch true) ++
      (if csManaged s.cfg then [.line .cs (!s.cfg.csActive)] else []))

/-- Rule R169: `toLogical` is the inverse of `toNative` on every integer pair, both ways, the table of the inverse, and `toNative` is
one-to-one from the logical grid onto the native grid. -/
def Obligations.RotationIsABijection : Prop :=
  (∀ c nx ny, toLogical c .deg0 nx ny = (nx, ny) ∧ toLogical c .deg90 nx ny = (ny, c.width - 1 - nx) ∧
    toLogical c .deg180 nx ny = (c.width - 1 - nx, c.height - 1 - ny) ∧ toLogical c .deg270 nx ny = (c.height - 1 - ny, nx)) ∧
  (∀ c r x y, toLogical c r (toNative c r x y).1 (toNative c r x y).2 = (x, y)) ∧
  (∀ c r x y x' y', toNative c r x y = toNative c r x' y' → x = x' ∧ y = y') ∧
  (∀ c r x y, (0 ≤ x ∧ x < (logicalWidth c r : Int) ∧ 0 ≤ y ∧ y < (logicalHeight c r : Int)) →
    0 ≤ (toNative c r x y).1 ∧ (toNative c r x y).1 < c.width ∧ 0 ≤ (toNative c r x y).2 ∧ (toNative c r x y).2 < c.height) ∧
  (∀ c r (nx ny : Int), (0 ≤ nx ∧ nx < c.width ∧ 0 ≤ ny ∧ ny < c.height) →
    ∃ x y, (0 ≤ x ∧ x < (logicalWidth c r : Int) ∧ 0 ≤ y ∧ y < (logicalHeight c r : Int)) ∧ toNative c r x y = (nx, ny))

/-- Rule R172: the eight masks, each with exactly one bit set, all distinct. -/
def Obligations.PixelMasksAreSingleBits : Prop :=
  (List.range 8).map pixelMask = [0x80#8, 0x40#8, 0x20#8, 0x10#8, 0x08#8, 0x04#8, 0x02#8, 0x01#8] ∧
  (∀ nx i, (pixelMask nx).getLsbD i = true ↔ i = 7 - nx % 8) ∧
  (∀ nx nx', pixelMask nx = pixelMask nx' ↔ nx % 8 = nx' % 8)

/-! ## The bus commands -/

/-- The 17 bus commands, whatever is attached: each sends exactly its group, and leaves every register of the block, the results and
`opIdx` alone (rules R83, R85, R105, R109).
A bus command by itself, with no entry check, is the model's own choice (log entry 16).
That `TB` keeps its content between operations is the model's own choice (log entry 24). -/
def Obligations.BusCommandsSendTheirGroups : Prop :=
  ∀ s i, isHostOp i = false → Reliable s → SequentialHost s → s.cfg.wf →
    ∃ t, exec i s = .next t ∧ t.trace = s.trace ++ busEvents s.cfg t.rx i ∧ SameBlock s t ∧ t.fault = s.fault ∧
      t.result = s.result ∧ t.results = s.results ∧ t.opIdx = s.opIdx ∧ t.lines.rst = s.lines.rst ∧
      t.lines.cs = (if csManaged s.cfg then some (!s.cfg.csActive) else s.lines.cs) ∧
      (s.cfg.attached = .oracle → t.ctl = s.ctl)

/-- The register commands on the reference controller (rules R202 to R209, R214, R216, R217): each writes its field, low byte first, and
every other field, both planes among them, is as before.
A bus command by itself is the model's own choice (log entry 16). -/
def Obligations.SettingCommandsWriteTheirField : Prop :=
  ∀ s, Listening s → Reliable s → SequentialHost s → s.cfg.wf → CommandDone s.ctl →
    (∀ a b d, ∃ t, exec (.driverOutputControl a b d) s = .next t ∧
      t.ctl = { s.ctl with mux := b ++ a, cmd := some .driverOutputControl, got := 3 }) ∧
    (∀ a, ∃ t, exec (.dataEntryMode a) s = .next t ∧ t.ctl = { s.ctl with dem := a, cmd := some .dataEntryMode, got := 1 }) ∧
    (∀ a b, ∃ t, exec (.setRamXWindow a b) s = .next t ∧
      t.ctl = { s.ctl with xs := a, xe := b, cmd := some .setRamXWindow, got := 2 }) ∧
    (∀ a b d e, ∃ t, exec (.setRamYWindow a b d e) s = .next t ∧
      t.ctl = { s.ctl with ys := b ++ a, ye := e ++ d, cmd := some .setRamYWindow, got := 4 }) ∧
    (∀ a, ∃ t, exec (.borderWaveform a) s = .next t ∧ t.ctl = { s.ctl with border := a, cmd := some .borderWaveform, got := 1 }) ∧
    (∀ d, d ≠ [] → ∃ t, exec (.displayUpdateControl1 d) s = .next t ∧
      t.ctl = { s.ctl with duc1 := d, cmd := some .displayUpdateControl1, got := d.length }) ∧
    (∀ a, ∃ t, exec (.tempSensorSelect a) s = .next t ∧ t.ctl = { s.ctl with temp := a, cmd := some .tempSensorSelect, got := 1 }) ∧
    (∀ a, ∃ t, exec (.displayUpdateControl2 a) s = .next t ∧
      t.ctl = { s.ctl with duc2 := a, cmd := some .displayUpdateControl2, got := 1 }) ∧
    (∀ a, ∃ t pl, exec (.readRamOption a) s = .next t ∧
      t.ctl = { s.ctl with readSel := pl, cmd := some .readRamOption, got := 1 } ∧
      (a = s.cfg.proto.rroBw → pl = .bw) ∧ (a = s.cfg.proto.rroRed → pl = .red)) ∧
    (∀ a, ∃ t, exec (.setRamXCounter a) s = .next t ∧ t.ctl = { s.ctl with xc := a, cmd := some .setRamXCounter, got := 1 }) ∧
    (∀ a b, ∃ t, exec (.setRamYCounter a b) s = .next t ∧
      t.ctl = { s.ctl with yc := b ++ a, cmd := some .setRamYCounter, got := 2 })

/-- `SW_RESET`, `MASTER_ACTIVATION` and `DEEP_SLEEP` on the reference controller (rules R201, R210, R211, R226, R228): the first two make
it busy, the first leaves RAM and the image, the second shows the staged RAM, the third puts it to sleep with RAM undefined and the image
kept. `MASTER_ACTIVATION` keeps every other register, and begins the environment's next busy period.
What image is shown (log entry 13) and a bus command by itself (log entry 16) are the model's own choices; when within its group a
command takes effect (log entry 15), and that a busy period counts samples (log entry 11), are read from the rules. -/
def Obligations.PowerCommandsActOnController : Prop :=
  ∀ s, Listening s → Reliable s → SequentialHost s → s.cfg.wf → CommandDone s.ctl →
    (∃ t, exec .swReset s = .next t ∧ t.ctl.busy = true ∧ t.ctl.mode = .active ∧ t.ctl.ramBw = s.ctl.ramBw ∧
      t.ctl.ramRed = s.ctl.ramRed ∧ t.ctl.shown = s.ctl.shown) ∧
    (∃ t k, exec .masterActivation s = .next t ∧ (∀ m, s.ctl.busyPlan.head? = some m → k = m) ∧
      t.ctl = { s.ctl with
        busy := true
        busyLeft := k
        busyPlan := s.ctl.busyPlan.tail
        shown := some (Controller.image s.cfg s.ctl s.draws)
        cmd := some .masterActivation
        got := 0 }) ∧
    (∀ d, d.length = s.cfg.proto.deepSleepData.length →
      ∃ t, exec (.deepSleep d) s = .next t ∧ t.ctl.mode = .asleep ∧ t.ctl.ramBw = [] ∧ t.ctl.ramRed = [] ∧
        t.ctl.shown = s.ctl.shown)

/-- The RAM-write commands on the reference controller (rules R212, R213, R223): one byte goes to the counters' byte, which reads back, and
every other byte of both planes is as before; a block of bytes is written byte by byte, in order, whatever its chunks.
A bus command by itself is the model's own choice (log entry 16).
That a write with the counters outside the plane stores nothing (log entry 7), and where counters outside their windows go (log entry
22), are the model's own choices. -/
def Obligations.RamWriteCommandsStore : Prop :=
  ∀ s, Listening s → Reliable s → SequentialHost s → s.cfg.wf → CommandDone s.ctl → s.ctl.dem = 0x01#8 →
    (∀ b, ∃ t, exec (.writeRamBw [b]) s = .next t ∧
      (inPlane s.cfg s.ctl.xc s.ctl.yc = true → planeRead s.cfg t.ctl.ramBw s.ctl.xc s.ctl.yc = some b) ∧
      (∀ X Y, X ≠ s.ctl.xc ∨ Y ≠ s.ctl.yc → planeRead s.cfg t.ctl.ramBw X Y = planeRead s.cfg s.ctl.ramBw X Y) ∧
      t.ctl.ramRed = s.ctl.ramRed) ∧
    (∀ b, ∃ t, exec (.writeRamRed [b]) s = .next t ∧
      (inPlane s.cfg s.ctl.xc s.ctl.yc = true → planeRead s.cfg t.ctl.ramRed s.ctl.xc s.ctl.yc = some b) ∧
      (∀ X Y, X ≠ s.ctl.xc ∨ Y ≠ s.ctl.yc → planeRead s.cfg t.ctl.ramRed X Y = planeRead s.cfg s.ctl.ramRed X Y) ∧
      t.ctl.ramBw = s.ctl.ramBw) ∧
    (∀ d, ∃ t, exec (.writeRamBw d) s = .next t ∧
      t.ctl = { d.foldl (fun c b => Controller.ramWrite s.cfg c 0 .bw b) s.ctl with cmd := some .writeRamBw, got := d.length }) ∧
    (∀ d, ∃ t, exec (.writeRamRed d) s = .next t ∧
      t.ctl = { d.foldl (fun c b => Controller.ramWrite s.cfg c 0 .red b) s.ctl with cmd := some .writeRamRed, got := d.length })

/-- `READ_RAM` on the reference controller (rules R109, R215, R225): the second byte received is the selected plane's byte at the counters,
which then advance once; both planes are unchanged.
A bus command by itself is the model's own choice (log entry 16).
Where counters outside their windows go is the model's own choice (log entry 22). -/
def Obligations.ReadRamReturnsTheByte : Prop :=
  ∀ s v, Listening s → Reliable s → SequentialHost s → s.cfg.wf → CommandDone s.ctl → s.ctl.dem = 0x01#8 →
    planeRead s.cfg (Controller.plane s.ctl s.ctl.readSel) s.ctl.xc s.ctl.yc = some v →
    ∃ t dummy, exec .readRam s = .next t ∧ t.rx = [dummy, v] ∧
      t.ctl = { Controller.advance s.ctl 0 with rdPhase := 2, cmd := some .readRam, got := 0 }

/-- Rule R224: the counter advance for `dem = 0x01`, and the walk with the block's windows: from `(0, H-1)`, after `k < S*H` bytes the
counters are at `(k mod S, H-1 - k div S)`, so that every byte is visited once, and after `S*H` they are back at `(0, H-1)`.
That `xc + 1` and `yc - 1` wrap outside the windows is the model's own choice (log entry 22); the walk never reaches it. -/
def Obligations.CountersWalkThePlane : Prop :=
  (∀ (c : Controller) n, c.dem = 0x01#8 → Controller.advance c n =
    (if c.xc ≠ c.xe then { c with xc := c.xc + 1 }
      else if c.yc ≠ c.ye then { c with xc := c.xs, yc := c.yc - 1 } else { c with xc := c.xs, yc := c.ys })) ∧
  (∀ (p : Params) (c : Controller) (n : Nat), p.wf → c.dem = 0x01#8 → c.xs = 0 → c.xe = BitVec.ofNat 8 (stride p - 1) →
    c.ys = BitVec.ofNat 16 (p.height - 1) → c.ye = 0 → c.xc = 0 → c.yc = BitVec.ofNat 16 (p.height - 1) →
    (∀ k, k < planeBytes p →
      Nat.iterate (fun c => Controller.advance c n) k c =
        { c with xc := BitVec.ofNat 8 (k % stride p), yc := BitVec.ofNat 16 (p.height - 1 - k / stride p) }) ∧
    Nat.iterate (fun c => Controller.advance c n) (planeBytes p) c = c)

/-- A sleeping reference controller ignores every bus command (rule R228), and so does one held in reset (rule R222); one that was never
reset stays `Off` (rule R221), whatever else the traffic does to it.
A bus command by itself is the model's own choice (log entry 16). -/
def Obligations.SleepingControllerIgnores : Prop :=
  ∀ s i, isHostOp i = false → Reliable s → SequentialHost s → s.cfg.wf → s.cfg.attached = .reference →
    ∃ t, exec i s = .next t ∧ (s.ctl.mode = .asleep ∨ heldInReset s = true → t.ctl = s.ctl) ∧
      (s.ctl.mode = .off → t.ctl.mode = .off)

/-! ## Faults -/

/-- `Strict` mode: every instruction answers a next state, and it and every step, a turn of a wait too, end with no failed transfer, or
at the first failed one: the log record only if `BUS_FAIL` was 0, CS deasserted, `CSTATE = Uninitialized`, `RESULT = 0x80000002`, and
`BEGUN` and `SURF` unchanged; the rest of the operation, a line's remaining pixels too, is not run (rules R247, R252). And
`CLEAR_DISPLAY` with its first transfer failing, whole.
A bus command by itself is the model's own choice (log entry 16). -/
def Obligations.StrictBusFailureAborts : Prop :=
  (∀ i s, SequentialHost s → s.cfg.wf → s.cfg.errorMode = .strict → ∃ t, exec i s = .next t ∧ StrictEnd s t) ∧
  (∀ s t, SequentialHost s → s.cfg.wf → s.cfg.errorMode = .strict → step s = .next t → StrictEnd s t) ∧
  (∀ s as bs, Idle s → s.stat.begun = true → SequentialHost s → s.cfg.wf → s.cfg.errorMode = .strict →
      s.env.backend = .scripted as (false :: bs) →
      ∃ t, exec .clearDisplay s = .next t ∧
        t.trace = s.trace ++ [.line .dc s.cfg.dcCmd] ++ (if csManaged s.cfg then [.line .cs s.cfg.csActive] else []) ++
          [.xfer [s.cfg.proto.setRamXCounter] false] ++ (if s.fault.busFail then [] else [.log .busFail]) ++
          (if csManaged s.cfg then [.line .cs (!s.cfg.csActive)] else []) ∧
        t.stat = { s.stat with cstate := .uninitialized } ∧
        t.fault = { s.fault with busFail := true, seqViol := s.fault.seqViol || decide (s.stat.cstate ≠ .ready) } ∧
        t.result = 0x80000002#32 ∧ t.results = s.results ++ [0x80000002#32] ∧ t.opIdx = s.opIdx + 1 ∧ t.surf = s.surf ∧
        t.micro = .idle ∧ t.lines.dc = some s.cfg.dcCmd)

/-- In `BestEffort` mode, whatever the answers to its transfers, a transaction of any role and payload goes on: every chunk goes out
once, in order, the first failure is logged unless `BUS_FAIL` was set already, `BUS_FAIL` is set if any failed, CS is deasserted at the
end, and nothing else of the block changes; so for an inbound transaction (rules R103, R109, R247). And `MASTER_ACTIVATION` with its
transfer failing, whole.
A bus command by itself is the model's own choice (log entry 16).
That `TB` keeps its content between operations is the model's own choice (log entry 24). -/
def Obligations.BestEffortLogsOnce : Prop :=
  (∀ s r payload as oks bs, SequentialHost s → s.cfg.wf → s.cfg.errorMode = .bestEffort → s.env.backend = .scripted as (oks ++ bs) →
    oks.length = (chunks s.cfg.maxChunk payload).length →
    ∃ t, frame r payload s = .cont t ∧
      t.trace = s.trace ++ [.line .dc (dcLevel s.cfg r)] ++ (if csManaged s.cfg then [.line .cs s.cfg.csActive] else []) ++
        chunkEvents s.fault.busFail (chunks s.cfg.maxChunk payload) oks ++ csRelease s.cfg ∧
      t.fault = { s.fault with busFail := s.fault.busFail || oks.any (fun ok => !ok) } ∧ SameBlock s t ∧ t.result = s.result ∧
      t.results = s.results ∧ t.opIdx = s.opIdx ∧ t.env = { s.env with backend := .scripted as bs }) ∧
  (∀ s n as ok bs, SequentialHost s → s.cfg.wf → s.cfg.errorMode = .bestEffort → s.env.backend = .scripted as (ok :: bs) →
    ∃ t, readFrame n s = .cont t ∧
      t.trace = s.trace ++ [.line .dc (!s.cfg.dcCmd)] ++ (if csManaged s.cfg then [.line .cs s.cfg.csActive] else []) ++
        [.xferIn n t.rx ok] ++ (if ok then [] else busFailLog s) ++ csRelease s.cfg ∧ t.rx.length = n ∧
      t.fault = { s.fault with busFail := s.fault.busFail || !ok } ∧ SameBlock s t ∧ t.result = s.result ∧
      t.results = s.results ∧ t.opIdx = s.opIdx ∧ t.env.backend = .scripted as bs) ∧
  (∀ s as bs, SequentialHost s → s.cfg.wf → s.cfg.errorMode = .bestEffort → s.env.backend = .scripted as (false :: bs) →
    ∃ t, exec .masterActivation s = .next t ∧
      t.trace = s.trace ++ [.line .dc s.cfg.dcCmd] ++ (if csManaged s.cfg then [.line .cs s.cfg.csActive] else []) ++
        [.xfer [s.cfg.proto.masterActivation] false] ++ (if s.fault.busFail then [] else [.log .busFail]) ++
        (if csManaged s.cfg then [.line .cs (!s.cfg.csActive)] else []) ∧
      t.fault = { s.fault with busFail := true } ∧ SameBlock s t ∧ t.result = s.result ∧ t.results = s.results ∧
      t.opIdx = s.opIdx ∧ t.env = { s.env with backend := .scripted as bs })

/-! ## The whole machine -/

/-- Rule R32: a `FAULT` bit, once set, stays set through every step; construction sets `FAULT` to 0. -/
def Obligations.FaultsAreSticky : Prop :=
  (∀ s t, s.cfg.wf → step s = .next t → ∀ b, faultGet s.fault b = true → faultGet t.fault b = true) ∧
  (∀ c b, faultGet (State.fresh c).fault b = false)

/-- What no step does, in any state with legal parameters: change the parameters or the program, clear `BEGUN`, take an event or a result back, move `opIdx` back,
drive CS where it is unmanaged, or change `SURF` other than by `SET_ROTATION` and the border setters, which write their own field: no
fault, no abort, no `PREPARE` and no update does (rules R21, R22, R23, R29, R34, R69, R199).
That each word, a refused one too, has its result is read from the rules (log entry 21). -/
def Obligations.LifetimeFactsHold : Prop :=
  ∀ s t, s.cfg.wf → step s = .next t →
    t.cfg = s.cfg ∧ t.program = s.program ∧ (s.stat.begun = true → t.stat.begun = true) ∧ s.trace <+: t.trace ∧
    s.results <+: t.results ∧ t.opIdx + s.results.length = s.opIdx + t.results.length ∧ s.opIdx ≤ t.opIdx ∧
    (csManaged s.cfg = false → t.lines.cs = s.lines.cs) ∧
    (t.surf = s.surf ∨ ∃ op, s.micro = .idle ∧ s.fetch = some op ∧
      ((∃ r, decodeHost op.word = .ok (.setRotation r) ∧ t.surf = { s.surf with rot := r }) ∨
       (decodeHost op.word = .ok .setWhiteBorder ∧ t.surf = { s.surf with border := .white }) ∨
       (decodeHost op.word = .ok .setBlackBorder ∧ t.surf = { s.surf with border := .black }) ∨
       (decodeHost op.word = .ok .setRedBorder ∧ t.surf = { s.surf with border := .red })))

/-- Rule R28: the only instructions, and the only steps, that change `CSTATE`, and to what: `PREPARE` after `BEGIN` (to `Reset` while it
waits, to `Ready` when it ends), an update after `BEGIN` (to `Busy`, to `Asleep`), a turn of a wait (from `Reset` to `Ready`, from `Busy`
to `Asleep`), and an abort (to `Uninitialized`, with the abort's result).
Where a step ends is the model's own choice (log entry 5). -/
def Obligations.CstateChangesOnlyByRule : Prop :=
  (∀ i s t, s.cfg.wf → exec i s = .next t → t.stat.cstate ≠ s.stat.cstate →
    (i = .prepare ∧ s.stat.begun = true ∧ (t.stat.cstate = .reset ∧ t.stat.inop = true ∨ t.stat.cstate = .ready)) ∨
    ((i = .displayNormal ∨ i = .displayFast) ∧ s.stat.begun = true ∧
      (t.stat.cstate = .busy ∧ t.stat.inop = true ∨ t.stat.cstate = .asleep)) ∨
    (t.stat.cstate = .uninitialized ∧ (t.result = 0x80000002#32 ∨ t.result = 0x80000003#32))) ∧
  (∀ s t, BlockInv s → step s = .next t → t.stat.cstate ≠ s.stat.cstate →
    (∃ op, s.micro = .idle ∧ s.fetch = some op ∧ decodeHost op.word = .ok .prepare ∧ s.stat.begun = true ∧
      (t.stat.cstate = .reset ∧ t.stat.inop = true ∨ t.stat.cstate = .ready ∧ t.stat.inop = false)) ∨
    (∃ op, s.micro = .idle ∧ s.fetch = some op ∧
      (decodeHost op.word = .ok .displayNormal ∨ decodeHost op.word = .ok .displayFast) ∧ s.stat.begun = true ∧
      (t.stat.cstate = .busy ∧ t.stat.inop = true ∨ t.stat.cstate = .asleep ∧ t.stat.inop = false)) ∨
    ((∃ n, s.micro = .waiting .softReset n) ∧ s.stat.cstate = .reset ∧ t.stat.cstate = .ready ∧ t.stat.inop = false) ∨
    ((∃ n, s.micro = .waiting .activation n) ∧ s.stat.cstate = .busy ∧ t.stat.cstate = .asleep ∧ t.stat.inop = false) ∨
    (t.stat.cstate = .uninitialized ∧ t.stat.inop = false ∧
      (t.result = 0x80000002#32 ∧ t.fault.busFail = true ∨ t.result = 0x80000003#32 ∧ t.fault.stall = true)))

/-- The invariant of the machine holds at construction, with any legal parameters, program and environment, and so does the agreement
of rule R229 (with the reference controller, a reliable backend and the sequential host).
The length of the transfer buffer at construction is the model's own choice (log entry 4). -/
def Obligations.InvariantAtConstruction : Prop :=
  (∀ c prog env, c.wf → BlockInv { State.fresh c with program := prog, env := env }) ∧ BlockInv State.reset ∧
  (∀ c prog env, c.wf → c.attached = .reference → env.backend = .reliable → env.early = [] →
    Agrees { State.fresh c with program := prog, env := env })

/-- Every step keeps the invariant: canonical RAM, `INOP` exactly inside a busy wait, `CSTATE` as the host may see it, nothing before
`BEGIN`, one result for each operation and the last in `RESULT`, CS never left asserted, and the transfer buffer one plane long.
That each word, a refused one too, has its result is read from the rules (log entry 21). -/
def Obligations.StepKeepsInvariant : Prop :=
  ∀ s t, BlockInv s → step s = .next t → BlockInv t

/-- Rule R229: with the reference controller, a reliable backend and the sequential host, the block's view and the controller's mode agree,
and every step keeps it so, as long as no fault bit is set.
It rests on log entries 9 and 11 for the controller's busy flag. -/
def Obligations.StepKeepsAgreement : Prop :=
  ∀ s t, BlockInv s → Agrees s → step s = .next t → Agrees t

/-- Every step appends whole transactions, framed as the rules ask: DC before the first transfer and not changed inside, CS asserted strictly
around each transaction, command transactions of one code of `PROTO`, data transfers of at most `MAX_CHUNK` bytes, and no other line or wait
inside (rules R55, R65, R82, R101, R102, R104, R280); CS is not asserted in the state the step starts from. -/
def Obligations.StepsAreWellFramed : Prop :=
  ∀ s t, BlockInv s → step s = .next t → ∃ ev, t.trace = s.trace ++ ev ∧ WellFramed s.cfg ev

/-- `Strict` mode, a full-frame operation whose transfer number `k` is its first to fail: the events of the whole frame up to that
transfer, then the log record only if `BUS_FAIL` was 0, and CS deasserted; `RAMV_BW` is set exactly when the whole BW plane went out
before, `RAMV_RED` stays, and `BEGUN`, `SURF` and the other fault bits stay but `SEQ_VIOL`, set when not `Ready` (rules R145, R247, R252;
test vector V3.12). -/
def Obligations.StrictFrameFailureKeepsRamv : Prop :=
  ∀ s i bw red k as bs, FrameOp s i bw red → Idle s → s.stat.begun = true → SequentialHost s → s.cfg.wf → s.cfg.errorMode = .strict →
    s.env.backend = .scripted as (List.replicate k true ++ false :: bs) →
    k < 2 * (6 + (chunks s.cfg.maxChunk bw).length) →
    ∃ t, exec i s = .next t ∧
      t.trace = s.trace ++ failAt k (frameEvents s.cfg bw red) ++ busFailLog s ++ csRelease s.cfg ∧
      t.stat = { s.stat with cstate := .uninitialized,
                             ramvBw := s.stat.ramvBw || decide (6 + (chunks s.cfg.maxChunk bw).length ≤ k) } ∧
      t.fault = { s.fault with busFail := true, seqViol := s.fault.seqViol || decide (s.stat.cstate ≠ .ready) } ∧
      t.result = 0x80000002#32 ∧ t.results = s.results ++ [0x80000002#32] ∧ t.opIdx = s.opIdx + 1 ∧ t.surf = s.surf ∧
      t.micro = .idle ∧ t.cfg = s.cfg ∧ t.program = s.program
end

