-- ==== Sys2Proof/Laws/Memory.lean ====
section
/-! SUPPORT. Sys2Proof/Laws/Memory.lean: the laws of one plane of controller RAM: a read after a write, and the canonical form. -/

namespace Sys2Proof.Machine

@[simp] theorem Memory.read_nil (a : Nat) : Memory.read [] a = none := rfl

/-- Reading back the byte just written. -/
@[simp] theorem Memory.read_write_same (m : Memory) (a : Nat) (b : Byte) :
    Memory.read (Memory.write m a b) a = some b := by
  induction m with
  | nil => simp [Memory.write, Memory.read]
  | cons c m ih =>
    obtain ⟨k, v⟩ := c
    simp only [Memory.write]
    split
    · simp [Memory.read]
    · split
      · simp [Memory.read]
      · have : k ≠ a := fun h => by omega
        simp [Memory.read, this, ih]

/-- A write leaves every other byte alone. -/
theorem Memory.read_write_other (m : Memory) {a x : Nat} (b : Byte) (h : x ≠ a) :
    Memory.read (Memory.write m a b) x = Memory.read m x := by
  induction m with
  | nil => simp [Memory.write, Memory.read, Ne.symm h]
  | cons c m ih =>
    obtain ⟨k, v⟩ := c
    simp only [Memory.write]
    split
    · simp [Memory.read, Ne.symm h]
    · split
      · rename_i h2; subst h2; simp [Memory.read, Ne.symm h]
      · simp [Memory.read, ih]

theorem Memory.above_mono {m : Memory} {n k : Nat} (h : n ≤ k) (hm : Memory.above k m = true) :
    Memory.above n m = true := by
  cases m with
  | nil => rfl
  | cons c m => obtain ⟨j, v⟩ := c; simp [Memory.above] at hm ⊢; exact ⟨by omega, hm.2⟩

theorem Memory.above_write {m : Memory} {n a : Nat} (b : Byte) (h : n < a) (hm : Memory.above n m = true) :
    Memory.above n (Memory.write m a b) = true := by
  induction m generalizing n with
  | nil => simp [Memory.write, Memory.above, h]
  | cons c m ih =>
    obtain ⟨k, v⟩ := c
    simp only [Memory.above, Bool.and_eq_true, decide_eq_true_eq] at hm
    simp only [Memory.write]
    split
    · rename_i h2; simp [Memory.above, h, h2, hm.2]
    · split
      · rename_i h2; subst h2; simp [Memory.above, h, hm.2]
      · simp [Memory.above, hm.1, ih (by omega : k < a) hm.2]

/-- A write keeps the canonical form. -/
theorem Memory.wf_write {m : Memory} (a : Nat) (b : Byte) (hm : Memory.wf m = true) :
    Memory.wf (Memory.write m a b) = true := by
  cases m with
  | nil => rfl
  | cons c m =>
    obtain ⟨k, v⟩ := c
    simp only [Memory.wf] at hm
    simp only [Memory.write]
    split
    · rename_i h; simp [Memory.wf, Memory.above, h, hm]
    · split
      · rename_i h; subst h; simpa [Memory.wf] using hm
      · simp only [Memory.wf]; exact Memory.above_write b (by omega) hm

theorem Memory.wf_planeWrite {p : Params} {m : Memory} (x : Byte) (y : Half) (b : Byte) (hm : Memory.wf m = true) :
    Memory.wf (planeWrite p m x y b) = true := by
  unfold planeWrite; split
  · exact Memory.wf_write _ _ hm
  · exact hm

theorem ramAddr_inj {x x' : Byte} {y y' : Half} (h : ramAddr x y = ramAddr x' y') : x = x' ∧ y = y' := by
  unfold ramAddr at h
  have h1 := x.isLt; have h2 := x'.isLt
  constructor <;> apply BitVec.eq_of_toNat_eq <;> omega

/-- Reading back a plane byte just written. -/
theorem planeRead_planeWrite_same {p : Params} (m : Memory) {x : Byte} {y : Half} (b : Byte) (h : inPlane p x y = true) :
    planeRead p (planeWrite p m x y b) x y = some b := by
  simp [planeRead, planeWrite, h]

/-- A plane write leaves every other byte of the plane alone. -/
theorem planeRead_planeWrite_other {p : Params} (m : Memory) {x x' : Byte} {y y' : Half} (b : Byte)
    (h : x' ≠ x ∨ y' ≠ y) : planeRead p (planeWrite p m x y b) x' y' = planeRead p m x' y' := by
  unfold planeRead planeWrite
  split
  · split
    · apply Memory.read_write_other
      intro e
      obtain ⟨rfl, rfl⟩ := ramAddr_inj e
      simp at h
    · rfl
  · rfl

end Sys2Proof.Machine
end

