-- ==== Sys2Proof/Laws/Controller.lean ====
section
/-! SUPPORT. Sys2Proof/Laws/Controller.lean: what a bus byte can do to the reference controller: both planes keep their canonical
form, and a command looked up by its code is that command. -/

namespace Sys2Proof.Machine

/-- Both planes are canonical. -/
def Controller.RamWf (c : Controller) : Prop := Memory.wf c.ramBw = true ∧ Memory.wf c.ramRed = true

theorem Controller.ramWf_of_eq {c d : Controller} (h : c.RamWf) (h1 : d.ramBw = c.ramBw) (h2 : d.ramRed = c.ramRed) : d.RamWf := by
  unfold Controller.RamWf; rw [h1, h2]; exact h

theorem Controller.ramWf_of_nil {d : Controller} (h1 : d.ramBw = []) (h2 : d.ramRed = []) : d.RamWf := by
  unfold Controller.RamWf; rw [h1, h2]; exact ⟨rfl, rfl⟩

theorem Controller.ramWf_unspecified (c : Controller) (n : Nat) : (c.unspecified n).RamWf := ⟨rfl, rfl⟩
theorem Controller.ramWf_offTraffic (c : Controller) (n : Nat) : (c.offTraffic n).RamWf := ⟨rfl, rfl⟩

theorem Controller.ramWf_hardReset (c : Controller) (n : Nat) : (c.hardReset n).RamWf := ⟨rfl, rfl⟩

@[simp] theorem Controller.startBusy_ramBw (c : Controller) (n : Nat) : (c.startBusy n).ramBw = c.ramBw := by
  unfold Controller.startBusy; split <;> rfl

@[simp] theorem Controller.startBusy_ramRed (c : Controller) (n : Nat) : (c.startBusy n).ramRed = c.ramRed := by
  unfold Controller.startBusy; split <;> rfl

@[simp] theorem Controller.startBusy_busy (c : Controller) (n : Nat) : (c.startBusy n).busy = true := by
  unfold Controller.startBusy; split <;> rfl

@[simp] theorem Controller.startBusy_mode (c : Controller) (n : Nat) : (c.startBusy n).mode = c.mode := by
  unfold Controller.startBusy; split <;> rfl

@[simp] theorem Controller.advance_ramBw (c : Controller) (n : Nat) : (c.advance n).ramBw = c.ramBw := by
  unfold Controller.advance; repeat' split
  all_goals rfl

@[simp] theorem Controller.advance_ramRed (c : Controller) (n : Nat) : (c.advance n).ramRed = c.ramRed := by
  unfold Controller.advance; repeat' split
  all_goals rfl

@[simp] theorem Controller.advance_mode (c : Controller) (n : Nat) : (c.advance n).mode = c.mode := by
  unfold Controller.advance; repeat' split
  all_goals rfl

@[simp] theorem Controller.advance_busy (c : Controller) (n : Nat) : (c.advance n).busy = c.busy := by
  unfold Controller.advance; repeat' split
  all_goals rfl

@[simp] theorem Controller.advance_cmd (c : Controller) (n : Nat) : (c.advance n).cmd = c.cmd := by
  unfold Controller.advance; repeat' split
  all_goals rfl

theorem Controller.ramWf_ramWrite (p : Params) {c : Controller} (n : Nat) (pl : Plane) (b : Byte) (h : c.RamWf) :
    (Controller.ramWrite p c n pl b).RamWf := by
  cases pl
  · exact ⟨by simp [Controller.ramWrite, Memory.wf_planeWrite _ _ _ h.1], by simpa [Controller.ramWrite] using h.2⟩
  · exact ⟨by simpa [Controller.ramWrite] using h.1, by simp [Controller.ramWrite, Memory.wf_planeWrite _ _ _ h.2]⟩

@[simp] theorem Controller.ramWrite_mode (p : Params) (c : Controller) (n : Nat) (pl : Plane) (b : Byte) :
    (Controller.ramWrite p c n pl b).mode = c.mode := by cases pl <;> simp [Controller.ramWrite]

@[simp] theorem Controller.ramWrite_busy (p : Params) (c : Controller) (n : Nat) (pl : Plane) (b : Byte) :
    (Controller.ramWrite p c n pl b).busy = c.busy := by cases pl <;> simp [Controller.ramWrite]

/-- A command cut short touches settings only. -/
theorem Controller.cutShort_same (c : Controller) (n : Nat) :
    (c.cutShort n).ramBw = c.ramBw ∧ (c.cutShort n).ramRed = c.ramRed ∧ (c.cutShort n).mode = c.mode ∧
      (c.cutShort n).busy = c.busy ∧ (c.cutShort n).shown = c.shown := by
  unfold Controller.cutShort; split <;> exact ⟨rfl, rfl, rfl, rfl, rfl⟩

theorem Controller.ramWf_cutShort {c : Controller} (n : Nat) (h : c.RamWf) : (c.cutShort n).RamWf :=
  have e := c.cutShort_same n
  Controller.ramWf_of_eq h e.1 e.2.1

theorem Controller.ramWf_start (p : Params) {c : Controller} (n : Nat) (cmd : BusCmd) (h : c.RamWf) :
    (Controller.start p c n cmd).RamWf := by
  cases cmd
  case swReset => exact Controller.ramWf_of_eq h (by simp [Controller.start, Controller.softReset]) (by simp [Controller.start, Controller.softReset])
  case masterActivation => exact Controller.ramWf_of_eq h (by simp [Controller.start]) (by simp [Controller.start])
  case deepSleep =>
    simp only [Controller.start]; split
    · exact ⟨rfl, rfl⟩
    · exact h
  all_goals exact h

theorem Controller.ramWf_datum (p : Params) {c : Controller} (n : Nat) (cmd : BusCmd) (got : Nat) (b : Byte) (h : c.RamWf) :
    (Controller.datum p c n cmd got b).RamWf := by
  unfold Controller.datum
  split
  case h_15 => split; exacts [⟨rfl, rfl⟩, h]
  case h_16 => exact Controller.ramWf_ramWrite _ _ _ _ h
  case h_17 => exact Controller.ramWf_ramWrite _ _ _ _ h
  all_goals exact h

theorem Controller.ramWf_byteIn (p : Params) (held : Bool) (role : Role) (n : Nat) {c : Controller} (b : Byte) (h : c.RamWf) :
    (Controller.byteIn p held role n c b).RamWf := by
  unfold Controller.byteIn
  split
  · exact h
  · split
    · exact h
    · exact Controller.ramWf_offTraffic _ _
    · split
      · exact Controller.ramWf_unspecified _ _
      · split
        · unfold Controller.command
          split
          · exact Controller.ramWf_start _ _ _ (Controller.ramWf_cutShort n h)
          · exact Controller.ramWf_unspecified _ _
        · unfold Controller.data
          split
          · exact Controller.ramWf_datum _ _ _ _ _ h
          · exact Controller.ramWf_unspecified _ _

theorem Controller.ramWf_bytesIn (p : Params) (held : Bool) (role : Role) (bs : List Byte) :
    ∀ (n : Nat) {c : Controller}, c.RamWf → (Controller.bytesIn p held role n c bs).RamWf := by
  induction bs with
  | nil => intro n c h; exact h
  | cons b bs ih => intro n c h; exact ih (n + 1) (Controller.ramWf_byteIn p held role n b h)

theorem Controller.ramWf_byteOut (p : Params) (held : Bool) (n : Nat) {c : Controller} (a : Byte) (h : c.RamWf) :
    (Controller.byteOut p held n c a).2.RamWf := by
  unfold Controller.byteOut
  split
  · exact h
  · split
    · exact h
    · exact Controller.ramWf_offTraffic _ _
    · split
      · exact Controller.ramWf_unspecified _ _
      · split
        · unfold Controller.ramByte; split
          · exact h
          · exact Controller.ramWf_of_eq h (by simp) (by simp)
        · exact Controller.ramWf_unspecified _ _

theorem Controller.ramWf_bytesOut (p : Params) (held : Bool) (as : List Byte) :
    ∀ (n : Nat) {c : Controller}, c.RamWf → (Controller.bytesOut p held n c as).2.RamWf := by
  induction as with
  | nil => intro n c h; exact h
  | cons a as ih => intro n c h; exact ih (n + 1) (Controller.ramWf_byteOut p held n a h)

theorem Controller.ramWf_afterSample {c : Controller} (h : c.RamWf) : c.afterSample.RamWf := by
  unfold Controller.afterSample; repeat' split
  all_goals exact h

/-- The bytes of two transfers in a row are the bytes of their concatenation. -/
theorem Controller.bytesIn_append (p : Params) (held : Bool) (role : Role) (as bs : List Byte) :
    ∀ (n : Nat) (c : Controller), Controller.bytesIn p held role n c (as ++ bs) =
      Controller.bytesIn p held role (n + as.length) (Controller.bytesIn p held role n c as) bs := by
  induction as with
  | nil => intro n c; rfl
  | cons a as ih =>
    intro n c
    simp only [List.cons_append, Controller.bytesIn, ih, List.length_cons]
    rw [show n + 1 + as.length = n + (as.length + 1) by omega]

/-- An inbound transfer of `n` bytes gives `n` bytes. -/
theorem Controller.bytesOut_length (p : Params) (held : Bool) (as : List Byte) :
    ∀ (n : Nat) (c : Controller), (Controller.bytesOut p held n c as).1.length = as.length := by
  induction as with
  | nil => intro n c; rfl
  | cons a as ih => intro n c; simp [Controller.bytesOut, ih]

/-- The commands in the order of rule R200. -/
def BusCmd.order : List BusCmd :=
  [.swReset, .driverOutputControl, .dataEntryMode, .setRamXWindow, .setRamYWindow, .borderWaveform, .displayUpdateControl1,
    .tempSensorSelect, .displayUpdateControl2, .masterActivation, .deepSleep, .writeRamBw, .writeRamRed, .readRamOption,
    .readRam, .setRamXCounter, .setRamYCounter]

theorem Proto.find_step (p : Proto) (b : Byte) (c : BusCmd) (l : List BusCmd) :
    (c :: l).find? (fun c => decide (b = p.code c)) = if b = p.code c then some c else l.find? (fun c => decide (b = p.code c)) := by
  by_cases h : b = p.code c <;> simp [h]

theorem Proto.command_eq_find (p : Proto) (b : Byte) : p.command b = BusCmd.order.find? (fun c => decide (b = p.code c)) := by
  simp only [BusCmd.order, Proto.find_step, List.find?_nil]
  rfl

/-- Distinct codes: a command's code is looked up as that command (rule R219). -/
theorem Proto.command_code {p : Proto} (h : p.codes.Nodup) (c : BusCmd) : p.command (p.code c) = some c := by
  have hn : (BusCmd.order.map p.code).Nodup := h
  have hi : ∀ d, p.code c = p.code d → d = c := fun d hd =>
    List.inj_on_of_nodup_map hn (by cases d <;> decide) (by cases c <;> decide) hd.symm
  rw [Proto.command_eq_find]
  cases hf : BusCmd.order.find? (fun d => decide (p.code c = p.code d)) with
  | none =>
    have := List.find?_eq_none.1 hf c (by cases c <;> decide)
    simp at this
  | some d =>
    have := List.find?_some hf
    rw [hi d (by simpa using this)]

/-- A group that starts with a command's code is that command with its data. -/
theorem decodeGroup_code {p : Proto} (h : p.codes.Nodup) (c : BusCmd) (d : List Byte) :
    decodeGroup p (p.code c :: d) = assembleGroup c d := by
  simp only [decodeGroup, Proto.command_code h]

/-- A command code of `PROTO` is one of the 17. -/
theorem Proto.code_mem (p : Proto) (c : BusCmd) : p.code c ∈ p.codes := by
  cases c <;> simp [Proto.code, Proto.codes]

/-- A command looked up has the byte for its code. -/
theorem Proto.code_command {p : Proto} {b : Byte} {c : BusCmd} (h : p.command b = some c) : p.code c = b := by
  rw [Proto.command_eq_find] at h
  have := List.find?_some h
  simp only [decide_eq_true_eq] at this
  exact this.symm

end Sys2Proof.Machine
end

