-- ==== Sys2Proof/Laws/Operands.lean ====
section
/-! SUPPORT. Sys2Proof/Laws/Operands.lean: the laws of the operand forms: the length of a flip, and the chunks of a payload. -/

namespace Sys2Proof.Machine

theorem flipRows_length (s : Nat) : ∀ (h : Nat) (buf : List Byte), buf.length = s * h → (flipRows s h buf).length = s * h := by
  intro h
  induction h with
  | zero => intro buf _; rfl
  | succ h ih =>
    intro buf hb
    rw [Nat.mul_succ] at hb
    simp only [flipRows, List.length_append, List.length_take, ih (buf.drop s) (by simp; omega), Nat.mul_succ]
    omega

/-- The flip of a plane is a plane. -/
theorem flip_length {c : Params} {buf : List Byte} (h : buf.length = planeBytes c) : (flip c buf).length = planeBytes c :=
  flipRows_length _ _ _ h

@[simp] theorem fill_length (n : Nat) (b : Byte) : (fill n b).length = n := by simp [fill]

theorem chunks_flatten_aux (size : Nat) (payload : List Byte) :
    ∀ n, ((List.range n).map (chunk size payload)).flatten = payload.take (n * size) := by
  intro n
  induction n with
  | zero => simp
  | succ n ih =>
    rw [List.range_succ, List.map_append, List.flatten_append, ih]
    simp only [List.map_cons, List.map_nil, List.flatten_cons, List.flatten_nil, List.append_nil, chunk]
    rw [Nat.succ_mul, List.take_add]

/-- The chunks are enough for the payload. -/
theorem chunkCount_covers {size len : Nat} (h : 1 ≤ size) : len ≤ chunkCount size len * size := by
  unfold chunkCount
  have := Nat.div_add_mod (len + size - 1) size
  have := Nat.mod_lt (len + size - 1) (show 0 < size by omega)
  rw [Nat.mul_comm]
  omega

/-- The chunks in order are the payload (rule R104), for the `Frame` lemmas. -/
theorem chunks_flatten {size : Nat} (payload : List Byte) (h : 1 ≤ size) : (chunks size payload).flatten = payload := by
  unfold chunks
  rw [chunks_flatten_aux, List.take_of_length_le (chunkCount_covers h)]

/-- A payload of one byte is one chunk. -/
theorem chunks_singleton {size : Nat} (b : Byte) (h : 1 ≤ size) : chunks size [b] = [[b]] := by
  have h1 : chunkCount size 1 = 1 := by
    unfold chunkCount
    rw [show 1 + size - 1 = size by omega]
    exact Nat.div_self (by omega)
  obtain ⟨k, rfl⟩ : ∃ k, size = k + 1 := ⟨size - 1, by omega⟩
  simp [chunks, h1, chunk]

theorem chunks_nil {size : Nat} (h : 1 ≤ size) : chunks size [] = [] := by
  have h1 : chunkCount size 0 = 0 := by
    unfold chunkCount
    exact Nat.div_eq_of_lt (by omega)
  simp [chunks, h1]

/-- A 16-bit field from its two bytes (rule R59). -/
theorem hi_append_lo {v : Nat} (h : v < 65536) : hi v ++ lo v = BitVec.ofNat 16 v := by
  apply BitVec.eq_of_toNat_eq
  show BitVec.toNat (w := 8 + 8) (hi v ++ lo v) = _
  rw [BitVec.toNat_append, ← Nat.shiftLeft_add_eq_or_of_lt (lo v).isLt, Nat.shiftLeft_eq]
  simp only [hi, lo, BitVec.toNat_ofNat]
  omega

end Sys2Proof.Machine
end

