-- ==== Sys2Proof/Laws/State.lean ====
section
/-! SUPPORT. Sys2Proof/Laws/State.lean: one lemma per field and field update, so that no proof unfolds a record update. -/

namespace Sys2Proof.Machine

variable (s : State)

@[simp] theorem State.record_cfg (e : Event) : (s.record e).cfg = s.cfg := rfl
@[simp] theorem State.record_program (e : Event) : (s.record e).program = s.program := rfl
@[simp] theorem State.record_opIdx (e : Event) : (s.record e).opIdx = s.opIdx := rfl
@[simp] theorem State.record_surf (e : Event) : (s.record e).surf = s.surf := rfl
@[simp] theorem State.record_stat (e : Event) : (s.record e).stat = s.stat := rfl
@[simp] theorem State.record_fault (e : Event) : (s.record e).fault = s.fault := rfl
@[simp] theorem State.record_result (e : Event) : (s.record e).result = s.result := rfl
@[simp] theorem State.record_results (e : Event) : (s.record e).results = s.results := rfl
@[simp] theorem State.record_lines (e : Event) : (s.record e).lines = s.lines := rfl
@[simp] theorem State.record_tb (e : Event) : (s.record e).tb = s.tb := rfl
@[simp] theorem State.record_rx (e : Event) : (s.record e).rx = s.rx := rfl
@[simp] theorem State.record_micro (e : Event) : (s.record e).micro = s.micro := rfl
@[simp] theorem State.record_trace (e : Event) : (s.record e).trace = s.trace ++ [e] := rfl
@[simp] theorem State.record_ctl (e : Event) : (s.record e).ctl = s.ctl := rfl
@[simp] theorem State.record_env (e : Event) : (s.record e).env = s.env := rfl
@[simp] theorem State.record_draws (e : Event) : (s.record e).draws = s.draws := rfl

@[simp] theorem State.raise_cfg (f : FaultBit) : (s.raise f).cfg = s.cfg := rfl
@[simp] theorem State.raise_program (f : FaultBit) : (s.raise f).program = s.program := rfl
@[simp] theorem State.raise_opIdx (f : FaultBit) : (s.raise f).opIdx = s.opIdx := rfl
@[simp] theorem State.raise_surf (f : FaultBit) : (s.raise f).surf = s.surf := rfl
@[simp] theorem State.raise_stat (f : FaultBit) : (s.raise f).stat = s.stat := rfl
@[simp] theorem State.raise_fault (f : FaultBit) : (s.raise f).fault = faultSet s.fault f := rfl
@[simp] theorem State.raise_result (f : FaultBit) : (s.raise f).result = s.result := rfl
@[simp] theorem State.raise_results (f : FaultBit) : (s.raise f).results = s.results := rfl
@[simp] theorem State.raise_lines (f : FaultBit) : (s.raise f).lines = s.lines := rfl
@[simp] theorem State.raise_tb (f : FaultBit) : (s.raise f).tb = s.tb := rfl
@[simp] theorem State.raise_rx (f : FaultBit) : (s.raise f).rx = s.rx := rfl
@[simp] theorem State.raise_micro (f : FaultBit) : (s.raise f).micro = s.micro := rfl
@[simp] theorem State.raise_trace (f : FaultBit) : (s.raise f).trace = s.trace := rfl
@[simp] theorem State.raise_ctl (f : FaultBit) : (s.raise f).ctl = s.ctl := rfl
@[simp] theorem State.raise_env (f : FaultBit) : (s.raise f).env = s.env := rfl
@[simp] theorem State.raise_draws (f : FaultBit) : (s.raise f).draws = s.draws := rfl

@[simp] theorem State.setCtl_cfg (c : Controller) (n : Nat) : (s.setCtl c n).cfg = s.cfg := rfl
@[simp] theorem State.setCtl_program (c : Controller) (n : Nat) : (s.setCtl c n).program = s.program := rfl
@[simp] theorem State.setCtl_opIdx (c : Controller) (n : Nat) : (s.setCtl c n).opIdx = s.opIdx := rfl
@[simp] theorem State.setCtl_surf (c : Controller) (n : Nat) : (s.setCtl c n).surf = s.surf := rfl
@[simp] theorem State.setCtl_stat (c : Controller) (n : Nat) : (s.setCtl c n).stat = s.stat := rfl
@[simp] theorem State.setCtl_fault (c : Controller) (n : Nat) : (s.setCtl c n).fault = s.fault := rfl
@[simp] theorem State.setCtl_result (c : Controller) (n : Nat) : (s.setCtl c n).result = s.result := rfl
@[simp] theorem State.setCtl_results (c : Controller) (n : Nat) : (s.setCtl c n).results = s.results := rfl
@[simp] theorem State.setCtl_lines (c : Controller) (n : Nat) : (s.setCtl c n).lines = s.lines := rfl
@[simp] theorem State.setCtl_tb (c : Controller) (n : Nat) : (s.setCtl c n).tb = s.tb := rfl
@[simp] theorem State.setCtl_rx (c : Controller) (n : Nat) : (s.setCtl c n).rx = s.rx := rfl
@[simp] theorem State.setCtl_micro (c : Controller) (n : Nat) : (s.setCtl c n).micro = s.micro := rfl
@[simp] theorem State.setCtl_trace (c : Controller) (n : Nat) : (s.setCtl c n).trace = s.trace := rfl
@[simp] theorem State.setCtl_ctl (c : Controller) (n : Nat) : (s.setCtl c n).ctl = c := rfl
@[simp] theorem State.setCtl_env (c : Controller) (n : Nat) : (s.setCtl c n).env = s.env := rfl
@[simp] theorem State.setCtl_draws (c : Controller) (n : Nat) : (s.setCtl c n).draws = n := rfl
@[simp] theorem State.loseCtl_cfg : s.loseCtl.cfg = s.cfg := rfl
@[simp] theorem State.loseCtl_program : s.loseCtl.program = s.program := rfl
@[simp] theorem State.loseCtl_opIdx : s.loseCtl.opIdx = s.opIdx := rfl
@[simp] theorem State.loseCtl_surf : s.loseCtl.surf = s.surf := rfl
@[simp] theorem State.loseCtl_stat : s.loseCtl.stat = s.stat := rfl
@[simp] theorem State.loseCtl_fault : s.loseCtl.fault = s.fault := rfl
@[simp] theorem State.loseCtl_result : s.loseCtl.result = s.result := rfl
@[simp] theorem State.loseCtl_results : s.loseCtl.results = s.results := rfl
@[simp] theorem State.loseCtl_lines : s.loseCtl.lines = s.lines := rfl
@[simp] theorem State.loseCtl_tb : s.loseCtl.tb = s.tb := rfl
@[simp] theorem State.loseCtl_rx : s.loseCtl.rx = s.rx := rfl
@[simp] theorem State.loseCtl_micro : s.loseCtl.micro = s.micro := rfl
@[simp] theorem State.loseCtl_trace : s.loseCtl.trace = s.trace := rfl
@[simp] theorem State.loseCtl_env : s.loseCtl.env = s.env := rfl
@[simp] theorem State.loseCtl_ctl : s.loseCtl.ctl = Controller.unspecified s.ctl s.draws := rfl
@[simp] theorem State.loseCtl_draws : s.loseCtl.draws = s.draws + 1 := rfl

@[simp] theorem State.setEnv_cfg (e : Env) : (s.setEnv e).cfg = s.cfg := rfl
@[simp] theorem State.setEnv_program (e : Env) : (s.setEnv e).program = s.program := rfl
@[simp] theorem State.setEnv_opIdx (e : Env) : (s.setEnv e).opIdx = s.opIdx := rfl
@[simp] theorem State.setEnv_surf (e : Env) : (s.setEnv e).surf = s.surf := rfl
@[simp] theorem State.setEnv_stat (e : Env) : (s.setEnv e).stat = s.stat := rfl
@[simp] theorem State.setEnv_fault (e : Env) : (s.setEnv e).fault = s.fault := rfl
@[simp] theorem State.setEnv_result (e : Env) : (s.setEnv e).result = s.result := rfl
@[simp] theorem State.setEnv_results (e : Env) : (s.setEnv e).results = s.results := rfl
@[simp] theorem State.setEnv_lines (e : Env) : (s.setEnv e).lines = s.lines := rfl
@[simp] theorem State.setEnv_tb (e : Env) : (s.setEnv e).tb = s.tb := rfl
@[simp] theorem State.setEnv_rx (e : Env) : (s.setEnv e).rx = s.rx := rfl
@[simp] theorem State.setEnv_micro (e : Env) : (s.setEnv e).micro = s.micro := rfl
@[simp] theorem State.setEnv_trace (e : Env) : (s.setEnv e).trace = s.trace := rfl
@[simp] theorem State.setEnv_ctl (e : Env) : (s.setEnv e).ctl = s.ctl := rfl
@[simp] theorem State.setEnv_env (e : Env) : (s.setEnv e).env = e := rfl
@[simp] theorem State.setEnv_draws (e : Env) : (s.setEnv e).draws = s.draws := rfl

@[simp] theorem State.setDraws_cfg (n : Nat) : (s.setDraws n).cfg = s.cfg := rfl
@[simp] theorem State.setDraws_program (n : Nat) : (s.setDraws n).program = s.program := rfl
@[simp] theorem State.setDraws_opIdx (n : Nat) : (s.setDraws n).opIdx = s.opIdx := rfl
@[simp] theorem State.setDraws_surf (n : Nat) : (s.setDraws n).surf = s.surf := rfl
@[simp] theorem State.setDraws_stat (n : Nat) : (s.setDraws n).stat = s.stat := rfl
@[simp] theorem State.setDraws_fault (n : Nat) : (s.setDraws n).fault = s.fault := rfl
@[simp] theorem State.setDraws_result (n : Nat) : (s.setDraws n).result = s.result := rfl
@[simp] theorem State.setDraws_results (n : Nat) : (s.setDraws n).results = s.results := rfl
@[simp] theorem State.setDraws_lines (n : Nat) : (s.setDraws n).lines = s.lines := rfl
@[simp] theorem State.setDraws_tb (n : Nat) : (s.setDraws n).tb = s.tb := rfl
@[simp] theorem State.setDraws_rx (n : Nat) : (s.setDraws n).rx = s.rx := rfl
@[simp] theorem State.setDraws_micro (n : Nat) : (s.setDraws n).micro = s.micro := rfl
@[simp] theorem State.setDraws_trace (n : Nat) : (s.setDraws n).trace = s.trace := rfl
@[simp] theorem State.setDraws_ctl (n : Nat) : (s.setDraws n).ctl = s.ctl := rfl
@[simp] theorem State.setDraws_env (n : Nat) : (s.setDraws n).env = s.env := rfl
@[simp] theorem State.setDraws_draws (n : Nat) : (s.setDraws n).draws = n := rfl

@[simp] theorem State.setRx_cfg (r : List Byte) : (s.setRx r).cfg = s.cfg := rfl
@[simp] theorem State.setRx_program (r : List Byte) : (s.setRx r).program = s.program := rfl
@[simp] theorem State.setRx_opIdx (r : List Byte) : (s.setRx r).opIdx = s.opIdx := rfl
@[simp] theorem State.setRx_surf (r : List Byte) : (s.setRx r).surf = s.surf := rfl
@[simp] theorem State.setRx_stat (r : List Byte) : (s.setRx r).stat = s.stat := rfl
@[simp] theorem State.setRx_fault (r : List Byte) : (s.setRx r).fault = s.fault := rfl
@[simp] theorem State.setRx_result (r : List Byte) : (s.setRx r).result = s.result := rfl
@[simp] theorem State.setRx_results (r : List Byte) : (s.setRx r).results = s.results := rfl
@[simp] theorem State.setRx_lines (r : List Byte) : (s.setRx r).lines = s.lines := rfl
@[simp] theorem State.setRx_tb (r : List Byte) : (s.setRx r).tb = s.tb := rfl
@[simp] theorem State.setRx_rx (r : List Byte) : (s.setRx r).rx = r := rfl
@[simp] theorem State.setRx_micro (r : List Byte) : (s.setRx r).micro = s.micro := rfl
@[simp] theorem State.setRx_trace (r : List Byte) : (s.setRx r).trace = s.trace := rfl
@[simp] theorem State.setRx_ctl (r : List Byte) : (s.setRx r).ctl = s.ctl := rfl
@[simp] theorem State.setRx_env (r : List Byte) : (s.setRx r).env = s.env := rfl
@[simp] theorem State.setRx_draws (r : List Byte) : (s.setRx r).draws = s.draws := rfl

@[simp] theorem State.setTb_cfg (r : List Byte) : (s.setTb r).cfg = s.cfg := rfl
@[simp] theorem State.setTb_program (r : List Byte) : (s.setTb r).program = s.program := rfl
@[simp] theorem State.setTb_opIdx (r : List Byte) : (s.setTb r).opIdx = s.opIdx := rfl
@[simp] theorem State.setTb_surf (r : List Byte) : (s.setTb r).surf = s.surf := rfl
@[simp] theorem State.setTb_stat (r : List Byte) : (s.setTb r).stat = s.stat := rfl
@[simp] theorem State.setTb_fault (r : List Byte) : (s.setTb r).fault = s.fault := rfl
@[simp] theorem State.setTb_result (r : List Byte) : (s.setTb r).result = s.result := rfl
@[simp] theorem State.setTb_results (r : List Byte) : (s.setTb r).results = s.results := rfl
@[simp] theorem State.setTb_lines (r : List Byte) : (s.setTb r).lines = s.lines := rfl
@[simp] theorem State.setTb_tb (r : List Byte) : (s.setTb r).tb = r := rfl
@[simp] theorem State.setTb_rx (r : List Byte) : (s.setTb r).rx = s.rx := rfl
@[simp] theorem State.setTb_micro (r : List Byte) : (s.setTb r).micro = s.micro := rfl
@[simp] theorem State.setTb_trace (r : List Byte) : (s.setTb r).trace = s.trace := rfl
@[simp] theorem State.setTb_ctl (r : List Byte) : (s.setTb r).ctl = s.ctl := rfl
@[simp] theorem State.setTb_env (r : List Byte) : (s.setTb r).env = s.env := rfl
@[simp] theorem State.setTb_draws (r : List Byte) : (s.setTb r).draws = s.draws := rfl

@[simp] theorem State.setCstate_cfg (c : CState) : (s.setCstate c).cfg = s.cfg := rfl
@[simp] theorem State.setCstate_program (c : CState) : (s.setCstate c).program = s.program := rfl
@[simp] theorem State.setCstate_opIdx (c : CState) : (s.setCstate c).opIdx = s.opIdx := rfl
@[simp] theorem State.setCstate_surf (c : CState) : (s.setCstate c).surf = s.surf := rfl
@[simp] theorem State.setCstate_stat (c : CState) : (s.setCstate c).stat = { s.stat with cstate := c } := rfl
@[simp] theorem State.setCstate_fault (c : CState) : (s.setCstate c).fault = s.fault := rfl
@[simp] theorem State.setCstate_result (c : CState) : (s.setCstate c).result = s.result := rfl
@[simp] theorem State.setCstate_results (c : CState) : (s.setCstate c).results = s.results := rfl
@[simp] theorem State.setCstate_lines (c : CState) : (s.setCstate c).lines = s.lines := rfl
@[simp] theorem State.setCstate_tb (c : CState) : (s.setCstate c).tb = s.tb := rfl
@[simp] theorem State.setCstate_rx (c : CState) : (s.setCstate c).rx = s.rx := rfl
@[simp] theorem State.setCstate_micro (c : CState) : (s.setCstate c).micro = s.micro := rfl
@[simp] theorem State.setCstate_trace (c : CState) : (s.setCstate c).trace = s.trace := rfl
@[simp] theorem State.setCstate_ctl (c : CState) : (s.setCstate c).ctl = s.ctl := rfl
@[simp] theorem State.setCstate_env (c : CState) : (s.setCstate c).env = s.env := rfl
@[simp] theorem State.setCstate_draws (c : CState) : (s.setCstate c).draws = s.draws := rfl

@[simp] theorem State.setBegun_cfg : (s.setBegun).cfg = s.cfg := rfl
@[simp] theorem State.setBegun_program : (s.setBegun).program = s.program := rfl
@[simp] theorem State.setBegun_opIdx : (s.setBegun).opIdx = s.opIdx := rfl
@[simp] theorem State.setBegun_surf : (s.setBegun).surf = s.surf := rfl
@[simp] theorem State.setBegun_stat : (s.setBegun).stat = { s.stat with begun := true } := rfl
@[simp] theorem State.setBegun_fault : (s.setBegun).fault = s.fault := rfl
@[simp] theorem State.setBegun_result : (s.setBegun).result = s.result := rfl
@[simp] theorem State.setBegun_results : (s.setBegun).results = s.results := rfl
@[simp] theorem State.setBegun_lines : (s.setBegun).lines = s.lines := rfl
@[simp] theorem State.setBegun_tb : (s.setBegun).tb = s.tb := rfl
@[simp] theorem State.setBegun_rx : (s.setBegun).rx = s.rx := rfl
@[simp] theorem State.setBegun_micro : (s.setBegun).micro = s.micro := rfl
@[simp] theorem State.setBegun_trace : (s.setBegun).trace = s.trace := rfl
@[simp] theorem State.setBegun_ctl : (s.setBegun).ctl = s.ctl := rfl
@[simp] theorem State.setBegun_env : (s.setBegun).env = s.env := rfl
@[simp] theorem State.setBegun_draws : (s.setBegun).draws = s.draws := rfl

@[simp] theorem State.setRamv_cfg (b r : Bool) : (s.setRamv b r).cfg = s.cfg := rfl
@[simp] theorem State.setRamv_program (b r : Bool) : (s.setRamv b r).program = s.program := rfl
@[simp] theorem State.setRamv_opIdx (b r : Bool) : (s.setRamv b r).opIdx = s.opIdx := rfl
@[simp] theorem State.setRamv_surf (b r : Bool) : (s.setRamv b r).surf = s.surf := rfl
@[simp] theorem State.setRamv_stat (b r : Bool) : (s.setRamv b r).stat = { s.stat with ramvBw := b, ramvRed := r } := rfl
@[simp] theorem State.setRamv_fault (b r : Bool) : (s.setRamv b r).fault = s.fault := rfl
@[simp] theorem State.setRamv_result (b r : Bool) : (s.setRamv b r).result = s.result := rfl
@[simp] theorem State.setRamv_results (b r : Bool) : (s.setRamv b r).results = s.results := rfl
@[simp] theorem State.setRamv_lines (b r : Bool) : (s.setRamv b r).lines = s.lines := rfl
@[simp] theorem State.setRamv_tb (b r : Bool) : (s.setRamv b r).tb = s.tb := rfl
@[simp] theorem State.setRamv_rx (b r : Bool) : (s.setRamv b r).rx = s.rx := rfl
@[simp] theorem State.setRamv_micro (b r : Bool) : (s.setRamv b r).micro = s.micro := rfl
@[simp] theorem State.setRamv_trace (b r : Bool) : (s.setRamv b r).trace = s.trace := rfl
@[simp] theorem State.setRamv_ctl (b r : Bool) : (s.setRamv b r).ctl = s.ctl := rfl
@[simp] theorem State.setRamv_env (b r : Bool) : (s.setRamv b r).env = s.env := rfl
@[simp] theorem State.setRamv_draws (b r : Bool) : (s.setRamv b r).draws = s.draws := rfl

@[simp] theorem State.setInop_cfg (b : Bool) : (s.setInop b).cfg = s.cfg := rfl
@[simp] theorem State.setInop_program (b : Bool) : (s.setInop b).program = s.program := rfl
@[simp] theorem State.setInop_opIdx (b : Bool) : (s.setInop b).opIdx = s.opIdx := rfl
@[simp] theorem State.setInop_surf (b : Bool) : (s.setInop b).surf = s.surf := rfl
@[simp] theorem State.setInop_stat (b : Bool) : (s.setInop b).stat = { s.stat with inop := b } := rfl
@[simp] theorem State.setInop_fault (b : Bool) : (s.setInop b).fault = s.fault := rfl
@[simp] theorem State.setInop_result (b : Bool) : (s.setInop b).result = s.result := rfl
@[simp] theorem State.setInop_results (b : Bool) : (s.setInop b).results = s.results := rfl
@[simp] theorem State.setInop_lines (b : Bool) : (s.setInop b).lines = s.lines := rfl
@[simp] theorem State.setInop_tb (b : Bool) : (s.setInop b).tb = s.tb := rfl
@[simp] theorem State.setInop_rx (b : Bool) : (s.setInop b).rx = s.rx := rfl
@[simp] theorem State.setInop_micro (b : Bool) : (s.setInop b).micro = s.micro := rfl
@[simp] theorem State.setInop_trace (b : Bool) : (s.setInop b).trace = s.trace := rfl
@[simp] theorem State.setInop_ctl (b : Bool) : (s.setInop b).ctl = s.ctl := rfl
@[simp] theorem State.setInop_env (b : Bool) : (s.setInop b).env = s.env := rfl
@[simp] theorem State.setInop_draws (b : Bool) : (s.setInop b).draws = s.draws := rfl

@[simp] theorem State.setSurf_cfg (f : Surf) : (s.setSurf f).cfg = s.cfg := rfl
@[simp] theorem State.setSurf_program (f : Surf) : (s.setSurf f).program = s.program := rfl
@[simp] theorem State.setSurf_opIdx (f : Surf) : (s.setSurf f).opIdx = s.opIdx := rfl
@[simp] theorem State.setSurf_surf (f : Surf) : (s.setSurf f).surf = f := rfl
@[simp] theorem State.setSurf_stat (f : Surf) : (s.setSurf f).stat = s.stat := rfl
@[simp] theorem State.setSurf_fault (f : Surf) : (s.setSurf f).fault = s.fault := rfl
@[simp] theorem State.setSurf_result (f : Surf) : (s.setSurf f).result = s.result := rfl
@[simp] theorem State.setSurf_results (f : Surf) : (s.setSurf f).results = s.results := rfl
@[simp] theorem State.setSurf_lines (f : Surf) : (s.setSurf f).lines = s.lines := rfl
@[simp] theorem State.setSurf_tb (f : Surf) : (s.setSurf f).tb = s.tb := rfl
@[simp] theorem State.setSurf_rx (f : Surf) : (s.setSurf f).rx = s.rx := rfl
@[simp] theorem State.setSurf_micro (f : Surf) : (s.setSurf f).micro = s.micro := rfl
@[simp] theorem State.setSurf_trace (f : Surf) : (s.setSurf f).trace = s.trace := rfl
@[simp] theorem State.setSurf_ctl (f : Surf) : (s.setSurf f).ctl = s.ctl := rfl
@[simp] theorem State.setSurf_env (f : Surf) : (s.setSurf f).env = s.env := rfl
@[simp] theorem State.setSurf_draws (f : Surf) : (s.setSurf f).draws = s.draws := rfl

@[simp] theorem State.setMicro_cfg (m : Micro) : (s.setMicro m).cfg = s.cfg := rfl
@[simp] theorem State.setMicro_program (m : Micro) : (s.setMicro m).program = s.program := rfl
@[simp] theorem State.setMicro_opIdx (m : Micro) : (s.setMicro m).opIdx = s.opIdx := rfl
@[simp] theorem State.setMicro_surf (m : Micro) : (s.setMicro m).surf = s.surf := rfl
@[simp] theorem State.setMicro_stat (m : Micro) : (s.setMicro m).stat = s.stat := rfl
@[simp] theorem State.setMicro_fault (m : Micro) : (s.setMicro m).fault = s.fault := rfl
@[simp] theorem State.setMicro_result (m : Micro) : (s.setMicro m).result = s.result := rfl
@[simp] theorem State.setMicro_results (m : Micro) : (s.setMicro m).results = s.results := rfl
@[simp] theorem State.setMicro_lines (m : Micro) : (s.setMicro m).lines = s.lines := rfl
@[simp] theorem State.setMicro_tb (m : Micro) : (s.setMicro m).tb = s.tb := rfl
@[simp] theorem State.setMicro_rx (m : Micro) : (s.setMicro m).rx = s.rx := rfl
@[simp] theorem State.setMicro_micro (m : Micro) : (s.setMicro m).micro = m := rfl
@[simp] theorem State.setMicro_trace (m : Micro) : (s.setMicro m).trace = s.trace := rfl
@[simp] theorem State.setMicro_ctl (m : Micro) : (s.setMicro m).ctl = s.ctl := rfl
@[simp] theorem State.setMicro_env (m : Micro) : (s.setMicro m).env = s.env := rfl
@[simp] theorem State.setMicro_draws (m : Micro) : (s.setMicro m).draws = s.draws := rfl

@[simp] theorem State.finish_cfg (r : ResultWord) : (s.finish r).cfg = s.cfg := rfl
@[simp] theorem State.finish_program (r : ResultWord) : (s.finish r).program = s.program := rfl
@[simp] theorem State.finish_opIdx (r : ResultWord) : (s.finish r).opIdx = s.opIdx + 1 := rfl
@[simp] theorem State.finish_surf (r : ResultWord) : (s.finish r).surf = s.surf := rfl
@[simp] theorem State.finish_stat (r : ResultWord) : (s.finish r).stat = s.stat := rfl
@[simp] theorem State.finish_fault (r : ResultWord) : (s.finish r).fault = s.fault := rfl
@[simp] theorem State.finish_result (r : ResultWord) : (s.finish r).result = r := rfl
@[simp] theorem State.finish_results (r : ResultWord) : (s.finish r).results = s.results ++ [r] := rfl
@[simp] theorem State.finish_lines (r : ResultWord) : (s.finish r).lines = s.lines := rfl
@[simp] theorem State.finish_tb (r : ResultWord) : (s.finish r).tb = s.tb := rfl
@[simp] theorem State.finish_rx (r : ResultWord) : (s.finish r).rx = s.rx := rfl
@[simp] theorem State.finish_micro (r : ResultWord) : (s.finish r).micro = s.micro := rfl
@[simp] theorem State.finish_trace (r : ResultWord) : (s.finish r).trace = s.trace := rfl
@[simp] theorem State.finish_ctl (r : ResultWord) : (s.finish r).ctl = s.ctl := rfl
@[simp] theorem State.finish_env (r : ResultWord) : (s.finish r).env = s.env := rfl
@[simp] theorem State.finish_draws (r : ResultWord) : (s.finish r).draws = s.draws := rfl

@[simp] theorem State.setLine_cfg (l : LineName) (v : Level) : (s.setLine l v).cfg = s.cfg := by cases l <;> rfl
@[simp] theorem State.setLine_program (l : LineName) (v : Level) : (s.setLine l v).program = s.program := by cases l <;> rfl
@[simp] theorem State.setLine_opIdx (l : LineName) (v : Level) : (s.setLine l v).opIdx = s.opIdx := by cases l <;> rfl
@[simp] theorem State.setLine_surf (l : LineName) (v : Level) : (s.setLine l v).surf = s.surf := by cases l <;> rfl
@[simp] theorem State.setLine_stat (l : LineName) (v : Level) : (s.setLine l v).stat = s.stat := by cases l <;> rfl
@[simp] theorem State.setLine_fault (l : LineName) (v : Level) : (s.setLine l v).fault = s.fault := by cases l <;> rfl
@[simp] theorem State.setLine_result (l : LineName) (v : Level) : (s.setLine l v).result = s.result := by cases l <;> rfl
@[simp] theorem State.setLine_results (l : LineName) (v : Level) : (s.setLine l v).results = s.results := by cases l <;> rfl
@[simp] theorem State.setLine_tb (l : LineName) (v : Level) : (s.setLine l v).tb = s.tb := by cases l <;> rfl
@[simp] theorem State.setLine_rx (l : LineName) (v : Level) : (s.setLine l v).rx = s.rx := by cases l <;> rfl
@[simp] theorem State.setLine_micro (l : LineName) (v : Level) : (s.setLine l v).micro = s.micro := by cases l <;> rfl
@[simp] theorem State.setLine_trace (l : LineName) (v : Level) : (s.setLine l v).trace = s.trace := by cases l <;> rfl
@[simp] theorem State.setLine_ctl (l : LineName) (v : Level) : (s.setLine l v).ctl = s.ctl := by cases l <;> rfl
@[simp] theorem State.setLine_env (l : LineName) (v : Level) : (s.setLine l v).env = s.env := by cases l <;> rfl
@[simp] theorem State.setLine_draws (l : LineName) (v : Level) : (s.setLine l v).draws = s.draws := by cases l <;> rfl
@[simp] theorem State.setLine_dc_lines (v : Level) : (s.setLine .dc v).lines = { s.lines with dc := some v } := rfl
@[simp] theorem State.setLine_rst_lines (v : Level) : (s.setLine .rst v).lines = { s.lines with rst := some v } := rfl
@[simp] theorem State.setLine_cs_lines (v : Level) : (s.setLine .cs v).lines = { s.lines with cs := some v } := rfl

end Sys2Proof.Machine
end

