-- ==== Sys2Proof/Laws/Bus.lean ====
section
/-! SUPPORT. Sys2Proof/Laws/Bus.lean: what the framer does on a reliable backend with the sequential host: one lemma for a
transaction, a group, a data block and a received frame, each giving the whole next state. -/

namespace Sys2Proof.Machine

@[simp] theorem Flow.bind_cont (s : State) (k : State → Flow) : (Flow.cont s).bind k = k s := rfl
@[simp] theorem Flow.bind_stop (s : State) (k : State → Flow) : (Flow.stop s).bind k = .stop s := rfl
@[simp] theorem Flow.finish_cont (s : State) (r : ResultWord) : (Flow.cont s).finish r = complete r s := rfl
@[simp] theorem Flow.finish_stop (s : State) (r : ResultWord) : (Flow.stop s).finish r = s := rfl

/-- The sequential host issues nothing early: an event is only recorded. -/
theorem emit_sequential {e : Event} {s : State} (h : SequentialHost s) : emit e s = s.record e := by
  have h' : s.env.early = [] := h
  simp only [emit, hostTick, State.record_stat, State.record_env, h']
  split <;> rfl

theorem transferOk_reliable {s : State} (h : Reliable s) : transferOk s = true := by
  have h' : s.env.backend = .reliable := h
  simp [transferOk, h']

theorem transferNext_reliable {s : State} (h : Reliable s) : transferNext s = s := by
  have h' : s.env.backend = .reliable := h
  simp [transferNext, h']

/-- The bytes a list of chunks puts on the bus, for the controller. -/
def ctlAfter (s : State) (r : Role) (bytes : List Byte) : Controller :=
  match s.cfg.attached with
  | .oracle => s.ctl
  | .reference => Controller.bytesIn s.cfg (heldInReset s) r s.draws s.ctl bytes

/-- The free values those bytes draw. -/
def drawsAfter (s : State) (bytes : List Byte) : Nat :=
  match s.cfg.attached with
  | .oracle => s.draws
  | .reference => s.draws + bytes.length

theorem busOut_true (tx : List Byte) (s : State) :
    busOut true tx s = s.setCtl (ctlAfter s (wireRole s) tx) (drawsAfter s tx) := by
  unfold busOut ctlAfter drawsAfter
  cases s.cfg.attached <;> rfl

theorem xfer_reliable {tx : List Byte} {s : State} (hr : Reliable s) (hs : SequentialHost s) :
    xfer tx s = (s.setCtl (ctlAfter s (wireRole s) tx) (drawsAfter s tx)).record (.xfer tx true) := by
  unfold xfer
  rw [transferOk_reliable hr, transferNext_reliable hr, busOut_true]
  exact emit_sequential hs

/-- The state after the transfers of a transaction. -/
def State.transferred (cs : List (List Byte)) (s : State) : State :=
  { s with trace := s.trace ++ cs.map (fun c => .xfer c true), ctl := ctlAfter s (wireRole s) cs.flatten,
           draws := drawsAfter s cs.flatten }

theorem sendChunks_reliable : ∀ (cs : List (List Byte)) {s : State}, Reliable s → SequentialHost s →
    sendChunks cs s = .cont (s.transferred cs) := by
  intro cs
  induction cs with
  | nil =>
    intro s _ _
    simp only [sendChunks, State.transferred, List.map_nil, List.append_nil, List.flatten_nil]
    cases s
    simp only [ctlAfter, drawsAfter, Flow.cont.injEq, State.mk.injEq, true_and]
    split <;> simp [Controller.bytesIn]
  | cons c cs ih =>
    intro s hr hs
    simp only [sendChunks, transferOk_reliable hr, if_true, xfer_reliable hr hs, Flow.bind]
    rw [ih (by exact hr) (by exact hs)]
    simp only [State.transferred, State.record, State.setCtl, ctlAfter, drawsAfter, wireRole, heldInReset,
      List.map_cons, List.append_assoc, List.singleton_append, List.flatten_cons, List.length_append]
    cases s.cfg.attached
    · rfl
    · simp only [Controller.bytesIn_append, Nat.add_assoc]
      rfl

/-- The level of DC says the role (rule R101). -/
theorem wireRole_dcLevel {s : State} {r : Role} (h : s.lines.dc = some (dcLevel s.cfg r)) : wireRole s = r := by
  unfold wireRole
  rw [h]
  cases r
  · simp
  · simp [dcLevel]

/-- The state after one outbound transaction. -/
def State.sent (r : Role) (payload : List Byte) (s : State) : State :=
  { s with
    trace := s.trace ++ transactionEvents s.cfg r (chunks s.cfg.maxChunk payload)
    lines := { s.lines with dc := some (dcLevel s.cfg r), cs := if csManaged s.cfg then some (!s.cfg.csActive) else s.lines.cs }
    ctl := ctlAfter s r payload
    draws := drawsAfter s payload }

section sent
variable (r : Role) (payload : List Byte) (s : State)
@[simp] theorem State.sent_cfg : (s.sent r payload).cfg = s.cfg := rfl
@[simp] theorem State.sent_program : (s.sent r payload).program = s.program := rfl
@[simp] theorem State.sent_opIdx : (s.sent r payload).opIdx = s.opIdx := rfl
@[simp] theorem State.sent_surf : (s.sent r payload).surf = s.surf := rfl
@[simp] theorem State.sent_stat : (s.sent r payload).stat = s.stat := rfl
@[simp] theorem State.sent_fault : (s.sent r payload).fault = s.fault := rfl
@[simp] theorem State.sent_result : (s.sent r payload).result = s.result := rfl
@[simp] theorem State.sent_results : (s.sent r payload).results = s.results := rfl
@[simp] theorem State.sent_tb : (s.sent r payload).tb = s.tb := rfl
@[simp] theorem State.sent_rx : (s.sent r payload).rx = s.rx := rfl
@[simp] theorem State.sent_micro : (s.sent r payload).micro = s.micro := rfl
@[simp] theorem State.sent_env : (s.sent r payload).env = s.env := rfl
@[simp] theorem State.sent_trace : (s.sent r payload).trace = s.trace ++ transactionEvents s.cfg r (chunks s.cfg.maxChunk payload) := rfl
@[simp] theorem State.sent_ctl : (s.sent r payload).ctl = ctlAfter s r payload := rfl
@[simp] theorem State.sent_draws : (s.sent r payload).draws = drawsAfter s payload := rfl
@[simp] theorem State.sent_rst : (s.sent r payload).lines.rst = s.lines.rst := rfl
@[simp] theorem State.sent_dc : (s.sent r payload).lines.dc = some (dcLevel s.cfg r) := rfl
@[simp] theorem State.sent_cs : (s.sent r payload).lines.cs = if csManaged s.cfg then some (!s.cfg.csActive) else s.lines.cs := rfl
@[simp] theorem heldInReset_sent : heldInReset (s.sent r payload) = heldInReset s := rfl
end sent

/-- One outbound transaction (rule R103). -/
theorem frame_reliable {r : Role} {payload : List Byte} {s : State} (hr : Reliable s) (hs : SequentialHost s)
    (hc : 1 ≤ s.cfg.maxChunk) : frame r payload s = .cont (s.sent r payload) := by
  have hd : ∀ l v, l ≠ .rst → ∀ t : State, SequentialHost t → driveLine l v t = (t.setLine l v).record (.line l v) := by
    intro l v hl t ht
    have : lineEffect l v t = t := by unfold lineEffect; rw [if_neg]; tauto
    unfold driveLine
    rw [this]
    exact emit_sequential (by cases l <;> exact ht)
  unfold frame
  rw [hd .dc _ (by decide) s hs]
  by_cases hm : csManaged s.cfg = true
  · have e1 : csAssert ((s.setLine .dc (dcLevel s.cfg r)).record (.line .dc (dcLevel s.cfg r))) =
        (((s.setLine .dc (dcLevel s.cfg r)).record (.line .dc (dcLevel s.cfg r))).setLine .cs s.cfg.csActive).record
          (.line .cs s.cfg.csActive) := by
      unfold csAssert
      rw [if_pos (by exact hm), hd .cs _ (by decide) _ (by exact hs)]
      rfl
    rw [e1, sendChunks_reliable _ (by exact hr) (by exact hs)]
    simp only [Flow.bind]
    unfold csDeassert
    rw [if_pos (by exact hm), hd .cs _ (by decide) _ (by exact hs)]
    simp only [State.sent, State.transferred, State.record, State.setLine, chunks_flatten _ hc, transactionEvents, hm, if_true,
      List.append_assoc]
    have hw : ∀ x y : _, wireRole { s with lines := { dc := some (dcLevel s.cfg r), rst := s.lines.rst, cs := x }, trace := y } = r :=
      fun x y => wireRole_dcLevel rfl
    simp only [hw]
    rfl
  · have e1 : csAssert ((s.setLine .dc (dcLevel s.cfg r)).record (.line .dc (dcLevel s.cfg r))) =
        (s.setLine .dc (dcLevel s.cfg r)).record (.line .dc (dcLevel s.cfg r)) := by
      unfold csAssert
      rw [if_neg (by exact hm)]
    rw [e1, sendChunks_reliable _ (by exact hr) (by exact hs)]
    simp only [Flow.bind]
    unfold csDeassert
    rw [if_neg (by exact hm)]
    simp only [State.sent, State.transferred, State.record, State.setLine, chunks_flatten _ hc, transactionEvents, hm]
    have hw : ∀ x y : _, wireRole { s with lines := { dc := some (dcLevel s.cfg r), rst := s.lines.rst, cs := x }, trace := y } = r :=
      fun x y => wireRole_dcLevel rfl
    simp only [hw]
    simp
    exact ⟨rfl, rfl⟩

/-- The state after one-byte data transactions. -/
def State.sentEach (d : List Byte) (s : State) : State := d.foldl (fun s b => s.sent .data [b]) s

/-- The state after a group (rule R105). -/
def State.sentGroup (code : Byte) (d : List Byte) (s : State) : State := (s.sent .cmd [code]).sentEach d

theorem sendEach_reliable : ∀ (d : List Byte) {s : State}, Reliable s → SequentialHost s → 1 ≤ s.cfg.maxChunk →
    sendEach d s = .cont (s.sentEach d) := by
  intro d
  induction d with
  | nil => intro s _ _ _; rfl
  | cons b d ih =>
    intro s hr hs hc
    simp only [sendEach, sendData, frame_reliable hr hs hc, Flow.bind]
    exact ih (by exact hr) (by exact hs) (by exact hc)

/-- A group (rule R105). -/
theorem group_reliable {code : Byte} {d : List Byte} {s : State} (hr : Reliable s) (hs : SequentialHost s)
    (hc : 1 ≤ s.cfg.maxChunk) : group code d s = .cont (s.sentGroup code d) := by
  simp only [group, sendCommand, frame_reliable hr hs hc, Flow.bind]
  exact sendEach_reliable d (by exact hr) (by exact hs) (by exact hc)

theorem State.sentEach_same (d : List Byte) : ∀ s : State, let t := s.sentEach d
    t.cfg = s.cfg ∧ t.program = s.program ∧ t.opIdx = s.opIdx ∧ t.surf = s.surf ∧ t.stat = s.stat ∧ t.fault = s.fault ∧
    t.result = s.result ∧ t.results = s.results ∧ t.tb = s.tb ∧ t.rx = s.rx ∧ t.micro = s.micro ∧ t.env = s.env ∧
    t.lines.rst = s.lines.rst := by
  induction d with
  | nil => intro s; simp [State.sentEach]
  | cons b d ih =>
    intro s
    have := ih (s.sent .data [b])
    simpa [State.sentEach] using this

section sentEach
variable (d : List Byte) (s : State)
@[simp] theorem State.sentEach_cfg : (s.sentEach d).cfg = s.cfg := (s.sentEach_same d).1
@[simp] theorem State.sentEach_program : (s.sentEach d).program = s.program := (s.sentEach_same d).2.1
@[simp] theorem State.sentEach_opIdx : (s.sentEach d).opIdx = s.opIdx := (s.sentEach_same d).2.2.1
@[simp] theorem State.sentEach_surf : (s.sentEach d).surf = s.surf := (s.sentEach_same d).2.2.2.1
@[simp] theorem State.sentEach_stat : (s.sentEach d).stat = s.stat := (s.sentEach_same d).2.2.2.2.1
@[simp] theorem State.sentEach_fault : (s.sentEach d).fault = s.fault := (s.sentEach_same d).2.2.2.2.2.1
@[simp] theorem State.sentEach_result : (s.sentEach d).result = s.result := (s.sentEach_same d).2.2.2.2.2.2.1
@[simp] theorem State.sentEach_results : (s.sentEach d).results = s.results := (s.sentEach_same d).2.2.2.2.2.2.2.1
@[simp] theorem State.sentEach_tb : (s.sentEach d).tb = s.tb := (s.sentEach_same d).2.2.2.2.2.2.2.2.1
@[simp] theorem State.sentEach_rx : (s.sentEach d).rx = s.rx := (s.sentEach_same d).2.2.2.2.2.2.2.2.2.1
@[simp] theorem State.sentEach_micro : (s.sentEach d).micro = s.micro := (s.sentEach_same d).2.2.2.2.2.2.2.2.2.2.1
@[simp] theorem State.sentEach_env : (s.sentEach d).env = s.env := (s.sentEach_same d).2.2.2.2.2.2.2.2.2.2.2.1
@[simp] theorem State.sentEach_rst : (s.sentEach d).lines.rst = s.lines.rst := (s.sentEach_same d).2.2.2.2.2.2.2.2.2.2.2.2
@[simp] theorem heldInReset_sentEach : heldInReset (s.sentEach d) = heldInReset s := by simp [heldInReset]
end sentEach

theorem State.sentEach_trace {s : State} (hc : 1 ≤ s.cfg.maxChunk) (d : List Byte) :
    (s.sentEach d).trace = s.trace ++ d.flatMap (dataEvents s.cfg) := by
  induction d generalizing s with
  | nil => simp [State.sentEach]
  | cons b d ih =>
    have := ih (s := s.sent .data [b]) hc
    simp only [State.sentEach, List.foldl_cons] at this ⊢
    rw [this]
    simp [dataEvents, chunks_singleton b hc]

theorem State.sentEach_draws (d : List Byte) : ∀ s : State, (s.sentEach d).draws = drawsAfter s d := by
  induction d with
  | nil => intro s; simp only [State.sentEach, drawsAfter, List.foldl_nil]; split <;> rfl
  | cons b d ih =>
    intro s
    have := ih (s.sent .data [b])
    simp only [State.sentEach, List.foldl_cons] at this ⊢
    rw [this]
    simp only [drawsAfter, State.sent_cfg, State.sent_draws, List.length_cons, List.length_nil]
    cases s.cfg.attached
    · rfl
    · show s.draws + (0 + 1) + d.length = s.draws + (d.length + 1)
      omega

theorem State.sentEach_ctl (d : List Byte) : ∀ s : State, (s.sentEach d).ctl = ctlAfter s .data d := by
  induction d with
  | nil => intro s; simp only [State.sentEach, ctlAfter, List.foldl_nil]; split <;> rfl
  | cons b d ih =>
    intro s
    have := ih (s.sent .data [b])
    simp only [State.sentEach, List.foldl_cons] at this ⊢
    rw [this]
    simp only [ctlAfter, State.sent_cfg, State.sent_draws, State.sent_ctl, heldInReset_sent, drawsAfter]
    cases s.cfg.attached <;> rfl

theorem State.sentEach_dc (d : List Byte) : ∀ s : State,
    (s.sentEach d).lines.dc = if d = [] then s.lines.dc else some (!s.cfg.dcCmd) := by
  induction d with
  | nil => intro s; simp [State.sentEach]
  | cons b d ih =>
    intro s
    have := ih (s.sent .data [b])
    simp only [State.sentEach, List.foldl_cons] at this ⊢
    rw [this]
    by_cases h : d = [] <;> simp [h, dcLevel]

theorem State.sentEach_cs (d : List Byte) : ∀ s : State, (s.sentEach d).lines.cs =
    if csManaged s.cfg ∧ d ≠ [] then some (!s.cfg.csActive) else s.lines.cs := by
  induction d with
  | nil => intro s; simp [State.sentEach]
  | cons b d ih =>
    intro s
    have := ih (s.sent .data [b])
    simp only [State.sentEach, List.foldl_cons] at this ⊢
    rw [this]
    by_cases h : d = [] <;> by_cases h2 : csManaged s.cfg <;> simp [h, h2]

section sentGroup
variable (code : Byte) (d : List Byte) (s : State)
@[simp] theorem State.sentGroup_cfg : (s.sentGroup code d).cfg = s.cfg := by simp [State.sentGroup]
@[simp] theorem State.sentGroup_program : (s.sentGroup code d).program = s.program := by simp [State.sentGroup]
@[simp] theorem State.sentGroup_opIdx : (s.sentGroup code d).opIdx = s.opIdx := by simp [State.sentGroup]
@[simp] theorem State.sentGroup_surf : (s.sentGroup code d).surf = s.surf := by simp [State.sentGroup]
@[simp] theorem State.sentGroup_stat : (s.sentGroup code d).stat = s.stat := by simp [State.sentGroup]
@[simp] theorem State.sentGroup_fault : (s.sentGroup code d).fault = s.fault := by simp [State.sentGroup]
@[simp] theorem State.sentGroup_result : (s.sentGroup code d).result = s.result := by simp [State.sentGroup]
@[simp] theorem State.sentGroup_results : (s.sentGroup code d).results = s.results := by simp [State.sentGroup]
@[simp] theorem State.sentGroup_tb : (s.sentGroup code d).tb = s.tb := by simp [State.sentGroup]
@[simp] theorem State.sentGroup_rx : (s.sentGroup code d).rx = s.rx := by simp [State.sentGroup]
@[simp] theorem State.sentGroup_micro : (s.sentGroup code d).micro = s.micro := by simp [State.sentGroup]
@[simp] theorem State.sentGroup_env : (s.sentGroup code d).env = s.env := by simp [State.sentGroup]
@[simp] theorem State.sentGroup_rst : (s.sentGroup code d).lines.rst = s.lines.rst := by simp [State.sentGroup]
@[simp] theorem heldInReset_sentGroup : heldInReset (s.sentGroup code d) = heldInReset s := by simp [State.sentGroup]
end sentGroup

theorem State.sentGroup_trace {s : State} (hc : 1 ≤ s.cfg.maxChunk) (code : Byte) (d : List Byte) :
    (s.sentGroup code d).trace = s.trace ++ groupEvents s.cfg code d := by
  have := State.sentEach_trace (s := s.sent .cmd [code]) hc d
  simp [State.sentGroup, this, groupEvents, cmdEvents, chunks_singleton code hc]

theorem State.sentGroup_dc (code : Byte) (d : List Byte) (s : State) :
    (s.sentGroup code d).lines.dc = some (if d = [] then s.cfg.dcCmd else !s.cfg.dcCmd) := by
  simp only [State.sentGroup, State.sentEach_dc]
  by_cases h : d = [] <;> simp [h, dcLevel]

theorem State.sentGroup_cs (code : Byte) (d : List Byte) (s : State) :
    (s.sentGroup code d).lines.cs = if csManaged s.cfg then some (!s.cfg.csActive) else s.lines.cs := by
  simp only [State.sentGroup, State.sentEach_cs]
  by_cases h : d = [] <;> by_cases h2 : csManaged s.cfg <;> simp [h, h2]

/-- The latches after a group with data (rules R34, R101, R102). -/
theorem State.sentGroup_lines (code : Byte) {d : List Byte} (hd : d ≠ []) (s : State) :
    (s.sentGroup code d).lines = linesAfterData s s.lines.rst := by
  have h1 := State.sentGroup_dc code d s
  have h2 := State.sentGroup_cs code d s
  have h3 := State.sentGroup_rst code d s
  rw [if_neg hd] at h1
  rw [show (s.sentGroup code d).lines = ⟨(s.sentGroup code d).lines.dc, (s.sentGroup code d).lines.rst, (s.sentGroup code d).lines.cs⟩ from rfl,
    h1, h2, h3]
  rfl

/-- The latches after a data transaction. -/
theorem State.sent_data_lines (d : List Byte) (s : State) : (s.sent .data d).lines = linesAfterData s s.lines.rst := rfl

/-- What a group does to the attached controller. -/
theorem State.sentGroup_ctl (code : Byte) (d : List Byte) (s : State) :
    (s.sentGroup code d).ctl =
      match s.cfg.attached with
      | .oracle => s.ctl
      | .reference => Controller.bytesIn s.cfg (heldInReset s) .data (s.draws + 1)
          (Controller.byteIn s.cfg (heldInReset s) .cmd s.draws s.ctl code) d := by
  simp only [State.sentGroup, State.sentEach_ctl, ctlAfter, State.sent_cfg, State.sent_ctl, State.sent_draws, heldInReset_sent,
    drawsAfter, Controller.bytesIn, List.length_cons, List.length_nil]
  cases s.cfg.attached <;> rfl

theorem State.sentGroup_draws (code : Byte) (d : List Byte) (s : State) :
    (s.sentGroup code d).draws =
      match s.cfg.attached with
      | .oracle => s.draws
      | .reference => s.draws + 1 + d.length := by
  simp only [State.sentGroup, State.sentEach_draws, drawsAfter, State.sent_cfg, State.sent_draws, List.length_cons, List.length_nil]
  cases s.cfg.attached <;> rfl

/-! ## The inbound transaction -/

/-- The any-value answers of an inbound transfer: the environment's script, then free values. -/
theorem anyBytes_eq (n : Nat) : ∀ s : State, anyBytes n s =
    (s.env.bytes.take n ++ (List.range (n - s.env.bytes.length)).map (fun k => Config.freeByte (s.draws + k) 8),
      { s with env := { s.env with bytes := s.env.bytes.drop n }, draws := s.draws + (n - s.env.bytes.length) }) := by
  induction n with
  | zero => intro s; simp [anyBytes]
  | succ n ih =>
    intro s
    simp only [anyBytes]
    cases hb : s.env.bytes with
    | nil =>
      simp only [ih, State.setDraws, hb]
      simp [List.range_succ_eq_map, Function.comp_def, Nat.add_assoc, Nat.add_comm 1]
    | cons b bs =>
      simp only [ih, State.setEnv]
      simp

theorem anyBytes_length (n : Nat) (s : State) : (anyBytes n s).1.length = n := by
  simp [anyBytes_eq]; omega

/-- What an inbound transfer on a reliable backend changes: the controller, the environment's bytes, the draws and `rx`. -/
theorem busIn_true (n : Nat) (s : State) :
    busIn true n s =
      { s with
        ctl := (busIn true n s).ctl
        env := { s.env with bytes := s.env.bytes.drop n }
        draws := (busIn true n s).draws
        rx := (busIn true n s).rx } := by
  unfold busIn
  simp only [anyBytes_eq, State.setRx, State.setCtl]
  cases s.cfg.attached <;> rfl

theorem busIn_true_rx_length (n : Nat) (s : State) : (busIn true n s).rx.length = n := by
  unfold busIn
  cases s.cfg.attached
  · exact anyBytes_length n s
  · simp only [State.setRx, Controller.bytesOut_length, anyBytes_length]

/-- The state after one inbound transaction on a reliable backend. -/
def State.received (n : Nat) (s : State) : State :=
  { s with
    trace := s.trace ++ ([.line .dc (!s.cfg.dcCmd)] ++ (if csManaged s.cfg then [.line .cs s.cfg.csActive] else []) ++
      [.xferIn n (busIn true n s).rx true] ++ (if csManaged s.cfg then [.line .cs (!s.cfg.csActive)] else []))
    lines := { s.lines with dc := some (!s.cfg.dcCmd), cs := if csManaged s.cfg then some (!s.cfg.csActive) else s.lines.cs }
    ctl := (busIn true n s).ctl
    env := { s.env with bytes := s.env.bytes.drop n }
    draws := (busIn true n s).draws
    rx := (busIn true n s).rx }

/-- The controller side of an inbound transfer sees only the controller, the RST latch, the draws and the scripted bytes. -/
theorem busIn_congr {n : Nat} {s t : State} (h1 : t.cfg = s.cfg) (h2 : t.ctl = s.ctl) (h3 : t.lines.rst = s.lines.rst)
    (h4 : t.draws = s.draws) (h5 : t.env.bytes = s.env.bytes) :
    (busIn true n t).ctl = (busIn true n s).ctl ∧ (busIn true n t).draws = (busIn true n s).draws ∧
      (busIn true n t).rx = (busIn true n s).rx := by
  unfold busIn heldInReset
  simp only [anyBytes_eq, State.setRx, State.setCtl, h1, h2, h3, h4, h5]
  cases s.cfg.attached <;> exact ⟨rfl, rfl, rfl⟩

/-- One inbound transaction (rule R109). -/
theorem readFrame_reliable {n : Nat} {s : State} (hr : Reliable s) (hs : SequentialHost s) :
    readFrame n s = .cont (s.received n) := by
  have hd : ∀ l v, l ≠ .rst → ∀ t : State, SequentialHost t → driveLine l v t = (t.setLine l v).record (.line l v) := by
    intro l v hl t ht
    have : lineEffect l v t = t := by unfold lineEffect; rw [if_neg]; tauto
    unfold driveLine
    rw [this]
    exact emit_sequential (by cases l <;> exact ht)
  have hx : ∀ t : State, Reliable t → SequentialHost t →
      xferIn n t = (busIn true n t).record (.xferIn n (busIn true n t).rx true) := by
    intro t h1 h2
    unfold xferIn
    rw [transferOk_reliable h1, transferNext_reliable h1]
    apply emit_sequential
    rw [busIn_true]
    exact h2
  unfold readFrame
  rw [hd .dc _ (by decide) s hs]
  by_cases hm : csManaged s.cfg = true
  · have e1 : csAssert ((s.setLine .dc (dcLevel s.cfg .data)).record (.line .dc (dcLevel s.cfg .data))) =
        (((s.setLine .dc (dcLevel s.cfg .data)).record (.line .dc (dcLevel s.cfg .data))).setLine .cs s.cfg.csActive).record
          (.line .cs s.cfg.csActive) := by
      unfold csAssert
      rw [if_pos (by exact hm), hd .cs _ (by decide) _ (by exact hs)]
      rfl
    simp only [e1]
    rw [transferOk_reliable (by exact hr), if_pos rfl, hx _ (by exact hr) (by exact hs)]
    simp only [Flow.bind]
    unfold csDeassert
    rw [busIn_true]
    rw [if_pos (by exact hm), hd .cs _ (by decide) _ (by exact hs)]
    have hb := fun x y z => busIn_congr (n := n) (s := s)
      (t := { s with lines := { dc := x, rst := s.lines.rst, cs := y }, trace := z }) rfl rfl rfl rfl rfl
    have h1 := fun x y z => (hb x y z).1
    have h2 := fun x y z => (hb x y z).2.1
    have h3 := fun x y z => (hb x y z).2.2
    simp only [State.received, State.record, State.setLine, hm, if_true, dcLevel, List.append_assoc, h1, h2, h3]
  · have e1 : csAssert ((s.setLine .dc (dcLevel s.cfg .data)).record (.line .dc (dcLevel s.cfg .data))) =
        (s.setLine .dc (dcLevel s.cfg .data)).record (.line .dc (dcLevel s.cfg .data)) := by
      unfold csAssert
      rw [if_neg (by exact hm)]
    simp only [e1]
    rw [transferOk_reliable (by exact hr), if_pos rfl, hx _ (by exact hr) (by exact hs)]
    simp only [Flow.bind]
    unfold csDeassert
    rw [busIn_true]
    rw [if_neg (by exact hm)]
    have hb := fun x y z => busIn_congr (n := n) (s := s)
      (t := { s with lines := { dc := x, rst := s.lines.rst, cs := y }, trace := z }) rfl rfl rfl rfl rfl
    have h1 := fun x y z => (hb x y z).1
    have h2 := fun x y z => (hb x y z).2.1
    have h3 := fun x y z => (hb x y z).2.2
    simp only [State.received, State.record, State.setLine, hm, dcLevel, List.append_assoc, h1, h2, h3]
    simp

section received
variable (n : Nat) (s : State)
@[simp] theorem State.received_cfg : (s.received n).cfg = s.cfg := rfl
@[simp] theorem State.received_program : (s.received n).program = s.program := rfl
@[simp] theorem State.received_opIdx : (s.received n).opIdx = s.opIdx := rfl
@[simp] theorem State.received_surf : (s.received n).surf = s.surf := rfl
@[simp] theorem State.received_stat : (s.received n).stat = s.stat := rfl
@[simp] theorem State.received_fault : (s.received n).fault = s.fault := rfl
@[simp] theorem State.received_result : (s.received n).result = s.result := rfl
@[simp] theorem State.received_results : (s.received n).results = s.results := rfl
@[simp] theorem State.received_tb : (s.received n).tb = s.tb := rfl
@[simp] theorem State.received_micro : (s.received n).micro = s.micro := rfl
@[simp] theorem State.received_backend : (s.received n).env.backend = s.env.backend := rfl
@[simp] theorem State.received_early : (s.received n).env.early = s.env.early := rfl
@[simp] theorem State.received_samples : (s.received n).env.samples = s.env.samples := rfl
@[simp] theorem State.received_rst : (s.received n).lines.rst = s.lines.rst := rfl
@[simp] theorem State.received_dc : (s.received n).lines.dc = some (!s.cfg.dcCmd) := rfl
@[simp] theorem State.received_cs : (s.received n).lines.cs = if csManaged s.cfg then some (!s.cfg.csActive) else s.lines.cs := rfl
@[simp] theorem State.received_rx_length : (s.received n).rx.length = n := busIn_true_rx_length n s
@[simp] theorem heldInReset_received : heldInReset (s.received n) = heldInReset s := rfl
end received

theorem State.received_trace (s : State) : (s.received 2).trace = s.trace ++ readEvents s.cfg (s.received 2).rx := rfl

end Sys2Proof.Machine
end

