-- ==== Sys2Proof/Laws/Decode.lean ====
section
/-! SUPPORT. Sys2Proof/Laws/Decode.lean: the fields of an operation word, split and joined. -/

namespace Sys2Proof

/-- A bit of a joined word. -/
theorem HostFields.getLsbD_join (f : HostFields) (i : Nat) :
    (HostFields.join f).getLsbD i =
      if i < 8 then f.opc.getLsbD i else if i - 8 < 8 then f.sub.getLsbD (i - 8)
      else if i - 8 - 8 < 16 then f.x.getLsbD (i - 8 - 8)
      else if i - 8 - 8 - 16 < 16 then f.y.getLsbD (i - 8 - 8 - 16) else f.l.getLsbD (i - 8 - 8 - 16 - 16) := by
  show BitVec.getLsbD (w := 16 + 16 + 16 + 8 + 8) (f.l ++ f.y ++ f.x ++ f.sub ++ f.opc) i = _
  simp only [BitVec.getLsbD_append]

/-- Splitting what was joined. -/
theorem HostFields.split_join (f : HostFields) : HostFields.split (HostFields.join f) = f := by
  obtain ⟨o, s, x, y, l⟩ := f
  simp only [HostFields.split, HostFields.mk.injEq]
  refine ⟨?_, ?_, ?_, ?_, ?_⟩ <;>
    (apply BitVec.eq_of_getLsbD_eq; intro i hi
     simp only [BitVec.getLsbD_extractLsb', hi, decide_true, Bool.true_and, HostFields.getLsbD_join])
  · rw [if_pos (by omega)]; congr 1; omega
  · rw [if_neg (by omega), if_pos (by omega)]; congr 1; omega
  · rw [if_neg (by omega), if_neg (by omega), if_pos (by omega)]; congr 1; omega
  · rw [if_neg (by omega), if_neg (by omega), if_neg (by omega), if_pos (by omega)]; congr 1; omega
  · rw [if_neg (by omega), if_neg (by omega), if_neg (by omega), if_neg (by omega)]; congr 1; omega

/-- Joining what was split. -/
theorem HostFields.join_split (w : HostWord) : HostFields.join (HostFields.split w) = w := by
  apply BitVec.eq_of_getLsbD_eq
  intro i hi
  rw [HostFields.getLsbD_join]
  simp only [HostFields.split, BitVec.getLsbD_extractLsb']
  split
  · simp [*]
  · split
    · rw [decide_eq_true (by omega), Bool.true_and]; congr 1; omega
    · split
      · rw [decide_eq_true (by omega), Bool.true_and]; congr 1; omega
      · split
        · rw [decide_eq_true (by omega), Bool.true_and]; congr 1; omega
        · rw [decide_eq_true (by omega), Bool.true_and]; congr 1; omega

/-- An operand that fits 16 bits comes back from its two's complement field (rule R76). -/
theorem toInt_ofInt_of_fits {v : Int} (h : fitsInt16 v = true) : (BitVec.ofInt 16 v).toInt = v := by
  simp only [fitsInt16, decide_eq_true_eq] at h
  rw [BitVec.toInt_ofInt]
  apply Int.bmod_eq_of_le <;> (norm_num; omega)

/-- A field read as an integer fits 16 bits. -/
theorem fits_toInt (x : Half) : fitsInt16 x.toInt = true := by
  have h1 := BitVec.toInt_lt (x := x)
  have h2 := BitVec.le_toInt (x := x)
  simp only [fitsInt16, decide_eq_true_eq]
  simp at h1 h2
  omega

end Sys2Proof
end

