-- ==== Sys2Proof/Laws/Effects.lean ====
section
/-! SUPPORT. Sys2Proof/Laws/Effects.lean: everything the shared bus operations can do, in any state, with failing transfers and a
concurrent host too: one lemma for each operation. -/

namespace Sys2Proof.Machine

/-! ## Framing -/

/-- A place of the framing automaton where no transaction is open. -/
def Resting (c : Params) (q : Framing) : Prop := q = .outside ∨ (csManaged c = false ∧ ∃ r, q = .inside r)

/-- Events that lead from rest to rest. -/
def Whole (c : Params) (ev : List Event) : Prop :=
  ∀ q, Resting c q → ∃ q', framingRun c q ev = some q' ∧ Resting c q'

/-- Events that stay inside a transaction. -/
def InsideOnly (c : Params) (r : Role) (ev : List Event) : Prop :=
  framingRun c (.inside r) ev = some (.inside r)

/-- Events that lead from inside a transaction to rest. -/
def Closing (c : Params) (r : Role) (ev : List Event) : Prop :=
  ∃ q', framingRun c (.inside r) ev = some q' ∧ Resting c q'

theorem framingRun_append (c : Params) (xs ys : List Event) : ∀ q,
    framingRun c q (xs ++ ys) = (framingRun c q xs).bind fun q' => framingRun c q' ys := by
  induction xs with
  | nil => intro q; rfl
  | cons x xs ih =>
    intro q
    simp only [List.cons_append, framingRun]
    cases framingNext c q x with
    | none => rfl
    | some q' => exact ih q'

theorem Whole.nil (c : Params) : Whole c [] := fun q h => ⟨q, rfl, h⟩

theorem Whole.append {c : Params} {xs ys : List Event} (h1 : Whole c xs) (h2 : Whole c ys) : Whole c (xs ++ ys) := by
  intro q hq
  obtain ⟨q1, e1, r1⟩ := h1 q hq
  obtain ⟨q2, e2, r2⟩ := h2 q1 r1
  exact ⟨q2, by rw [framingRun_append, e1]; exact e2, r2⟩

theorem InsideOnly.append {c : Params} {r : Role} {xs ys : List Event} (h1 : InsideOnly c r xs) (h2 : InsideOnly c r ys) :
    InsideOnly c r (xs ++ ys) := by
  unfold InsideOnly at *
  rw [framingRun_append, h1]
  exact h2

theorem InsideOnly.closing {c : Params} {r : Role} {xs ys : List Event} (h1 : InsideOnly c r xs) (h2 : Closing c r ys) :
    Closing c r (xs ++ ys) := by
  obtain ⟨q, e, h⟩ := h2
  exact ⟨q, by rw [framingRun_append, h1]; exact e, h⟩

/-- Whole events are well framed. -/
theorem Whole.wellFramed {c : Params} {ev : List Event} (h : Whole c ev) : WellFramed c ev :=
  by
  obtain ⟨q, e, h'⟩ := h .outside (.inl rfl)
  refine ⟨q, e, fun hm => ?_⟩
  rcases h' with h' | ⟨h', -⟩
  · exact h'
  · simp [hm] at h'

/-- A log record, a sample, a delay, an acquisition, a reset-line event: nothing is open around it. -/
theorem whole_single {c : Params} {e : Event} (he : (∃ k, e = .log k) ∨ (∃ v, e = .sample v) ∨ (∃ t, e = .delay t) ∨
    (∃ b, e = .acquire b) ∨ (∃ v, e = .line .rst v)) : Whole c [e] := by
  rintro q (rfl | ⟨hm, r, rfl⟩)
  · rcases he with ⟨k, rfl⟩ | ⟨v, rfl⟩ | ⟨t, rfl⟩ | ⟨b, rfl⟩ | ⟨v, rfl⟩ <;> exact ⟨.outside, rfl, .inl rfl⟩
  · rcases he with ⟨k, rfl⟩ | ⟨v, rfl⟩ | ⟨t, rfl⟩ | ⟨b, rfl⟩ | ⟨v, rfl⟩
    · exact ⟨.inside r, rfl, .inr ⟨hm, r, rfl⟩⟩
    all_goals exact ⟨.outside, by simp [framingRun, framingNext, hm], .inl rfl⟩

/-! ## What an operation adds -/

/-- What code of an operation may do, with events `P` added: faults are only set, RAM stays canonical, the words refused while the
operation runs write their results, and everything else named here stays. -/
structure Adds (P : List Event → Prop) (s t : State) : Prop where
  cfg : t.cfg = s.cfg
  program : t.program = s.program
  surf : t.surf = s.surf
  begun : t.stat.begun = s.stat.begun
  inop : t.stat.inop = s.stat.inop
  micro : t.micro = s.micro
  csFree : csManaged s.cfg = false → t.lines.cs = s.lines.cs
  faults : faultLe s.fault t.fault
  ram : Controller.RamWf s.ctl → Controller.RamWf t.ctl
  buffer : s.tb.length = planeBytes s.cfg → t.tb.length = planeBytes s.cfg
  words : ∃ k, t.results = s.results ++ List.replicate k 0#32 ∧ t.opIdx = s.opIdx + k ∧
    t.result = (if k = 0 then s.result else 0#32) ∧ (s.stat.inop = false ∨ s.env.early = [] → k = 0)
  early : s.env.early = [] → t.env.early = []
  reliable : s.env.backend = .reliable → t.env.backend = .reliable
  events : ∃ ev, t.trace = s.trace ++ ev ∧ P ev

theorem faultLe_refl (f : FaultReg) : faultLe f f := fun _ h => h

theorem faultLe.trans {f g h : FaultReg} (h1 : faultLe f g) (h2 : faultLe g h) : faultLe f h := fun b hb => h2 b (h1 b hb)

theorem faultLe_faultSet (f : FaultReg) (b : FaultBit) : faultLe f (faultSet f b) := by
  intro b' h; cases b <;> cases b' <;> first | exact h | rfl

theorem faultGet_faultSet_same (f : FaultReg) (b : FaultBit) : faultGet (faultSet f b) b = true := by cases b <;> rfl

theorem Adds.mono {P Q : List Event → Prop} {s t : State} (h : Adds P s t) (hPQ : ∀ ev, P ev → Q ev) : Adds Q s t :=
  { h with events := h.events.imp fun _ e => ⟨e.1, hPQ _ e.2⟩ }

theorem Adds.trans {P Q R : List Event → Prop} {s t u : State} (h1 : Adds P s t) (h2 : Adds Q t u)
    (hR : ∀ xs ys, P xs → Q ys → R (xs ++ ys)) : Adds R s u where
  cfg := h2.cfg.trans h1.cfg
  program := h2.program.trans h1.program
  surf := h2.surf.trans h1.surf
  begun := h2.begun.trans h1.begun
  inop := h2.inop.trans h1.inop
  micro := h2.micro.trans h1.micro
  csFree hm := (h2.csFree (by rw [h1.cfg]; exact hm)).trans (h1.csFree hm)
  faults := h1.faults.trans h2.faults
  ram h := h2.ram (h1.ram h)
  buffer h := by rw [← h1.cfg]; exact h2.buffer (by rw [h1.cfg]; exact h1.buffer h)
  words := by
    obtain ⟨k, a1, b1, c1, d1⟩ := h1.words
    obtain ⟨l, a2, b2, c2, d2⟩ := h2.words
    refine ⟨k + l, by rw [a2, a1, List.append_assoc, List.replicate_append_replicate], by omega, ?_, ?_⟩
    · rw [c2, c1]
      by_cases hk : k = 0 <;> by_cases hl : l = 0 <;> simp [hk, hl]
    · intro h
      have hk := d1 h
      have : l = 0 := d2 (by rcases h with h | h; exacts [.inl (h1.inop.trans h), .inr (h1.early h)])
      omega
  early h := h2.early (h1.early h)
  reliable h := h2.reliable (h1.reliable h)
  events := by
    obtain ⟨xs, e1, p1⟩ := h1.events
    obtain ⟨ys, e2, p2⟩ := h2.events
    exact ⟨xs ++ ys, by rw [e2, e1, List.append_assoc], hR _ _ p1 p2⟩

/-- A state that differs only where `Adds` does not look. -/
theorem Adds.still {s t : State} (P : List Event → Prop) (hP : P []) (cfg : t.cfg = s.cfg) (program : t.program = s.program)
    (surf : t.surf = s.surf) (begun : t.stat.begun = s.stat.begun) (inop : t.stat.inop = s.stat.inop) (micro : t.micro = s.micro)
    (csFree : csManaged s.cfg = false → t.lines.cs = s.lines.cs)
    (faults : faultLe s.fault t.fault) (ram : Controller.RamWf s.ctl → Controller.RamWf t.ctl)
    (buffer : s.tb.length = planeBytes s.cfg → t.tb.length = planeBytes s.cfg) (results : t.results = s.results)
    (opIdx : t.opIdx = s.opIdx) (result : t.result = s.result) (early : s.env.early = [] → t.env.early = [])
    (reliable : s.env.backend = .reliable → t.env.backend = .reliable) (trace : t.trace = s.trace) : Adds P s t where
  cfg := cfg
  program := program
  surf := surf
  begun := begun
  inop := inop
  micro := micro
  csFree := csFree
  faults := faults
  ram := ram
  buffer := buffer
  words := ⟨0, by simp [results], by simp [opIdx], by simp [result], fun _ => rfl⟩
  early := early
  reliable := reliable
  events := ⟨[], by simp [trace], hP⟩

theorem Adds.refl {P : List Event → Prop} (hP : P []) (s : State) : Adds P s s :=
  Adds.still P hP rfl rfl rfl rfl rfl rfl (fun _ => rfl) (faultLe_refl _) id id rfl rfl rfl id id rfl

/-- The bus-level fields: what even a plane write or a power state change does not touch on the bus. -/
structure Silent (s t : State) : Prop where
  stat : t.stat = s.stat
  tb : t.tb = s.tb
  lines : t.lines = s.lines

theorem Silent.refl (s : State) : Silent s s := ⟨rfl, rfl, rfl⟩
theorem Silent.trans {s t u : State} (h1 : Silent s t) (h2 : Silent t u) : Silent s u :=
  ⟨h2.stat.trans h1.stat, h2.tb.trans h1.tb, h2.lines.trans h1.lines⟩

/-! ## One event -/

/-- What the concurrent host can do at one event: at most one refused word. -/
theorem hostTick_adds (s : State) : Adds (· = []) s (hostTick s) ∧ Silent s (hostTick s) ∧ (hostTick s).rx = s.rx ∧
    (hostTick s).ctl = s.ctl ∧ (hostTick s).draws = s.draws ∧ (hostTick s).env.samples = s.env.samples ∧
    (hostTick s).env.backend = s.env.backend ∧ (hostTick s).env.bytes = s.env.bytes ∧
    (hostTick s).fault.busFail = s.fault.busFail := by
  unfold hostTick
  split
  case isFalse h => exact ⟨Adds.refl (P := (· = [])) rfl s, Silent.refl s, rfl, rfl, rfl, rfl, rfl, rfl, rfl⟩
  case isTrue h =>
    split
    case h_1 => exact ⟨Adds.refl (P := (· = [])) rfl s, Silent.refl s, rfl, rfl, rfl, rfl, rfl, rfl, rfl⟩
    case h_3 k rest he =>
      exact ⟨Adds.still _ rfl rfl rfl rfl rfl rfl rfl (fun _ => rfl) (faultLe_refl _) id id rfl rfl rfl (fun h => by simp [h] at he) id rfl,
        ⟨rfl, rfl, rfl⟩, rfl, rfl, rfl, rfl, rfl, rfl, rfl⟩
    case h_2 rest he =>
      unfold issueEarly
      split
      · exact ⟨Adds.still _ rfl rfl rfl rfl rfl rfl rfl (fun _ => rfl) (faultLe_refl _) id id rfl rfl rfl (fun h => by simp [h] at he) id rfl,
          ⟨rfl, rfl, rfl⟩, rfl, rfl, rfl, rfl, rfl, rfl, rfl⟩
      · split
        all_goals
          refine ⟨?_, ⟨rfl, rfl, rfl⟩, rfl, rfl, rfl, rfl, rfl, rfl, rfl⟩
          exact {
            cfg := rfl
            program := rfl
            surf := rfl
            begun := rfl
            inop := rfl
            micro := rfl
            csFree := fun _ => rfl
            faults := faultLe_faultSet _ _
            ram := id
            buffer := id
            words := ⟨1, rfl, rfl, rfl, fun hh => by rcases hh with hh | hh <;> simp_all⟩
            early := fun hh => by simp [hh] at he
            reliable := id
            events := ⟨[], by simp [refuse, State.finish, State.raise, State.setEnv], rfl⟩ }

/-- One event, after a change `Adds` allows. -/
theorem emit_adds {s t : State} (e : Event) (h : Adds (· = []) s t) : Adds (· = [e]) s (emit e t) := by
  have h1 : Adds (· = [e]) t (t.record e) := {
    cfg := rfl
    program := rfl
    surf := rfl
    begun := rfl
    inop := rfl
    micro := rfl
    csFree := fun _ => rfl
    faults := faultLe_refl _
    ram := id
    buffer := id
    words := ⟨0, by simp, rfl, rfl, fun _ => rfl⟩
    early := id
    reliable := id
    events := ⟨[e], rfl, rfl⟩ }
  have h2 := h.trans h1 (R := (· = [e])) (by rintro _ _ rfl rfl; rfl)
  exact h2.trans (hostTick_adds _).1 (by rintro _ _ rfl rfl; rfl)

theorem emit_silent {s t : State} (e : Event) (h : Silent s t) : Silent s (emit e t) :=
  h.trans (Silent.trans (t := t.record e) ⟨rfl, rfl, rfl⟩ (hostTick_adds _).2.1)

theorem transferNext_adds (s : State) : Adds (· = []) s (transferNext s) ∧ Silent s (transferNext s) := by
  unfold transferNext
  split
  · exact ⟨Adds.refl (P := (· = [])) rfl s, Silent.refl s⟩
  · refine ⟨Adds.still _ rfl rfl rfl rfl rfl rfl rfl (fun _ => rfl) (faultLe_refl _) id id rfl rfl rfl id ?_ rfl, ⟨rfl, rfl, rfl⟩⟩
    intro h; simp_all
  · exact ⟨Adds.still _ rfl rfl rfl rfl rfl rfl rfl (fun _ => rfl) (faultLe_refl _) id id rfl rfl rfl id id rfl, ⟨rfl, rfl, rfl⟩⟩

theorem acquireNext_adds (s : State) : Adds (· = []) s (acquireNext s) ∧ Silent s (acquireNext s) := by
  unfold acquireNext
  split
  · exact ⟨Adds.refl (P := (· = [])) rfl s, Silent.refl s⟩
  · refine ⟨Adds.still _ rfl rfl rfl rfl rfl rfl rfl (fun _ => rfl) (faultLe_refl _) id id rfl rfl rfl id ?_ rfl, ⟨rfl, rfl, rfl⟩⟩
    intro h; simp_all
  · exact ⟨Adds.still _ rfl rfl rfl rfl rfl rfl rfl (fun _ => rfl) (faultLe_refl _) id id rfl rfl rfl id id rfl, ⟨rfl, rfl, rfl⟩⟩

/-- A change of the controller and the draws alone. -/
theorem setCtl_adds {s : State} {c : Controller} (n : Nat) (h : Controller.RamWf s.ctl → Controller.RamWf c) :
    Adds (· = []) s (s.setCtl c n) ∧ Silent s (s.setCtl c n) :=
  ⟨Adds.still _ rfl rfl rfl rfl rfl rfl rfl (fun _ => rfl) (faultLe_refl _) h id rfl rfl rfl id id rfl, ⟨rfl, rfl, rfl⟩⟩

theorem busOut_adds (ok : Bool) (tx : List Byte) (s : State) : Adds (· = []) s (busOut ok tx s) ∧ Silent s (busOut ok tx s) := by
  unfold busOut
  split
  · exact ⟨Adds.refl (P := (· = [])) rfl s, Silent.refl s⟩
  · exact setCtl_adds _ (fun h => Controller.ramWf_bytesIn _ _ _ _ _ h)
  · exact setCtl_adds _ (fun _ => Controller.ramWf_unspecified _ _)

theorem controllerLost_adds (s : State) : Adds (· = []) s (controllerLost s) ∧ Silent s (controllerLost s) := by
  unfold controllerLost
  split
  · exact ⟨Adds.refl (P := (· = [])) rfl s, Silent.refl s⟩
  · exact setCtl_adds _ (fun _ => Controller.ramWf_unspecified _ _)

theorem nil_trans {s t u : State} (h1 : Adds (· = []) s t) (h2 : Adds (· = []) t u) : Adds (· = []) s u :=
  h1.trans h2 (by rintro _ _ rfl rfl; rfl)

/-- `Xfer(tx)`: one event. -/
theorem xfer_adds (tx : List Byte) (s : State) :
    Adds (· = [.xfer tx (transferOk s)]) s (xfer tx s) ∧ Silent s (xfer tx s) :=
  ⟨emit_adds _ (nil_trans (transferNext_adds s).1 (busOut_adds _ _ _).1),
    emit_silent _ ((transferNext_adds s).2.trans (busOut_adds _ _ _).2)⟩

theorem busIn_adds (ok : Bool) (n : Nat) (s : State) : Adds (· = []) s (busIn ok n s) ∧ Silent s (busIn ok n s) := by
  unfold busIn
  simp only [anyBytes_eq]
  split
  · exact ⟨Adds.still _ rfl rfl rfl rfl rfl rfl rfl (fun _ => rfl) (faultLe_refl _) id id rfl rfl rfl id id rfl, ⟨rfl, rfl, rfl⟩⟩
  · exact ⟨Adds.still _ rfl rfl rfl rfl rfl rfl rfl (fun _ => rfl) (faultLe_refl _)
      (fun h => Controller.ramWf_bytesOut _ _ _ _ h) id rfl rfl rfl id id rfl, ⟨rfl, rfl, rfl⟩⟩
  · exact ⟨Adds.still _ rfl rfl rfl rfl rfl rfl rfl (fun _ => rfl) (faultLe_refl _)
      (fun _ => Controller.ramWf_unspecified _ _) id rfl rfl rfl id id rfl, ⟨rfl, rfl, rfl⟩⟩

/-- `XferIn(n)`: one event. -/
theorem xferIn_adds (n : Nat) (s : State) :
    Adds (fun ev => ∃ rx, ev = [.xferIn n rx (transferOk s)]) s (xferIn n s) ∧ Silent s (xferIn n s) :=
  ⟨(emit_adds _ (nil_trans (transferNext_adds s).1 (busIn_adds _ _ _).1)).mono (fun _ e => ⟨_, e⟩),
    emit_silent _ ((transferNext_adds s).2.trans (busIn_adds _ _ _).2)⟩

theorem sampleNext_adds (s : State) : Adds (· = []) s (sampleNext s) ∧ Silent s (sampleNext s) := by
  unfold sampleNext
  split
  · exact setCtl_adds _ (fun h => Controller.ramWf_afterSample h)
  · split
    · exact ⟨Adds.still _ rfl rfl rfl rfl rfl rfl rfl (fun _ => rfl) (faultLe_refl _) id id rfl rfl rfl id id rfl, ⟨rfl, rfl, rfl⟩⟩
    · exact ⟨Adds.still _ rfl rfl rfl rfl rfl rfl rfl (fun _ => rfl) (faultLe_refl _) id id rfl rfl rfl id id rfl, ⟨rfl, rfl, rfl⟩⟩

/-- `Sample()`: one event. -/
theorem sample_adds (s : State) : Adds (· = [.sample (sampleLevel s)]) s (sample s) ∧ Silent s (sample s) :=
  ⟨emit_adds _ (sampleNext_adds s).1, emit_silent _ (sampleNext_adds s).2⟩

/-- `Delay(t)`: one event. -/
theorem delay_adds (t : Nat) (s : State) : Adds (· = [.delay t]) s (delay t s) ∧ Silent s (delay t s) :=
  ⟨emit_adds _ (Adds.refl (P := (· = [])) rfl s), emit_silent _ (Silent.refl s)⟩

/-- `Log(k)`: one event. -/
theorem logRecord_adds (k : LogKind) (s : State) : Adds (· = [.log k]) s (logRecord k s) ∧ Silent s (logRecord k s) :=
  ⟨emit_adds _ (Adds.refl (P := (· = [])) rfl s), emit_silent _ (Silent.refl s)⟩

/-- `Acquire()`: one event. -/
theorem acquire_adds (s : State) : Adds (· = [.acquire (acquireOk s)]) s (acquire s) ∧ Silent s (acquire s) :=
  ⟨emit_adds _ (acquireNext_adds s).1, emit_silent _ (acquireNext_adds s).2⟩

theorem lineEffect_adds (l : LineName) (v : Level) (s : State) :
    Adds (· = []) s (lineEffect l v s) ∧ Silent s (lineEffect l v s) := by
  unfold lineEffect
  split
  · exact setCtl_adds _ (fun _ => Controller.ramWf_hardReset _ _)
  · exact ⟨Adds.refl (P := (· = [])) rfl s, Silent.refl s⟩

/-- The latch a line drives, the others as they were (rule R34). -/
def Lines.set (ls : Lines) (l : LineName) (v : Level) : Lines :=
  match l with
  | .dc => { ls with dc := some v }
  | .rst => { ls with rst := some v }
  | .cs => { ls with cs := some v }

theorem setLine_lines (l : LineName) (v : Level) (s : State) : (s.setLine l v).lines = s.lines.set l v := by cases l <;> rfl

/-- `Line(l, v)`: one event and the latch. -/
theorem driveLine_adds (l : LineName) (v : Level) (s : State) (hl : l = .cs → csManaged s.cfg = true) :
    Adds (· = [.line l v]) s (driveLine l v s) ∧ (driveLine l v s).stat = s.stat ∧ (driveLine l v s).tb = s.tb ∧
      (driveLine l v s).lines = s.lines.set l v := by
  have h1 := lineEffect_adds l v s
  have h2 : Adds (· = []) (lineEffect l v s) ((lineEffect l v s).setLine l v) := by
    refine Adds.still _ rfl ?_ ?_ ?_ ?_ ?_ ?_ ?_ ?_ ?_ ?_ ?_ ?_ ?_ ?_ ?_ ?_
    all_goals cases l <;> first | rfl | exact id | exact fun _ => rfl | exact faultLe_refl _ | skip
    intro hm; rw [h1.1.cfg, hl rfl] at hm; cases hm
  have h3 := emit_silent (.line l v) (Silent.refl ((lineEffect l v s).setLine l v))
  refine ⟨emit_adds _ (nil_trans h1.1 h2), ?_, ?_, ?_⟩
  · exact h3.stat.trans (Eq.trans (by cases l <;> rfl) h1.2.stat)
  · exact h3.tb.trans (Eq.trans (by cases l <;> rfl) h1.2.tb)
  · exact h3.lines.trans ((setLine_lines _ _ _).trans (by rw [h1.2.lines]))

/-! ## An operation's ending -/

/-- An operation aborted in a state where CS is not asserted (rule R252). -/
def aborted (f : FaultBit) (t : State) : State :=
  (((t.setCstate .uninitialized).finish (abortResult f)).setInop false).setMicro .idle

/-- No transaction is open: CS is not asserted. -/
def CsIdle (s : State) : Prop := csManaged s.cfg = true → s.lines.cs ≠ some s.cfg.csActive

/-- An operation goes on with `C`, or has stopped with `A`. -/
def Flow.Ends (C A : State → Prop) : Flow → Prop
  | .cont s => C s
  | .stop s => A s

theorem Flow.Ends.mono {C C' A A' : State → Prop} {f : Flow} (h : f.Ends C A) (hC : ∀ t, C t → C' t) (hA : ∀ t, A t → A' t) :
    f.Ends C' A' := by cases f; exacts [hC _ h, hA _ h]

theorem Flow.Ends.bind {C C' A : State → Prop} {f : Flow} {k : State → Flow} (h : f.Ends C A) (hk : ∀ t, C t → (k t).Ends C' A) :
    (f.bind k).Ends C' A := by cases f; exacts [hk _ h, h]

/-- `Abort`, in a transaction or outside. -/
theorem abort_outside {f : FaultBit} {s : State} (h : CsIdle s) : abort f s = aborted f s := by
  unfold abort aborted
  rw [if_neg (by rintro ⟨h1, h2⟩; exact h h1 h2)]

/-- Everything an abort can do: it closes an open transaction, and then only its own effects. -/
theorem abort_spec (f : FaultBit) (s : State) (r : Role) (hcs : csManaged s.cfg = true → s.lines.cs = some s.cfg.csActive) :
    ∃ t, abort f s = aborted f t ∧ Adds (Closing s.cfg r) s t ∧ t.stat = s.stat ∧ t.tb = s.tb ∧ CsIdle t ∧
      t.lines.rst = s.lines.rst := by
  by_cases hm : csManaged s.cfg = true
  · refine ⟨driveLine .cs (!s.cfg.csActive) s, ?_, ?_⟩
    · unfold abort aborted
      rw [if_pos ⟨hm, hcs hm⟩]
    · have h := driveLine_adds .cs (!s.cfg.csActive) s (fun _ => hm)
      refine ⟨h.1.mono ?_, h.2.1, h.2.2.1, ?_, ?_⟩
      · rintro _ rfl
        exact ⟨.outside, by simp [framingRun, framingNext, hm], .inl rfl⟩
      · intro _ h'
        rw [h.1.cfg, h.2.2.2] at h'
        simp [Lines.set] at h'
      · rw [h.2.2.2]; rfl
  · refine ⟨s, abort_outside (fun h => absurd h hm), Adds.refl ⟨.inside r, rfl, .inr ⟨by simpa using hm, r, rfl⟩⟩ s, rfl, rfl,
      fun h => absurd h hm, rfl⟩

/-! ## The framer -/

/-- Bus traffic: whole transactions, that touch neither `STAT` nor the transfer buffer. -/
structure Traffic (s t : State) : Prop where
  adds : Adds (Whole s.cfg) s t
  stat : t.stat = s.stat
  tb : t.tb = s.tb
  cs : CsIdle s → CsIdle t
  rst : t.lines.rst = s.lines.rst

/-- Bus traffic that a failed transfer ended, in `Strict` mode (rules R247, R252). -/
def Broken (s u : State) : Prop :=
  ∃ t, Traffic s t ∧ CsIdle t ∧ t.fault.busFail = true ∧ ¬ NoBusAbort s ∧ u = aborted .busFail t

theorem Traffic.refl (s : State) : Traffic s s := ⟨Adds.refl (Whole.nil _) s, rfl, rfl, id, rfl⟩

theorem Traffic.trans {s t u : State} (h1 : Traffic s t) (h2 : Traffic t u) : Traffic s u where
  adds := h1.adds.trans h2.adds (fun _ _ a b => by rw [h1.adds.cfg] at b; exact a.append b)
  stat := h2.stat.trans h1.stat
  tb := h2.tb.trans h1.tb
  cs h := h2.cs (h1.cs h)
  rst := h2.rst.trans h1.rst

theorem Adds.noBusAbort {P : List Event → Prop} {s t : State} (h : Adds P s t) (hn : NoBusAbort s) : NoBusAbort t :=
  hn.imp (fun e => by rw [h.cfg]; exact e) h.reliable

theorem Traffic.broken {s t u : State} (h1 : Traffic s t) (h2 : Broken t u) : Broken s u := by
  obtain ⟨v, h, a, b, c, e⟩ := h2
  exact ⟨v, h1.trans h, a, b, fun hn => c (h1.adds.noBusAbort hn), e⟩

/-- One piece of traffic after another. -/
theorem Traffic.bind {s : State} {f : Flow} {k : State → Flow} (h : f.Ends (Traffic s) (Broken s))
    (hk : ∀ t, Traffic s t → (k t).Ends (Traffic t) (Broken t)) : (f.bind k).Ends (Traffic s) (Broken s) :=
  h.bind fun t ht => (hk t ht).mono (fun _ h => ht.trans h) (fun _ h => ht.broken h)

/-- Inside a transaction. -/
structure InTransaction (r : Role) (s t : State) : Prop where
  adds : Adds (InsideOnly s.cfg r) s t
  silent : Silent s t

theorem InTransaction.trans {r : Role} {s t u : State} (h1 : InTransaction r s t) (h2 : InTransaction r t u) :
    InTransaction r s u :=
  ⟨h1.adds.trans h2.adds (fun _ _ a b => by rw [h1.adds.cfg] at b; exact a.append b), h1.silent.trans h2.silent⟩

/-- A transaction that a failed transfer ended. -/
def BrokenInside (r : Role) (s u : State) : Prop :=
  ∃ t, Adds (Closing s.cfg r) s t ∧ t.stat = s.stat ∧ t.tb = s.tb ∧ CsIdle t ∧ t.lines.rst = s.lines.rst ∧
    t.fault.busFail = true ∧ ¬ NoBusAbort s ∧ u = aborted .busFail t

theorem noteBusFailure_spec (r : Role) (s : State) :
    InTransaction r s (noteBusFailure s) ∧ (noteBusFailure s).fault.busFail = true := by
  unfold noteBusFailure
  have hr : ∀ t : State, InTransaction r t (t.raise .busFail) := fun t =>
    ⟨Adds.still _ rfl rfl rfl rfl rfl rfl rfl (fun _ => rfl) (faultLe_faultSet _ _) id id rfl rfl rfl id id rfl, ⟨rfl, rfl, rfl⟩⟩
  refine ⟨?_, rfl⟩
  split
  · exact hr s
  · have h := logRecord_adds .busFail s
    exact InTransaction.trans ⟨h.1.mono (by rintro _ rfl; rfl), h.2⟩ (hr _)

/-- `BusFailure()` inside a transaction (rule R247). -/
theorem busFailure_spec (r : Role) (s : State) (hn : ¬ Reliable s)
    (hcs : csManaged s.cfg = true → s.lines.cs = some s.cfg.csActive) :
    (busFailure s).Ends (InTransaction r s) (BrokenInside r s) := by
  have h := noteBusFailure_spec r s
  unfold busFailure
  cases he : s.cfg.errorMode with
  | bestEffort => exact h.1
  | strict =>
    obtain ⟨t, e, a1, a2, a3, a4, a5⟩ := abort_spec .busFail (noteBusFailure s) r
      (fun hm => by rw [h.1.adds.cfg, h.1.silent.lines]; rw [h.1.adds.cfg] at hm; exact hcs hm)
    refine ⟨t, h.1.adds.trans a1 (fun _ _ x y => by rw [h.1.adds.cfg] at y; exact x.closing y), a2.trans h.1.silent.stat,
      a3.trans h.1.silent.tb, a4, ?_, ?_, ?_, e⟩
    · rw [a5, h.1.silent.lines]
    · exact a1.faults .busFail h.2
    · rintro (hb | hb)
      · rw [he] at hb; cases hb
      · exact hn hb

theorem InTransaction.broken {r : Role} {s t u : State} (h1 : InTransaction r s t) (h2 : BrokenInside r t u) : BrokenInside r s u := by
  obtain ⟨v, a1, a2, a3, a4, a5, a6, a7, e⟩ := h2
  exact ⟨v, h1.adds.trans a1 (fun _ _ x y => by rw [h1.adds.cfg] at y; exact x.closing y), a2.trans h1.silent.stat,
    a3.trans h1.silent.tb, a4, a5.trans (by rw [h1.silent.lines]), a6, fun hn => a7 (h1.adds.noBusAbort hn), e⟩

theorem emit_backend (e : Event) (s : State) : (emit e s).env.backend = s.env.backend := by
  unfold emit
  exact (hostTick_adds _).2.2.2.2.2.2.1

theorem busOut_backend (ok : Bool) (tx : List Byte) (s : State) : (busOut ok tx s).env.backend = s.env.backend := by
  unfold busOut; split <;> rfl

theorem busIn_backend (ok : Bool) (n : Nat) (s : State) : (busIn ok n s).env.backend = s.env.backend := by
  unfold busIn; simp only [anyBytes_eq]; split <;> rfl

theorem transferNext_not_reliable {s : State} (h : transferOk s = false) : (transferNext s).env.backend ≠ .reliable := by
  unfold transferOk at h
  unfold transferNext
  split <;> simp_all

/-- The transfers of a transaction, each allowed there. -/
theorem sendChunks_spec (r : Role) : ∀ (cs : List (List Byte)) (s : State), (∀ c ∈ cs, transferAllowed s.cfg r c = true) →
    (csManaged s.cfg = true → s.lines.cs = some s.cfg.csActive) → (sendChunks cs s).Ends (InTransaction r s) (BrokenInside r s) := by
  intro cs
  induction cs with
  | nil => intro s _ _; exact ⟨Adds.refl (P := InsideOnly s.cfg r) rfl s, Silent.refl s⟩
  | cons c cs ih =>
    intro s ha hcs
    unfold sendChunks
    have hx := xfer_adds c s
    have hx' : InTransaction r s (xfer c s) := by
      refine ⟨hx.1.mono ?_, hx.2⟩
      rintro _ rfl
      simp [InsideOnly, framingRun, framingNext, ha c (by simp)]
    have hf : (if transferOk s then Flow.cont (xfer c s) else busFailure (xfer c s)).Ends (InTransaction r s) (BrokenInside r s) := by
      split
      case isTrue => exact hx'
      case isFalse hno =>
        refine (busFailure_spec r (xfer c s) ?_ ?_).mono (fun _ h => hx'.trans h) (fun _ h => hx'.broken h)
        · show (xfer c s).env.backend ≠ .reliable
          unfold xfer
          rw [emit_backend, busOut_backend]
          exact transferNext_not_reliable (by simpa using hno)
        · intro hm; rw [hx'.adds.cfg] at hm ⊢; rw [hx'.silent.lines]; exact hcs hm
    refine hf.bind fun t ht => (ih t ?_ ?_).mono (fun _ h => ht.trans h) (fun _ h => ht.broken h)
    · intro c' hc'; rw [ht.adds.cfg]; exact ha c' (by simp [hc'])
    · intro hm; rw [ht.adds.cfg] at hm ⊢; rw [ht.silent.lines]; exact hcs hm

/-- Opening a transaction: DC, then CS where it is managed (rules R101, R102). -/
theorem open_spec (r : Role) (s : State) : let t := csAssert (driveLine .dc (dcLevel s.cfg r) s)
    Adds (fun ev => ∀ q, Resting s.cfg q → framingRun s.cfg q ev = some (.inside r)) s t ∧ t.stat = s.stat ∧ t.tb = s.tb ∧
      (csManaged s.cfg = true → t.lines.cs = some s.cfg.csActive) ∧ t.lines.rst = s.lines.rst := by
  have hrole : roleOfLevel s.cfg (dcLevel s.cfg r) = r := by
    cases r
    · simp [roleOfLevel, dcLevel]
    · simp [roleOfLevel, dcLevel]
  have h := driveLine_adds .dc (dcLevel s.cfg r) s (fun h => by cases h)
  by_cases hm : csManaged s.cfg = true
  · have hm' : csManaged (driveLine .dc (dcLevel s.cfg r) s).cfg = true := by rw [h.1.cfg]; exact hm
    have h2 := driveLine_adds .cs (driveLine .dc (dcLevel s.cfg r) s).cfg.csActive (driveLine .dc (dcLevel s.cfg r) s) (fun _ => hm')
    have e : csAssert (driveLine .dc (dcLevel s.cfg r) s) =
        driveLine .cs (driveLine .dc (dcLevel s.cfg r) s).cfg.csActive (driveLine .dc (dcLevel s.cfg r) s) := by
      unfold csAssert; rw [if_pos hm']
    intro t
    show _ ∧ _
    simp only [t, e]
    refine ⟨h.1.trans h2.1 ?_, h2.2.1.trans h.2.1, h2.2.2.1.trans h.2.2.1, fun _ => ?_, ?_⟩
    · rintro _ _ rfl rfl q (rfl | ⟨hq, -⟩)
      · rw [h.1.cfg]; simp [framingRun, framingNext, hm, hrole]
      · simp [hm] at hq
    · rw [h2.2.2.2, h.1.cfg]; rfl
    · rw [h2.2.2.2, h.2.2.2]; rfl
  · have e : csAssert (driveLine .dc (dcLevel s.cfg r) s) = driveLine .dc (dcLevel s.cfg r) s := by
      unfold csAssert; rw [if_neg (by rw [h.1.cfg]; exact hm)]
    intro t
    simp only [t, e]
    refine ⟨h.1.mono ?_, h.2.1, h.2.2.1, fun h' => absurd h' hm, by rw [h.2.2.2]; rfl⟩
    rintro _ rfl q (rfl | ⟨-, r', rfl⟩) <;> simp [framingRun, framingNext, hm, hrole]

/-- Closing a transaction (rule R102). -/
theorem close_spec (r : Role) (s : State) : Adds (Closing s.cfg r) s (csDeassert s) ∧ (csDeassert s).stat = s.stat ∧
    (csDeassert s).tb = s.tb ∧ CsIdle (csDeassert s) ∧ (csDeassert s).lines.rst = s.lines.rst := by
  unfold csDeassert
  by_cases hm : csManaged s.cfg = true
  · have h := driveLine_adds .cs (!s.cfg.csActive) s (fun _ => hm)
    rw [if_pos hm]
    refine ⟨h.1.mono ?_, h.2.1, h.2.2.1, ?_, by rw [h.2.2.2]; rfl⟩
    · rintro _ rfl
      exact ⟨.outside, by simp [framingRun, framingNext, hm], .inl rfl⟩
    · intro _ h'
      rw [h.1.cfg, h.2.2.2] at h'
      simp [Lines.set] at h'
  · rw [if_neg hm]
    exact ⟨Adds.refl ⟨.inside r, rfl, .inr ⟨by simpa using hm, r, rfl⟩⟩ s, rfl, rfl, fun h => absurd h hm, rfl⟩

/-- A transaction around a body that stays inside it. -/
theorem transaction_spec (r : Role) (s : State) (body : State → Flow)
    (hb : ∀ t, t.cfg = s.cfg → (csManaged t.cfg = true → t.lines.cs = some t.cfg.csActive) →
      (body t).Ends (InTransaction r t) (BrokenInside r t)) :
    ((body (csAssert (driveLine .dc (dcLevel s.cfg r) s))).bind fun t => .cont (csDeassert t)).Ends (Traffic s) (Broken s) := by
  have ho := open_spec r s
  simp only at ho
  obtain ⟨o1, o2, o3, o4, o5⟩ := ho
  refine ((hb _ o1.cfg ?_).mono (C' := fun t => ∃ P, Adds P s t ∧ (∀ ev, P ev → ∀ q, Resting s.cfg q →
      framingRun s.cfg q ev = some (.inside r)) ∧ t.stat = s.stat ∧ t.tb = s.tb ∧ t.lines.rst = s.lines.rst) (A' := Broken s) ?_ ?_).bind ?_
  · intro hm; rw [o1.cfg] at hm ⊢; exact o4 hm
  · intro t ht
    refine ⟨fun ev => ∀ q, Resting s.cfg q → framingRun s.cfg q ev = some (.inside r), o1.trans ht.adds ?_, fun _ h => h,
      ht.silent.stat.trans o2, ht.silent.tb.trans o3, by rw [ht.silent.lines]; exact o5⟩
    intro xs ys hx hy q hq
    rw [framingRun_append, hx q hq]
    rw [o1.cfg] at hy
    exact hy
  · rintro u ⟨t, a1, a2, a3, a4, a5, a6, a7, e⟩
    refine ⟨t, ⟨o1.trans a1 ?_, a2.trans o2, a3.trans o3, fun _ => a4, a5.trans o5⟩, a4, a6, fun hn => a7 (o1.noBusAbort hn), e⟩
    intro xs ys hx hy q hq
    rw [o1.cfg] at hy
    obtain ⟨q', e', r'⟩ := hy
    exact ⟨q', by rw [framingRun_append, hx q hq]; exact e', r'⟩
  · rintro t ⟨P, a1, a2, a3, a4, a5⟩
    have hc := close_spec r t
    refine ⟨a1.trans hc.1 ?_, hc.2.1.trans a3, hc.2.2.1.trans a4, fun _ => hc.2.2.2.1, hc.2.2.2.2.trans a5⟩
    intro xs ys hx hy q hq
    rw [a1.cfg] at hy
    obtain ⟨q', e', r'⟩ := hy
    exact ⟨q', by rw [framingRun_append, a2 _ hx q hq]; exact e', r'⟩

/-- `Frame(role, payload)`: traffic, or a broken transaction (rules R103, R247). -/
theorem frame_spec (r : Role) (payload : List Byte) (s : State)
    (ha : ∀ c ∈ chunks s.cfg.maxChunk payload, transferAllowed s.cfg r c = true) :
    (frame r payload s).Ends (Traffic s) (Broken s) :=
  transaction_spec r s _ fun t ht hm => sendChunks_spec r _ t (by rw [ht]; exact ha) hm

theorem chunks_allowed {c : Params} (h : 1 ≤ c.maxChunk) (payload : List Byte) :
    ∀ ch ∈ chunks c.maxChunk payload, transferAllowed c .data ch = true := by
  intro ch hch
  simp only [chunks, List.mem_map, List.mem_range, chunkCount] at hch
  obtain ⟨k, hk, rfl⟩ := hch
  have h1 : k * c.maxChunk < payload.length := by
    have h2 : (k + 1) * c.maxChunk ≤ payload.length + c.maxChunk - 1 :=
      (Nat.mul_le_mul_right _ hk).trans (Nat.div_mul_le_self _ _)
    rw [Nat.succ_mul] at h2
    omega
  simp only [transferAllowed, chunk, Bool.and_eq_true, decide_eq_true_eq, List.length_take, List.length_drop]
  refine ⟨?_, by omega⟩
  rw [Bool.not_eq_true', List.isEmpty_eq_false_iff]
  apply List.ne_nil_of_length_pos
  simp only [List.length_take, List.length_drop]
  omega

/-- A command byte of `PROTO` (rule R106). -/
theorem sendCommand_spec (cmd : BusCmd) (s : State) (h : 1 ≤ s.cfg.maxChunk) :
    (sendCommand (s.cfg.proto.code cmd) s).Ends (Traffic s) (Broken s) := by
  refine frame_spec .cmd _ s ?_
  rw [chunks_singleton _ h]
  intro c hc
  obtain rfl := List.mem_singleton.1 hc
  simp only [transferAllowed, List.any_eq_true]
  exact ⟨_, Proto.code_mem _ cmd, by simp⟩

/-- A data byte (rule R107). -/
theorem sendData_spec (b : Byte) (s : State) (h : 1 ≤ s.cfg.maxChunk) : (sendData b s).Ends (Traffic s) (Broken s) :=
  frame_spec .data _ s (chunks_allowed h _)

/-- A data block (rule R108). -/
theorem sendDataBlock_spec (bytes : List Byte) (n : Nat) (s : State) (h : 1 ≤ s.cfg.maxChunk) :
    (sendDataBlock bytes n s).Ends (Traffic s) (Broken s) :=
  frame_spec .data _ s (chunks_allowed h _)

theorem sendEach_spec : ∀ (d : List Byte) (s : State), 1 ≤ s.cfg.maxChunk → (sendEach d s).Ends (Traffic s) (Broken s) := by
  intro d
  induction d with
  | nil => intro s _; exact Traffic.refl s
  | cons b d ih => intro s h; exact Traffic.bind (sendData_spec b s h) fun t ht => ih t (by rw [ht.adds.cfg]; exact h)

/-- A group (rule R105). -/
theorem group_spec (cmd : BusCmd) (d : List Byte) (s : State) (h : 1 ≤ s.cfg.maxChunk) :
    (group (s.cfg.proto.code cmd) d s).Ends (Traffic s) (Broken s) :=
  Traffic.bind (sendCommand_spec cmd s h) fun t ht => sendEach_spec d t (by rw [ht.adds.cfg]; exact h)

/-- `ReadFrame(n)` (rule R109). -/
theorem readFrame_spec (n : Nat) (s : State) (h : n ≤ s.cfg.maxChunk) : (readFrame n s).Ends (Traffic s) (Broken s) := by
  refine transaction_spec .data s (fun t => if transferOk t then Flow.cont (xferIn n t) else busFailure (xferIn n t)) ?_
  intro t ht hm
  have hx := xferIn_adds n t
  have hx' : InTransaction .data t (xferIn n t) := by
    refine ⟨hx.1.mono ?_, hx.2⟩
    rintro _ ⟨rx, rfl⟩
    simp [InsideOnly, framingRun, framingNext, ht, h]
  split
  case isTrue => exact hx'
  case isFalse hno =>
    refine (busFailure_spec .data (xferIn n t) ?_ ?_).mono (fun _ h => hx'.trans h) (fun _ h => hx'.broken h)
    · show (xferIn n t).env.backend ≠ .reliable
      unfold xferIn
      rw [emit_backend, busIn_backend]
      exact transferNext_not_reliable (by simpa using hno)
    · intro hm'; rw [hx'.adds.cfg] at hm' ⊢; rw [hx'.silent.lines]; exact hm hm'

end Sys2Proof.Machine
end

