-- ==== Sys2Proof/Laws/Operations.lean ====
section
/-! SUPPORT. Sys2Proof/Laws/Operations.lean: everything the sequences and the operation bodies can do, in any state, with failing
transfers and a concurrent host too. -/

namespace Sys2Proof.Machine

/-- Part of an operation: whole transactions and waits, with the changes `Adds` allows. -/
structure Did (s t : State) : Prop where
  adds : Adds (Whole s.cfg) s t
  cs : CsIdle s → CsIdle t

theorem Did.refl (s : State) : Did s s := ⟨Adds.refl (Whole.nil _) s, id⟩

theorem Did.trans {s t u : State} (h1 : Did s t) (h2 : Did t u) : Did s u where
  adds := h1.adds.trans h2.adds (fun _ _ a b => by rw [h1.adds.cfg] at b; exact a.append b)
  cs h := h2.cs (h1.cs h)

theorem Traffic.did {s t : State} (h : Traffic s t) : Did s t := ⟨h.adds, h.cs⟩

/-- An operation that a failed transfer ended. -/
def Failed (s u : State) : Prop :=
  ∃ t, Did s t ∧ CsIdle t ∧ t.fault.busFail = true ∧ ¬ NoBusAbort s ∧ u = aborted .busFail t

theorem Broken.failed {s u : State} (h : Broken s u) : Failed s u := by
  obtain ⟨t, a, b, c, d, e⟩ := h; exact ⟨t, a.did, b, c, d, e⟩

theorem Did.failed {s t u : State} (h1 : Did s t) (h2 : Failed t u) : Failed s u := by
  obtain ⟨v, h, a, b, c, e⟩ := h2
  exact ⟨v, h1.trans h, a, b, fun hn => c (h1.adds.noBusAbort hn), e⟩

/-- Part of an operation that goes on with `Q`. -/
abbrev Goes (Q : State → Prop) (s : State) (f : Flow) : Prop := f.Ends (fun t => Did s t ∧ Q t) (Failed s)

theorem goes_of_traffic {s : State} {f : Flow} (h : f.Ends (Traffic s) (Broken s)) :
    Goes (fun t => t.stat = s.stat ∧ t.tb = s.tb) s f :=
  h.mono (fun _ a => ⟨a.did, a.stat, a.tb⟩) (fun _ a => a.failed)

theorem Goes.bind {Q Q' : State → Prop} {s : State} {f : Flow} {k : State → Flow} (h : Goes Q s f)
    (hk : ∀ t, Did s t → Q t → Goes Q' t (k t)) : Goes Q' s (f.bind k) :=
  Flow.Ends.bind h fun t ht => (hk t ht.1 ht.2).mono (fun _ a => ⟨ht.1.trans a.1, a.2⟩) (fun _ a => ht.1.failed a)

theorem Goes.mono {Q Q' : State → Prop} {s : State} {f : Flow} (h : Goes Q s f) (hq : ∀ t, Did s t → Q t → Q' t) : Goes Q' s f :=
  Flow.Ends.mono h (fun t a => ⟨a.1, hq t a.1 a.2⟩) (fun _ a => a)

/-! ## Changes that emit nothing -/

theorem setCstate_did (c : CState) (s : State) : Did s (s.setCstate c) :=
  ⟨Adds.still _ (Whole.nil _) rfl rfl rfl rfl rfl rfl (fun _ => rfl) (faultLe_refl _) id id rfl rfl rfl id id rfl, id⟩

theorem setRamv_did (a b : Bool) (s : State) : Did s (s.setRamv a b) :=
  ⟨Adds.still _ (Whole.nil _) rfl rfl rfl rfl rfl rfl (fun _ => rfl) (faultLe_refl _) id id rfl rfl rfl id id rfl, id⟩

theorem setTb_did (r : List Byte) (s : State) (h : s.tb.length = planeBytes s.cfg → r.length = planeBytes s.cfg) : Did s (s.setTb r) :=
  ⟨Adds.still _ (Whole.nil _) rfl rfl rfl rfl rfl rfl (fun _ => rfl) (faultLe_refl _) id h rfl rfl rfl id id rfl, id⟩

theorem raise_did (f : FaultBit) (s : State) : Did s (s.raise f) :=
  ⟨Adds.still _ (Whole.nil _) rfl rfl rfl rfl rfl rfl (fun _ => rfl) (faultLe_faultSet _ _) id id rfl rfl rfl id id rfl, id⟩

theorem noteSequence_did (g : Bool) (s : State) :
    Did s (noteSequence g s) ∧ (noteSequence g s).stat = s.stat ∧ (noteSequence g s).tb = s.tb := by
  unfold noteSequence; split
  · exact ⟨raise_did _ _, rfl, rfl⟩
  · exact ⟨Did.refl s, rfl, rfl⟩

theorem delay_did (t : Nat) (s : State) : Did s (delay t s) ∧ (delay t s).stat = s.stat ∧ (delay t s).tb = s.tb := by
  have h := delay_adds t s
  refine ⟨⟨h.1.mono ?_, fun hc hm => ?_⟩, h.2.stat, h.2.tb⟩
  · rintro _ rfl; exact whole_single (.inr (.inr (.inl ⟨_, rfl⟩)))
  · rw [h.1.cfg] at hm; rw [h.2.lines, h.1.cfg]; exact hc hm

theorem sample_did (s : State) : Did s (sample s) ∧ (sample s).stat = s.stat ∧ (sample s).tb = s.tb := by
  have h := sample_adds s
  refine ⟨⟨h.1.mono ?_, fun hc hm => ?_⟩, h.2.stat, h.2.tb⟩
  · rintro _ rfl; exact whole_single (.inr (.inl ⟨_, rfl⟩))
  · rw [h.1.cfg] at hm; rw [h.2.lines, h.1.cfg]; exact hc hm

theorem logRecord_did (k : LogKind) (s : State) :
    Did s (logRecord k s) ∧ (logRecord k s).stat = s.stat ∧ (logRecord k s).tb = s.tb := by
  have h := logRecord_adds k s
  refine ⟨⟨h.1.mono ?_, fun hc hm => ?_⟩, h.2.stat, h.2.tb⟩
  · rintro _ rfl; exact whole_single (.inl ⟨_, rfl⟩)
  · rw [h.1.cfg] at hm; rw [h.2.lines, h.1.cfg]; exact hc hm

theorem acquire_did (s : State) : Did s (acquire s) ∧ (acquire s).stat = s.stat ∧ (acquire s).tb = s.tb := by
  have h := acquire_adds s
  refine ⟨⟨h.1.mono ?_, fun hc hm => ?_⟩, h.2.stat, h.2.tb⟩
  · rintro _ rfl; exact whole_single (.inr (.inr (.inr (.inl ⟨_, rfl⟩))))
  · rw [h.1.cfg] at hm; rw [h.2.lines, h.1.cfg]; exact hc hm

theorem driveRst_did (v : Level) (s : State) :
    Did s (driveLine .rst v s) ∧ (driveLine .rst v s).stat = s.stat ∧ (driveLine .rst v s).tb = s.tb := by
  have h := driveLine_adds .rst v s (fun h => by cases h)
  refine ⟨⟨h.1.mono ?_, fun hc hm => ?_⟩, h.2.1, h.2.2.1⟩
  · rintro _ rfl; exact whole_single (.inr (.inr (.inr (.inr ⟨_, rfl⟩))))
  · rw [h.1.cfg] at hm; rw [h.2.2.2, h.1.cfg]; exact hc hm

theorem controllerLost_did (s : State) :
    Did s (controllerLost s) ∧ (controllerLost s).stat = s.stat ∧ (controllerLost s).tb = s.tb := by
  have h := controllerLost_adds s
  refine ⟨⟨h.1.mono ?_, fun hc hm => ?_⟩, h.2.stat, h.2.tb⟩
  · rintro _ rfl; exact Whole.nil _
  · rw [h.1.cfg] at hm; rw [h.2.lines, h.1.cfg]; exact hc hm

/-- CS deasserted outside a transaction (rule R117). -/
theorem csDeassert_did (s : State) :
    Did s (csDeassert s) ∧ (csDeassert s).stat = s.stat ∧ (csDeassert s).tb = s.tb := by
  have h := close_spec .cmd s
  refine ⟨⟨?_, fun _ => h.2.2.2.1⟩, h.2.1, h.2.2.1⟩
  unfold csDeassert
  by_cases hm : csManaged s.cfg = true
  · rw [if_pos hm]
    refine (driveLine_adds .cs (!s.cfg.csActive) s (fun _ => hm)).1.mono ?_
    rintro _ rfl q (rfl | ⟨hq, -⟩)
    · exact ⟨.outside, by simp [framingRun, framingNext, hm], .inl rfl⟩
    · simp [hm] at hq
  · rw [if_neg hm]; exact Adds.refl (Whole.nil _) s

/-- An abort outside a transaction. -/
theorem abort_did (f : FaultBit) (s : State) :
    ∃ t, abort f s = aborted f t ∧ Did s t ∧ t.stat = s.stat ∧ t.tb = s.tb ∧ CsIdle t := by
  by_cases h : csManaged s.cfg ∧ s.lines.cs = some s.cfg.csActive
  · have e : csDeassert s = driveLine .cs (!s.cfg.csActive) s := by unfold csDeassert; rw [if_pos h.1]
    refine ⟨csDeassert s, ?_, (csDeassert_did s).1, (csDeassert_did s).2.1, (csDeassert_did s).2.2, (close_spec .cmd s).2.2.2.1⟩
    rw [e]; unfold abort aborted; rw [if_pos h]
  · exact ⟨s, abort_outside (fun h1 h2 => h ⟨h1, h2⟩), Did.refl s, rfl, rfl, fun h1 h2 => h ⟨h1, h2⟩⟩

/-! ## The sequences -/

/-- The hard reset (rule R119). -/
theorem hardReset_did (s : State) : Did s (hardReset s) ∧ (hardReset s).stat = s.stat ∧ (hardReset s).tb = s.tb := by
  unfold hardReset
  have h1 := driveRst_did (!Config.rstActive) s
  have h2 := delay_did Config.tRstIdle (driveLine .rst (!Config.rstActive) s)
  have h3 := driveRst_did Config.rstActive (delay Config.tRstIdle (driveLine .rst (!Config.rstActive) s))
  have h4 := delay_did Config.tRstPulse (driveLine .rst Config.rstActive (delay Config.tRstIdle (driveLine .rst (!Config.rstActive) s)))
  have h5 := driveRst_did (!Config.rstActive) (delay Config.tRstPulse (driveLine .rst Config.rstActive (delay Config.tRstIdle (driveLine .rst (!Config.rstActive) s))))
  have h6 := delay_did Config.tRstSettle (driveLine .rst (!Config.rstActive) (delay Config.tRstPulse (driveLine .rst Config.rstActive (delay Config.tRstIdle (driveLine .rst (!Config.rstActive) s)))))
  exact ⟨(((((h1.1.trans h2.1).trans h3.1).trans h4.1).trans h5.1).trans h6.1),
    by rw [h6.2.1, h5.2.1, h4.2.1, h3.2.1, h2.2.1, h1.2.1], by rw [h6.2.2, h5.2.2, h4.2.2, h3.2.2, h2.2.2, h1.2.2]⟩

/-- The counter reseed (rule R144). -/
theorem seedCounters_spec (xb yr : Nat) (s : State) (h : 1 ≤ s.cfg.maxChunk) :
    (seedCounters xb yr s).Ends (Traffic s) (Broken s) :=
  Traffic.bind (group_spec .setRamXCounter _ s h) fun t ht => group_spec .setRamYCounter _ t (by rw [ht.adds.cfg]; exact h)

theorem initSequence_spec (s : State) (h : 1 ≤ s.cfg.maxChunk) : (initSequence s).Ends (Traffic s) (Broken s) := by
  unfold initSequence
  refine Traffic.bind (Traffic.bind (Traffic.bind (Traffic.bind (Traffic.bind (group_spec .driverOutputControl _ s h) ?_) ?_) ?_) ?_) ?_
  · exact fun t ht => group_spec .dataEntryMode _ t (by rw [ht.adds.cfg]; exact h)
  · exact fun t ht => group_spec .setRamXWindow _ t (by rw [ht.adds.cfg]; exact h)
  · exact fun t ht => group_spec .setRamYWindow _ t (by rw [ht.adds.cfg]; exact h)
  · exact fun t ht => group_spec .borderWaveform _ t (by rw [ht.adds.cfg]; exact h)
  · exact fun t ht => group_spec .displayUpdateControl1 _ t (by rw [ht.adds.cfg]; exact h)

/-- `PREPARE` up to its wait. -/
theorem prepareHead_spec (s : State) (h : 1 ≤ s.cfg.maxChunk) :
    Goes (fun t => t.stat = { s.stat with cstate := .reset, ramvBw := false, ramvRed := false } ∧ t.tb = s.tb) s (prepareHead s) := by
  unfold prepareHead
  have h1 : Did s ((s.setCstate .reset).setRamv false false) := (setCstate_did .reset s).trans (setRamv_did false false _)
  have h2 := hardReset_did ((s.setCstate .reset).setRamv false false)
  have hd := h1.trans h2.1
  have h3 := goes_of_traffic (sendCommand_spec .swReset (hardReset ((s.setCstate .reset).setRamv false false)) (by rw [hd.adds.cfg]; exact h))
  have e : (hardReset ((s.setCstate .reset).setRamv false false)).cfg.proto.code .swReset = s.cfg.proto.swReset := by
    rw [hd.adds.cfg]; rfl
  rw [e] at h3
  exact Flow.Ends.mono h3 (fun t a => ⟨hd.trans a.1, by rw [a.2.1, h2.2.1]; rfl, by rw [a.2.2, h2.2.2]; rfl⟩) (fun _ a => hd.failed a)

/-- `PREPARE` after its wait. -/
theorem prepareTail_spec (s : State) (h : 1 ≤ s.cfg.maxChunk) :
    Goes (fun t => t.stat = { s.stat with cstate := .ready } ∧ t.tb = s.tb) s (prepareTail s) := by
  unfold prepareTail
  have h1 := delay_did s.cfg.tSwrstSettle s
  have h2 := goes_of_traffic (initSequence_spec (delay s.cfg.tSwrstSettle s) (by rw [h1.1.adds.cfg]; exact h))
  have h3 : Goes (fun t => t.stat = s.stat ∧ t.tb = s.tb) s (initSequence (delay s.cfg.tSwrstSettle s)) :=
    Flow.Ends.mono h2 (fun t a => ⟨h1.1.trans a.1, a.2.1.trans h1.2.1, a.2.2.trans h1.2.2⟩) (fun _ a => h1.1.failed a)
  exact Goes.bind h3 fun t _ a => ⟨setCstate_did _ _, by rw [State.setCstate_stat, a.1], a.2⟩

/-- The update up to its wait. -/
theorem updateHead_spec (m : UpdateMode) (s : State) (h : 1 ≤ s.cfg.maxChunk) :
    Goes (fun t => t.stat = { s.stat with cstate := .busy } ∧ t.tb = s.tb) s (updateHead m s) := by
  unfold updateHead
  have h1 : (((((group s.cfg.proto.tempSensorSelect [s.cfg.proto.tempInternal] s).bind
      fun s => group s.cfg.proto.displayUpdateControl1 (duc1Of s.cfg.proto m) s).bind
      fun s => group s.cfg.proto.displayUpdateControl2 [duc2Of s.cfg.proto m] s).bind
      fun s => sendCommand s.cfg.proto.masterActivation s)).Ends (Traffic s) (Broken s) := by
    refine Traffic.bind (Traffic.bind (Traffic.bind (group_spec .tempSensorSelect _ s h) ?_) ?_) ?_
    · exact fun t ht => group_spec .displayUpdateControl1 _ t (by rw [ht.adds.cfg]; exact h)
    · exact fun t ht => group_spec .displayUpdateControl2 _ t (by rw [ht.adds.cfg]; exact h)
    · exact fun t ht => sendCommand_spec .masterActivation t (by rw [ht.adds.cfg]; exact h)
  exact Goes.bind (goes_of_traffic h1) fun t _ a => ⟨setCstate_did _ _, by rw [State.setCstate_stat, a.1], a.2⟩

/-- The update after its wait. -/
theorem updateTail_spec (s : State) (h : 1 ≤ s.cfg.maxChunk) :
    Goes (fun t => t.stat = { s.stat with cstate := .asleep, ramvBw := false, ramvRed := false } ∧ t.tb = s.tb) s (updateTail s) := by
  unfold updateTail
  have h1 := delay_did s.cfg.tPostAct s
  have h2 := goes_of_traffic (group_spec .deepSleep s.cfg.proto.deepSleepData (delay s.cfg.tPostAct s) (by rw [h1.1.adds.cfg]; exact h))
  have e : (delay s.cfg.tPostAct s).cfg.proto.code .deepSleep = s.cfg.proto.deepSleep := by rw [h1.1.adds.cfg]; rfl
  rw [e] at h2
  have h3 : Goes (fun t => t.stat = s.stat ∧ t.tb = s.tb) s (group s.cfg.proto.deepSleep s.cfg.proto.deepSleepData (delay s.cfg.tPostAct s)) :=
    Flow.Ends.mono h2 (fun t a => ⟨h1.1.trans a.1, a.2.1.trans h1.2.1, a.2.2.trans h1.2.2⟩) (fun _ a => h1.1.failed a)
  exact Goes.bind h3 fun t _ a => ⟨(setCstate_did _ _).trans (setRamv_did _ _ _), by simp [a.1], a.2⟩

/-- What the rest of an operation does after its wait. -/
theorem afterWait_spec (p : WaitPoint) (s : State) (h : 1 ≤ s.cfg.maxChunk) :
    Goes (fun t => (t.stat.cstate = match p with | .softReset => .ready | .activation => .asleep) ∧
      t.stat.ramvBw = (match p with | .softReset => s.stat.ramvBw | .activation => false) ∧
      t.stat.ramvRed = (match p with | .softReset => s.stat.ramvRed | .activation => false) ∧ t.tb = s.tb) s (afterWait p s) := by
  cases p
  · exact (prepareTail_spec s h).mono fun t _ a => by simp [a.1, a.2]
  · exact (updateTail_spec s h).mono fun t _ a => by simp [a.1, a.2]

theorem writeCode_code (p : Proto) (pl : Plane) :
    writeCode p pl = p.code (match pl with | .bw => .writeRamBw | .red => .writeRamRed) := by cases pl <;> rfl

/-- A plane write (rule R145). -/
theorem writePlane_spec (p : Plane) (buf : List Byte) (s : State) (h : 1 ≤ s.cfg.maxChunk) (hb : buf.length = planeBytes s.cfg) :
    Goes (fun t => t.stat = (match p with | .bw => { s.stat with ramvBw := true } | .red => { s.stat with ramvRed := true })) s
      (writePlane p buf s) := by
  unfold writePlane
  have h1 := goes_of_traffic (seedCounters_spec 0 (s.cfg.height - 1) s h)
  have h2 := Goes.bind (Q' := fun t => t.stat = s.stat) h1 (k := fun s => sendCommand (writeCode s.cfg.proto p) (s.setTb (flip s.cfg buf))) (by
    intro t ht a
    have hd := setTb_did (flip t.cfg buf) t (fun _ => flip_length (by rw [ht.adds.cfg]; exact hb))
    have h3 := goes_of_traffic (sendCommand_spec (match p with | .bw => .writeRamBw | .red => .writeRamRed) (t.setTb (flip t.cfg buf))
      (by show 1 ≤ t.cfg.maxChunk; rw [ht.adds.cfg]; exact h))
    rw [State.setTb_cfg, ← writeCode_code] at h3
    exact Flow.Ends.mono h3 (fun u b => ⟨hd.trans b.1, b.2.1.trans a.1⟩) (fun _ b => hd.failed b))
  have h3 := Goes.bind (Q' := fun t => t.stat = s.stat) h2 (k := fun s => sendDataBlock s.tb (planeBytes s.cfg) s) (by
    intro t ht a
    exact (goes_of_traffic (sendDataBlock_spec _ _ t (by rw [ht.adds.cfg]; exact h))).mono (fun u _ b => b.1.trans a))
  refine Goes.bind h3 fun t _ a => ?_
  cases p
  · exact ⟨setRamv_did _ _ _, by simp [markWritten, a]⟩
  · exact ⟨setRamv_did _ _ _, by simp [markWritten, a]⟩

/-- A frame (rule R147). -/
theorem writeFrame_spec (bw red : List Byte) (s : State) (h : 1 ≤ s.cfg.maxChunk) (h1 : bw.length = planeBytes s.cfg)
    (h2 : red.length = planeBytes s.cfg) :
    Goes (fun t => t.stat = { s.stat with ramvBw := true, ramvRed := true }) s (writeFrame bw red s) :=
  Goes.bind (writePlane_spec .bw bw s h h1) fun t ht a =>
    (writePlane_spec .red red t (by rw [ht.adds.cfg]; exact h) (by rw [ht.adds.cfg]; exact h2)).mono fun u _ b => by
      rw [b, a]

/-- The RAM-read sequence (rule R175). -/
theorem readRam_spec (p : Plane) (xb yr : Nat) (s : State) (h : 2 ≤ s.cfg.maxChunk) :
    (readRam p xb yr s).Ends (Traffic s) (Broken s) := by
  unfold readRam
  refine Traffic.bind (Traffic.bind (Traffic.bind (group_spec .readRamOption _ s (by omega)) ?_) ?_) ?_
  · exact fun t ht => seedCounters_spec _ _ t (by rw [ht.adds.cfg]; omega)
  · exact fun t ht => sendCommand_spec .readRam t (by rw [ht.adds.cfg]; omega)
  · exact fun t ht => readFrame_spec 2 t (by rw [ht.adds.cfg]; exact h)

/-- The one-byte RAM write (rule R177). -/
theorem writeRam_spec (p : Plane) (xb yr : Nat) (v : Byte) (s : State) (h : 1 ≤ s.cfg.maxChunk) :
    (writeRam p xb yr v s).Ends (Traffic s) (Broken s) := by
  unfold writeRam
  refine Traffic.bind (Traffic.bind (seedCounters_spec _ _ s h) ?_) ?_
  · intro t ht
    have h3 := sendCommand_spec (match p with | .bw => .writeRamBw | .red => .writeRamRed) t (by rw [ht.adds.cfg]; exact h)
    rwa [← writeCode_code] at h3
  · exact fun t ht => sendData_spec _ t (by rw [ht.adds.cfg]; exact h)

/-- The read-modify-write of a pixel (rule R174). -/
theorem modifyPixel_spec (nx ny : Nat) (c : Colour) (s : State) (h : 2 ≤ s.cfg.maxChunk) :
    (modifyPixel nx ny c s).Ends (Traffic s) (Broken s) := by
  unfold modifyPixel
  refine Traffic.bind (readRam_spec _ _ _ s h) fun t ht => Traffic.bind (readRam_spec _ _ _ t (by rw [ht.adds.cfg]; exact h)) fun u hu =>
    Traffic.bind (writeRam_spec _ _ _ _ u ?_) fun v hv => writeRam_spec _ _ _ _ v ?_
  · rw [hu.adds.cfg, ht.adds.cfg]; omega
  · rw [hv.adds.cfg, hu.adds.cfg, ht.adds.cfg]; omega

/-- A pixel from its bounds check on (rules R170, R174). -/
theorem pixelBody_spec (x y : Int) (c : Colour) (s : State) (h : 2 ≤ s.cfg.maxChunk) :
    Goes (fun t => t.stat = s.stat) s (pixelBody x y c s) := by
  unfold pixelBody
  split
  · split
    · have h1 := noteSequence_did (notReady s) s
      exact Flow.Ends.mono (goes_of_traffic (modifyPixel_spec _ _ c _ (by rw [h1.1.adds.cfg]; exact h)))
        (fun t a => ⟨h1.1.trans a.1, a.2.1.trans h1.2.1⟩) (fun _ a => h1.1.failed a)
    · exact ⟨raise_did _ _, rfl⟩
  · exact ⟨Did.refl s, rfl⟩

/-- A horizontal run (rule R179). -/
theorem hRun_spec (y : Int) (c : Colour) : ∀ (n : Nat) (x : Int) (s : State), 2 ≤ s.cfg.maxChunk →
    Goes (fun t => t.stat = s.stat) s (hRun y c n x s) := by
  intro n
  induction n with
  | zero => intro x s _; exact ⟨Did.refl s, rfl⟩
  | succ n ih =>
    intro x s h
    exact Goes.bind (pixelBody_spec x y c s h) fun t ht a => (ih (x + 1) t (by rw [ht.adds.cfg]; exact h)).mono fun u _ b => b.trans a

/-- A vertical run (rule R180). -/
theorem vRun_spec (x : Int) (c : Colour) : ∀ (n : Nat) (y : Int) (s : State), 2 ≤ s.cfg.maxChunk →
    Goes (fun t => t.stat = s.stat) s (vRun x c n y s) := by
  intro n
  induction n with
  | zero => intro x s _; exact ⟨Did.refl s, rfl⟩
  | succ n ih =>
    intro y s h
    exact Goes.bind (pixelBody_spec x y c s h) fun t ht a => (ih (y + 1) t (by rw [ht.adds.cfg]; exact h)).mono fun u _ b => b.trans a

/-- Before `BEGIN` a pixel goes on with `STAT` as it was (rule R251). -/
theorem pixelBody_notBegun (x y : Int) (c : Colour) (s : State) (h : s.stat.begun = false) :
    ∃ t, pixelBody x y c s = .cont t ∧ t.stat = s.stat := by
  unfold pixelBody
  split
  · rw [if_neg (by simp [h])]; exact ⟨_, rfl, rfl⟩
  · exact ⟨_, rfl, rfl⟩

theorem hRun_notBegun (y : Int) (c : Colour) : ∀ (n : Nat) (x : Int) (s : State), s.stat.begun = false →
    ∃ t, hRun y c n x s = .cont t ∧ t.stat = s.stat := by
  intro n
  induction n with
  | zero => intro x s _; exact ⟨_, rfl, rfl⟩
  | succ n ih =>
    intro x s h
    obtain ⟨t, e, ht⟩ := pixelBody_notBegun x y c s h
    obtain ⟨u, e', hu⟩ := ih (x + 1) t (by rw [ht]; exact h)
    exact ⟨u, by rw [hRun, e, Flow.bind_cont, e'], hu.trans ht⟩

theorem vRun_notBegun (x : Int) (c : Colour) : ∀ (n : Nat) (y : Int) (s : State), s.stat.begun = false →
    ∃ t, vRun x c n y s = .cont t ∧ t.stat = s.stat := by
  intro n
  induction n with
  | zero => intro y s _; exact ⟨_, rfl, rfl⟩
  | succ n ih =>
    intro y s h
    obtain ⟨t, e, ht⟩ := pixelBody_notBegun x y c s h
    obtain ⟨u, e', hu⟩ := ih (y + 1) t (by rw [ht]; exact h)
    exact ⟨u, by rw [vRun, e, Flow.bind_cont, e'], hu.trans ht⟩

/-! ## How a body ends -/

/-- An operation completed with `RESULT = 0` from a state with `C`, aborted, or waits from a state with `W`. -/
inductive Ended (C : State → Prop) (W : WaitPoint → State → Prop) (s u : State) : Prop where
  | completed (t : State) (h : Did s t) (hC : C t) (e : u = complete 0#32 t)
  | failed (t : State) (h : Did s t) (hcs : CsIdle t) (hf : t.fault.busFail = true) (hn : ¬ NoBusAbort s) (e : u = aborted .busFail t)
  | stalled (t : State) (h : Did s t) (hcs : CsIdle t) (hf : t.fault.stall = true) (e : u = aborted .stall t)
  | waits (t : State) (p : WaitPoint) (n : Nat) (h : Did s t) (hW : W p t) (e : u = t.setMicro (.waiting p n))

theorem Did.ended {C : State → Prop} {W : WaitPoint → State → Prop} {s t u : State} (h1 : Did s t) (h2 : Ended C W t u) :
    Ended C W s u := by
  cases h2 with
  | completed v h hC e => exact .completed v (h1.trans h) hC e
  | failed v h hcs hf hn e => exact .failed v (h1.trans h) hcs hf (fun hb => hn (h1.adds.noBusAbort hb)) e
  | stalled v h hcs hf e => exact .stalled v (h1.trans h) hcs hf e
  | waits v p n h hW e => exact .waits v p n (h1.trans h) hW e

theorem Ended.mono {C C' : State → Prop} {W W' : WaitPoint → State → Prop} {s u : State} (h : Ended C W s u)
    (hC : ∀ t, C t → C' t) (hW : ∀ p t, W p t → W' p t) : Ended C' W' s u := by
  cases h with
  | completed v h c e => exact .completed v h (hC _ c) e
  | failed v h hcs hf hn e => exact .failed v h hcs hf hn e
  | stalled v h hcs hf e => exact .stalled v h hcs hf e
  | waits v p n h w e => exact .waits v p n h (hW _ _ w) e

theorem Goes.ended {C : State → Prop} {s : State} {f : Flow} (h : Goes C s f) (W : WaitPoint → State → Prop) :
    Ended C W s (f.finish 0#32) := by
  cases f with
  | cont t => exact .completed t h.1 h.2 rfl
  | stop u =>
    obtain ⟨t, a, b, c, d, e⟩ := h
    exact .failed t a b c d e

/-- One turn of a wait (rule R127). -/
theorem poll_spec {C : State → Prop} (p : WaitPoint) (n : Nat) (rest : State → Flow) (s : State)
    (hr : ∀ t, Did s t → t.stat = s.stat → Goes C t (rest t)) :
    Ended C (fun q t => q = p ∧ t.stat = s.stat) s ((poll p n rest s).finish 0#32) := by
  have h1 := sample_did s
  unfold poll
  split
  · split
    · have h2 := raise_did .stall (sample s)
      have h3 := logRecord_did .stall ((sample s).raise .stall)
      have h4 := controllerLost_did (logRecord .stall ((sample s).raise .stall))
      obtain ⟨t, e, a, b, c, d⟩ := abort_did .stall (controllerLost (logRecord .stall ((sample s).raise .stall)))
      refine .stalled t ((((h1.1.trans h2).trans h3.1).trans h4.1).trans a) d ?_ e
      exact a.adds.faults .stall (h4.1.adds.faults .stall (h3.1.adds.faults .stall rfl))
    · have h2 := delay_did Config.tPoll (sample s)
      exact .waits _ p (n + 1) (h1.1.trans h2.1) ⟨rfl, h2.2.1.trans h1.2.1⟩ rfl
  · exact h1.1.ended ((hr _ h1.1 h1.2.1).ended _)

theorem requireBegun_begun {s : State} (h : s.stat.begun = true) (body : State → State) : requireBegun body s = body s := by
  unfold requireBegun; rw [if_pos h]

theorem requireBegun_not {s : State} (h : s.stat.begun = false) (body : State → State) :
    requireBegun body s = complete 0#32 (s.raise .notBegun) := by
  unfold requireBegun; rw [if_neg (by simp [h])]

/-- What the rest of `PREPARE` or of an update does after a turn of its wait. -/
theorem resumeWait_spec (p : WaitPoint) (n : Nat) (s : State) (h : 1 ≤ s.cfg.maxChunk) :
    Ended (fun t => (t.stat.cstate = match p with | .softReset => .ready | .activation => .asleep) ∧
      t.stat.ramvBw = (match p with | .softReset => s.stat.ramvBw | .activation => false) ∧
      t.stat.ramvRed = (match p with | .softReset => s.stat.ramvRed | .activation => false))
      (fun q t => q = p ∧ t.stat = s.stat) s (resumeWait p n s) :=
  poll_spec p n _ s fun t ht a => (afterWait_spec p t (by rw [ht.adds.cfg]; exact h)).mono fun u _ b => by
    rw [a] at b; exact ⟨b.1, b.2.1, b.2.2.1⟩

/-- The body of `PREPARE` after `BEGIN`. -/
theorem prepareBody_spec (s : State) (h : 1 ≤ s.cfg.maxChunk) (hb : s.stat.begun = true) :
    Ended (fun t => t.stat = { s.stat with cstate := .ready, ramvBw := false, ramvRed := false })
      (fun q t => q = .softReset ∧ t.stat = { s.stat with cstate := .reset, ramvBw := false, ramvRed := false }) s (prepareBody s) := by
  unfold prepareBody
  rw [requireBegun_begun hb]
  have h1 := prepareHead_spec s h
  cases hf : prepareHead s with
  | stop u =>
    rw [hf] at h1
    obtain ⟨t, a, b, c, d, e⟩ := h1
    exact .failed t a b c d e
  | cont t =>
    rw [hf] at h1
    refine h1.1.ended ((poll_spec .softReset 0 prepareTail t fun u hu a => ?_).mono (fun _ c => c) (fun q v w => ⟨w.1, w.2.trans h1.2.1⟩))
    refine (prepareTail_spec u ?_).mono fun v _ b => ?_
    · rw [hu.adds.cfg, h1.1.adds.cfg]; exact h
    · rw [b.1, a, h1.2.1]

/-- The body of an update after `BEGIN`. -/
theorem updateBody_spec (m : UpdateMode) (s : State) (h : 1 ≤ s.cfg.maxChunk) (hb : s.stat.begun = true) :
    Ended (fun t => t.stat = { s.stat with cstate := .asleep, ramvBw := false, ramvRed := false })
      (fun q t => q = .activation ∧ t.stat = { s.stat with cstate := .busy }) s (updateBody m s) := by
  unfold updateBody
  rw [requireBegun_begun hb]
  have h0 := noteSequence_did (updateUnprepared s) s
  refine h0.1.ended ?_
  have h1 := updateHead_spec m (noteSequence (updateUnprepared s) s) (by rw [h0.1.adds.cfg]; exact h)
  cases hf : updateHead m (noteSequence (updateUnprepared s) s) with
  | stop u =>
    rw [hf] at h1
    obtain ⟨t, a, b, c, d, e⟩ := h1
    exact .failed t a b c d e
  | cont t =>
    rw [hf] at h1
    have es : t.stat = { s.stat with cstate := .busy } := by rw [h1.2.1, h0.2.1]
    refine h1.1.ended ((poll_spec .activation 0 updateTail t fun u hu a => ?_).mono (fun _ c => c) (fun q v w => ⟨w.1, w.2.trans es⟩))
    refine (updateTail_spec u ?_).mono fun v _ b => ?_
    · rw [hu.adds.cfg, h1.1.adds.cfg, h0.1.adds.cfg]; exact h
    · rw [b.1, a, es]

/-- The body of a full-frame operation after `BEGIN`. -/
theorem frameBody_spec (bw red : List Byte) (s : State) (h : 1 ≤ s.cfg.maxChunk) (hb : s.stat.begun = true)
    (h1 : bw.length = planeBytes s.cfg) (h2 : red.length = planeBytes s.cfg) (W : WaitPoint → State → Prop) :
    Ended (fun t => t.stat = { s.stat with ramvBw := true, ramvRed := true }) W s (frameBody bw red s) := by
  unfold frameBody
  rw [requireBegun_begun hb]
  have h0 := noteSequence_did (notReady s) s
  have h3 := (writeFrame_spec bw red (noteSequence (notReady s) s) (by rw [h0.1.adds.cfg]; exact h)
    (by rw [h0.1.adds.cfg]; exact h1) (by rw [h0.1.adds.cfg]; exact h2)).ended W
  exact h0.1.ended (h3.mono (fun t a => by rw [a, h0.2.1]) (fun _ _ w => w))

theorem planeSource_length {s : State} {bwP redP : Bool} (h : currentImageFits bwP redP s = true) :
    (planeSource s.cfg s.fetch bwP .bw).length = planeBytes s.cfg ∧ (planeSource s.cfg s.fetch redP .red).length = planeBytes s.cfg := by
  unfold currentImageFits at h
  cases hf : s.fetch with
  | none => simp [planeSource]
  | some op =>
    simp only [hf, imageFits, Bool.and_eq_true, Bool.or_eq_true, Bool.not_eq_true', decide_eq_true_eq] at h
    constructor
    · cases bwP
      · simp [planeSource]
      · simpa [planeSource] using h.1
    · cases redP
      · simp [planeSource]
      · simpa [planeSource] using h.2

/-- `STAT` where an operation completes. -/
def StatAfter (i : Instr) (s : State) (st : Stat) : Prop :=
  st = { s.stat with inop := true } ∨
  (s.stat.begun = true ∧ st = { s.stat with ramvBw := true, ramvRed := true, inop := true }) ∨
  (s.stat.begun = true ∧ i = .prepare ∧ st = { s.stat with cstate := .ready, ramvBw := false, ramvRed := false, inop := true }) ∨
  (s.stat.begun = true ∧ (i = .displayNormal ∨ i = .displayFast) ∧
    st = { s.stat with cstate := .asleep, ramvBw := false, ramvRed := false, inop := true })

/-- `STAT` where an operation waits. -/
def StatWaiting (i : Instr) (s : State) (p : WaitPoint) (st : Stat) : Prop :=
  (s.stat.begun = true ∧ i = .prepare ∧ p = .softReset ∧
    st = { s.stat with cstate := .reset, ramvBw := false, ramvRed := false, inop := true }) ∨
  (s.stat.begun = true ∧ (i = .displayNormal ∨ i = .displayFast) ∧ p = .activation ∧
    st = { s.stat with cstate := .busy, inop := true })

/-- How an instruction that touches no line changes `SURF`: not at all, or as its rule says (rules R187, R189 to R191). -/
def SurfaceOp (i : Instr) (f g : Surf) : Prop :=
  g = f ∨ (∃ r, i = .setRotation r ∧ g = { f with rot := r }) ∨ (i = .setWhiteBorder ∧ g = { f with border := .white }) ∨
    (i = .setBlackBorder ∧ g = { f with border := .black }) ∨ (i = .setRedBorder ∧ g = { f with border := .red })

/-- Everything one instruction can do. -/
inductive Ran (i : Instr) (s t : State) : Prop where
  | refused (f : FaultBit) (hf : f = .concurrent ∨ f = .illegalOp) (hh : isHostOp i = true) (e : t = refuse f s)
  | surface (hh : isHostOp i = true) (hidle : s.stat.inop = false) (f : Surf) (r : ResultWord) (hf : SurfaceOp i s.surf f)
      (e : t = complete r ((s.setInop true).setSurf f))
  | acquired (hi : i = .beginOp) (hidle : s.stat.inop = false) (b : Bool) (r : ResultWord) (v w : State)
      (hv : Did (s.setInop true) v) (sv : v.stat = { s.stat with inop := true }) (hw : Did (if b then v.setBegun else v) w)
      (sw : w.stat = (if b then v.setBegun else v).stat) (e : t = complete r w)
  | ended (hh : isHostOp i = true) (hidle : s.stat.inop = false)
      (hb : s.stat.begun = false → ∃ u, t = complete 0#32 u ∧ u.stat = { s.stat with inop := true })
      (h : Ended (fun u => StatAfter i s u.stat) (fun p u => StatWaiting i s p u.stat) (s.setInop true) t)
  | bus (hh : isHostOp i = false) (h : Traffic s t ∨ Broken s t)

theorem hostOp_next {body : State → State} {s t : State} (h : hostOp body s = .next t) :
    (s.stat.inop = true ∧ t = refuse .concurrent s) ∨ (s.stat.inop = false ∧ t = body (s.setInop true)) := by
  unfold hostOp enterOp at h
  cases hi : s.stat.inop <;> simp [hi] at h <;> simp [h]

/-- Between operations the body runs, with `INOP` set. -/
theorem hostOp_idle {body : State → State} {s : State} (h : s.stat.inop = false) :
    hostOp body s = .next (body (s.setInop true)) := by
  unfold hostOp enterOp; rw [h]; rfl

/-- During an operation the word is refused. -/
theorem hostOp_busy {body : State → State} {s : State} (h : s.stat.inop = true) :
    hostOp body s = .next (refuse .concurrent s) := by
  unfold hostOp enterOp; rw [h]; rfl

theorem ran_bus {i : Instr} {s t : State} {f : Flow} (hh : isHostOp i = false) (hf : f.Ends (Traffic s) (Broken s))
    (h : (Host.Outcome.next f.state : Host.Outcome State Fault Refusal) = .next t) : Ran i s t := by
  cases h
  cases f with
  | cont u => exact .bus hh (.inl hf)
  | stop u => exact .bus hh (.inr hf)

/-- Everything any instruction can do, in any state with legal parameters. -/
theorem exec_spec {i : Instr} {s t : State} (hp : s.cfg.wf) (h : exec i s = .next t) : Ran i s t := by
  have hc2 : 2 ≤ s.cfg.maxChunk := hp.2.2.2.2.1
  have hc : 1 ≤ s.cfg.maxChunk := by omega
  have key : ∀ (body : State → State), isHostOp i = true → hostOp body s = .next t →
      (s.stat.inop = false → Ran i s (body (s.setInop true))) → Ran i s t := by
    intro body hh hb hk
    rcases hostOp_next hb with ⟨h1, rfl⟩ | ⟨h1, rfl⟩
    · exact .refused .concurrent (.inl rfl) hh rfl
    · exact hk h1
  have notBegun : ∀ (hh : isHostOp i = true) (hidle : s.stat.inop = false), Ran i s (complete 0#32 ((s.setInop true).raise .notBegun)) :=
    fun hh hidle => .ended hh hidle (fun _ => ⟨_, rfl, rfl⟩) (.completed _ (raise_did _ _) (.inl rfl) rfl)
  have frame : ∀ bw red : List Byte, isHostOp i = true → s.stat.inop = false → bw.length = planeBytes s.cfg →
      red.length = planeBytes s.cfg → Ran i s (frameBody bw red (s.setInop true)) := by
    intro bw red hh hidle h1 h2
    cases hb : s.stat.begun with
    | false => unfold frameBody; rw [requireBegun_not (by exact hb)]; exact notBegun hh hidle
    | true =>
      exact .ended hh hidle (fun hn => by rw [hb] at hn; cases hn) ((frameBody_spec bw red (s.setInop true) hc hb h1 h2 _).mono
        (fun u a => .inr (.inl ⟨hb, by rw [a]; rfl⟩)) (fun _ _ w => w))
  have update : ∀ m, isHostOp i = true → (i = .displayNormal ∨ i = .displayFast) → s.stat.inop = false →
      Ran i s (updateBody m (s.setInop true)) := by
    intro m hh hi hidle
    cases hb : s.stat.begun with
    | false => unfold updateBody; rw [requireBegun_not (by exact hb)]; exact notBegun hh hidle
    | true =>
      exact .ended hh hidle (fun hn => by rw [hb] at hn; cases hn) ((updateBody_spec m (s.setInop true) hc hb).mono
        (fun u a => .inr (.inr (.inr ⟨hb, hi, by rw [a]; rfl⟩))) (fun p u w => .inr ⟨hb, hi, w.1, by rw [w.2]; rfl⟩))
  cases i
  case beginOp =>
    refine key beginBody rfl h fun hidle => ?_
    unfold beginBody
    split
    · exact .surface rfl hidle s.surf 1#32 (.inl rfl) rfl
    · have ha := acquire_did (s.setInop true)
      split
      · have hd := csDeassert_did ((acquire (s.setInop true)).setBegun)
        exact .acquired rfl hidle true 1#32 _ _ ha.1 ha.2.1 hd.1 hd.2.1 rfl
      · exact .acquired rfl hidle false 0#32 _ _ ha.1 ha.2.1 (raise_did .setupFail _) rfl rfl
  case prepare =>
    refine key prepareBody rfl h fun hidle => ?_
    cases hb : s.stat.begun with
    | false => unfold prepareBody; rw [requireBegun_not (by exact hb)]; exact notBegun rfl hidle
    | true =>
      exact .ended rfl hidle (fun hn => by rw [hb] at hn; cases hn) ((prepareBody_spec (s.setInop true) hc hb).mono
        (fun u a => .inr (.inr (.inl ⟨hb, rfl, by rw [a]; rfl⟩))) (fun p u w => .inl ⟨hb, rfl, w.1, by rw [w.2]; rfl⟩))
  case displayImage bwP redP =>
    have h' : execDisplayImage bwP redP s = .next t := h
    unfold execDisplayImage at h'
    by_cases hfit : currentImageFits bwP redP s = true
    · rw [if_pos hfit] at h'
      have hl := planeSource_length hfit
      exact key _ rfl h' fun hidle => frame _ _ rfl hidle hl.1 hl.2
    · rw [if_neg hfit] at h'
      cases h'; exact .refused .illegalOp (.inr rfl) rfl rfl
  case clearDisplay => exact key _ rfl h fun hidle => frame _ _ rfl hidle (by simp) (by simp)
  case fillBlack => exact key _ rfl h fun hidle => frame _ _ rfl hidle (by simp) (by simp)
  case displayNormal => exact key _ rfl h fun hidle => update .normal rfl (.inl rfl) hidle
  case displayFast => exact key _ rfl h fun hidle => update .fast rfl (.inr rfl) hidle
  case setPixel x y c =>
    have h' : execSetPixel x y c s = .next t := h
    refine key _ rfl h' fun hidle => .ended rfl hidle (fun hn => ?_) (Goes.ended ((pixelBody_spec x y c (s.setInop true) hc2).mono fun u _ a => ?_) _)
    · obtain ⟨u, e, hu⟩ := pixelBody_notBegun x y c (s.setInop true) hn
      exact ⟨u, by rw [e]; rfl, hu⟩
    · exact Or.inl a
  case drawHline x y w c =>
    have h' : execDrawHline x y w c s = .next t := h
    refine key _ rfl h' fun hidle => .ended rfl hidle (fun hn => ?_) (Goes.ended ((hRun_spec y c w.toNat x (s.setInop true) hc2).mono fun u _ a => ?_) _)
    · obtain ⟨u, e, hu⟩ := hRun_notBegun y c w.toNat x (s.setInop true) hn
      exact ⟨u, by rw [e]; rfl, hu⟩
    · exact Or.inl a
  case drawVline x y l c =>
    have h' : execDrawVline x y l c s = .next t := h
    refine key _ rfl h' fun hidle => .ended rfl hidle (fun hn => ?_) (Goes.ended ((vRun_spec x c l.toNat y (s.setInop true) hc2).mono fun u _ a => ?_) _)
    · obtain ⟨u, e, hu⟩ := vRun_notBegun x c l.toNat y (s.setInop true) hn
      exact ⟨u, by rw [e]; rfl, hu⟩
    · exact Or.inl a
  case setRotation r =>
    have h' : execSetRotation r s = .next t := h
    exact key _ rfl h' fun hidle => .surface rfl hidle { s.surf with rot := r } 0#32 (.inr (.inl ⟨r, rfl, rfl⟩)) rfl
  case setWhiteBorder =>
    have h' : execSetWhiteBorder s = .next t := h
    exact key _ rfl h' fun hidle => .surface rfl hidle { s.surf with border := .white } 0#32 (.inr (.inr (.inl ⟨rfl, rfl⟩))) rfl
  case setBlackBorder =>
    have h' : execSetBlackBorder s = .next t := h
    exact key _ rfl h' fun hidle => .surface rfl hidle { s.surf with border := .black } 0#32 (.inr (.inr (.inr (.inl ⟨rfl, rfl⟩)))) rfl
  case setRedBorder =>
    have h' : execSetRedBorder s = .next t := h
    exact key _ rfl h' fun hidle => .surface rfl hidle { s.surf with border := .red } 0#32 (.inr (.inr (.inr (.inr ⟨rfl, rfl⟩)))) rfl
  case getWidth =>
    have h' : execGetWidth s = .next t := h
    exact key _ rfl h' fun hidle => .surface rfl hidle s.surf (BitVec.ofNat 32 (logicalWidth s.cfg s.surf.rot)) (.inl rfl) rfl
  case getHeight =>
    have h' : execGetHeight s = .next t := h
    exact key _ rfl h' fun hidle => .surface rfl hidle s.surf (BitVec.ofNat 32 (logicalHeight s.cfg s.surf.rot)) (.inl rfl) rfl
  case getRotation =>
    have h' : execGetRotation s = .next t := h
    exact key _ rfl h' fun hidle => .surface rfl hidle s.surf ((rotCode s.surf.rot).setWidth 32) (.inl rfl) rfl
  case getStatus =>
    have h' : execGetStatus s = .next t := h
    exact key _ rfl h' fun hidle => .surface rfl hidle s.surf (statusWord (s.setInop true)) (.inl rfl) rfl
  case swReset => exact ran_bus rfl (group_spec .swReset [] s hc) h
  case driverOutputControl a b c => exact ran_bus rfl (group_spec .driverOutputControl [a, b, c] s hc) h
  case dataEntryMode a => exact ran_bus rfl (group_spec .dataEntryMode [a] s hc) h
  case setRamXWindow a b => exact ran_bus rfl (group_spec .setRamXWindow [a, b] s hc) h
  case setRamYWindow a b c d => exact ran_bus rfl (group_spec .setRamYWindow [a, b, c, d] s hc) h
  case borderWaveform a => exact ran_bus rfl (group_spec .borderWaveform [a] s hc) h
  case displayUpdateControl1 d => exact ran_bus rfl (group_spec .displayUpdateControl1 d s hc) h
  case tempSensorSelect a => exact ran_bus rfl (group_spec .tempSensorSelect [a] s hc) h
  case displayUpdateControl2 a => exact ran_bus rfl (group_spec .displayUpdateControl2 [a] s hc) h
  case masterActivation => exact ran_bus rfl (group_spec .masterActivation [] s hc) h
  case deepSleep d => exact ran_bus rfl (group_spec .deepSleep d s hc) h
  case writeRamBw d =>
    exact ran_bus rfl (Traffic.bind (sendCommand_spec .writeRamBw s hc) fun t ht => sendDataBlock_spec d d.length t (by rw [ht.adds.cfg]; exact hc)) h
  case writeRamRed d =>
    exact ran_bus rfl (Traffic.bind (sendCommand_spec .writeRamRed s hc) fun t ht => sendDataBlock_spec d d.length t (by rw [ht.adds.cfg]; exact hc)) h
  case readRamOption a => exact ran_bus rfl (group_spec .readRamOption [a] s hc) h
  case readRam =>
    exact ran_bus rfl (Traffic.bind (sendCommand_spec .readRam s hc) fun t ht => readFrame_spec 2 t (by rw [ht.adds.cfg]; exact hc2)) h
  case setRamXCounter a => exact ran_bus rfl (group_spec .setRamXCounter [a] s hc) h
  case setRamYCounter a b => exact ran_bus rfl (group_spec .setRamYCounter [a, b] s hc) h

/-- What a decoded row holds, if each instruction the row can give has it. -/
theorem decodePlain_holds {P : Instr → Prop} {f : HostFields} {i j : Instr} (h : decodePlain f i = .ok j) (hi : P i) : P j := by
  unfold decodePlain at h
  split at h <;> cases h
  exact hi

theorem decodeSub_holds {P : Instr → Prop} {f : HostFields} {i j : Instr} (h : decodeSub f i = .ok j) (hi : P i) : P j := by
  unfold decodeSub at h
  split at h <;> cases h
  exact hi

theorem decodePixel_holds {P : Instr → Prop} {f : HostFields} {i : Colour → Instr} {j : Instr} (h : decodePixel f i = .ok j)
    (hi : ∀ c, P (i c)) : P j := by
  unfold decodePixel at h
  split at h
  · split at h <;> cases h
    exact hi _
  · cases h

theorem ite_elim {α : Type} {c : Prop} [Decidable c] {a b x : α} {Q : Prop} (h : (if c then a else b) = x) (ha : a = x → Q)
    (hb : b = x → Q) : Q := by
  split at h
  · exact ha h
  · exact hb h

/-- A word decodes to a host operation only. -/
theorem isHostOp_of_decodeHost {w : HostWord} {i : Instr} (h : decodeHost w = .ok i) : isHostOp i = true := by
  unfold decodeHost decodeFields at h
  iterate 18
    refine ite_elim h (fun h => ?_) fun h => ?_
    · first
      | exact decodePlain_holds (P := fun j => isHostOp j = true) h rfl
      | exact decodeSub_holds (P := fun j => isHostOp j = true) h rfl
      | exact decodePixel_holds (P := fun j => isHostOp j = true) h fun _ => rfl
      | exact ite_elim h (fun h => decodePixel_holds (P := fun j => isHostOp j = true) h fun _ => rfl) fun h => by cases h
    clear *- h
  cases h

theorem isHostOp_of_assembleGroup {c : BusCmd} {d : List Byte} {i : Instr} (h : assembleGroup c d = .ok i) : isHostOp i = false := by
  rcases d with _ | ⟨a, _ | ⟨b, _ | ⟨e, _ | ⟨f, _ | ⟨g, d⟩⟩⟩⟩⟩ <;> cases c <;> first | (cases h; rfl) | cases h

/-- A group decodes to a bus command only. -/
theorem isHostOp_of_decodeGroup {p : Proto} {g : List Byte} {i : Instr} (h : decodeGroup p g = .ok i) : isHostOp i = false := by
  cases g with
  | nil => cases h
  | cons b d =>
    simp only [decodeGroup] at h
    split at h
    · exact isHostOp_of_assembleGroup h
    · cases h

/-- Everything a step can do, in any state with legal parameters: a turn of a wait, a bus command, a host operation, or a refusal. -/
theorem step_spec {s t : State} (hp : s.cfg.wf) (h : step s = .next t) :
    (∃ p n, s.micro = .waiting p n ∧ t = resumeWait p n (s.setMicro .idle)) ∨
    (∃ g i, s.micro = .sending g ∧ isHostOp i = false ∧ Ran i (s.setMicro .idle) t) ∨
    (∃ op i, s.micro = .idle ∧ s.fetch = some op ∧ decodeHost op.word = .ok i ∧ isHostOp i = true ∧ Ran i s t) ∨
    (s.micro = .idle ∧ t = refuse .illegalOp s) := by
  unfold step at h
  cases hm : s.micro with
  | waiting p n => simp only [hm] at h; cases h; exact .inl ⟨p, n, rfl, rfl⟩
  | sending g =>
    simp only [hm] at h
    split at h
    case h_1 i hi => exact .inr (.inl ⟨g, i, rfl, isHostOp_of_decodeGroup hi, exec_spec (by exact hp) h⟩)
    case h_2 => cases h
  | idle =>
    simp only [hm] at h
    split at h
    · cases h
    case h_2 op hop =>
      split at h
      case h_1 i hi => exact .inr (.inr (.inl ⟨op, i, rfl, hop, hi, isHostOp_of_decodeHost hi, exec_spec hp h⟩))
      case h_2 => cases h; exact .inr (.inr (.inr ⟨rfl, rfl⟩))

end Sys2Proof.Machine
end

