-- ==== Sys2Proof/Laws/PerInstr.lean ====
section
/-! SUPPORT. Sys2Proof/Laws/PerInstr.lean: per instruction, that its encoding lies in its own row of spec/opcode_table.json. -/

namespace Sys2Proof.Laws.TableRow

/-- The encoding of a well-formed instruction under the reference profile lies in the table row of its mnemonic. -/
def Statement (i : Instr) : Prop :=
  i.wf = true →
    match encode Proto.reference i with
    | .word w => ∃ r ∈ hostRows, r.mnemonic = i.mnemonic ∧ w &&& r.mask = r.bits
    | .group bs => ∃ r ∈ busRows, r.mnemonic = i.mnemonic ∧ bs.head? = some r.code

/-- A word of five fields, masked field by field. -/
theorem join_and_mask (f m : HostFields) :
    HostFields.join f &&& HostFields.join m =
      HostFields.join { opc := f.opc &&& m.opc, sub := f.sub &&& m.sub, x := f.x &&& m.x, y := f.y &&& m.y, l := f.l &&& m.l } := by
  simp only [HostFields.join]
  apply BitVec.eq_of_getLsbD_eq
  intro i hi
  simp only [BitVec.getLsbD_and, BitVec.getLsbD_append]
  repeat' split
  all_goals rfl

theorem beginOp : Statement (.beginOp) := fun _ =>
  ⟨{ mnemonic := "BEGIN", mask := 0xFFFFFFFFFFFFFFFF#64, bits := 0x0000000000000001#64, colour := false }, by simp [hostRows], rfl, by decide⟩

theorem prepare : Statement (.prepare) := fun _ =>
  ⟨{ mnemonic := "PREPARE", mask := 0xFFFFFFFFFFFFFFFF#64, bits := 0x0000000000000002#64, colour := false }, by simp [hostRows], rfl, by decide⟩

theorem displayImage (a : Bool) (b : Bool) : Statement (.displayImage a b) := fun _ =>
  ⟨{ mnemonic := "DISPLAY_IMAGE", mask := 0xFFFFFFFFFFFFFCFF#64, bits := 0x0000000000000010#64, colour := false }, by simp [hostRows], rfl, by revert a b; decide⟩

theorem clearDisplay : Statement (.clearDisplay) := fun _ =>
  ⟨{ mnemonic := "CLEAR_DISPLAY", mask := 0xFFFFFFFFFFFFFFFF#64, bits := 0x0000000000000011#64, colour := false }, by simp [hostRows], rfl, by decide⟩

theorem fillBlack : Statement (.fillBlack) := fun _ =>
  ⟨{ mnemonic := "FILL_BLACK", mask := 0xFFFFFFFFFFFFFFFF#64, bits := 0x0000000000000012#64, colour := false }, by simp [hostRows], rfl, by decide⟩

theorem displayNormal : Statement (.displayNormal) := fun _ =>
  ⟨{ mnemonic := "DISPLAY_NORMAL", mask := 0xFFFFFFFFFFFFFFFF#64, bits := 0x0000000000000020#64, colour := false }, by simp [hostRows], rfl, by decide⟩

theorem displayFast : Statement (.displayFast) := fun _ =>
  ⟨{ mnemonic := "DISPLAY_FAST", mask := 0xFFFFFFFFFFFFFFFF#64, bits := 0x0000000000000021#64, colour := false }, by simp [hostRows], rfl, by decide⟩

theorem setPixel (a : Int) (b : Int) (c : Colour) : Statement (.setPixel a b c) := by
  intro _
  refine ⟨{ mnemonic := "SET_PIXEL", mask := 0xFFFF00000000FCFF#64, bits := 0x30#64, colour := true }, by simp [hostRows], rfl, ?_⟩
  rw [show (0xFFFF00000000FCFF#64 : HostWord) = HostFields.join { opc := 0xFF, sub := 0xFC, x := 0, y := 0, l := 0xFFFF } by decide]
  rw [show (0x30#64 : HostWord) = HostFields.join { opc := 0x30, sub := 0, x := 0, y := 0, l := 0 } by decide]
  simp only [pixelWord, join_and_mask]
  cases c <;> simp [Colour.code]

theorem drawHline (a : Int) (b : Int) (c : Int) (d : Colour) : Statement (.drawHline a b c d) := by
  intro _
  refine ⟨{ mnemonic := "DRAW_HLINE", mask := 0x000000000000FCFF#64, bits := 0x31#64, colour := true }, by simp [hostRows], rfl, ?_⟩
  rw [show (0x000000000000FCFF#64 : HostWord) = HostFields.join { opc := 0xFF, sub := 0xFC, x := 0, y := 0, l := 0 } by decide]
  rw [show (0x31#64 : HostWord) = HostFields.join { opc := 0x31, sub := 0, x := 0, y := 0, l := 0 } by decide]
  simp only [pixelWord, join_and_mask]
  cases d <;> simp [Colour.code]

theorem drawVline (a : Int) (b : Int) (c : Int) (d : Colour) : Statement (.drawVline a b c d) := by
  intro _
  refine ⟨{ mnemonic := "DRAW_VLINE", mask := 0x000000000000FCFF#64, bits := 0x32#64, colour := true }, by simp [hostRows], rfl, ?_⟩
  rw [show (0x000000000000FCFF#64 : HostWord) = HostFields.join { opc := 0xFF, sub := 0xFC, x := 0, y := 0, l := 0 } by decide]
  rw [show (0x32#64 : HostWord) = HostFields.join { opc := 0x32, sub := 0, x := 0, y := 0, l := 0 } by decide]
  simp only [pixelWord, join_and_mask]
  cases d <;> simp [Colour.code]

theorem setRotation (a : Rotation) : Statement (.setRotation a) := fun _ =>
  ⟨{ mnemonic := "SET_ROTATION", mask := 0xFFFFFFFFFFFFFCFF#64, bits := 0x0000000000000040#64, colour := false }, by simp [hostRows], rfl, by cases a <;> decide⟩

theorem setWhiteBorder : Statement (.setWhiteBorder) := fun _ =>
  ⟨{ mnemonic := "SET_WHITE_BORDER", mask := 0xFFFFFFFFFFFFFFFF#64, bits := 0x0000000000000041#64, colour := false }, by simp [hostRows], rfl, by decide⟩

theorem setBlackBorder : Statement (.setBlackBorder) := fun _ =>
  ⟨{ mnemonic := "SET_BLACK_BORDER", mask := 0xFFFFFFFFFFFFFFFF#64, bits := 0x0000000000000042#64, colour := false }, by simp [hostRows], rfl, by decide⟩

theorem setRedBorder : Statement (.setRedBorder) := fun _ =>
  ⟨{ mnemonic := "SET_RED_BORDER", mask := 0xFFFFFFFFFFFFFFFF#64, bits := 0x0000000000000043#64, colour := false }, by simp [hostRows], rfl, by decide⟩

theorem getWidth : Statement (.getWidth) := fun _ =>
  ⟨{ mnemonic := "GET_WIDTH", mask := 0xFFFFFFFFFFFFFFFF#64, bits := 0x0000000000000050#64, colour := false }, by simp [hostRows], rfl, by decide⟩

theorem getHeight : Statement (.getHeight) := fun _ =>
  ⟨{ mnemonic := "GET_HEIGHT", mask := 0xFFFFFFFFFFFFFFFF#64, bits := 0x0000000000000051#64, colour := false }, by simp [hostRows], rfl, by decide⟩

theorem getRotation : Statement (.getRotation) := fun _ =>
  ⟨{ mnemonic := "GET_ROTATION", mask := 0xFFFFFFFFFFFFFFFF#64, bits := 0x0000000000000052#64, colour := false }, by simp [hostRows], rfl, by decide⟩

theorem getStatus : Statement (.getStatus) := fun _ =>
  ⟨{ mnemonic := "GET_STATUS", mask := 0xFFFFFFFFFFFFFFFF#64, bits := 0x0000000000000053#64, colour := false }, by simp [hostRows], rfl, by decide⟩

theorem swReset : Statement (.swReset) := fun _ =>
  ⟨{ mnemonic := "SW_RESET", command := .swReset, code := 0x12#8 }, by simp [busRows], rfl, rfl⟩

theorem driverOutputControl (a : Byte) (b : Byte) (c : Byte) : Statement (.driverOutputControl a b c) := fun _ =>
  ⟨{ mnemonic := "DRIVER_OUTPUT_CONTROL", command := .driverOutputControl, code := 0x01#8 }, by simp [busRows], rfl, rfl⟩

theorem dataEntryMode (a : Byte) : Statement (.dataEntryMode a) := fun _ =>
  ⟨{ mnemonic := "DATA_ENTRY_MODE", command := .dataEntryMode, code := 0x11#8 }, by simp [busRows], rfl, rfl⟩

theorem setRamXWindow (a : Byte) (b : Byte) : Statement (.setRamXWindow a b) := fun _ =>
  ⟨{ mnemonic := "SET_RAM_X_WINDOW", command := .setRamXWindow, code := 0x44#8 }, by simp [busRows], rfl, rfl⟩

theorem setRamYWindow (a : Byte) (b : Byte) (c : Byte) (d : Byte) : Statement (.setRamYWindow a b c d) := fun _ =>
  ⟨{ mnemonic := "SET_RAM_Y_WINDOW", command := .setRamYWindow, code := 0x45#8 }, by simp [busRows], rfl, rfl⟩

theorem borderWaveform (a : Byte) : Statement (.borderWaveform a) := fun _ =>
  ⟨{ mnemonic := "BORDER_WAVEFORM", command := .borderWaveform, code := 0x3C#8 }, by simp [busRows], rfl, rfl⟩

theorem displayUpdateControl1 (a : List Byte) : Statement (.displayUpdateControl1 a) := fun _ =>
  ⟨{ mnemonic := "DISPLAY_UPDATE_CONTROL_1", command := .displayUpdateControl1, code := 0x21#8 }, by simp [busRows], rfl, rfl⟩

theorem tempSensorSelect (a : Byte) : Statement (.tempSensorSelect a) := fun _ =>
  ⟨{ mnemonic := "TEMP_SENSOR_SELECT", command := .tempSensorSelect, code := 0x18#8 }, by simp [busRows], rfl, rfl⟩

theorem displayUpdateControl2 (a : Byte) : Statement (.displayUpdateControl2 a) := fun _ =>
  ⟨{ mnemonic := "DISPLAY_UPDATE_CONTROL_2", command := .displayUpdateControl2, code := 0x22#8 }, by simp [busRows], rfl, rfl⟩

theorem masterActivation : Statement (.masterActivation) := fun _ =>
  ⟨{ mnemonic := "MASTER_ACTIVATION", command := .masterActivation, code := 0x20#8 }, by simp [busRows], rfl, rfl⟩

theorem deepSleep (a : List Byte) : Statement (.deepSleep a) := fun _ =>
  ⟨{ mnemonic := "DEEP_SLEEP", command := .deepSleep, code := 0x10#8 }, by simp [busRows], rfl, rfl⟩

theorem writeRamBw (a : List Byte) : Statement (.writeRamBw a) := fun _ =>
  ⟨{ mnemonic := "WRITE_RAM_BW", command := .writeRamBw, code := 0x24#8 }, by simp [busRows], rfl, rfl⟩

theorem writeRamRed (a : List Byte) : Statement (.writeRamRed a) := fun _ =>
  ⟨{ mnemonic := "WRITE_RAM_RED", command := .writeRamRed, code := 0x26#8 }, by simp [busRows], rfl, rfl⟩

theorem readRamOption (a : Byte) : Statement (.readRamOption a) := fun _ =>
  ⟨{ mnemonic := "READ_RAM_OPTION", command := .readRamOption, code := 0x41#8 }, by simp [busRows], rfl, rfl⟩

theorem readRam : Statement (.readRam) := fun _ =>
  ⟨{ mnemonic := "READ_RAM", command := .readRam, code := 0x27#8 }, by simp [busRows], rfl, rfl⟩

theorem setRamXCounter (a : Byte) : Statement (.setRamXCounter a) := fun _ =>
  ⟨{ mnemonic := "SET_RAM_X_COUNTER", command := .setRamXCounter, code := 0x4E#8 }, by simp [busRows], rfl, rfl⟩

theorem setRamYCounter (a : Byte) (b : Byte) : Statement (.setRamYCounter a b) := fun _ =>
  ⟨{ mnemonic := "SET_RAM_Y_COUNTER", command := .setRamYCounter, code := 0x4F#8 }, by simp [busRows], rfl, rfl⟩

end Sys2Proof.Laws.TableRow
end

