-- ==== Sys2Proof/Laws/Sequences.lean ====
section
/-! SUPPORT. Sys2Proof/Laws/Sequences.lean: what the sequences of the family files do on a reliable backend with the sequential
host: the whole next state of the init sequence, a plane write, an update, a pixel access, and its trace. -/

namespace Sys2Proof.Machine

section setters
variable (s : State)
@[simp] theorem State.setTb_backend (t : List Byte) : (s.setTb t).env.backend = s.env.backend := rfl
end setters

/-- The state after the init sequence (rule R130). -/
def State.initialised (s : State) : State :=
  ((((((s.sentGroup s.cfg.proto.driverOutputControl (docData s.cfg)).sentGroup s.cfg.proto.dataEntryMode
    [s.cfg.proto.dem]).sentGroup s.cfg.proto.setRamXWindow (xWindowData s.cfg)).sentGroup s.cfg.proto.setRamYWindow
    (yWindowData s.cfg)).sentGroup s.cfg.proto.borderWaveform [borderByte s.cfg.proto s.surf.border]).sentGroup
    s.cfg.proto.displayUpdateControl1 s.cfg.proto.duc1Init)

section initialised
variable (s : State)
@[simp] theorem State.initialised_cfg : s.initialised.cfg = s.cfg := by simp [State.initialised]
@[simp] theorem State.initialised_program : s.initialised.program = s.program := by simp [State.initialised]
@[simp] theorem State.initialised_opIdx : s.initialised.opIdx = s.opIdx := by simp [State.initialised]
@[simp] theorem State.initialised_surf : s.initialised.surf = s.surf := by simp [State.initialised]
@[simp] theorem State.initialised_stat : s.initialised.stat = s.stat := by simp [State.initialised]
@[simp] theorem State.initialised_fault : s.initialised.fault = s.fault := by simp [State.initialised]
@[simp] theorem State.initialised_result : s.initialised.result = s.result := by simp [State.initialised]
@[simp] theorem State.initialised_results : s.initialised.results = s.results := by simp [State.initialised]
@[simp] theorem State.initialised_tb : s.initialised.tb = s.tb := by simp [State.initialised]
@[simp] theorem State.initialised_micro : s.initialised.micro = s.micro := by simp [State.initialised]
@[simp] theorem State.initialised_backend : s.initialised.env.backend = s.env.backend := by simp [State.initialised]
@[simp] theorem State.initialised_early : s.initialised.env.early = s.env.early := by simp [State.initialised]
@[simp] theorem State.initialised_samples : s.initialised.env.samples = s.env.samples := by simp [State.initialised]
@[simp] theorem State.initialised_rst : s.initialised.lines.rst = s.lines.rst := by simp [State.initialised]
@[simp] theorem heldInReset_initialised : heldInReset s.initialised = heldInReset s := by simp [heldInReset]
end initialised

theorem initSequence_reliable {s : State} (hr : Reliable s) (hs : SequentialHost s) (hc : 1 ≤ s.cfg.maxChunk) :
    initSequence s = .cont s.initialised := by
  have hr' : s.env.backend = .reliable := hr
  have hs' : s.env.early = [] := hs
  simp [initSequence, group_reliable, Reliable, SequentialHost, hr', hs', hc, Flow.bind_cont, State.initialised]

theorem State.initialised_trace {s : State} (hc : 1 ≤ s.cfg.maxChunk) :
    s.initialised.trace = s.trace ++ initEvents s.cfg s.surf.border := by
  simp [State.initialised, State.sentGroup_trace, hc, initEvents, docData, xWindowData, yWindowData]

/-- The state after the counter reseed (rules R144, R175, R177). -/
def State.seeded (xb yr : Nat) (s : State) : State :=
  (s.sentGroup s.cfg.proto.setRamXCounter [lo xb]).sentGroup s.cfg.proto.setRamYCounter [lo yr, hi yr]

section seeded
variable (xb yr : Nat) (s : State)
@[simp] theorem State.seeded_cfg : (s.seeded xb yr).cfg = s.cfg := by simp [State.seeded]
@[simp] theorem State.seeded_program : (s.seeded xb yr).program = s.program := by simp [State.seeded]
@[simp] theorem State.seeded_opIdx : (s.seeded xb yr).opIdx = s.opIdx := by simp [State.seeded]
@[simp] theorem State.seeded_surf : (s.seeded xb yr).surf = s.surf := by simp [State.seeded]
@[simp] theorem State.seeded_stat : (s.seeded xb yr).stat = s.stat := by simp [State.seeded]
@[simp] theorem State.seeded_fault : (s.seeded xb yr).fault = s.fault := by simp [State.seeded]
@[simp] theorem State.seeded_result : (s.seeded xb yr).result = s.result := by simp [State.seeded]
@[simp] theorem State.seeded_results : (s.seeded xb yr).results = s.results := by simp [State.seeded]
@[simp] theorem State.seeded_tb : (s.seeded xb yr).tb = s.tb := by simp [State.seeded]
@[simp] theorem State.seeded_micro : (s.seeded xb yr).micro = s.micro := by simp [State.seeded]
@[simp] theorem State.seeded_backend : (s.seeded xb yr).env.backend = s.env.backend := by simp [State.seeded]
@[simp] theorem State.seeded_early : (s.seeded xb yr).env.early = s.env.early := by simp [State.seeded]
@[simp] theorem State.seeded_samples : (s.seeded xb yr).env.samples = s.env.samples := by simp [State.seeded]
@[simp] theorem State.seeded_rst : (s.seeded xb yr).lines.rst = s.lines.rst := by simp [State.seeded]
@[simp] theorem heldInReset_seeded : heldInReset (s.seeded xb yr) = heldInReset s := by simp [heldInReset]
end seeded

theorem seedCounters_reliable {xb yr : Nat} {s : State} (hr : Reliable s) (hs : SequentialHost s) (hc : 1 ≤ s.cfg.maxChunk) :
    seedCounters xb yr s = .cont (s.seeded xb yr) := by
  have hr' : s.env.backend = .reliable := hr
  have hs' : s.env.early = [] := hs
  simp [seedCounters, group_reliable, Reliable, SequentialHost, hr', hs', hc, Flow.bind_cont, State.seeded]

theorem State.seeded_trace {s : State} (xb yr : Nat) (hc : 1 ≤ s.cfg.maxChunk) :
    (s.seeded xb yr).trace = s.trace ++ seedEvents s.cfg xb yr := by
  simp [State.seeded, State.sentGroup_trace, hc, seedEvents]

/-- The state after a plane write, before its `RAMV` bit is set (rule R145). -/
def State.planeSent (p : Plane) (buf : List Byte) (s : State) : State :=
  (((s.seeded 0 (s.cfg.height - 1)).setTb (flip s.cfg buf)).sent .cmd [writeCode s.cfg.proto p]).sent .data (flip s.cfg buf)

section planeSent
variable (p : Plane) (buf : List Byte) (s : State)
@[simp] theorem State.planeSent_cfg : (s.planeSent p buf).cfg = s.cfg := by simp [State.planeSent]
@[simp] theorem State.planeSent_program : (s.planeSent p buf).program = s.program := by simp [State.planeSent]
@[simp] theorem State.planeSent_opIdx : (s.planeSent p buf).opIdx = s.opIdx := by simp [State.planeSent]
@[simp] theorem State.planeSent_surf : (s.planeSent p buf).surf = s.surf := by simp [State.planeSent]
@[simp] theorem State.planeSent_stat : (s.planeSent p buf).stat = s.stat := by simp [State.planeSent]
@[simp] theorem State.planeSent_fault : (s.planeSent p buf).fault = s.fault := by simp [State.planeSent]
@[simp] theorem State.planeSent_result : (s.planeSent p buf).result = s.result := by simp [State.planeSent]
@[simp] theorem State.planeSent_results : (s.planeSent p buf).results = s.results := by simp [State.planeSent]
@[simp] theorem State.planeSent_tb : (s.planeSent p buf).tb = flip s.cfg buf := by simp [State.planeSent]
@[simp] theorem State.planeSent_micro : (s.planeSent p buf).micro = s.micro := by simp [State.planeSent]
@[simp] theorem State.planeSent_backend : (s.planeSent p buf).env.backend = s.env.backend := by simp [State.planeSent]
@[simp] theorem State.planeSent_early : (s.planeSent p buf).env.early = s.env.early := by simp [State.planeSent]
@[simp] theorem State.planeSent_samples : (s.planeSent p buf).env.samples = s.env.samples := by simp [State.planeSent]
@[simp] theorem State.planeSent_rst : (s.planeSent p buf).lines.rst = s.lines.rst := by simp [State.planeSent]
@[simp] theorem heldInReset_planeSent : heldInReset (s.planeSent p buf) = heldInReset s := by simp [heldInReset]
end planeSent

theorem writePlane_reliable {p : Plane} {buf : List Byte} {s : State} (hr : Reliable s) (hs : SequentialHost s)
    (hc : 1 ≤ s.cfg.maxChunk) (hb : buf.length = planeBytes s.cfg) :
    writePlane p buf s = .cont (markWritten p (s.planeSent p buf)) := by
  have hr' : s.env.backend = .reliable := hr
  have hs' : s.env.early = [] := hs
  have ht : (flip s.cfg buf).take (planeBytes s.cfg) = flip s.cfg buf :=
    List.take_of_length_le (by rw [flip_length hb])
  simp [writePlane, seedCounters_reliable, sendCommand, sendDataBlock, frame_reliable, Reliable, SequentialHost, hr', hs', hc, Flow.bind_cont,
    State.planeSent, ht]

theorem State.planeSent_trace {s : State} (p : Plane) (buf : List Byte) (hc : 1 ≤ s.cfg.maxChunk) :
    (s.planeSent p buf).trace = s.trace ++ planeEvents s.cfg p (flip s.cfg buf) := by
  simp [State.planeSent, State.seeded_trace, hc, planeEvents, cmdEvents, blockEvents, chunks_singleton]

section markWritten
variable (p : Plane) (s : State)

@[simp] theorem markWritten_cfg : (markWritten p s).cfg = s.cfg := by cases p <;> rfl
@[simp] theorem markWritten_program : (markWritten p s).program = s.program := by cases p <;> rfl
@[simp] theorem markWritten_opIdx : (markWritten p s).opIdx = s.opIdx := by cases p <;> rfl
@[simp] theorem markWritten_surf : (markWritten p s).surf = s.surf := by cases p <;> rfl
@[simp] theorem markWritten_fault : (markWritten p s).fault = s.fault := by cases p <;> rfl
@[simp] theorem markWritten_result : (markWritten p s).result = s.result := by cases p <;> rfl
@[simp] theorem markWritten_results : (markWritten p s).results = s.results := by cases p <;> rfl
@[simp] theorem markWritten_tb : (markWritten p s).tb = s.tb := by cases p <;> rfl
@[simp] theorem markWritten_micro : (markWritten p s).micro = s.micro := by cases p <;> rfl
@[simp] theorem markWritten_env : (markWritten p s).env = s.env := by cases p <;> rfl
@[simp] theorem markWritten_trace : (markWritten p s).trace = s.trace := by cases p <;> rfl
@[simp] theorem markWritten_ctl : (markWritten p s).ctl = s.ctl := by cases p <;> rfl
@[simp] theorem markWritten_lines : (markWritten p s).lines = s.lines := by cases p <;> rfl
@[simp] theorem markWritten_draws : (markWritten p s).draws = s.draws := by cases p <;> rfl
end markWritten

/-- The state after both planes are written (rule R147). -/
def State.frameWritten (bw red : List Byte) (s : State) : State :=
  markWritten .red ((markWritten .bw (s.planeSent .bw bw)).planeSent .red red)

theorem writeFrame_reliable {bw red : List Byte} {s : State} (hr : Reliable s) (hs : SequentialHost s)
    (hc : 1 ≤ s.cfg.maxChunk) (hb : bw.length = planeBytes s.cfg) (hd : red.length = planeBytes s.cfg) :
    writeFrame bw red s = .cont (s.frameWritten bw red) := by
  have hr' : s.env.backend = .reliable := hr
  have hs' : s.env.early = [] := hs
  simp [writeFrame, writePlane_reliable, Reliable, SequentialHost, hr', hs', hc, hb, hd, Flow.bind_cont, State.frameWritten]

section frameWritten
variable (bw red : List Byte) (s : State)
@[simp] theorem State.frameWritten_cfg : (s.frameWritten bw red).cfg = s.cfg := by simp [State.frameWritten]
@[simp] theorem State.frameWritten_program : (s.frameWritten bw red).program = s.program := by simp [State.frameWritten]
@[simp] theorem State.frameWritten_opIdx : (s.frameWritten bw red).opIdx = s.opIdx := by simp [State.frameWritten]
@[simp] theorem State.frameWritten_surf : (s.frameWritten bw red).surf = s.surf := by simp [State.frameWritten]
@[simp] theorem State.frameWritten_stat : (s.frameWritten bw red).stat = { s.stat with ramvBw := true, ramvRed := true } := by simp [State.frameWritten, markWritten]
@[simp] theorem State.frameWritten_fault : (s.frameWritten bw red).fault = s.fault := by simp [State.frameWritten]
@[simp] theorem State.frameWritten_result : (s.frameWritten bw red).result = s.result := by simp [State.frameWritten]
@[simp] theorem State.frameWritten_results : (s.frameWritten bw red).results = s.results := by simp [State.frameWritten]
@[simp] theorem State.frameWritten_tb : (s.frameWritten bw red).tb = flip s.cfg red := by simp [State.frameWritten]
@[simp] theorem State.frameWritten_micro : (s.frameWritten bw red).micro = s.micro := by simp [State.frameWritten]
@[simp] theorem State.frameWritten_backend : (s.frameWritten bw red).env.backend = s.env.backend := by simp [State.frameWritten]
@[simp] theorem State.frameWritten_early : (s.frameWritten bw red).env.early = s.env.early := by simp [State.frameWritten]
@[simp] theorem State.frameWritten_samples : (s.frameWritten bw red).env.samples = s.env.samples := by simp [State.frameWritten]
@[simp] theorem State.frameWritten_rst : (s.frameWritten bw red).lines.rst = s.lines.rst := by simp [State.frameWritten]
end frameWritten

theorem State.frameWritten_trace {s : State} (bw red : List Byte) (hc : 1 ≤ s.cfg.maxChunk) :
    (s.frameWritten bw red).trace = s.trace ++ frameEvents s.cfg bw red := by
  simp [State.frameWritten, State.planeSent_trace, hc, frameEvents]

/-- The state after steps 1 to 4 of the update, before `CSTATE` changes (rule R158). -/
def State.activated (mode : UpdateMode) (s : State) : State :=
  (((s.sentGroup s.cfg.proto.tempSensorSelect [s.cfg.proto.tempInternal]).sentGroup s.cfg.proto.displayUpdateControl1
    (duc1Of s.cfg.proto mode)).sentGroup s.cfg.proto.displayUpdateControl2 [duc2Of s.cfg.proto mode]).sent .cmd
    [s.cfg.proto.masterActivation]

section activated
variable (mode : UpdateMode) (s : State)
@[simp] theorem State.activated_cfg : (s.activated mode).cfg = s.cfg := by simp [State.activated]
@[simp] theorem State.activated_program : (s.activated mode).program = s.program := by simp [State.activated]
@[simp] theorem State.activated_opIdx : (s.activated mode).opIdx = s.opIdx := by simp [State.activated]
@[simp] theorem State.activated_surf : (s.activated mode).surf = s.surf := by simp [State.activated]
@[simp] theorem State.activated_stat : (s.activated mode).stat = s.stat := by simp [State.activated]
@[simp] theorem State.activated_fault : (s.activated mode).fault = s.fault := by simp [State.activated]
@[simp] theorem State.activated_result : (s.activated mode).result = s.result := by simp [State.activated]
@[simp] theorem State.activated_results : (s.activated mode).results = s.results := by simp [State.activated]
@[simp] theorem State.activated_tb : (s.activated mode).tb = s.tb := by simp [State.activated]
@[simp] theorem State.activated_micro : (s.activated mode).micro = s.micro := by simp [State.activated]
@[simp] theorem State.activated_backend : (s.activated mode).env.backend = s.env.backend := by simp [State.activated]
@[simp] theorem State.activated_early : (s.activated mode).env.early = s.env.early := by simp [State.activated]
@[simp] theorem State.activated_samples : (s.activated mode).env.samples = s.env.samples := by simp [State.activated]
@[simp] theorem State.activated_rst : (s.activated mode).lines.rst = s.lines.rst := by simp [State.activated]
@[simp] theorem heldInReset_activated : heldInReset (s.activated mode) = heldInReset s := by simp [heldInReset]
end activated

theorem updateHead_reliable {mode : UpdateMode} {s : State} (hr : Reliable s) (hs : SequentialHost s) (hc : 1 ≤ s.cfg.maxChunk) :
    updateHead mode s = .cont ((s.activated mode).setCstate .busy) := by
  have hr' : s.env.backend = .reliable := hr
  have hs' : s.env.early = [] := hs
  simp [updateHead, group_reliable, sendCommand, frame_reliable, Reliable, SequentialHost, hr', hs', hc, Flow.bind_cont, State.activated]

theorem State.activated_trace {s : State} (mode : UpdateMode) (hc : 1 ≤ s.cfg.maxChunk) :
    (s.activated mode).trace = s.trace ++ activateEvents s.cfg mode := by
  simp [State.activated, State.sentGroup_trace, hc, activateEvents, cmdEvents, chunks_singleton]

/-- The delays and the RST pulse of `hardReset` (rule R119), with what they do to the reference controller. -/
def State.pulsed (s : State) : State :=
  let c0 := if s.cfg.attached = .reference ∧ heldInReset s = true then Controller.hardReset s.ctl s.draws else s.ctl
  let n0 := if s.cfg.attached = .reference ∧ heldInReset s = true then s.draws + 1 else s.draws
  { s with
    trace := s.trace ++ resetEvents
    lines := { s.lines with rst := some true }
    ctl := if s.cfg.attached = .reference then Controller.hardReset c0 n0 else s.ctl
    draws := if s.cfg.attached = .reference then n0 + 1 else s.draws }

theorem hardReset_sequential {s : State} (hs : SequentialHost s) : hardReset s = s.pulsed := by
  have hs' : s.env.early = [] := hs
  have e : ∀ (e : Event) (t : State), t.env.early = [] → emit e t = t.record e := fun _ _ h => emit_sequential h
  unfold hardReset delay driveLine lineEffect State.pulsed
  cases ha : s.cfg.attached
  · simp [e, hs', ha, heldInReset, Config.rstActive, State.record, State.setLine, resetEvents, Config.tRstIdle, Config.tRstPulse,
      Config.tRstSettle]
  · by_cases hh : s.lines.rst = some false
    · simp [e, hs', ha, hh, heldInReset, Config.rstActive, State.record, State.setLine, State.setCtl, resetEvents, Config.tRstIdle,
        Config.tRstPulse, Config.tRstSettle]
    · simp [e, hs', ha, hh, heldInReset, Config.rstActive, State.record, State.setLine, State.setCtl, resetEvents, Config.tRstIdle,
        Config.tRstPulse, Config.tRstSettle]

/-- The state after the RAM-read sequence of one plane (rule R175). -/
def State.ramReadDone (p : Plane) (xb yr : Nat) (s : State) : State :=
  (((s.sentGroup s.cfg.proto.readRamOption [readOption s.cfg.proto p]).seeded xb yr).sent .cmd [s.cfg.proto.readRam]).received 2

section ramReadDone
variable (p : Plane) (xb yr : Nat) (s : State)
@[simp] theorem State.ramReadDone_cfg : (s.ramReadDone p xb yr).cfg = s.cfg := by simp [State.ramReadDone]
@[simp] theorem State.ramReadDone_program : (s.ramReadDone p xb yr).program = s.program := by simp [State.ramReadDone]
@[simp] theorem State.ramReadDone_opIdx : (s.ramReadDone p xb yr).opIdx = s.opIdx := by simp [State.ramReadDone]
@[simp] theorem State.ramReadDone_surf : (s.ramReadDone p xb yr).surf = s.surf := by simp [State.ramReadDone]
@[simp] theorem State.ramReadDone_stat : (s.ramReadDone p xb yr).stat = s.stat := by simp [State.ramReadDone]
@[simp] theorem State.ramReadDone_fault : (s.ramReadDone p xb yr).fault = s.fault := by simp [State.ramReadDone]
@[simp] theorem State.ramReadDone_result : (s.ramReadDone p xb yr).result = s.result := by simp [State.ramReadDone]
@[simp] theorem State.ramReadDone_results : (s.ramReadDone p xb yr).results = s.results := by simp [State.ramReadDone]
@[simp] theorem State.ramReadDone_tb : (s.ramReadDone p xb yr).tb = s.tb := by simp [State.ramReadDone]
@[simp] theorem State.ramReadDone_micro : (s.ramReadDone p xb yr).micro = s.micro := by simp [State.ramReadDone]
@[simp] theorem State.ramReadDone_backend : (s.ramReadDone p xb yr).env.backend = s.env.backend := by simp [State.ramReadDone]
@[simp] theorem State.ramReadDone_early : (s.ramReadDone p xb yr).env.early = s.env.early := by simp [State.ramReadDone]
@[simp] theorem State.ramReadDone_samples : (s.ramReadDone p xb yr).env.samples = s.env.samples := by simp [State.ramReadDone]
@[simp] theorem State.ramReadDone_rst : (s.ramReadDone p xb yr).lines.rst = s.lines.rst := by simp [State.ramReadDone]
@[simp] theorem heldInReset_ramReadDone : heldInReset (s.ramReadDone p xb yr) = heldInReset s := by simp [heldInReset]
end ramReadDone

theorem readRam_reliable {p : Plane} {xb yr : Nat} {s : State} (hr : Reliable s) (hs : SequentialHost s) (hc : 1 ≤ s.cfg.maxChunk) :
    readRam p xb yr s = .cont (s.ramReadDone p xb yr) := by
  have hr' : s.env.backend = .reliable := hr
  have hs' : s.env.early = [] := hs
  simp [readRam, group_reliable, seedCounters_reliable, sendCommand, frame_reliable, readFrame_reliable, Reliable, SequentialHost, hr', hs', hc, Flow.bind_cont,
    State.ramReadDone]

@[simp] theorem State.ramReadDone_rx_length (p : Plane) (xb yr : Nat) (s : State) : (s.ramReadDone p xb yr).rx.length = 2 := by
  simp [State.ramReadDone]

theorem State.ramReadDone_trace {s : State} (p : Plane) (xb yr : Nat) (hc : 1 ≤ s.cfg.maxChunk) :
    (s.ramReadDone p xb yr).trace = s.trace ++ readRamEvents s.cfg p xb yr (s.ramReadDone p xb yr).rx := by
  simp [State.ramReadDone, State.received_trace, State.seeded_trace, State.sentGroup_trace, hc, readRamEvents, cmdEvents,
    chunks_singleton]

/-- The state after the one-byte RAM write of one plane (rule R177). -/
def State.ramWriteDone (p : Plane) (xb yr : Nat) (v : Byte) (s : State) : State :=
  ((s.seeded xb yr).sent .cmd [writeCode s.cfg.proto p]).sent .data [v]

section ramWriteDone
variable (p : Plane) (xb yr : Nat) (v : Byte) (s : State)
@[simp] theorem State.ramWriteDone_cfg : (s.ramWriteDone p xb yr v).cfg = s.cfg := by simp [State.ramWriteDone]
@[simp] theorem State.ramWriteDone_program : (s.ramWriteDone p xb yr v).program = s.program := by simp [State.ramWriteDone]
@[simp] theorem State.ramWriteDone_opIdx : (s.ramWriteDone p xb yr v).opIdx = s.opIdx := by simp [State.ramWriteDone]
@[simp] theorem State.ramWriteDone_surf : (s.ramWriteDone p xb yr v).surf = s.surf := by simp [State.ramWriteDone]
@[simp] theorem State.ramWriteDone_stat : (s.ramWriteDone p xb yr v).stat = s.stat := by simp [State.ramWriteDone]
@[simp] theorem State.ramWriteDone_fault : (s.ramWriteDone p xb yr v).fault = s.fault := by simp [State.ramWriteDone]
@[simp] theorem State.ramWriteDone_result : (s.ramWriteDone p xb yr v).result = s.result := by simp [State.ramWriteDone]
@[simp] theorem State.ramWriteDone_results : (s.ramWriteDone p xb yr v).results = s.results := by simp [State.ramWriteDone]
@[simp] theorem State.ramWriteDone_tb : (s.ramWriteDone p xb yr v).tb = s.tb := by simp [State.ramWriteDone]
@[simp] theorem State.ramWriteDone_micro : (s.ramWriteDone p xb yr v).micro = s.micro := by simp [State.ramWriteDone]
@[simp] theorem State.ramWriteDone_backend : (s.ramWriteDone p xb yr v).env.backend = s.env.backend := by simp [State.ramWriteDone]
@[simp] theorem State.ramWriteDone_early : (s.ramWriteDone p xb yr v).env.early = s.env.early := by simp [State.ramWriteDone]
@[simp] theorem State.ramWriteDone_samples : (s.ramWriteDone p xb yr v).env.samples = s.env.samples := by simp [State.ramWriteDone]
@[simp] theorem State.ramWriteDone_rst : (s.ramWriteDone p xb yr v).lines.rst = s.lines.rst := by simp [State.ramWriteDone]
@[simp] theorem heldInReset_ramWriteDone : heldInReset (s.ramWriteDone p xb yr v) = heldInReset s := by simp [heldInReset]
end ramWriteDone

theorem writeRam_reliable {p : Plane} {xb yr : Nat} {v : Byte} {s : State} (hr : Reliable s) (hs : SequentialHost s)
    (hc : 1 ≤ s.cfg.maxChunk) : writeRam p xb yr v s = .cont (s.ramWriteDone p xb yr v) := by
  have hr' : s.env.backend = .reliable := hr
  have hs' : s.env.early = [] := hs
  simp [writeRam, seedCounters_reliable, sendCommand, sendData, frame_reliable, Reliable, SequentialHost, hr', hs', hc, Flow.bind_cont, State.ramWriteDone]

theorem State.ramWriteDone_trace {s : State} (p : Plane) (xb yr : Nat) (v : Byte) (hc : 1 ≤ s.cfg.maxChunk) :
    (s.ramWriteDone p xb yr v).trace = s.trace ++ writeRamEvents s.cfg p xb yr v := by
  simp [State.ramWriteDone, State.seeded_trace, hc, writeRamEvents, cmdEvents, dataEvents, chunks_singleton]

/-- The state after the read-modify-write of one pixel (rule R174). -/
def State.pixelDone (nx ny : Nat) (c : Colour) (s : State) : State :=
  let s1 := s.ramReadDone .bw (byteColumn nx) ny
  let s2 := s1.ramReadDone .red (byteColumn nx) ny
  (s2.ramWriteDone .bw (byteColumn nx) ny (modifyBw s2.cfg (readByte s1) (pixelMask nx) c)).ramWriteDone .red (byteColumn nx) ny
    (modifyRed (readByte s2) (pixelMask nx) c)

theorem modifyPixel_reliable {nx ny : Nat} {c : Colour} {s : State} (hr : Reliable s) (hs : SequentialHost s)
    (hc : 1 ≤ s.cfg.maxChunk) : modifyPixel nx ny c s = .cont (s.pixelDone nx ny c) := by
  have hr' : s.env.backend = .reliable := hr
  have hs' : s.env.early = [] := hs
  simp [modifyPixel, readRam_reliable, writeRam_reliable, Reliable, SequentialHost, hr', hs', hc, Flow.bind_cont, State.pixelDone]

section pixelDone
variable (nx ny : Nat) (c : Colour) (s : State)
@[simp] theorem State.pixelDone_cfg : (s.pixelDone nx ny c).cfg = s.cfg := by simp [State.pixelDone]
@[simp] theorem State.pixelDone_program : (s.pixelDone nx ny c).program = s.program := by simp [State.pixelDone]
@[simp] theorem State.pixelDone_opIdx : (s.pixelDone nx ny c).opIdx = s.opIdx := by simp [State.pixelDone]
@[simp] theorem State.pixelDone_surf : (s.pixelDone nx ny c).surf = s.surf := by simp [State.pixelDone]
@[simp] theorem State.pixelDone_stat : (s.pixelDone nx ny c).stat = s.stat := by simp [State.pixelDone]
@[simp] theorem State.pixelDone_fault : (s.pixelDone nx ny c).fault = s.fault := by simp [State.pixelDone]
@[simp] theorem State.pixelDone_result : (s.pixelDone nx ny c).result = s.result := by simp [State.pixelDone]
@[simp] theorem State.pixelDone_results : (s.pixelDone nx ny c).results = s.results := by simp [State.pixelDone]
@[simp] theorem State.pixelDone_tb : (s.pixelDone nx ny c).tb = s.tb := by simp [State.pixelDone]
@[simp] theorem State.pixelDone_micro : (s.pixelDone nx ny c).micro = s.micro := by simp [State.pixelDone]
@[simp] theorem State.pixelDone_backend : (s.pixelDone nx ny c).env.backend = s.env.backend := by simp [State.pixelDone]
@[simp] theorem State.pixelDone_early : (s.pixelDone nx ny c).env.early = s.env.early := by simp [State.pixelDone]
@[simp] theorem State.pixelDone_samples : (s.pixelDone nx ny c).env.samples = s.env.samples := by simp [State.pixelDone]
@[simp] theorem State.pixelDone_rst : (s.pixelDone nx ny c).lines.rst = s.lines.rst := by simp [State.pixelDone]
end pixelDone

/-- The events of a pixel: two reads, then two writes of the modified bytes (rules R174, R178). -/
theorem State.pixelDone_trace {s : State} (nx ny : Nat) (c : Colour) (hc : 1 ≤ s.cfg.maxChunk) :
    ∃ b r : List Byte, b.length = 2 ∧ r.length = 2 ∧ (s.pixelDone nx ny c).trace = s.trace ++
      readRamEvents s.cfg .bw (byteColumn nx) ny b ++ readRamEvents s.cfg .red (byteColumn nx) ny r ++
      writeRamEvents s.cfg .bw (byteColumn nx) ny (modifyBw s.cfg (b.getD 1 0) (pixelMask nx) c) ++
      writeRamEvents s.cfg .red (byteColumn nx) ny (modifyRed (r.getD 1 0) (pixelMask nx) c) := by
  refine ⟨(s.ramReadDone .bw (byteColumn nx) ny).rx,
    ((s.ramReadDone .bw (byteColumn nx) ny).ramReadDone .red (byteColumn nx) ny).rx, by simp, by simp, ?_⟩
  simp [State.pixelDone, State.ramWriteDone_trace, State.ramReadDone_trace, hc, readByte]

end Sys2Proof.Machine
end

