-- ==== Sys2Proof/Laws/Reference.lean ====
section
/-! SUPPORT. Sys2Proof/Laws/Reference.lean: what a whole group does to a reference controller that listens: the controller after its
command byte and all its data bytes, for each command. -/

namespace Sys2Proof.Machine

/-- The low byte of a 16-bit field first, then the high byte (rule R59). -/
theorem withLow_high (v : Half) (a b : Byte) : withHighByte (withLowByte v a) b = b ++ a := by
  unfold withHighByte withLowByte
  congr 1
  apply BitVec.eq_of_getLsbD_eq
  intro i hi
  rw [BitVec.getLsbD_extractLsb']
  show (decide (i < 8) && BitVec.getLsbD (w := 8 + 8) (v.extractLsb' 8 8 ++ a) (0 + i)) = _
  rw [BitVec.getLsbD_append]
  simp [hi]

/-- The controller takes bus bytes (rules R222, R223, R230), and its last command has all its data (rule R218). -/
structure Controller.Ready (c : Controller) : Prop where
  active : c.mode = .active
  idle : c.busy = false
  done : CommandDone c

/-- The command byte of a listening controller (rule R218). -/
theorem Controller.byteIn_cmd {p : Params} {c : Controller} (hp : p.proto.codes.Nodup) (h : c.Ready) (n : Nat) (cmd : BusCmd) :
    Controller.byteIn p false .cmd n c (p.proto.code cmd) = Controller.start p { c with cmd := some cmd, got := 0 } n cmd := by
  simp [Controller.byteIn, h.active, h.idle, Controller.command, Proto.command_code hp, h.done n]

/-- A data byte of a listening controller (rule R218). -/
theorem Controller.byteIn_data {p : Params} {c : Controller} {cmd : BusCmd} (h1 : c.mode = .active) (h2 : c.busy = false)
    (h3 : c.cmd = some cmd) (n : Nat) (b : Byte) :
    Controller.byteIn p false .data n c b = { Controller.datum p c n cmd c.got b with got := c.got + 1 } := by
  simp [Controller.byteIn, h1, h2, Controller.data, h3]

/-- The bytes of a command and its data (rule R218). -/
theorem Controller.group_eq {p : Params} {c : Controller} (hp : p.proto.codes.Nodup) (h : c.Ready) (n : Nat) (cmd : BusCmd)
    (d : List Byte) : Controller.bytesIn p false .data (n + 1) (Controller.byteIn p false .cmd n c (p.proto.code cmd)) d =
      Controller.bytesIn p false .data (n + 1) (Controller.start p { c with cmd := some cmd, got := 0 } n cmd) d := by
  rw [Controller.byteIn_cmd hp h]

/-- The RAM-write command of a plane (rules R212, R213). -/
def writeCommand : Plane → BusCmd
  | .bw => .writeRamBw
  | .red => .writeRamRed

@[simp] theorem Controller.advance_dem (c : Controller) (n : Nat) : (c.advance n).dem = c.dem := by
  unfold Controller.advance; repeat' split
  all_goals rfl

@[simp] theorem Controller.ramWrite_dem (p : Params) (c : Controller) (n : Nat) (pl : Plane) (b : Byte) :
    (Controller.ramWrite p c n pl b).dem = c.dem := by cases pl <;> simp [Controller.ramWrite]

/-- In entry mode `0x01` the counter advance draws nothing (rule R224). -/
theorem Controller.advance_eq {c : Controller} (h : c.dem = 0x01#8) (n : Nat) : c.advance n =
    if c.xc ≠ c.xe then { c with xc := c.xc + 1 }
    else if c.yc ≠ c.ye then { c with xc := c.xs, yc := c.yc - 1 } else { c with xc := c.xs, yc := c.ys } := by
  unfold Controller.advance; rw [if_pos h]

/-- A RAM write leaves the command being received alone, and draws nothing in entry mode `0x01`. -/
theorem Controller.ramWrite_eq (p : Params) {c : Controller} (h : c.dem = 0x01#8) (n : Nat) (pl : Plane) (b : Byte) (k : Option BusCmd) (g : Nat) :
    Controller.ramWrite p { c with cmd := k, got := g } n pl b = { Controller.ramWrite p c 0 pl b with cmd := k, got := g } := by
  cases pl
  all_goals
    unfold Controller.ramWrite
    simp only
    rw [Controller.advance_eq (by exact h), Controller.advance_eq (by exact h)]
    simp only
    split
    · rfl
    · split <;> rfl

/-- The data bytes of a RAM write (rule R223). -/
theorem Controller.bytesIn_ramData (p : Params) (pl : Plane) (d : List Byte) : ∀ (m g : Nat) {c : Controller}, c.mode = .active → c.busy = false →
    c.dem = 0x01#8 → Controller.bytesIn p false .data m { c with cmd := some (writeCommand pl), got := g } d =
      { d.foldl (fun c b => Controller.ramWrite p c 0 pl b) c with cmd := some (writeCommand pl), got := g + d.length } := by
  induction d with
  | nil => intro m g c _ _ _; rfl
  | cons b d ih =>
    intro m g c h1 h2 h3
    simp only [Controller.bytesIn]
    rw [Controller.byteIn_data (c := { c with cmd := some (writeCommand pl), got := g }) h1 h2 rfl]
    have e : Controller.datum p { c with cmd := some (writeCommand pl), got := g } m (writeCommand pl) g b =
        Controller.ramWrite p { c with cmd := some (writeCommand pl), got := g } m pl b := by cases pl <;> rfl
    simp only [e]
    rw [Controller.ramWrite_eq p h3]
    have := ih (m + 1) (g + 1) (c := Controller.ramWrite p c 0 pl b) (by simp [h1]) (by simp [h2]) (by simp [h3])
    simp only at this ⊢
    rw [this]
    simp [Nat.add_assoc, Nat.add_comm 1]

section settings
variable {p : Params} {c : Controller} (hp : p.proto.codes.Nodup) (h : c.Ready) (n : Nat)
include hp h

theorem Controller.group_driverOutputControl (a b d : Byte) :
    Controller.bytesIn p false .data (n + 1) (Controller.byteIn p false .cmd n c (p.proto.code .driverOutputControl)) [a, b, d] =
      { c with mux := b ++ a, cmd := some .driverOutputControl, got := 3 } := by
  rw [Controller.group_eq hp h]
  simp [Controller.start, Controller.bytesIn, Controller.byteIn, h.active, h.idle, Controller.data, Controller.datum, withLow_high]

theorem Controller.group_dataEntryMode (a : Byte) :
    Controller.bytesIn p false .data (n + 1) (Controller.byteIn p false .cmd n c (p.proto.code .dataEntryMode)) [a] =
      { c with dem := a, cmd := some .dataEntryMode, got := 1 } := by
  rw [Controller.group_eq hp h]
  simp [Controller.start, Controller.bytesIn, Controller.byteIn, h.active, h.idle, Controller.data, Controller.datum]

theorem Controller.group_setRamXWindow (a b : Byte) :
    Controller.bytesIn p false .data (n + 1) (Controller.byteIn p false .cmd n c (p.proto.code .setRamXWindow)) [a, b] =
      { c with xs := a, xe := b, cmd := some .setRamXWindow, got := 2 } := by
  rw [Controller.group_eq hp h]
  simp [Controller.start, Controller.bytesIn, Controller.byteIn, h.active, h.idle, Controller.data, Controller.datum]

theorem Controller.group_setRamYWindow (a b d e : Byte) :
    Controller.bytesIn p false .data (n + 1) (Controller.byteIn p false .cmd n c (p.proto.code .setRamYWindow)) [a, b, d, e] =
      { c with ys := b ++ a, ye := e ++ d, cmd := some .setRamYWindow, got := 4 } := by
  rw [Controller.group_eq hp h]
  simp [Controller.start, Controller.bytesIn, Controller.byteIn, h.active, h.idle, Controller.data, Controller.datum, withLow_high]

theorem Controller.group_borderWaveform (a : Byte) :
    Controller.bytesIn p false .data (n + 1) (Controller.byteIn p false .cmd n c (p.proto.code .borderWaveform)) [a] =
      { c with border := a, cmd := some .borderWaveform, got := 1 } := by
  rw [Controller.group_eq hp h]
  simp [Controller.start, Controller.bytesIn, Controller.byteIn, h.active, h.idle, Controller.data, Controller.datum]

theorem Controller.group_tempSensorSelect (a : Byte) :
    Controller.bytesIn p false .data (n + 1) (Controller.byteIn p false .cmd n c (p.proto.code .tempSensorSelect)) [a] =
      { c with temp := a, cmd := some .tempSensorSelect, got := 1 } := by
  rw [Controller.group_eq hp h]
  simp [Controller.start, Controller.bytesIn, Controller.byteIn, h.active, h.idle, Controller.data, Controller.datum]

theorem Controller.group_displayUpdateControl2 (a : Byte) :
    Controller.bytesIn p false .data (n + 1) (Controller.byteIn p false .cmd n c (p.proto.code .displayUpdateControl2)) [a] =
      { c with duc2 := a, cmd := some .displayUpdateControl2, got := 1 } := by
  rw [Controller.group_eq hp h]
  simp [Controller.start, Controller.bytesIn, Controller.byteIn, h.active, h.idle, Controller.data, Controller.datum]

theorem Controller.group_readRamOption (a : Byte) :
    Controller.bytesIn p false .data (n + 1) (Controller.byteIn p false .cmd n c (p.proto.code .readRamOption)) [a] =
      { c with readSel := Controller.optionPlane p (n + 1) a, cmd := some .readRamOption, got := 1 } := by
  rw [Controller.group_eq hp h]
  simp [Controller.start, Controller.bytesIn, Controller.byteIn, h.active, h.idle, Controller.data, Controller.datum]

theorem Controller.group_setRamXCounter (a : Byte) :
    Controller.bytesIn p false .data (n + 1) (Controller.byteIn p false .cmd n c (p.proto.code .setRamXCounter)) [a] =
      { c with xc := a, cmd := some .setRamXCounter, got := 1 } := by
  rw [Controller.group_eq hp h]
  simp [Controller.start, Controller.bytesIn, Controller.byteIn, h.active, h.idle, Controller.data, Controller.datum]

theorem Controller.group_setRamYCounter (a b : Byte) :
    Controller.bytesIn p false .data (n + 1) (Controller.byteIn p false .cmd n c (p.proto.code .setRamYCounter)) [a, b] =
      { c with yc := b ++ a, cmd := some .setRamYCounter, got := 2 } := by
  rw [Controller.group_eq hp h]
  simp [Controller.start, Controller.bytesIn, Controller.byteIn, h.active, h.idle, Controller.data, Controller.datum, withLow_high]

/-- The control-1 list, byte by byte (rule R207). -/
theorem Controller.group_displayUpdateControl1 (d : List Byte) (hd : d ≠ []) :
    Controller.bytesIn p false .data (n + 1) (Controller.byteIn p false .cmd n c (p.proto.code .displayUpdateControl1)) d =
      { c with duc1 := d, cmd := some .displayUpdateControl1, got := d.length } := by
  rw [Controller.group_eq hp h]
  have hs := h.active
  have hb := h.idle
  have rest : ∀ (e pre : List Byte) (m : Nat), Controller.bytesIn p false .data m
      { c with duc1 := pre, cmd := some .displayUpdateControl1, got := pre.length } e =
      { c with duc1 := pre ++ e, cmd := some .displayUpdateControl1, got := pre.length + e.length } ∨ pre = [] := by
    intro e
    induction e with
    | nil => intro pre m; simp [Controller.bytesIn]
    | cons b e ih =>
      intro pre m
      cases pre with
      | nil => exact .inr rfl
      | cons a pre =>
        left
        have := (ih ((a :: pre) ++ [b]) (m + 1)).resolve_right (by simp)
        simp only [Controller.bytesIn, Controller.byteIn_data (c := { c with duc1 := a :: pre, cmd := some .displayUpdateControl1, got := (a :: pre).length }) hs hb rfl]
        simp only [Controller.datum, List.length_cons, List.length_append, List.length_nil, Nat.zero_add] at this ⊢
        rw [this]
        simp
        omega
  cases d with
  | nil => exact absurd rfl hd
  | cons a d =>
    have := (rest d [a] (n + 1 + 1)).resolve_right (by simp)
    simp only [Controller.start, Controller.bytesIn, Controller.byteIn_data (c := { c with cmd := some .displayUpdateControl1, got := 0 }) hs hb rfl, Controller.datum]
    simp only [List.length_cons, List.length_nil, Nat.zero_add] at this ⊢
    rw [this]
    simp [Nat.add_comm]

/-- A RAM write, byte by byte (rules R212, R213, R223), in entry mode `0x01`. -/
theorem Controller.group_writeRam (pl : Plane) (hdem : c.dem = 0x01#8) (d : List Byte) (m : Nat) :
    Controller.bytesIn p false .data m (Controller.byteIn p false .cmd n c (writeCode p.proto pl)) d =
      { d.foldl (fun c b => Controller.ramWrite p c 0 pl b) c with
        cmd := some (writeCommand pl), got := d.length } := by
  have e : writeCode p.proto pl = p.proto.code (writeCommand pl) := by cases pl <;> rfl
  rw [e, Controller.byteIn_cmd hp h]
  have e2 : Controller.start p { c with cmd := some (writeCommand pl), got := 0 } n (writeCommand pl) =
      { c with cmd := some (writeCommand pl), got := 0 } := by cases pl <;> rfl
  rw [e2, Controller.bytesIn_ramData p pl d m 0 h.active h.idle hdem, Nat.zero_add]

end settings

/-! ## Deep sleep, inbound bytes, and the controllers that ignore the bus -/

/-- The data of `DEEP_SLEEP` (rules R211, R228). -/
theorem Controller.bytesIn_deepSleep (p : Params) : ∀ (d : List Byte) (m : Nat) {c : Controller}, c.mode = .active → c.busy = false →
    c.cmd = some .deepSleep → d ≠ [] → c.got + d.length = p.proto.deepSleepData.length →
    ∃ k, Controller.bytesIn p false .data m c d = { Controller.sleep c k with got := p.proto.deepSleepData.length } := by
  intro d
  induction d with
  | nil => intro m c _ _ _ h; exact absurd rfl h
  | cons b d ih =>
    intro m c h1 h2 h3 _ h5
    simp only [Controller.bytesIn, Controller.byteIn_data h1 h2 h3, List.length_cons] at h5 ⊢
    cases d with
    | nil =>
      have e : c.got + 1 = p.proto.deepSleepData.length := by simpa using h5
      have e' : Controller.datum p c m .deepSleep c.got b = Controller.sleep c m := by
        simp only [Controller.datum]; rw [if_pos e]
      exact ⟨m, by simp only [Controller.bytesIn, e', e]⟩
    | cons b' d =>
      have e' : Controller.datum p c m .deepSleep c.got b = c := by
        simp only [Controller.datum]; rw [if_neg (by simp only [List.length_cons] at h5; omega)]
      rw [e']
      exact ih (m + 1) (c := { c with got := c.got + 1 }) h1 h2 h3 (by simp) (by simp only [List.length_cons] at h5 ⊢; omega)

/-- A whole `DEEP_SLEEP` group (rules R211, R228). -/
theorem Controller.group_deepSleep {p : Params} {c : Controller} (hp : p.proto.codes.Nodup) (h : c.Ready) (n m : Nat) (d : List Byte)
    (hd : d.length = p.proto.deepSleepData.length) :
    ∃ k, Controller.bytesIn p false .data m (Controller.byteIn p false .cmd n c (p.proto.code .deepSleep)) d =
      { Controller.sleep c k with cmd := some .deepSleep, got := d.length } := by
  simp only [Controller.byteIn_cmd hp h, Controller.start]
  by_cases hz : p.proto.deepSleepData.length = 0
  · rw [if_pos hz]
    have : d = [] := List.length_eq_zero_iff.1 (hd.trans hz)
    subst this; exact ⟨n, rfl⟩
  · rw [if_neg hz]
    obtain ⟨k, e⟩ := Controller.bytesIn_deepSleep p d m (c := { c with cmd := some .deepSleep, got := 0 }) h.active h.idle rfl
      (by rintro rfl; exact hz hd.symm) (by simpa using hd)
    exact ⟨k, by rw [e, hd]; rfl⟩

/-- An inbound byte after `READ_RAM` (rule R225). -/
theorem Controller.byteOut_readRam {p : Params} {c : Controller} (h1 : c.mode = .active) (h2 : c.busy = false)
    (h3 : c.cmd = some .readRam) (n : Nat) (a : Byte) : Controller.byteOut p false n c a = Controller.ramByte p n c a := by
  unfold Controller.byteOut; simp [h1, h2, h3]

/-- The two bytes of a read (rule R225): a dummy, then the byte at the counters. -/
theorem Controller.bytesOut_readRam {p : Params} {c : Controller} (h1 : c.mode = .active) (h2 : c.busy = false)
    (h3 : c.cmd = some .readRam) (h4 : c.rdPhase = 0) (h5 : c.dem = 0x01#8) (n : Nat) (a0 a1 : Byte) :
    Controller.bytesOut p false n c [a0, a1] =
      ([a0, (planeRead p (Controller.plane c c.readSel) c.xc c.yc).getD a1], { Controller.advance c 0 with rdPhase := 2 }) := by
  have e1 : Controller.ramByte p n c a0 = (a0, { c with rdPhase := 1 }) := by unfold Controller.ramByte; rw [if_pos h4]
  have e2 : Controller.ramByte p (n + 1) { c with rdPhase := 1 } a1 =
      ((planeRead p (Controller.plane { c with rdPhase := 1 } c.readSel) c.xc c.yc).getD a1,
        { Controller.advance { c with rdPhase := 1 } (n + 1) with rdPhase := 2 }) := by
    unfold Controller.ramByte; rw [if_neg (by simp)]
  have e3 : Controller.plane { c with rdPhase := 1 } c.readSel = Controller.plane c c.readSel := by cases c.readSel <;> rfl
  have e4 : Controller.advance { c with rdPhase := 1 } (n + 1) = { Controller.advance c 0 with rdPhase := 1 } := by
    rw [Controller.advance_eq (by exact h5), Controller.advance_eq h5]
    simp only
    split
    · rfl
    · split <;> rfl
  simp only [Controller.bytesOut]
  rw [Controller.byteOut_readRam h1 h2 h3, e1]
  simp only
  rw [Controller.byteOut_readRam (c := { c with rdPhase := 1 }) h1 h2 h3, e2, e3, e4]

/-- The controller and the bytes of a two-byte read after its command (rule R225). -/
theorem State.received_readRam {s : State} (ha : s.cfg.attached = .reference) (hh : heldInReset s = false) (hm : s.ctl.mode = .active)
    (hb : s.ctl.busy = false) (hc : s.ctl.cmd = some .readRam) (hp : s.ctl.rdPhase = 0) (hd : s.ctl.dem = 0x01#8) :
    (s.received 2).ctl = { Controller.advance s.ctl 0 with rdPhase := 2 } ∧
    ∃ a0 a1, (s.received 2).rx = [a0, (planeRead s.cfg (Controller.plane s.ctl s.ctl.readSel) s.ctl.xc s.ctl.yc).getD a1] := by
  have hl := anyBytes_length 2 s
  obtain ⟨a0, a1, e⟩ : ∃ a0 a1, (anyBytes 2 s).1 = [a0, a1] := by
    match h : (anyBytes 2 s).1, hl with
    | [a0, a1], _ => exact ⟨a0, a1, rfl⟩
  have e2 : (anyBytes 2 s).2.ctl = s.ctl := by rw [anyBytes_eq]
  have key : busIn true 2 s = ((anyBytes 2 s).2.setCtl { Controller.advance s.ctl 0 with rdPhase := 2 } ((anyBytes 2 s).2.draws + 2)).setRx
      [a0, (planeRead s.cfg (Controller.plane s.ctl s.ctl.readSel) s.ctl.xc s.ctl.yc).getD a1] := by
    unfold busIn
    simp only [ha, hh, e, e2]
    rw [Controller.bytesOut_readRam hm hb hc hp hd]
  constructor
  · show (busIn true 2 s).ctl = _
    rw [key]; rfl
  · refine ⟨a0, a1, ?_⟩
    show (busIn true 2 s).rx = _
    rw [key]; rfl

/-- A controller that is asleep or held in reset ignores bus bytes (rules R222, R228). -/
theorem Controller.bytesIn_ignored (p : Params) (held : Bool) (role : Role) (bs : List Byte) : ∀ (n : Nat) {c : Controller},
    c.mode = .asleep ∨ held = true → Controller.bytesIn p held role n c bs = c := by
  induction bs with
  | nil => intro n c _; rfl
  | cons b bs ih =>
    intro n c h
    have e : Controller.byteIn p held role n c b = c := by
      unfold Controller.byteIn
      rcases h with h | h <;> simp [h]
    simp only [Controller.bytesIn, e]
    exact ih (n + 1) h

/-- It answers inbound bytes with any value, and is not changed. -/
theorem Controller.bytesOut_ignored (p : Params) (held : Bool) (as : List Byte) : ∀ (n : Nat) {c : Controller},
    c.mode = .asleep ∨ held = true → (Controller.bytesOut p held n c as).2 = c := by
  induction as with
  | nil => intro n c _; rfl
  | cons a as ih =>
    intro n c h
    have e : (Controller.byteOut p held n c a).2 = c := by
      unfold Controller.byteOut
      rcases h with h | h <;> simp [h]
    simp only [Controller.bytesOut, e]
    exact ih (n + 1) h

/-- A controller never reset stays `Off` (rule R221). -/
theorem Controller.bytesIn_off (p : Params) (held : Bool) (role : Role) (bs : List Byte) : ∀ (n : Nat) {c : Controller},
    c.mode = .off → (Controller.bytesIn p held role n c bs).mode = .off := by
  induction bs with
  | nil => intro n c h; exact h
  | cons b bs ih =>
    intro n c h
    refine ih (n + 1) ?_
    unfold Controller.byteIn
    cases held <;> simp [h, Controller.offTraffic]

theorem Controller.bytesOut_off (p : Params) (held : Bool) (as : List Byte) : ∀ (n : Nat) {c : Controller},
    c.mode = .off → (Controller.bytesOut p held n c as).2.mode = .off := by
  induction as with
  | nil => intro n c h; exact h
  | cons a as ih =>
    intro n c h
    refine ih (n + 1) ?_
    unfold Controller.byteOut
    cases held <;> simp [h, Controller.offTraffic]

/-! ## The sequences of the block on a listening controller -/

/-- The reference controller is attached, released from reset, and ready for a command. -/
structure Attends (s : State) : Prop where
  attached : s.cfg.attached = .reference
  codes : s.cfg.proto.codes.Nodup
  released : heldInReset s = false
  ready : s.ctl.Ready

/-- A command whose data have all come is cut short by nothing (rule R218). -/
theorem commandDone_of {c : Controller} {cmd : BusCmd} (h1 : c.cmd = some cmd)
    (h2 : (cmd = .driverOutputControl → 2 ≤ c.got) ∧ (cmd = .setRamXWindow → 2 ≤ c.got) ∧ (cmd = .setRamYWindow → 4 ≤ c.got) ∧
      (cmd = .setRamYCounter → 2 ≤ c.got) ∧ (cmd = .dataEntryMode ∨ cmd = .borderWaveform ∨ cmd = .displayUpdateControl1 ∨
        cmd = .tempSensorSelect ∨ cmd = .displayUpdateControl2 ∨ cmd = .readRamOption ∨ cmd = .setRamXCounter → 1 ≤ c.got)) :
    CommandDone c := by
  intro n
  unfold Controller.cutShort
  split <;> simp_all

theorem Attends.group_ctl {s : State} (h : Attends s) (cmd : BusCmd) (d : List Byte) :
    (s.sentGroup (s.cfg.proto.code cmd) d).ctl =
      Controller.bytesIn s.cfg false .data (s.draws + 1) (Controller.byteIn s.cfg false .cmd s.draws s.ctl (s.cfg.proto.code cmd)) d := by
  rw [State.sentGroup_ctl, h.attached, h.released]

/-- After a group the controller attends again, if the command has all its data. -/
theorem Attends.after {s t : State} {c : Controller} (h : Attends s) (hcfg : t.cfg = s.cfg) (hrst : t.lines.rst = s.lines.rst)
    (e : t.ctl = c) (h1 : c.mode = .active) (h2 : c.busy = false) (h3 : CommandDone c) : Attends t where
  attached := by rw [hcfg]; exact h.attached
  codes := by rw [hcfg]; exact h.codes
  released := by unfold heldInReset; rw [hrst]; exact h.released
  ready := by rw [e]; exact ⟨h1, h2, h3⟩

/-- What the init sequence leaves in the controller (rules R130, R202 to R207). -/
theorem State.initialised_ctl {s : State} (h : Attends s) (hd : s.cfg.proto.duc1Init ≠ []) : s.initialised.ctl =
    { s.ctl with
      mux := hi (s.cfg.height - s.cfg.proto.muxBias) ++ lo (s.cfg.height - s.cfg.proto.muxBias)
      dem := s.cfg.proto.dem, xs := 0, xe := lo (stride s.cfg - 1), ys := hi (s.cfg.height - 1) ++ lo (s.cfg.height - 1)
      ye := 0#8 ++ 0#8, border := borderByte s.cfg.proto s.surf.border, duc1 := s.cfg.proto.duc1Init
      cmd := some .displayUpdateControl1, got := s.cfg.proto.duc1Init.length } := by
  have e1 := (h.group_ctl .driverOutputControl (docData s.cfg)).trans (Controller.group_driverOutputControl h.codes h.ready _ _ _ _)
  have h1 : Attends (s.sentGroup (s.cfg.proto.code .driverOutputControl) (docData s.cfg)) :=
    h.after (by simp) (by simp) e1 h.ready.active h.ready.idle (commandDone_of rfl (by simp))
  have e2 := (h1.group_ctl .dataEntryMode [s.cfg.proto.dem]).trans (Controller.group_dataEntryMode h1.codes h1.ready _ _)
  rw [e1] at e2
  have h2 := h1.after (by simp) (by simp) e2 h.ready.active h.ready.idle (commandDone_of rfl (by simp))
  have e3 := (h2.group_ctl .setRamXWindow (xWindowData s.cfg)).trans (Controller.group_setRamXWindow h2.codes h2.ready _ _ _)
  rw [e2] at e3
  have h3 := h2.after (by simp) (by simp) e3 h.ready.active h.ready.idle (commandDone_of rfl (by simp))
  have e4 := (h3.group_ctl .setRamYWindow (yWindowData s.cfg)).trans (Controller.group_setRamYWindow h3.codes h3.ready _ _ _ _ _)
  rw [e3] at e4
  have h4 := h3.after (by simp) (by simp) e4 h.ready.active h.ready.idle (commandDone_of rfl (by simp))
  have e5 := (h4.group_ctl .borderWaveform [borderByte s.cfg.proto s.surf.border]).trans (Controller.group_borderWaveform h4.codes h4.ready _ _)
  rw [e4] at e5
  have h5 := h4.after (by simp) (by simp) e5 h.ready.active h.ready.idle (commandDone_of rfl (by simp))
  have e6 := (h5.group_ctl .displayUpdateControl1 s.cfg.proto.duc1Init).trans (Controller.group_displayUpdateControl1 h5.codes h5.ready _ _ hd)
  rw [e5] at e6
  simp only [State.sentGroup_cfg, Proto.code] at e6
  exact e6

/-- The counters after a reseed (rules R144, R216, R217). -/
theorem State.seeded_ctl {s : State} (h : Attends s) (xb yr : Nat) :
    (s.seeded xb yr).ctl = { s.ctl with xc := lo xb, yc := hi yr ++ lo yr, cmd := some .setRamYCounter, got := 2 } ∧ Attends (s.seeded xb yr) := by
  have e1 := (h.group_ctl .setRamXCounter [lo xb]).trans (Controller.group_setRamXCounter h.codes h.ready _ _)
  have h1 : Attends (s.sentGroup (s.cfg.proto.code .setRamXCounter) [lo xb]) :=
    h.after (by simp) (by simp) e1 h.ready.active h.ready.idle (commandDone_of rfl (by simp))
  have e2 := (h1.group_ctl .setRamYCounter [lo yr, hi yr]).trans (Controller.group_setRamYCounter h1.codes h1.ready _ _ _)
  rw [e1] at e2
  have h2 := h1.after (by simp) (by simp) e2 h.ready.active h.ready.idle (commandDone_of rfl (by simp))
  simp only [State.sentGroup_cfg, Proto.code] at e2 h2
  exact ⟨e2, h2⟩

/-- A RAM-write command and its data (rules R212, R213, R223), in entry mode `0x01`. -/
theorem Attends.ramWritten {s : State} (h : Attends s) (hdem : s.ctl.dem = 0x01#8) (pl : Plane) (d : List Byte) {t : State}
    (hcfg : t.cfg = s.cfg) (hrst : t.lines.rst = s.lines.rst) (hctl : t.ctl = (s.sent .cmd [writeCode s.cfg.proto pl]).ctl) :
    (t.sent .data d).ctl = { d.foldl (fun c b => Controller.ramWrite s.cfg c 0 pl b) s.ctl with cmd := some (writeCommand pl), got := d.length } ∧
    Attends (t.sent .data d) := by
  have hh : heldInReset t = false := by unfold heldInReset; rw [hrst]; exact h.released
  have e : (t.sent .data d).ctl = { d.foldl (fun c b => Controller.ramWrite s.cfg c 0 pl b) s.ctl with cmd := some (writeCommand pl), got := d.length } := by
    simp only [State.sent_ctl, ctlAfter, hcfg, h.attached, hh, hctl, h.released]
    exact Controller.group_writeRam h.codes h.ready _ pl hdem d _
  have keep : ∀ (d : List Byte) (c : Controller), (d.foldl (fun c b => Controller.ramWrite s.cfg c 0 pl b) c).mode = c.mode ∧
      (d.foldl (fun c b => Controller.ramWrite s.cfg c 0 pl b) c).busy = c.busy := by
    intro d
    induction d with
    | nil => intro c; exact ⟨rfl, rfl⟩
    | cons b d ih => intro c; have := ih (Controller.ramWrite s.cfg c 0 pl b); simpa using this
  refine ⟨e, h.after hcfg hrst e ((keep d s.ctl).1.trans h.ready.active) ((keep d s.ctl).2.trans h.ready.idle) (commandDone_of rfl ?_)⟩
  cases pl <;> simp [writeCommand]

/-- A plane write in entry mode `0x01` (rules R145, R146): the seed, then the plane byte by byte. -/
theorem State.planeSent_ctl {s : State} (h : Attends s) (hdem : s.ctl.dem = 0x01#8) (pl : Plane) (buf : List Byte) :
    (s.planeSent pl buf).ctl = { (flip s.cfg buf).foldl (fun c b => Controller.ramWrite s.cfg c 0 pl b)
        { s.ctl with xc := lo 0, yc := hi (s.cfg.height - 1) ++ lo (s.cfg.height - 1), cmd := some .setRamYCounter, got := 2 } with
      cmd := some (writeCommand pl), got := (flip s.cfg buf).length } ∧ Attends (s.planeSent pl buf) := by
  obtain ⟨e, h1⟩ := State.seeded_ctl h 0 (s.cfg.height - 1)
  have h2 : Attends ((s.seeded 0 (s.cfg.height - 1)).setTb (flip s.cfg buf)) := ⟨h1.attached, h1.codes, h1.released, h1.ready⟩
  have k := h2.ramWritten (by rw [State.setTb_ctl, e]; exact hdem) pl (flip s.cfg buf)
    (t := ((s.seeded 0 (s.cfg.height - 1)).setTb (flip s.cfg buf)).sent .cmd [writeCode s.cfg.proto pl]) (by simp) (by simp) (by simp)
  rw [State.setTb_ctl, e] at k
  simp only [State.setTb_cfg, State.seeded_cfg] at k
  exact k

/-- The RAM-read sequence of one plane in entry mode `0x01` (rules R175, R225). -/
theorem State.ramReadDone_ctl {s : State} (h : Attends s) (hrro : s.cfg.proto.rroBw ≠ s.cfg.proto.rroRed) (hdem : s.ctl.dem = 0x01#8)
    (pl : Plane) (xb yr : Nat) :
    (s.ramReadDone pl xb yr).ctl = { Controller.advance { s.ctl with readSel := pl, xc := lo xb, yc := hi yr ++ lo yr } 0 with
        rdPhase := 2, cmd := some .readRam, got := 0 } ∧
    (∃ a0 a1, (s.ramReadDone pl xb yr).rx = [a0, (planeRead s.cfg (Controller.plane s.ctl pl) (lo xb) (hi yr ++ lo yr)).getD a1]) ∧
    Attends (s.ramReadDone pl xb yr) := by
  have hopt : ∀ n, Controller.optionPlane s.cfg n (readOption s.cfg.proto pl) = pl := by
    intro n; unfold Controller.optionPlane readOption
    cases pl
    · simp
    · simp [Ne.symm hrro]
  have e1 := (h.group_ctl .readRamOption [readOption s.cfg.proto pl]).trans (Controller.group_readRamOption h.codes h.ready _ _)
  rw [hopt] at e1
  have h1 : Attends (s.sentGroup (s.cfg.proto.code .readRamOption) [readOption s.cfg.proto pl]) :=
    h.after (by simp) (by simp) e1 h.ready.active h.ready.idle (commandDone_of rfl (by simp))
  obtain ⟨e2, h2⟩ := State.seeded_ctl h1 xb yr
  rw [e1] at e2
  generalize ht : (s.sentGroup (s.cfg.proto.code .readRamOption) [readOption s.cfg.proto pl]).seeded xb yr = t at e2 h2
  have hcfg : t.cfg = s.cfg := by rw [← ht]; simp
  have hrst : t.lines.rst = s.lines.rst := by rw [← ht]; simp
  have e3 : (t.sent .cmd [s.cfg.proto.code .readRam]).ctl = { t.ctl with cmd := some .readRam, got := 0, rdPhase := 0 } := by
    have := Controller.byteIn_cmd h2.codes h2.ready t.draws .readRam
    simp only [State.sent_ctl, ctlAfter, h2.attached, h2.released, Controller.bytesIn]
    rw [hcfg] at this ⊢
    rw [this]; rfl
  have er : s.ramReadDone pl xb yr = (t.sent .cmd [s.cfg.proto.code .readRam]).received 2 := by rw [← ht]; rfl
  rw [e2] at e3
  have hd3 : (t.sent .cmd [s.cfg.proto.code .readRam]).ctl.dem = 0x01#8 := by rw [e3]; exact hdem
  obtain ⟨k1, a0, a1, k2⟩ := State.received_readRam (s := t.sent .cmd [s.cfg.proto.code .readRam]) h2.attached (by simpa using h2.released)
    (by rw [e3]; exact h.ready.active) (by rw [e3]; exact h.ready.idle) (by rw [e3]) (by rw [e3]) hd3
  have k3 : (s.ramReadDone pl xb yr).ctl = { Controller.advance { s.ctl with readSel := pl, xc := lo xb, yc := hi yr ++ lo yr } 0 with
        rdPhase := 2, cmd := some .readRam, got := 0 } := by
    rw [er, k1, e3, Controller.advance_eq (by exact hdem), Controller.advance_eq (by exact hdem)]
    simp only
    split
    · rfl
    · split <;> rfl
  refine ⟨k3, ⟨a0, a1, ?_⟩, ?_⟩
  · rw [er, k2, e3]
    simp only [State.sent_cfg, hcfg]
    cases pl <;> rfl
  · refine h.after (by simp) (by simp) k3 ?_ ?_ (commandDone_of rfl (by simp))
    · simp only [Controller.advance_mode]; exact h.ready.active
    · simp only [Controller.advance_busy]; exact h.ready.idle

/-- The one-byte RAM write of one plane in entry mode `0x01` (rules R177, R223). -/
theorem State.ramWriteDone_ctl {s : State} (h : Attends s) (hdem : s.ctl.dem = 0x01#8) (pl : Plane) (xb yr : Nat) (v : Byte) :
    (s.ramWriteDone pl xb yr v).ctl = { Controller.ramWrite s.cfg { s.ctl with xc := lo xb, yc := hi yr ++ lo yr } 0 pl v with
      cmd := some (writeCommand pl), got := 1 } ∧ Attends (s.ramWriteDone pl xb yr v) := by
  obtain ⟨e, h1⟩ := State.seeded_ctl h xb yr
  have k := h1.ramWritten (by rw [e]; exact hdem) pl [v] (t := (s.seeded xb yr).sent .cmd [writeCode s.cfg.proto pl]) (by simp) (by simp) (by simp)
  rw [e] at k
  simp only [State.seeded_cfg, List.foldl_cons, List.foldl_nil, List.length_cons, List.length_nil, Nat.zero_add] at k
  refine ⟨k.1.trans ?_, k.2⟩
  have := Controller.ramWrite_eq s.cfg (c := { s.ctl with xc := lo xb, yc := hi yr ++ lo yr }) hdem 0 pl v (some .setRamYCounter) 2
  simp only at this
  rw [this]

end Sys2Proof.Machine
end

