-- ==== Sys2Proof/Laws/Waits.lean ====
section
/-! SUPPORT. Sys2Proof/Laws/Waits.lean: one turn of a busy wait with the sequential host, and what the next sample reads on the
reference controller. -/

namespace Sys2Proof.Machine

section sampleNext
variable (s : State)
@[simp] theorem sampleNext_cfg : (sampleNext s).cfg = s.cfg := by
  unfold sampleNext
  repeat' split
  all_goals rfl
@[simp] theorem sampleNext_program : (sampleNext s).program = s.program := by
  unfold sampleNext
  repeat' split
  all_goals rfl
@[simp] theorem sampleNext_opIdx : (sampleNext s).opIdx = s.opIdx := by
  unfold sampleNext
  repeat' split
  all_goals rfl
@[simp] theorem sampleNext_surf : (sampleNext s).surf = s.surf := by
  unfold sampleNext
  repeat' split
  all_goals rfl
@[simp] theorem sampleNext_stat : (sampleNext s).stat = s.stat := by
  unfold sampleNext
  repeat' split
  all_goals rfl
@[simp] theorem sampleNext_fault : (sampleNext s).fault = s.fault := by
  unfold sampleNext
  repeat' split
  all_goals rfl
@[simp] theorem sampleNext_result : (sampleNext s).result = s.result := by
  unfold sampleNext
  repeat' split
  all_goals rfl
@[simp] theorem sampleNext_results : (sampleNext s).results = s.results := by
  unfold sampleNext
  repeat' split
  all_goals rfl
@[simp] theorem sampleNext_lines : (sampleNext s).lines = s.lines := by
  unfold sampleNext
  repeat' split
  all_goals rfl
@[simp] theorem sampleNext_tb : (sampleNext s).tb = s.tb := by
  unfold sampleNext
  repeat' split
  all_goals rfl
@[simp] theorem sampleNext_rx : (sampleNext s).rx = s.rx := by
  unfold sampleNext
  repeat' split
  all_goals rfl
@[simp] theorem sampleNext_micro : (sampleNext s).micro = s.micro := by
  unfold sampleNext
  repeat' split
  all_goals rfl
@[simp] theorem sampleNext_trace : (sampleNext s).trace = s.trace := by
  unfold sampleNext
  repeat' split
  all_goals rfl
@[simp] theorem sampleNext_env_backend : (sampleNext s).env.backend = s.env.backend := by
  unfold sampleNext
  repeat' split
  all_goals rfl
@[simp] theorem sampleNext_env_early : (sampleNext s).env.early = s.env.early := by
  unfold sampleNext
  repeat' split
  all_goals rfl
@[simp] theorem sampleNext_env_bytes : (sampleNext s).env.bytes = s.env.bytes := by
  unfold sampleNext
  repeat' split
  all_goals rfl
@[simp] theorem sampleNext_ctl_mode : (sampleNext s).ctl.mode = s.ctl.mode := by
  unfold sampleNext Controller.afterSample
  repeat' split
  all_goals rfl
@[simp] theorem sampleNext_ctl_shown : (sampleNext s).ctl.shown = s.ctl.shown := by
  unfold sampleNext Controller.afterSample
  repeat' split
  all_goals rfl
@[simp] theorem heldInReset_sampleNext : heldInReset (sampleNext s) = heldInReset s := by simp [heldInReset]
end sampleNext

/-- `Sample()` with the sequential host. -/
theorem sample_sequential {s : State} (hs : SequentialHost s) : sample s = (sampleNext s).record (.sample (sampleLevel s)) :=
  emit_sequential (by simpa [SequentialHost] using hs)

/-- `Delay(t)` with the sequential host. -/
theorem delay_sequential {s : State} (t : Nat) (hs : SequentialHost s) : delay t s = s.record (.delay t) := emit_sequential hs

/-- `Log(k)` with the sequential host. -/
theorem logRecord_sequential {s : State} (k : LogKind) (hs : SequentialHost s) : logRecord k s = s.record (.log k) := emit_sequential hs

/-- A level that reads deasserted is the other level (rule R124). -/
theorem level_of_clear {c : Params} {v : Level} (h : busyAsserted c v = false) : v = !c.busyActive := by
  unfold busyAsserted at h; cases v <;> cases hb : c.busyActive <;> simp_all

theorem level_of_asserted {c : Params} {v : Level} (h : busyAsserted c v = true) : v = c.busyActive := by
  unfold busyAsserted at h; simpa using h

/-- A deasserted sample ends the wait (rule R125). -/
theorem poll_clear {p : WaitPoint} {n : Nat} {rest : State → Flow} {s : State} (hs : SequentialHost s)
    (h : busyAsserted s.cfg (sampleLevel s) = false) :
    poll p n rest s = rest ((sampleNext s).record (.sample (!s.cfg.busyActive))) := by
  unfold poll
  rw [h, sample_sequential hs, level_of_clear h]
  simp

/-- An asserted sample, with delays left, delays and goes on waiting (rule R127). -/
theorem poll_waits {p : WaitPoint} {n : Nat} {rest : State → Flow} {s : State} (hs : SequentialHost s)
    (h : busyAsserted s.cfg (sampleLevel s) = true) (hn : s.cfg.busyTimeoutMs = 0 ∨ n < s.cfg.busyTimeoutMs) :
    poll p n rest s = .stop ((((sampleNext s).record (.sample s.cfg.busyActive)).record (.delay 1)).setMicro (.waiting p (n + 1))) := by
  have hp : pollStalls s.cfg n = false := by unfold pollStalls; simp; omega
  unfold poll
  rw [h, hp, sample_sequential hs, level_of_asserted h, delay_sequential _ (by simpa [SequentialHost] using hs)]
  simp [Config.tPoll]

/-- An asserted sample at the timeout stalls (rules R127, R248). -/
theorem poll_stalls {p : WaitPoint} {n : Nat} {rest : State → Flow} {s : State} (hs : SequentialHost s)
    (h : busyAsserted s.cfg (sampleLevel s) = true) (h0 : s.cfg.busyTimeoutMs ≠ 0) (hn : s.cfg.busyTimeoutMs ≤ n) :
    poll p n rest s = .stop (abort .stall (controllerLost (((((sampleNext s).record (.sample s.cfg.busyActive)).raise .stall)).record (.log .stall)))) := by
  have hp : pollStalls s.cfg n = true := by unfold pollStalls; simp [h0, hn]
  unfold poll
  rw [h, hp, sample_sequential hs, level_of_asserted h]
  simp only [if_true, stallAbort]
  rw [logRecord_sequential _ (by simpa [SequentialHost] using hs)]

/-- A run goes on with the next state. -/
theorem run_next {M : Host.Core} {k : Nat} {s t : M.State} (h : M.step s = .next t) : M.run (k + 1) s = M.run k t := by
  simp only [Host.Core.run, h]

/-! ## The level the next sample reads -/

theorem sampleLevel_oracle {s : State} {v : Level} (ha : s.cfg.attached = .oracle) (h : s.env.samples.head? = some v) :
    sampleLevel s = v := by
  unfold sampleLevel
  rw [if_neg (by simp [ha])]
  cases hs : s.env.samples with
  | nil => simp [hs] at h
  | cons a l => simpa [hs] using h

theorem sampleLevel_reference {s : State} (ha : s.cfg.attached = .reference) (hh : heldInReset s = false) (hm : s.ctl.mode = .active) :
    sampleLevel s = if Controller.busyNow s.ctl then s.cfg.busyActive else !s.cfg.busyActive := by
  unfold sampleLevel
  rw [if_pos ⟨ha, by simp [Controller.answersBusy, hh, hm]⟩]

/-- A busy period that the environment's plan begins (rule R226). -/
theorem Controller.startBusy_plan {c : Controller} {k : Nat} (h : c.busyPlan.head? = some k) (n : Nat) :
    c.startBusy n = { c with busy := true, busyLeft := k, busyPlan := c.busyPlan.tail } := by
  unfold Controller.startBusy
  cases hp : c.busyPlan with
  | nil => simp [hp] at h
  | cons a l => simp [hp] at h; subst h; rfl

/-! ## What a group that is no power command keeps -/

/-- The commands that change neither the power state nor what is shown (rules R202 to R209, R212 to R217). -/
def isQuiet : BusCmd → Bool
  | .swReset => false
  | .masterActivation => false
  | .deepSleep => false
  | _ => true

/-- The power state, the busy plan and the image are as before. -/
structure Controller.Keeps (c d : Controller) : Prop where
  mode : d.mode = c.mode
  busy : d.busy = c.busy
  plan : d.busyPlan = c.busyPlan
  shown : d.shown = c.shown

theorem Controller.Keeps.refl (c : Controller) : Controller.Keeps c c := ⟨rfl, rfl, rfl, rfl⟩
theorem Controller.Keeps.trans {c d e : Controller} (h1 : Controller.Keeps c d) (h2 : Controller.Keeps d e) : Controller.Keeps c e :=
  ⟨h2.mode.trans h1.mode, h2.busy.trans h1.busy, h2.plan.trans h1.plan, h2.shown.trans h1.shown⟩

theorem Controller.advance_keeps (c : Controller) (n : Nat) : Controller.Keeps c (c.advance n) := by
  unfold Controller.advance; repeat' split
  all_goals exact ⟨rfl, rfl, rfl, rfl⟩

theorem Controller.ramWrite_keeps (p : Params) (c : Controller) (n : Nat) (pl : Plane) (b : Byte) :
    Controller.Keeps c (Controller.ramWrite p c n pl b) := by
  cases pl
  · exact Controller.Keeps.trans (d := { c with ramBw := planeWrite p c.ramBw c.xc c.yc b }) ⟨rfl, rfl, rfl, rfl⟩ (Controller.advance_keeps _ _)
  · exact Controller.Keeps.trans (d := { c with ramRed := planeWrite p c.ramRed c.xc c.yc b }) ⟨rfl, rfl, rfl, rfl⟩ (Controller.advance_keeps _ _)

theorem Controller.cutShort_keeps (c : Controller) (n : Nat) : Controller.Keeps c (c.cutShort n) := by
  unfold Controller.cutShort; split <;> exact ⟨rfl, rfl, rfl, rfl⟩

theorem Controller.datum_keeps (p : Params) (c : Controller) (n : Nat) (cmd : BusCmd) (got : Nat) (b : Byte) (hq : isQuiet cmd = true) :
    Controller.Keeps c (Controller.datum p c n cmd got b) := by
  unfold Controller.datum
  split
  case h_15 => simp [isQuiet] at hq
  case h_16 => exact Controller.ramWrite_keeps _ _ _ _ _
  case h_17 => exact Controller.ramWrite_keeps _ _ _ _ _
  all_goals exact ⟨rfl, rfl, rfl, rfl⟩

theorem Controller.start_keeps (p : Params) (c : Controller) (n : Nat) (cmd : BusCmd) (hq : isQuiet cmd = true) :
    Controller.Keeps c (Controller.start p c n cmd) ∧ (Controller.start p c n cmd).cmd = c.cmd := by
  cases cmd <;> first | (simp [isQuiet] at hq; done) | exact ⟨⟨rfl, rfl, rfl, rfl⟩, rfl⟩

theorem Controller.datum_cmd (p : Params) (c : Controller) (n : Nat) (cmd : BusCmd) (got : Nat) (b : Byte) :
    (Controller.datum p c n cmd got b).cmd = c.cmd := by
  unfold Controller.datum
  split
  case h_15 => split <;> rfl
  case h_16 => simp [Controller.ramWrite]
  case h_17 => simp [Controller.ramWrite]
  all_goals rfl

/-- A quiet group on an active controller that is not busy. -/
theorem Controller.group_keeps {p : Params} {c : Controller} (hp : p.proto.codes.Nodup) (h1 : c.mode = .active) (h2 : c.busy = false)
    (n m : Nat) (cmd : BusCmd) (hq : isQuiet cmd = true) (d : List Byte) :
    Controller.Keeps c (Controller.bytesIn p false .data m (Controller.byteIn p false .cmd n c (p.proto.code cmd)) d) := by
  have key : ∀ (d : List Byte) (m : Nat) (e : Controller), e.mode = .active → e.busy = false → e.cmd = some cmd →
      Controller.Keeps e (Controller.bytesIn p false .data m e d) := by
    intro d
    induction d with
    | nil => intro m e _ _ _; exact Controller.Keeps.refl e
    | cons b d ih =>
      intro m e h1 h2 h3
      simp only [Controller.bytesIn, Controller.byteIn_data h1 h2 h3]
      have k : Controller.Keeps e { Controller.datum p e m cmd e.got b with got := e.got + 1 } :=
        (Controller.datum_keeps p e m cmd e.got b hq).trans ⟨rfl, rfl, rfl, rfl⟩
      exact k.trans (ih _ _ (k.mode.trans h1) (k.busy.trans h2) ((Controller.datum_cmd _ _ _ _ _ _).trans h3))
  have e : Controller.byteIn p false .cmd n c (p.proto.code cmd) =
      Controller.start p { Controller.cutShort c n with cmd := some cmd, got := 0 } n cmd := by
    simp [Controller.byteIn, h1, h2, Controller.command, Proto.command_code hp]
  have k0 : Controller.Keeps c { Controller.cutShort c n with cmd := some cmd, got := 0 } :=
    (Controller.cutShort_keeps c n).trans ⟨rfl, rfl, rfl, rfl⟩
  have k1 := Controller.start_keeps p { Controller.cutShort c n with cmd := some cmd, got := 0 } n cmd hq
  rw [e]
  have k2 := k0.trans k1.1
  exact k2.trans (key d m _ (k2.mode.trans h1) (k2.busy.trans h2) k1.2)

end Sys2Proof.Machine
end

