-- ==== Sys2Proof/Laws/Strict.lean ====
section
/-! SUPPORT. Sys2Proof/Laws/Strict.lean: in `Strict` mode, on the sequential host, code of an operation has no failed transfer, or ends at
its first one. -/

namespace Sys2Proof.Machine

/-- `Strict` mode on the sequential host. -/
structure StrictSeq (s : State) : Prop where
  seq : SequentialHost s
  strict : s.cfg.errorMode = .strict

/-- Events among which no transfer failed. -/
abbrev NoFailure (ev : List Event) : Prop := ∀ e ∈ ev, failedTransfer e = false

theorem noFailure_nil : NoFailure [] := by intro e he; cases he

/-- Code with no failed transfer. -/
structure Clean (s t : State) : Prop where
  cfg : t.cfg = s.cfg
  surf : t.surf = s.surf
  begun : t.stat.begun = s.stat.begun
  results : t.results = s.results
  opIdx : t.opIdx = s.opIdx
  busFail : t.fault.busFail = s.fault.busFail
  early : t.env.early = s.env.early
  events : ∃ ev, t.trace = s.trace ++ ev ∧ NoFailure ev

/-- An operation that ended at its first failed transfer (the second case of `StrictEnd`). -/
def Snapped (s u : State) : Prop :=
  ∃ pre x, u.trace = s.trace ++ (pre ++ [x] ++ busFailLog s ++ csRelease s.cfg) ∧ NoFailure pre ∧ failedTransfer x = true ∧
    u.stat.cstate = .uninitialized ∧ u.stat.begun = s.stat.begun ∧ u.stat.inop = false ∧ u.fault.busFail = true ∧
    u.result = 0x80000002#32 ∧ u.results = s.results ++ [0x80000002#32] ∧ u.opIdx = s.opIdx + 1 ∧ u.surf = s.surf ∧ u.micro = .idle

theorem Clean.refl (s : State) : Clean s s := ⟨rfl, rfl, rfl, rfl, rfl, rfl, rfl, [], by simp, noFailure_nil⟩

theorem Clean.trans {s t u : State} (h1 : Clean s t) (h2 : Clean t u) : Clean s u := by
  obtain ⟨e1, a1, b1⟩ := h1.events
  obtain ⟨e2, a2, b2⟩ := h2.events
  refine ⟨h2.cfg.trans h1.cfg, h2.surf.trans h1.surf, h2.begun.trans h1.begun, h2.results.trans h1.results, h2.opIdx.trans h1.opIdx,
    h2.busFail.trans h1.busFail, h2.early.trans h1.early, e1 ++ e2, by rw [a2, a1, List.append_assoc], ?_⟩
  intro e he
  rcases List.mem_append.mp he with h | h
  · exact b1 e h
  · exact b2 e h

theorem Clean.strictSeq {s t : State} (h : Clean s t) (hs : StrictSeq s) : StrictSeq t :=
  ⟨by show t.env.early = []; rw [h.early]; exact hs.seq, by rw [h.cfg]; exact hs.strict⟩

theorem Clean.snapped {s t u : State} (h1 : Clean s t) (h2 : Snapped t u) : Snapped s u := by
  obtain ⟨ev, a, b⟩ := h1.events
  obtain ⟨pre, x, c1, c2, c3, c4, c5, c6, c7, c8, c9, c10, c11, c12⟩ := h2
  refine ⟨ev ++ pre, x, ?_, ?_, c3, c4, c5.trans h1.begun, c6, c7, c8, c9.trans (by rw [h1.results]), c10.trans (by rw [h1.opIdx]),
    c11.trans h1.surf, c12⟩
  · rw [c1, a]; unfold busFailLog; rw [h1.busFail, h1.cfg]; simp
  · intro e he
    rcases List.mem_append.mp he with h | h
    · exact b e h
    · exact c2 e h

/-- Code that goes on with no failed transfer, or ends at its first one. -/
abbrev Strictly (s : State) (f : Flow) : Prop := f.Ends (Clean s) (Snapped s)

theorem Strictly.bind {s : State} {f : Flow} {k : State → Flow} (h : Strictly s f) (hk : ∀ t, Clean s t → Strictly t (k t)) :
    Strictly s (f.bind k) :=
  Flow.Ends.bind h fun t ht => (hk t ht).mono (fun _ a => ht.trans a) (fun _ a => ht.snapped a)

theorem Clean.strictly {s t : State} {f : Flow} (h1 : Clean s t) (h2 : Strictly t f) : Strictly s f :=
  Flow.Ends.mono h2 (fun _ a => h1.trans a) (fun _ a => h1.snapped a)

/-! ## Single changes and events -/

theorem clean_of_adds {P : List Event → Prop} {s t : State} (hs : SequentialHost s) (h : Adds P s t)
    (hb : t.fault.busFail = s.fault.busFail) (hP : ∀ ev, P ev → NoFailure ev) : Clean s t := by
  obtain ⟨k, a, b, _, c⟩ := h.words
  obtain rfl := c (.inr hs)
  obtain ⟨ev, d, e⟩ := h.events
  exact ⟨h.cfg, h.surf, h.begun, by simpa using a, by simpa using b, hb, (h.early hs).trans hs.symm, ev, d, hP ev e⟩

theorem emit_busFail (e : Event) (t : State) : (emit e t).fault.busFail = t.fault.busFail := (hostTick_adds (t.record e)).2.2.2.2.2.2.2.2

theorem noFailure_single {e : Event} (h : failedTransfer e = false) : ∀ ev, ev = [e] → NoFailure ev := by
  rintro _ rfl e he; simp at he; subst he; exact h

theorem transferNext_fault (s : State) : (transferNext s).fault = s.fault := by unfold transferNext; split <;> rfl
theorem acquireNext_fault (s : State) : (acquireNext s).fault = s.fault := by unfold acquireNext; split <;> rfl
theorem busOut_fault (ok : Bool) (tx : List Byte) (s : State) : (busOut ok tx s).fault = s.fault := by unfold busOut; split <;> rfl
theorem busIn_fault (ok : Bool) (n : Nat) (s : State) : (busIn ok n s).fault = s.fault := by
  unfold busIn; simp only [anyBytes_eq]; split <;> rfl
theorem lineEffect_fault (l : LineName) (v : Level) (s : State) : (lineEffect l v s).fault = s.fault := by unfold lineEffect; split <;> rfl
theorem setLine_fault (l : LineName) (v : Level) (s : State) : (s.setLine l v).fault = s.fault := by cases l <;> rfl

theorem xfer_busFail (tx : List Byte) (s : State) : (xfer tx s).fault.busFail = s.fault.busFail := by
  unfold xfer; rw [emit_busFail, busOut_fault, transferNext_fault]

theorem xferIn_busFail (n : Nat) (s : State) : (xferIn n s).fault.busFail = s.fault.busFail := by
  unfold xferIn; rw [emit_busFail, busIn_fault, transferNext_fault]

theorem xfer_clean {tx : List Byte} {s : State} (hs : SequentialHost s) (h : transferOk s = true) : Clean s (xfer tx s) :=
  clean_of_adds hs (xfer_adds tx s).1 (xfer_busFail tx s) (noFailure_single (by simp [failedTransfer, h]))

theorem xferIn_clean {n : Nat} {s : State} (hs : SequentialHost s) (h : transferOk s = true) : Clean s (xferIn n s) :=
  clean_of_adds hs (xferIn_adds n s).1 (xferIn_busFail n s) (by
    rintro _ ⟨rx, rfl⟩ e he; simp at he; subst he; simp [failedTransfer, h])

theorem sample_clean {s : State} (hs : SequentialHost s) : Clean s (sample s) :=
  clean_of_adds hs (sample_adds s).1 (by unfold sample; rw [emit_busFail, sampleNext_fault]) (noFailure_single rfl)

theorem delay_clean {s : State} (t : Nat) (hs : SequentialHost s) : Clean s (delay t s) :=
  clean_of_adds hs (delay_adds t s).1 (emit_busFail _ _) (noFailure_single rfl)

theorem logRecord_clean {s : State} (k : LogKind) (hs : SequentialHost s) : Clean s (logRecord k s) :=
  clean_of_adds hs (logRecord_adds k s).1 (emit_busFail _ _) (noFailure_single rfl)

theorem acquire_clean {s : State} (hs : SequentialHost s) : Clean s (acquire s) :=
  clean_of_adds hs (acquire_adds s).1 (by unfold acquire; rw [emit_busFail, acquireNext_fault]) (noFailure_single rfl)

theorem driveLine_clean {l : LineName} {v : Level} {s : State} (hs : SequentialHost s) (hl : l = .cs → csManaged s.cfg = true) :
    Clean s (driveLine l v s) :=
  clean_of_adds hs (driveLine_adds l v s hl).1 (by unfold driveLine; rw [emit_busFail, setLine_fault, lineEffect_fault]) (noFailure_single rfl)

theorem csAssert_clean {s : State} (hs : SequentialHost s) : Clean s (csAssert s) := by
  unfold csAssert
  split
  case isTrue h => exact driveLine_clean hs fun _ => h
  case isFalse => exact Clean.refl s

theorem csDeassert_clean {s : State} (hs : SequentialHost s) : Clean s (csDeassert s) := by
  unfold csDeassert
  split
  case isTrue h => exact driveLine_clean hs fun _ => h
  case isFalse => exact Clean.refl s

theorem setCstate_clean (c : CState) (s : State) : Clean s (s.setCstate c) := ⟨rfl, rfl, rfl, rfl, rfl, rfl, rfl, [], by simp [State.setCstate], noFailure_nil⟩
theorem setRamv_clean (a b : Bool) (s : State) : Clean s (s.setRamv a b) := ⟨rfl, rfl, rfl, rfl, rfl, rfl, rfl, [], by simp [State.setRamv], noFailure_nil⟩
theorem setTb_clean (b : List Byte) (s : State) : Clean s (s.setTb b) := ⟨rfl, rfl, rfl, rfl, rfl, rfl, rfl, [], by simp [State.setTb], noFailure_nil⟩
theorem setInop_clean (b : Bool) (s : State) : Clean s (s.setInop b) := ⟨rfl, rfl, rfl, rfl, rfl, rfl, rfl, [], by simp [State.setInop], noFailure_nil⟩
theorem setMicro_clean (m : Micro) (s : State) : Clean s (s.setMicro m) := ⟨rfl, rfl, rfl, rfl, rfl, rfl, rfl, [], by simp [State.setMicro], noFailure_nil⟩
theorem raise_clean {f : FaultBit} (hf : f ≠ .busFail) (s : State) : Clean s (s.raise f) := by
  refine ⟨rfl, rfl, rfl, rfl, rfl, ?_, rfl, [], by simp [State.raise], noFailure_nil⟩
  cases f <;> first | rfl | exact absurd rfl hf
theorem controllerLost_fault (s : State) : (controllerLost s).fault = s.fault := by unfold controllerLost; split <;> rfl
theorem controllerLost_clean {s : State} (hs : SequentialHost s) : Clean s (controllerLost s) :=
  clean_of_adds hs (controllerLost_adds s).1 (by rw [controllerLost_fault]) (by rintro _ rfl; exact noFailure_nil)
theorem noteSequence_clean (g : Bool) (s : State) : Clean s (noteSequence g s) := by
  unfold noteSequence
  split
  · exact raise_clean (by simp) s
  · exact Clean.refl s

/-! ## A failed transfer -/

/-- The end of an operation at a failed transfer inside a transaction: `t` is the state after the transfer's event `x`. -/
theorem busFailure_snapped {s t : State} {x : Event} (hs : StrictSeq t) (hx : failedTransfer x = true)
    (htr : t.trace = s.trace ++ [x]) (hc : t.cfg = s.cfg) (hsurf : t.surf = s.surf) (hb : t.stat.begun = s.stat.begun)
    (hr : t.results = s.results) (ho : t.opIdx = s.opIdx) (hf : t.fault.busFail = s.fault.busFail)
    (hcs : csManaged t.cfg = true → t.lines.cs = some t.cfg.csActive) : Strictly s (busFailure t) := by
  have hq : t.env.early = [] := hs.seq
  unfold busFailure
  rw [hs.strict]
  have hn : noteBusFailure t = { t with fault := { t.fault with busFail := true }, trace := t.trace ++ busFailLog t } := by
    unfold noteBusFailure busFailLog
    cases hbf : t.fault.busFail
    · simp only [Bool.false_eq_true, if_false]
      rw [show logRecord .busFail t = t.record (.log .busFail) from emit_sequential hs.seq]
      rfl
    · simp [State.raise, faultSet]
  rw [hn]
  refine ⟨[], x, ?_⟩
  unfold abort
  cases hm : csManaged t.cfg
  · have hm' : csManaged s.cfg = false := by rw [← hc]; exact hm
    simp [hm', State.setCstate, State.finish, State.setInop, State.setMicro, htr, csRelease, hsurf, hb, hr, ho, hx, busFailLog, hf,
      abortResult, faultCode]
    exact noFailure_nil
  · have hm' : csManaged s.cfg = true := by rw [← hc]; exact hm
    have hl := hcs hm
    simp only [hl, and_self, if_true]
    unfold driveLine
    rw [emit_sequential (by
      show (State.setLine _ _ _).env.early = []
      unfold lineEffect
      split <;> exact hq)]
    have he : lineEffect .cs (!t.cfg.csActive) { t with fault := { t.fault with busFail := true }, trace := t.trace ++ busFailLog t } =
        { t with fault := { t.fault with busFail := true }, trace := t.trace ++ busFailLog t } := by
      unfold lineEffect; rw [if_neg (by simp)]
    rw [he]
    simp [hm', State.setCstate, State.finish, State.setInop, State.setMicro, State.record, State.setLine, htr, csRelease, hsurf, hb, hr,
      ho, hx, busFailLog, hf, hc, abortResult, faultCode]
    exact noFailure_nil

theorem xfer_or_fail {tx : List Byte} {s : State} (hs : StrictSeq s) (hcs : csManaged s.cfg = true → s.lines.cs = some s.cfg.csActive) :
    Strictly s (if transferOk s then Flow.cont (xfer tx s) else busFailure (xfer tx s)) := by
  split
  case isTrue h => exact xfer_clean hs.seq h
  case isFalse h =>
    have ha := xfer_adds tx s
    obtain ⟨ev, e1, e2⟩ := ha.1.events
    obtain ⟨k, w1, w2, _, w3⟩ := ha.1.words
    obtain rfl := w3 (.inr hs.seq)
    refine busFailure_snapped ⟨ha.1.early hs.seq, by rw [ha.1.cfg]; exact hs.strict⟩ (x := .xfer tx (transferOk s))
      (by simpa [failedTransfer] using h) (by rw [e1, e2]) ha.1.cfg ha.1.surf ha.1.begun (by simpa using w1) (by simpa using w2)
      (xfer_busFail tx s) ?_
    rw [ha.1.cfg, ha.2.lines]; exact hcs

theorem xferIn_or_fail {n : Nat} {s : State} (hs : StrictSeq s) (hcs : csManaged s.cfg = true → s.lines.cs = some s.cfg.csActive) :
    Strictly s (if transferOk s then Flow.cont (xferIn n s) else busFailure (xferIn n s)) := by
  split
  case isTrue h => exact xferIn_clean hs.seq h
  case isFalse h =>
    have ha := xferIn_adds n s
    obtain ⟨ev, e1, rx, e2⟩ := ha.1.events
    obtain ⟨k, w1, w2, _, w3⟩ := ha.1.words
    obtain rfl := w3 (.inr hs.seq)
    refine busFailure_snapped ⟨ha.1.early hs.seq, by rw [ha.1.cfg]; exact hs.strict⟩ (x := .xferIn n rx (transferOk s))
      (by simpa [failedTransfer] using h) (by rw [e1, e2]) ha.1.cfg ha.1.surf ha.1.begun (by simpa using w1) (by simpa using w2)
      (xferIn_busFail n s) ?_
    rw [ha.1.cfg, ha.2.lines]; exact hcs

/-! ## The framer -/

theorem busFailure_strict {s : State} (h : s.cfg.errorMode = .strict) : busFailure s = .stop (abort .busFail (noteBusFailure s)) := by
  unfold busFailure; rw [h]

theorem sendChunks_strict : ∀ (cs : List (List Byte)) {s : State}, StrictSeq s →
    (csManaged s.cfg = true → s.lines.cs = some s.cfg.csActive) → Strictly s (sendChunks cs s)
  | [], s, _, _ => Clean.refl s
  | c :: cs, s, hs, hcs => by
    unfold sendChunks
    have h := xfer_or_fail (tx := c) hs hcs
    have ha := xfer_adds c s
    by_cases hok : transferOk s = true
    · rw [if_pos hok] at h ⊢
      exact Clean.strictly h (sendChunks_strict cs (Clean.strictSeq h hs) (by rw [ha.1.cfg, ha.2.lines]; exact hcs))
    · rw [if_neg hok, busFailure_strict (by rw [ha.1.cfg]; exact hs.strict)] at h ⊢
      exact h

/-- A transaction around transfers that are strict. -/
theorem transaction_strict (r : Role) {s : State} (hs : StrictSeq s) {body : State → Flow}
    (hb : ∀ t, StrictSeq t → (csManaged t.cfg = true → t.lines.cs = some t.cfg.csActive) → Strictly t (body t)) :
    Strictly s ((body (csAssert (driveLine .dc (dcLevel s.cfg r) s))).bind fun t => .cont (csDeassert t)) := by
  have h1 : Clean s (driveLine .dc (dcLevel s.cfg r) s) := driveLine_clean hs.seq fun h => by cases h
  have h2 := h1.trans (csAssert_clean (h1.strictSeq hs).seq)
  have h3 := hb _ (h2.strictSeq hs) (by rw [h2.cfg]; exact (open_spec r s).2.2.2.1)
  exact Strictly.bind (h2.strictly h3) fun t ht => csDeassert_clean (ht.strictSeq hs).seq

theorem frame_strict (r : Role) (payload : List Byte) {s : State} (hs : StrictSeq s) : Strictly s (frame r payload s) :=
  transaction_strict r hs fun _ ht hcs => sendChunks_strict _ ht hcs

theorem readFrame_strict (n : Nat) {s : State} (hs : StrictSeq s) : Strictly s (readFrame n s) :=
  transaction_strict .data hs (body := fun t => if transferOk t then Flow.cont (xferIn n t) else busFailure (xferIn n t))
    fun _ ht hcs => xferIn_or_fail ht hcs

/-- One step after another. -/
theorem Strictly.andThen {s : State} {f : Flow} {k : State → Flow} (hs : StrictSeq s) (h : Strictly s f)
    (hk : ∀ t, StrictSeq t → Strictly t (k t)) : Strictly s (f.bind k) :=
  h.bind fun _ ht => hk _ (ht.strictSeq hs)

theorem sendEach_strict : ∀ (d : List Byte) {s : State}, StrictSeq s → Strictly s (sendEach d s)
  | [], s, _ => Clean.refl s
  | b :: d, _, hs => (frame_strict .data [b] hs).andThen hs fun _ ht => sendEach_strict d ht

theorem group_strict (code : Byte) (d : List Byte) {s : State} (hs : StrictSeq s) : Strictly s (group code d s) :=
  (frame_strict .cmd [code] hs).andThen hs fun _ ht => sendEach_strict d ht

/-! ## The sequences -/

theorem seedCounters_strict (xb yr : Nat) {s : State} (hs : StrictSeq s) : Strictly s (seedCounters xb yr s) :=
  (group_strict _ _ hs).andThen hs fun _ ht => group_strict _ _ ht

theorem writePlane_strict (p : Plane) (buf : List Byte) {s : State} (hs : StrictSeq s) : Strictly s (writePlane p buf s) := by
  unfold writePlane
  refine Strictly.andThen hs (Strictly.andThen hs (Strictly.andThen hs (seedCounters_strict _ _ hs) ?_) ?_) ?_
  · exact fun t ht => (setTb_clean _ t).strictly (frame_strict _ _ ((setTb_clean _ t).strictSeq ht))
  · exact fun t ht => frame_strict _ _ ht
  · exact fun t _ => by cases p <;> exact setRamv_clean _ _ t

theorem writeFrame_strict (bw red : List Byte) {s : State} (hs : StrictSeq s) : Strictly s (writeFrame bw red s) :=
  (writePlane_strict .bw bw hs).andThen hs fun _ ht => writePlane_strict .red red ht

theorem hardReset_clean {s : State} (hs : StrictSeq s) : Clean s (hardReset s) := by
  have line : ∀ v {t : State}, Clean s t → Clean s (driveLine .rst v t) := fun v t h =>
    h.trans (driveLine_clean (h.strictSeq hs).seq fun h => by cases h)
  have wait : ∀ n {t : State}, Clean s t → Clean s (delay n t) := fun n t h => h.trans (delay_clean n (h.strictSeq hs).seq)
  exact wait _ (line _ (wait _ (line _ (wait _ (line _ (Clean.refl s))))))

theorem initSequence_strict {s : State} (hs : StrictSeq s) : Strictly s (initSequence s) := by
  unfold initSequence
  exact Strictly.andThen hs (Strictly.andThen hs (Strictly.andThen hs (Strictly.andThen hs (Strictly.andThen hs (group_strict _ _ hs)
    fun _ ht => group_strict _ _ ht) fun _ ht => group_strict _ _ ht) fun _ ht => group_strict _ _ ht) fun _ ht => group_strict _ _ ht)
    fun _ ht => group_strict _ _ ht

theorem prepareHead_strict {s : State} (hs : StrictSeq s) : Strictly s (prepareHead s) := by
  have h1 : Clean s ((s.setCstate .reset).setRamv false false) := (setCstate_clean _ s).trans (setRamv_clean _ _ _)
  have h2 := h1.trans (hardReset_clean (h1.strictSeq hs))
  exact h2.strictly (frame_strict _ _ (h2.strictSeq hs))

theorem prepareTail_strict {s : State} (hs : StrictSeq s) : Strictly s (prepareTail s) := by
  have h1 := delay_clean s.cfg.tSwrstSettle hs.seq
  exact Strictly.bind (h1.strictly (initSequence_strict (h1.strictSeq hs))) fun t _ => setCstate_clean _ t

theorem updateHead_strict (m : UpdateMode) {s : State} (hs : StrictSeq s) : Strictly s (updateHead m s) := by
  unfold updateHead
  exact Strictly.andThen hs (Strictly.andThen hs (Strictly.andThen hs (Strictly.andThen hs (group_strict _ _ hs)
    fun _ ht => group_strict _ _ ht) fun _ ht => group_strict _ _ ht) fun _ ht => frame_strict _ _ ht) fun t _ => setCstate_clean _ t

theorem updateTail_strict {s : State} (hs : StrictSeq s) : Strictly s (updateTail s) := by
  have h1 := delay_clean s.cfg.tPostAct hs.seq
  exact Strictly.bind (h1.strictly (group_strict _ _ (h1.strictSeq hs))) fun t _ => (setCstate_clean _ t).trans (setRamv_clean _ _ _)

theorem afterWait_strict (p : WaitPoint) {s : State} (hs : StrictSeq s) : Strictly s (afterWait p s) := by
  cases p
  · exact prepareTail_strict hs
  · exact updateTail_strict hs

theorem readRam_strict (p : Plane) (xb yr : Nat) {s : State} (hs : StrictSeq s) : Strictly s (readRam p xb yr s) := by
  unfold readRam
  exact Strictly.andThen hs (Strictly.andThen hs (Strictly.andThen hs (group_strict _ _ hs) fun _ ht => seedCounters_strict _ _ ht)
    fun _ ht => frame_strict _ _ ht) fun _ ht => readFrame_strict 2 ht

theorem writeRam_strict (p : Plane) (xb yr : Nat) (v : Byte) {s : State} (hs : StrictSeq s) : Strictly s (writeRam p xb yr v s) := by
  unfold writeRam
  exact Strictly.andThen hs (Strictly.andThen hs (seedCounters_strict _ _ hs) fun _ ht => frame_strict _ _ ht)
    fun _ ht => frame_strict _ _ ht

theorem modifyPixel_strict (nx ny : Nat) (c : Colour) {s : State} (hs : StrictSeq s) : Strictly s (modifyPixel nx ny c s) :=
  Strictly.andThen hs (readRam_strict _ _ _ hs) fun _ h1 => Strictly.andThen h1 (readRam_strict _ _ _ h1) fun _ h2 =>
    Strictly.andThen h2 (writeRam_strict _ _ _ _ h2) fun _ h3 => writeRam_strict _ _ _ _ h3

theorem pixelBody_strict (x y : Int) (c : Colour) {s : State} (hs : StrictSeq s) : Strictly s (pixelBody x y c s) := by
  unfold pixelBody
  split
  · split
    · have h := noteSequence_clean (notReady s) s
      exact h.strictly (modifyPixel_strict _ _ c (h.strictSeq hs))
    · exact raise_clean (by simp) s
  · exact Clean.refl s

theorem hRun_strict (y : Int) (c : Colour) : ∀ (n : Nat) (x : Int) {s : State}, StrictSeq s → Strictly s (hRun y c n x s)
  | 0, _, s, _ => Clean.refl s
  | n + 1, x, _, hs => (pixelBody_strict x y c hs).andThen hs fun _ ht => hRun_strict y c n (x + 1) ht

theorem vRun_strict (x : Int) (c : Colour) : ∀ (n : Nat) (y : Int) {s : State}, StrictSeq s → Strictly s (vRun x c n y s)
  | 0, _, s, _ => Clean.refl s
  | n + 1, y, _, hs => (pixelBody_strict x y c hs).andThen hs fun _ ht => vRun_strict x c n (y + 1) ht

/-! ## How operations end -/

theorem Snapped.strictEnd {s u : State} (h : Snapped s u) : StrictEnd s u := by
  obtain ⟨pre, x, c1, c2, c3, c4, c5, c6, c7, c8, c9, c10, c11, c12⟩ := h
  exact ⟨_, c1, .inr ⟨pre, x, rfl, c2, c3, c4, c5, c6, c7, c8, c9, c10, c11, c12⟩⟩

theorem append_ne {α : Type} (l : List α) {a b : α} (h : a ≠ b) : l ++ [a] ≠ l ++ [b] := by
  intro e; simp at e; exact h e

/-- An operation that ends with a result of its own after no failed transfer. -/
theorem Clean.strictEnd_of {s t u : State} (h : Clean s t) {r : ResultWord} (hr : r ≠ 0x80000002#32) (htr : u.trace = t.trace)
    (hf : u.fault = t.fault) (hu : u.results = t.results ++ [r]) : StrictEnd s u := by
  obtain ⟨ev, a, b⟩ := h.events
  refine ⟨ev, htr.trans a, .inl ⟨b, by rw [hf]; exact h.busFail, ?_⟩⟩
  rw [hu, h.results]; exact append_ne _ hr

theorem Clean.strictEnd_complete {s t : State} (h : Clean s t) {r : ResultWord} (hr : r ≠ 0x80000002#32) :
    StrictEnd s (complete r t) := h.strictEnd_of hr rfl rfl rfl

/-- Code with no failed transfer, and then the rest of the operation. -/
theorem Clean.strictEnd {s t u : State} (h : Clean s t) (h2 : StrictEnd t u) : StrictEnd s u := by
  obtain ⟨ev, a, b⟩ := h.events
  obtain ⟨ev2, c, d⟩ := h2
  refine ⟨ev ++ ev2, by rw [c, a, List.append_assoc], ?_⟩
  rcases d with ⟨d1, d2, d3⟩ | ⟨pre, x, rfl, d2, d3, d4, d5, d6, d7, d8, d9, d10, d11, d12⟩
  · refine .inl ⟨?_, d2.trans h.busFail, by rw [← h.results]; exact d3⟩
    intro e he
    rcases List.mem_append.mp he with k | k
    · exact b e k
    · exact d1 e k
  · refine .inr ⟨ev ++ pre, x, ?_, ?_, d3, d4, d5.trans h.begun, d6, d7, d8, d9.trans (by rw [h.results]), d10.trans (by rw [h.opIdx]),
      d11.trans h.surf, d12⟩
    · unfold busFailLog; rw [h.busFail, h.cfg]; simp
    · intro e he
      rcases List.mem_append.mp he with k | k
      · exact b e k
      · exact d2 e k

theorem Clean.strictEnd_self {s t : State} (h : Clean s t) : StrictEnd s t := by
  obtain ⟨ev, a, b⟩ := h.events
  refine ⟨ev, a, .inl ⟨b, h.busFail, ?_⟩⟩
  rw [h.results]; intro e; simpa using congrArg List.length e

theorem Strictly.finish_end {s : State} {f : Flow} (h : Strictly s f) {r : ResultWord} (hr : r ≠ 0x80000002#32) :
    StrictEnd s (f.finish r) := by
  cases f
  · exact Clean.strictEnd_complete h hr
  · exact Snapped.strictEnd h

theorem Strictly.state_end {s : State} {f : Flow} (h : Strictly s f) : StrictEnd s f.state := by
  cases f
  · exact Clean.strictEnd_self h
  · exact Snapped.strictEnd h

theorem refuse_strictEnd {f : FaultBit} (hf : f ≠ .busFail) (s : State) : StrictEnd s (refuse f s) :=
  (raise_clean hf s).strictEnd_of (by decide) rfl rfl rfl

/-- A turn of a wait. -/
theorem poll_strict (p : WaitPoint) (n : Nat) {rest : State → Flow} {s : State} (hs : StrictSeq s)
    (hr : ∀ t, StrictSeq t → Strictly t (rest t)) : StrictEnd s ((poll p n rest s).finish 0#32) := by
  have h1 := sample_clean hs.seq
  unfold poll
  split
  · split
    · have h2 := (h1.trans (raise_clean (f := .stall) (by simp) _))
      have hl := h2.trans (logRecord_clean .stall (h2.strictSeq hs).seq)
      have h3 := hl.trans (controllerLost_clean (hl.strictSeq hs).seq)
      show StrictEnd s (stallAbort (sample s))
      unfold stallAbort abort
      split
      case isTrue hc =>
        have h4 := h3.trans (driveLine_clean (l := .cs) (v := !(controllerLost (logRecord .stall ((sample s).raise .stall))).cfg.csActive)
          (h3.strictSeq hs).seq fun _ => hc.1)
        exact (h4.trans (setCstate_clean _ _)).strictEnd_complete (by decide)
      case isFalse => exact (h3.trans (setCstate_clean _ _)).strictEnd_complete (by decide)
    · have h2 := h1.trans (delay_clean Config.tPoll (h1.strictSeq hs).seq)
      exact (h2.trans (setMicro_clean _ _)).strictEnd_self
  · exact (h1.strictly (hr _ (h1.strictSeq hs))).finish_end (by decide)

/-- An operation up to its wait, and the wait. -/
theorem Strictly.bind_end {s : State} {f : Flow} {k : State → Flow} (hs : StrictSeq s) (h : Strictly s f)
    (hk : ∀ t, StrictSeq t → StrictEnd t ((k t).finish 0#32)) : StrictEnd s ((f.bind k).finish 0#32) := by
  cases f with
  | cont t => exact Clean.strictEnd h (hk t (Clean.strictSeq h hs))
  | stop u => exact Snapped.strictEnd h

theorem requireBegun_strict {s : State} {body : State → State} (h : StrictEnd s (body s)) : StrictEnd s (requireBegun body s) := by
  unfold requireBegun
  split
  · exact h
  · exact (raise_clean (by simp) s).strictEnd_complete (by decide)

theorem resumeWait_strict (p : WaitPoint) (n : Nat) {s : State} (hs : StrictSeq s) : StrictEnd s (resumeWait p n s) :=
  poll_strict p n hs fun _ ht => afterWait_strict p ht

theorem prepareBody_strict {s : State} (hs : StrictSeq s) : StrictEnd s (prepareBody s) :=
  requireBegun_strict ((prepareHead_strict hs).bind_end hs fun _ ht => poll_strict _ _ ht fun _ hu => prepareTail_strict hu)

theorem updateBody_strict (m : UpdateMode) {s : State} (hs : StrictSeq s) : StrictEnd s (updateBody m s) := by
  have h := noteSequence_clean (updateUnprepared s) s
  exact requireBegun_strict (h.strictEnd ((updateHead_strict m (h.strictSeq hs)).bind_end (h.strictSeq hs)
    fun _ ht => poll_strict _ _ ht fun _ hu => updateTail_strict hu))

theorem frameBody_strict (bw red : List Byte) {s : State} (hs : StrictSeq s) : StrictEnd s (frameBody bw red s) := by
  have h := noteSequence_clean (notReady s) s
  exact requireBegun_strict ((h.strictly (writeFrame_strict bw red (h.strictSeq hs))).finish_end (by decide))

theorem beginBody_strict {s : State} (hs : StrictSeq s) : StrictEnd s (beginBody s) := by
  have ha := acquire_clean hs.seq
  unfold beginBody
  split
  · exact (Clean.refl s).strictEnd_complete (by decide)
  · split
    · have hd := csDeassert_clean (s := (acquire s).setBegun) (by show (acquire s).env.early = []; rw [ha.early]; exact hs.seq)
      obtain ⟨ev, a, b⟩ := ha.events
      obtain ⟨ev', a', b'⟩ := hd.events
      refine ⟨ev ++ ev', ?_, .inl ⟨fun e he => (List.mem_append.mp he).elim (b e) (b' e), hd.busFail.trans ha.busFail, ?_⟩⟩
      · show (csDeassert _).trace = _
        rw [a', State.setBegun_trace, a, List.append_assoc]
      · show (csDeassert _).results ++ [1#32] ≠ _
        rw [hd.results, State.setBegun_results, ha.results]; exact append_ne _ (by decide)
    · exact (ha.trans (raise_clean (by simp) _)).strictEnd_complete (by decide)

theorem hostOp_strict {body : State → State} {s : State} (hb : StrictEnd (s.setInop true) (body (s.setInop true))) :
    ∃ t, hostOp body s = .next t ∧ StrictEnd s t := by
  refine ⟨_, rfl, ?_⟩
  unfold enterOp
  split
  · exact refuse_strictEnd (by simp) s
  · exact (setInop_clean true s).strictEnd hb

end Sys2Proof.Machine
end

