-- ==== Sys2Proof/Tests/Slice0.lean ====
section
/-! SUPPORT. Sys2Proof/Tests/Slice0.lean: the model's own tests. Expected values are from 95_test_vectors.md and from the encodings of
30_encoding.md, worked by hand. -/

namespace Sys2Proof.Tests

open Sys2Proof.Machine

/-! ## Small machines -/

/-- The conventions of 95_test_vectors.md on a small panel. -/
def panel (w h : Nat) : Params := { referenceParams with width := w, height := h, fastShowsRed := false }

/-- A backend that always answers true, and no script of BUSY levels or bytes. -/
def calm : Env := { backend := .reliable, samples := [], bytes := [], early := [] }

/-- A constructed block on a small panel. -/
def built (w h : Nat) : State := { State.fresh (panel w h) with env := calm }

/-- The reference controller as `PREPARE` leaves it on a 16 by 8 panel (V8.1), with busy periods of no further sample. -/
def preparedCtl : Controller :=
  { Controller.initial with
    mode := .active, mux := 7, dem := 1, xs := 0, xe := 1, ys := 7, ye := 0, border := 5, duc1 := [0],
    busyPlan := [0, 0, 0, 0] }

/-- A `Ready` block, both planes marked written, its controller prepared (V8). -/
def ready : State :=
  { built 16 8 with
    stat := { cstate := .ready, begun := true, ramvBw := true, ramvRed := true, inop := false }
    lines := { dc := some true, rst := some true, cs := some true }
    ctl := preparedCtl }

/-- A begun block whose controller is any controller, with these BUSY levels to come. -/
def oracle (w h : Nat) (samples : List Level) : State :=
  { built w h with
    cfg := { panel w h with attached := .oracle }
    stat := { cstate := .ready, begun := true, ramvBw := true, ramvRed := true, inop := false }
    env := { calm with samples := samples } }

/-- The next state's view, if the outcome is one. -/
def look {α : Type} (f : State → α) (o : Host.Outcome State Fault Refusal) : Option α :=
  match o with
  | .next s => some (f s)
  | .fault _ => none
  | .refused _ => none

/-- The bytes sent in the trace of an outcome, one list for each transfer. -/
def sent (s : State) : List (List Byte) :=
  s.trace.filterMap fun e => match e with
    | .xfer tx _ => some tx
    | .line _ _ => none
    | .sample _ => none
    | .delay _ => none
    | .xferIn _ _ _ => none
    | .log _ => none
    | .acquire _ => none

/-- One step of a program of one word. -/
def runWord (s : State) (w : HostWord) (bw red : List Byte) : Host.Outcome State Fault Refusal :=
  step { s with program := [{ word := w, imgBw := bw, imgRed := red }] }

/-! ## WellFormed refuses what has no encoding -/

theorem test_wf_x_too_large : (Instr.setPixel 32768 0 .white).wf = false := by decide
theorem test_wf_y_too_small : (Instr.setPixel 0 (-32769) .white).wf = false := by decide
theorem test_wf_hline_x : (Instr.drawHline 40000 0 1 .white).wf = false := by decide
theorem test_wf_hline_y : (Instr.drawHline 0 40000 1 .white).wf = false := by decide
theorem test_wf_hline_w : (Instr.drawHline 0 0 32768 .white).wf = false := by decide
theorem test_wf_vline_x : (Instr.drawVline (-40000) 0 1 .white).wf = false := by decide
theorem test_wf_vline_y : (Instr.drawVline 0 (-40000) 1 .white).wf = false := by decide
theorem test_wf_vline_h : (Instr.drawVline 0 0 (-32769) .white).wf = false := by decide
theorem test_wf_duc1_empty : (Instr.displayUpdateControl1 []).wf = false := by decide
theorem test_wf_write_bw_empty : (Instr.writeRamBw []).wf = false := by decide
theorem test_wf_write_red_empty : (Instr.writeRamRed []).wf = false := by decide
theorem test_wf_limits : (Instr.drawHline (-32768) 32767 (-32768) .red).wf = true := by decide
theorem test_params_width : ¬ (panel 2049 8).wf := by decide
theorem test_params_height : ¬ (panel 8 32768).wf := by decide
theorem test_params_chunk : ¬ ({ panel 8 8 with maxChunk := 1 } : Params).wf := by decide
theorem test_params_codes : ¬ ({ Proto.reference with readRam := 0x24 } : Proto).wf := by decide
theorem test_params_options : ¬ ({ Proto.reference with rroRed := 0x00 } : Proto).wf := by decide
theorem test_params_bias : ¬ ({ Proto.reference with muxBias := 2 } : Proto).wf := by decide
theorem test_params_duc1 : ¬ ({ Proto.reference with duc1Fast := [] } : Proto).wf := by decide

/-! ## Decoding: words written out from rules R75 to R78, [63:48] L, [47:32] Y, [31:16] X, [15:8] SUB, [7:0] OPC -/

theorem test_decode_begin : decodeHost 0x0000_0000_0000_00_01 = .ok .beginOp := by decide
theorem test_decode_prepare : decodeHost 0x0000_0000_0000_00_02 = .ok .prepare := by decide
theorem test_decode_display_image : decodeHost 0x0000_0000_0000_02_10 = .ok (.displayImage false true) := by decide
theorem test_decode_clear_display : decodeHost 0x0000_0000_0000_00_11 = .ok .clearDisplay := by decide
theorem test_decode_fill_black : decodeHost 0x0000_0000_0000_00_12 = .ok .fillBlack := by decide
theorem test_decode_display_normal : decodeHost 0x0000_0000_0000_00_20 = .ok .displayNormal := by decide
theorem test_decode_display_fast : decodeHost 0x0000_0000_0000_00_21 = .ok .displayFast := by decide
theorem test_decode_set_pixel : decodeHost 0x0000_8000_7FFF_02_30 = .ok (.setPixel 32767 (-32768) .red) := by decide
theorem test_decode_draw_hline : decodeHost 0x8000_0000_0000_01_31 = .ok (.drawHline 0 0 (-32768) .black) := by decide
theorem test_decode_draw_vline : decodeHost 0x0002_0003_0002_00_32 = .ok (.drawVline 2 3 2 .white) := by decide
theorem test_decode_set_rotation : decodeHost 0x0000_0000_0000_03_40 = .ok (.setRotation .deg270) := by decide
theorem test_decode_set_white_border : decodeHost 0x0000_0000_0000_00_41 = .ok .setWhiteBorder := by decide
theorem test_decode_set_black_border : decodeHost 0x0000_0000_0000_00_42 = .ok .setBlackBorder := by decide
theorem test_decode_set_red_border : decodeHost 0x0000_0000_0000_00_43 = .ok .setRedBorder := by decide
theorem test_decode_get_width : decodeHost 0x0000_0000_0000_00_50 = .ok .getWidth := by decide
theorem test_decode_get_height : decodeHost 0x0000_0000_0000_00_51 = .ok .getHeight := by decide
theorem test_decode_get_rotation : decodeHost 0x0000_0000_0000_00_52 = .ok .getRotation := by decide
theorem test_decode_get_status : decodeHost 0x0000_0000_0000_00_53 = .ok .getStatus := by decide

/-- V0.2, V0.3, V0.4, V0.6, V0.9, V0.10, V0.13: each has its own ground. -/
theorem test_decode_illegal :
    decodeHost 0x0000000000000101 = .illegal .nonZeroReserved ∧ decodeHost 0 = .illegal .unknownOpcode ∧
    decodeHost 0x0000000000000013 = .illegal .unknownOpcode ∧ decodeHost 0x0000000000000410 = .illegal .nonZeroReserved ∧
    decodeHost 0x0000000000000330 = .illegal .reservedColour ∧ decodeHost 0x0001000000000030 = .illegal .nonZeroReserved ∧
    decodeHost 0x0000000000000540 = .illegal .nonZeroReserved := by decide

/-- The groups of the init sequence for 400 by 300 (V2.12), byte by byte. -/
theorem test_decode_init_groups :
    decodeGroup Proto.reference [0x01, 0x2B, 0x01, 0x00] = .ok (.driverOutputControl 0x2B 0x01 0x00) ∧
    decodeGroup Proto.reference [0x11, 0x01] = .ok (.dataEntryMode 0x01) ∧
    decodeGroup Proto.reference [0x44, 0x00, 0x31] = .ok (.setRamXWindow 0x00 0x31) ∧
    decodeGroup Proto.reference [0x45, 0x2B, 0x01, 0x00, 0x00] = .ok (.setRamYWindow 0x2B 0x01 0x00 0x00) ∧
    decodeGroup Proto.reference [0x3C, 0x05] = .ok (.borderWaveform 0x05) ∧
    decodeGroup Proto.reference [0x21, 0x00] = .ok (.displayUpdateControl1 [0x00]) := by decide

/-- The groups of an update (V4.1), the soft reset and deep sleep. -/
theorem test_decode_power_groups :
    decodeGroup Proto.reference [0x12] = .ok .swReset ∧ decodeGroup Proto.reference [0x18, 0x80] = .ok (.tempSensorSelect 0x80) ∧
    decodeGroup Proto.reference [0x22, 0xF7] = .ok (.displayUpdateControl2 0xF7) ∧
    decodeGroup Proto.reference [0x20] = .ok .masterActivation ∧ decodeGroup Proto.reference [0x10, 0x01] = .ok (.deepSleep [0x01]) := by
  decide

/-- The groups of RAM access (rules R175, R177). -/
theorem test_decode_ram_groups :
    decodeGroup Proto.reference [0x24, 0xBF] = .ok (.writeRamBw [0xBF]) ∧
    decodeGroup Proto.reference [0x26, 0x00, 0x01] = .ok (.writeRamRed [0x00, 0x01]) ∧
    decodeGroup Proto.reference [0x41, 0x01] = .ok (.readRamOption 0x01) ∧ decodeGroup Proto.reference [0x27] = .ok .readRam ∧
    decodeGroup Proto.reference [0x4E, 0x01] = .ok (.setRamXCounter 0x01) ∧
    decodeGroup Proto.reference [0x4F, 0x02, 0x00] = .ok (.setRamYCounter 0x02 0x00) := by decide

theorem test_decode_bad_groups :
    decodeGroup Proto.reference [] = .illegal .emptyGroup ∧ decodeGroup Proto.reference [0x99] = .illegal .unknownCommand ∧
    decodeGroup Proto.reference [0x4F, 0x02] = .illegal .wrongDataCount := by decide

/-- An opcode-table word of either width reaches its row. -/
theorem test_table_words :
    decodeTableWord 64 0x0000000500030230 = some (.setPixel 3 5 .red) ∧ decodeTableWord 8 0x45 = some (.setRamYWindow 0 0 0 0) ∧
    decodeTableWord 8 0x24 = some (.writeRamBw [0]) ∧ decodeTableWord 16 0x24 = none := by decide

/-! ## The encoder, against the words of rule R89 -/

theorem test_encode_words :
    encode Proto.reference (.setPixel (-1) 0 .black) = .word 0x00000000FFFF0130 ∧
    encode Proto.reference (.drawHline 0 2 10 .black) = .word 0x000A000200000131 ∧
    encode Proto.reference (.displayImage true false) = .word 0x0000000000000110 := by decide

/-! ## Operands -/

/-- V3.1, V3.2: rows move whole. -/
theorem test_flip : Machine.flip (panel 8 3) [0xA0, 0xB1, 0xC2] = [0xC2, 0xB1, 0xA0] ∧
    Machine.flip (panel 16 2) [1, 2, 3, 4] = [3, 4, 1, 2] := by decide

/-- V1.6 scaled to chunks of 4: five bytes are two transfers, of 4 and 1. -/
theorem test_chunks : chunks 4 [1, 2, 3, 4, 5] = [[1, 2, 3, 4], [5]] ∧ chunks 4 [1, 2, 3, 4] = [[1, 2, 3, 4]] := by decide

/-- V5.2: the corners of a square panel under rotation 1. -/
theorem test_rotation_corners :
    toNative (panel 8 8) .deg90 0 0 = (7, 0) ∧ toNative (panel 8 8) .deg90 7 0 = (7, 7) ∧
    toNative (panel 8 8) .deg90 7 7 = (0, 7) ∧ toNative (panel 8 8) .deg90 0 7 = (0, 0) := by decide

/-- V5.1: spot checks of the inverse on 16 by 8. -/
theorem test_rotation_inverse :
    toLogical (panel 16 8) .deg90 15 0 = (0, 0) ∧ toLogical (panel 16 8) .deg270 0 7 = (0, 0) ∧
    toLogical (panel 16 8) .deg180 12 6 = (3, 1) := by decide

/-- V5.5: the colour table, both choices of `PIX_BW_SET_FOR`. -/
theorem test_colour_table :
    modifyBw (panel 8 8) 0xAA 0x40 .white = 0xEA ∧ modifyRed 0x55 0x40 .white = 0x15 ∧
    modifyBw (panel 8 8) 0xAA 0x40 .black = 0xAA ∧ modifyBw (panel 8 8) 0xAA 0x40 .red = 0xAA ∧ modifyRed 0x55 0x40 .red = 0x55 ∧
    modifyBw { panel 8 8 with pixBwSetFor := .black } 0xAA 0x40 .black = 0xEA ∧
    modifyBw { panel 8 8 with pixBwSetFor := .black } 0xAA 0x40 .white = 0xAA ∧
    modifyBw (panel 8 8) 0xAA 0x01 .white = 0xAB ∧ modifyRed 0x55 0x01 .white = 0x54 := by decide

/-! ## Host operations -/

/-- V2.1. -/
theorem test_begin_acquires :
    look (fun t => (t.trace, t.result, packStat t.stat)) (exec .beginOp (built 8 8)) =
      some ([.acquire true, .line .cs true], 1, 0x08) := by decide

/-- V2.2 and V7.3. -/
theorem test_begin_fails :
    look (fun t => (t.trace, t.result, statusWord t))
      (exec .beginOp { built 8 8 with env := { calm with backend := .scripted [false] [] } }) =
      some ([.acquire false], 0, 0x00010000) := by decide

set_option maxRecDepth 8000 in
/-- V2.15, V2.19: `PREPARE` on a 1 by 1 panel with the first sample 0: 84 events, `Ready`. -/
theorem test_prepare :
    look (fun t => (t.trace.length, packStat t.stat, (sent t).flatten)) (exec .prepare (oracle 1 1 [false])) =
      some (84, 0x0A, [0x12, 0x01, 0, 0, 0, 0x11, 1, 0x44, 0, 0, 0x45, 0, 0, 0, 0, 0x3C, 5, 0x21, 0]) := by decide

/-- V2.18. -/
theorem test_prepare_not_begun :
    look (fun t => (t.trace, packFault t.fault, packStat t.stat)) (exec .prepare (built 8 8)) = some ([], 0x10, 0x00) := by decide

/-- P2 word 2 (rule R155): the flipped BW block and eight zero bytes. -/
theorem test_display_image :
    look (fun t => (sent t).filter (fun tx => 1 < tx.length))
      (runWord (oracle 8 8 []) 0x0000000000000110 [0x01, 0x02, 0x04, 0x08, 0x10, 0x20, 0x40, 0x80] []) =
      some [[0x80, 0x40, 0x20, 0x10, 0x08, 0x04, 0x02, 0x01], [0, 0, 0, 0, 0, 0, 0, 0]] := by decide

/-- V0.15: a buffer of 7 bytes on an 8 by 8 panel. -/
theorem test_display_image_wrong_length :
    look (fun t => (t.trace, packFault t.fault)) (runWord (oracle 8 8 []) 0x0000000000000110 [0, 0, 0, 0, 0, 0, 0] []) =
      some ([], 0x20) := by decide

/-- V7.5: `CLEAR_DISPLAY` in `Uninitialized` goes out, with `SEQ_VIOL`. -/
theorem test_clear_display :
    look (fun t => (t.trace.length, statusWord t, (sent t).getD 6 []))
      (exec .clearDisplay { oracle 8 8 [] with
        stat := { cstate := .uninitialized, begun := true, ramvBw := false, ramvRed := false, inop := false } }) =
      some (56, 0x00083800, [0xFF, 0xFF, 0xFF, 0xFF, 0xFF, 0xFF, 0xFF, 0xFF]) := by decide

/-- V3.7. -/
theorem test_fill_black :
    look (fun t => (t.trace.length, (sent t).getD 6 [], packFault t.fault)) (exec .fillBlack (oracle 8 8 [])) =
      some (56, [0, 0, 0, 0, 0, 0, 0, 0], 0) := by decide

/-- V4.3. -/
theorem test_display_normal :
    look (fun t => (t.trace.length, packStat t.stat, (sent t).flatten)) (exec .displayNormal (oracle 8 8 [false])) =
      some (38, 0x0C, [0x18, 0x80, 0x21, 0x00, 0x22, 0xF7, 0x20, 0x10, 0x01]) := by decide

/-- V4.2, up to its first asserted sample: the operation waits, in `Busy`. -/
theorem test_display_fast_waits :
    look (fun t => ((sent t).flatten, packStat t.stat, t.micro)) (exec .displayFast (oracle 8 8 [true, false])) =
      some ([0x18, 0x80, 0x21, 0x40, 0x22, 0xC7, 0x20], 0x7B, .waiting .activation 1) := by decide

/-- V2.9: the third asserted sample, after two delays, stalls. -/
theorem test_wait_stalls :
    look (fun t => (t.trace, t.result, packFault t.fault, packStat t.stat))
      (step { oracle 8 8 [true] with
        cfg := { panel 8 8 with attached := .oracle, busyTimeoutMs := 2 }
        stat := { cstate := .busy, begun := true, ramvBw := true, ramvRed := true, inop := true }
        micro := .waiting .activation 2 }) =
      some ([.sample true, .log .stall], 0x80000003, 0x04, 0x38) := by decide

/-- The black frame with one white byte of V5.6: 16 by 8, `BW (1,2) = 0xFF`. -/
def pixelState : State :=
  { ready with ctl := { preparedCtl with ramBw := [(513, 0xFF)], ramRed := [(513, 0x00)] } }

set_option maxRecDepth 8000 in
/-- V5.6 (rule R185): 128 events, and bit 6 of the byte is cleared. -/
theorem test_set_pixel :
    look (fun t => (t.trace.length, t.ctl.ramBw, t.ctl.ramRed)) (exec (.setPixel 9 2 .black) pixelState) =
      some (128, [(513, 0xBF)], [(513, 0x00)]) := by decide

/-- V5.4: out of range, before `BEGIN`. -/
theorem test_set_pixel_outside :
    look (fun t => (t.trace, packFault t.fault, t.result)) (exec (.setPixel 16 0 .black) (built 16 8)) = some ([], 0, 0) := by decide

set_option maxRecDepth 8000 in
/-- V5.8: two pixels of one byte are drawn, two are outside. -/
theorem test_draw_hline :
    look (fun t => (t.trace.length, t.ctl.ramBw))
      (exec (.drawHline 14 0 4 .black) { ready with ctl := { preparedCtl with ramBw := [(1, 0xFF)], ramRed := [(1, 0)] } }) =
      some (256, [(1, 0xFC)]) := by decide

set_option maxRecDepth 8000 in
/-- P3 word 7, under rotation 1: native (12,2) and (11,2). -/
theorem test_draw_vline :
    look (fun t => t.ctl.ramBw)
      (exec (.drawVline 2 3 2 .white)
        { ready with
          surf := { rot := .deg90, border := .white }
          ctl := { preparedCtl with ramBw := [(513, 0)], ramRed := [(513, 0)] } }) = some [(513, 0x18)] := by decide

/-- V6.4. -/
theorem test_set_rotation :
    look (fun t => t.surf) (exec (.setRotation .deg180) (built 8 8)) = some { rot := .deg180, border := .white } := by decide

/-- V6.7, its parts. -/
theorem test_set_borders :
    look (fun t => packSurf t.surf) (exec .setWhiteBorder { built 8 8 with surf := { rot := .deg0, border := .red } }) = some 0x00 ∧
    look (fun t => packSurf t.surf) (exec .setBlackBorder (built 8 8)) = some 0x04 ∧
    look (fun t => packSurf t.surf) (exec .setRedBorder (built 8 8)) = some 0x08 := by decide

/-- V6.1, V6.2, V6.3, V6.4. -/
theorem test_queries :
    look (fun t => t.result) (exec .getWidth State.reset) = some 400 ∧
    look (fun t => t.result) (exec .getWidth { State.reset with surf := { rot := .deg90, border := .white } }) = some 300 ∧
    look (fun t => t.result) (exec .getHeight { State.reset with surf := { rot := .deg270, border := .white } }) = some 400 ∧
    look (fun t => t.result) (exec .getRotation { State.reset with surf := { rot := .deg180, border := .white } }) = some 2 := by
  decide

/-- V6.5. -/
theorem test_get_status :
    look (fun t => t.result) (exec .getStatus { State.reset with surf := { rot := .deg270, border := .red } }) = some 0x0000000B := by
  decide

/-- V7.7: an illegal word issued during a running operation sets only `ILLEGAL_OP`, and the operation goes on. -/
theorem test_early_illegal_word :
    look (fun t => (packFault t.fault, t.results, t.opIdx))
      (step { built 8 8 with
        program := [{ word := 1, imgBw := [], imgRed := [] }, { word := 0, imgBw := [], imgRed := [] }]
        env := { calm with early := [0] } }) = some (0x20, [0, 1], 2) := by decide

/-! ## Bus commands on the reference controller (V8) -/

/-- V8.18, V8.4 (its counters), V8.11, V8.19. -/
theorem test_bus_settings :
    look (fun t => (t.ctl.busy, t.ctl.ramBw)) (exec .swReset { pixelState with ctl := { pixelState.ctl with busyPlan := [3] } }) =
      some (true, [(513, 0xFF)]) ∧
    look (fun t => t.ctl.mux) (exec (.driverOutputControl 0x2B 0x01 0x00) ready) = some 299 ∧
    look (fun t => t.ctl.dem) (exec (.dataEntryMode 0x03) ready) = some 3 ∧
    look (fun t => (t.ctl.xs, t.ctl.xe)) (exec (.setRamXWindow 0x00 0x31) ready) = some (0, 0x31) ∧
    look (fun t => (t.ctl.ys, t.ctl.ye)) (exec (.setRamYWindow 0x2B 0x01 0x02 0x00) ready) = some (0x012B, 2) := by decide

theorem test_bus_controls :
    look (fun t => t.ctl.border) (exec (.borderWaveform 0x04) ready) = some 0x04 ∧
    look (fun t => t.ctl.duc1) (exec (.displayUpdateControl1 [0x40, 0x01]) ready) = some [0x40, 0x01] ∧
    look (fun t => t.ctl.temp) (exec (.tempSensorSelect 0x80) ready) = some 0x80 ∧
    look (fun t => t.ctl.duc2) (exec (.displayUpdateControl2 0xF7) ready) = some 0xF7 ∧
    look (fun t => t.ctl.readSel) (exec (.readRamOption 0x01) ready) = some .red ∧
    look (fun t => t.ctl.xc) (exec (.setRamXCounter 0x01) ready) = some 1 ∧
    look (fun t => t.ctl.yc) (exec (.setRamYCounter 0x2B 0x01) ready) = some 0x012B := by decide

/-- V8.12 on an 8 by 1 panel: White, White, Red, Red, and four Black. -/
theorem test_bus_activation :
    look (fun t => (t.ctl.busy, t.ctl.shown.map (fun g => g.pixels)))
      (exec .masterActivation { ready with
        cfg := panel 8 1
        ctl := { preparedCtl with ramBw := [(0, 0xF0)], ramRed := [(0, 0x30)] } }) =
      some (true, some [.white, .white, .red, .red, .black, .black, .black, .black]) := by decide

/-- V8.13: the Fast values with `FAST_SHOWS_RED = false`: White four times, Black four times. -/
theorem test_bus_activation_fast :
    look (fun t => t.ctl.shown.map (fun g => g.pixels))
      (exec .masterActivation { ready with
        cfg := panel 8 1
        ctl := { preparedCtl with ramBw := [(0, 0xF0)], ramRed := [(0, 0x30)], duc1 := [0x40], duc2 := 0xC7 } }) =
      some (some [.white, .white, .white, .white, .black, .black, .black, .black]) := by decide

/-- V8.15, V8.16: asleep, RAM undefined; and then a RAM write is ignored. -/
theorem test_bus_deep_sleep :
    look (fun t => (t.ctl.mode, t.ctl.ramBw)) (exec (.deepSleep [0x01]) pixelState) = some (.asleep, []) ∧
    look (fun t => t.ctl.ramBw) (exec (.writeRamBw [0x00]) { ready with ctl := { preparedCtl with mode := .asleep } }) = some [] := by
  decide

/-- V8.4: three bytes from (1,2): (1,2), (0,1), (1,1), and the counters end at (0,0). -/
theorem test_bus_write_bw :
    look (fun t => (t.ctl.ramBw, t.ctl.xc, t.ctl.yc))
      (exec (.writeRamBw [0xAA, 0xBB, 0xCC]) { ready with ctl := { preparedCtl with xc := 1, yc := 2 } }) =
      some ([(256, 0xBB), (257, 0xCC), (513, 0xAA)], 0, 0) := by decide

/-- V8.5, its last byte: at (1,0) the counters wrap to the window start. -/
theorem test_bus_write_red :
    look (fun t => (t.ctl.ramRed, t.ctl.ramBw, t.ctl.xc, t.ctl.yc))
      (exec (.writeRamRed [0x77]) { ready with ctl := { preparedCtl with xc := 1, yc := 0 } }) =
      some ([(1, 0x77)], [], 0, 7) := by decide

/-- V8.7: the dummy is any value, the second byte is the selected plane's, and the counters advance once. -/
theorem test_bus_read :
    look (fun t => (t.rx.getD 1 0, t.ctl.xc, t.ctl.yc, t.ctl.rdPhase))
      (exec .readRam { ready with ctl := { preparedCtl with readSel := .red, ramRed := [(513, 0x5A)], xc := 1, yc := 2 } }) =
      some (0x5A, 0, 1, 2) := by decide

/-! ## Witnesses: for each statement with hypotheses, a state and operands that meet them all, each clause at a boundary value -/

/-- The 16 by 8 block, waiting with its sample deasserted next. -/
def waitingAt (p : WaitPoint) (c : CState) (n : Nat) (samples : List Level) : State :=
  { oracle 16 8 samples with
    stat := { cstate := c, begun := true, ramvBw := true, ramvRed := true, inop := true }
    micro := .waiting p n }

/-- A program of one operation. -/
def oneOp (s : State) (w : HostWord) (bw red : List Byte) : State :=
  { s with program := [{ word := w, imgBw := bw, imgRed := red }] }

theorem witness_DecodeOfEncode :
    Proto.reference.wf ∧ (Instr.drawHline (-32768) 32767 (-1) .red).wf = true ∧ (Instr.writeRamRed [0xFF]).wf = true ∧
    decode Proto.reference (encode Proto.reference (.drawHline (-32768) 32767 (-1) .red)) = .ok (.drawHline (-32768) 32767 (-1) .red) := by
  decide

theorem witness_EncodeOfDecode :
    decode Proto.reference (.word 0xFFFF80007FFF0231) = .ok (.drawHline 32767 (-32768) (-1) .red) ∧
    decode Proto.reference (.group [0x10]) = .ok (.deepSleep []) := by decide

theorem witness_HostDecodingFollowsTable :
    decodeHost 0xFFFFFFFFFFFF0232 = .ok (.drawVline (-1) (-1) (-1) .red) ∧
    (∃ r ∈ hostRows, (0xFFFFFFFFFFFF0232#64) &&& r.mask = r.bits ∧ r.colour = true ∧ (0xFFFFFFFFFFFF0232#64).extractLsb' 8 2 ≠ 3#2) ∧
    (∃ r ∈ hostRows, (0x0000000000000310#64) &&& r.mask = r.bits ∧ r.colour = false) ∧
    (oneOp (built 8 8) 0x0330 [] []).micro = .idle ∧
    (oneOp (built 8 8) 0x0330 [] []).fetch = some { word := 0x0330, imgBw := [], imgRed := [] } ∧
    decodeHost 0x0330 = .illegal .reservedColour := by decide

theorem witness_StepRunsHostWord :
    (oneOp ready 0x53 [] []).micro = .idle ∧ (oneOp ready 0x53 [] []).fetch = some { word := 0x53, imgBw := [], imgRed := [] } ∧
    decodeHost 0x53 = .ok .getStatus := by decide

theorem witness_StepRunsBusGroup :
    ({ ready with micro := .sending [0x4E, 0xFF] } : State).micro = .sending [0x4E, 0xFF] ∧
    decodeGroup ready.cfg.proto [0x4E, 0xFF] = .ok (.setRamXCounter 0xFF) := by decide

theorem witness_IllegalWordRefused :
    (oneOp ready 0x13 [] []).fetch = some { word := 0x13, imgBw := [], imgRed := [] } ∧ (oneOp ready 0x13 [] []).micro = .idle ∧
    decodeHost 0x13 = .illegal .unknownOpcode ∧ (∀ r ∈ hostRows, (0x13#64) &&& r.mask ≠ r.bits) ∧
    (∀ r ∈ hostRows, (0x0001000000000030#64) &&& r.mask ≠ r.bits) ∧
    (0x0332#64).extractLsb' 0 8 = 0x32#8 ∧ (0x0332#64).extractLsb' 8 2 = 3#2 ∧
    (oneOp (built 8 8) 0x0310 [0, 0, 0, 0, 0, 0, 0] [0, 0, 0, 0, 0, 0, 0, 0, 0]).fetch =
      some { word := 0x0310, imgBw := [0, 0, 0, 0, 0, 0, 0], imgRed := [0, 0, 0, 0, 0, 0, 0, 0, 0] } ∧
    [0, 0, 0, 0, 0, 0, 0].length ≠ planeBytes (built 8 8).cfg := by decide

theorem witness_EndOfProgramStops :
    (built 8 8).micro = .idle ∧ (built 8 8).opIdx = (built 8 8).program.length ∧
    ({ ready with micro := .sending [0x4F, 0x00] } : State).micro = .sending [0x4F, 0x00] ∧
    decodeGroup ready.cfg.proto [0x4F, 0x00] = .illegal .wrongDataCount := by decide

theorem witness_PlacedWordIsRun :
    decodeHost 0x0310 = .ok (.displayImage true true) ∧
    decodeGroup State.reset.cfg.proto (zeroGroup State.reset.cfg.proto 0x45) = .ok (.setRamYWindow 0 0 0 0) := by decide

theorem witness_ConstructionState :
    (panel 1 1).wf ∧ (panel 2048 32767).wf ∧
    ({ panel 8 8 with maxChunk := 2, lineCs := none, proto := { Proto.reference with muxBias := 0, deepSleepData := [] } } : Params).wf := by
  decide

theorem witness_SetRotationWritesRot :
    Idle (built 16 8) ∧ (oneOp (built 16 8) 0x0540 [] []).micro = .idle ∧
    (oneOp (built 16 8) 0x0540 [] []).fetch = some { word := 0x0540, imgBw := [], imgRed := [] } ∧
    (0x0540#64).extractLsb' 0 8 = 0x40#8 ∧ (0x0540#64).extractLsb' 10 54 ≠ 0#54 ∧
    inRange (built 16 8).cfg .deg90 8 0 = false ∧ inRange (built 16 8).cfg .deg270 7 15 = true ∧
    inRange (built 16 8).cfg .deg180 16 7 = false ∧ (built 16 8).stat.begun = false := by decide

theorem witness_BorderSettersWriteBorder : Idle (built 8 8) := by decide
theorem witness_QueriesReadTheSurface : Idle (built 2048 32767) ∧ (panel 2048 32767).wf := ⟨rfl, by decide⟩
theorem witness_GetStatusReadsTheRegisters : Idle ready := by decide

theorem witness_ConcurrentWordRefused :
    isHostOp .getStatus = true ∧ (waitingAt .activation .busy 1 []).stat.inop = true ∧ isHostOp (.displayImage true false) = true ∧
    currentImageFits true false (oneOp (waitingAt .activation .busy 1 []) 0x0110 (List.replicate 16 0) []) = true := by decide

theorem witness_NotBegunRefused :
    Idle (oneOp (built 16 8) 0x0310 (List.replicate 16 0) (List.replicate 16 0)) ∧ (built 16 8).stat.begun = false ∧
    currentImageFits true true (oneOp (built 16 8) 0x0310 (List.replicate 16 0) (List.replicate 16 0)) = true ∧
    inRange (panel 16 8) .deg0 15 7 = true ∧ inRange (panel 16 8) .deg0 0 0 = true ∧
    (List.range (2 : Int).toNat).any (fun k => inRange (panel 16 8) .deg0 ((-1 : Int) + k) 0) = true ∧
    (List.range (1 : Int).toNat).any (fun k => inRange (panel 16 8) .deg0 16 ((0 : Int) + k)) = false := by decide

/-- A block whose host issues its second word after the first event. -/
def hasty (w : HostWord) : State :=
  { built 8 8 with
    program := [{ word := 1, imgBw := [], imgRed := [] }, { word := w, imgBw := [], imgRed := [] }]
    env := { calm with early := [0] } }

theorem witness_EarlyWordRefused :
    Idle (hasty 0x53) ∧ (hasty 0x53).stat.begun = false ∧ acquireOk (hasty 0x53) = true ∧ (hasty 0x53).env.early = 0 :: [] ∧
    (hasty 0x53).program[(hasty 0x53).opIdx + 1]? = some { word := 0x53, imgBw := [], imgRed := [] } ∧
    legalOp (panel 8 8) { word := 0x53, imgBw := [], imgRed := [] } = true ∧
    legalOp (panel 8 8) { word := 0x00, imgBw := [], imgRed := [] } = false := by decide

theorem witness_BeginAcquires :
    Idle (built 8 8) ∧ SequentialHost (built 8 8) ∧ (built 8 8).stat.begun = false ∧ acquireOk (built 8 8) = true ∧
    Idle ready ∧ SequentialHost ready ∧ ready.stat.begun = true ∧
    acquireOk { built 8 8 with env := { calm with backend := .scripted [false] [] } } = false := by decide

theorem witness_PrepareRunsToReady :
    Idle ready ∧ ready.stat.begun = true ∧ Reliable ready ∧ SequentialHost ready ∧ ready.cfg.wf ∧ FirstSampleClear ready ∧
    Idle (oracle 1 1 [false]) ∧ FirstSampleClear (oracle 1 1 [false]) ∧ (oracle 1 1 [false]).cfg.wf := by
  refine ⟨rfl, rfl, rfl, rfl, by decide, rfl, rfl, rfl, by decide⟩

theorem witness_PrepareProgramsController :
    Idle ready ∧ ready.stat.begun = true ∧ Reliable ready ∧ SequentialHost ready ∧ ready.cfg.wf ∧
    ready.cfg.attached = .reference ∧ FirstSampleClear ready := ⟨rfl, rfl, rfl, rfl, by decide, rfl, rfl⟩

/-- The prepared block, whose next busy period reads asserted twice more. -/
def busyReady : State := { ready with ctl := { preparedCtl with busyPlan := [2] } }

theorem witness_AssertedBusySuspends :
    Idle busyReady ∧ busyReady.stat.begun = true ∧ Reliable busyReady ∧ SequentialHost busyReady ∧ busyReady.cfg.wf ∧
    FirstSampleBusy busyReady ∧ UpdateOp .displayNormal .normal ∧ UpdateOp .displayFast .fast ∧ ListensIfReference busyReady ∧
    FirstSampleBusy (oracle 8 8 [true]) ∧ ListensIfReference (oracle 8 8 [true]) :=
  ⟨rfl, rfl, rfl, rfl, by decide, ⟨1, rfl⟩, .inl ⟨rfl, rfl⟩, .inr ⟨rfl, rfl⟩, fun _ => ⟨rfl, rfl, rfl, by decide⟩, rfl,
    fun h => by cases h⟩

theorem witness_WaitEndsAndResumes :
    (waitingAt .softReset .reset 0 [false]).micro = .waiting .softReset 0 ∧ Reliable (waitingAt .softReset .reset 0 [false]) ∧
    SequentialHost (waitingAt .softReset .reset 0 [false]) ∧ (waitingAt .softReset .reset 0 [false]).cfg.wf ∧
    busyAsserted (panel 16 8) (sampleLevel (waitingAt .softReset .reset 0 [false])) = false ∧
    (waitingAt .activation .busy 3 [false]).micro = .waiting .activation 3 ∧
    busyAsserted (panel 16 8) (sampleLevel (waitingAt .activation .busy 3 [false])) = false := by
  refine ⟨rfl, rfl, rfl, by decide, rfl, rfl, rfl⟩

theorem witness_WaitKeepsPolling :
    (waitingAt .activation .busy 1 [true]).micro = .waiting .activation 1 ∧ SequentialHost (waitingAt .activation .busy 1 [true]) ∧
    busyAsserted (panel 16 8) (sampleLevel (waitingAt .activation .busy 1 [true])) = true ∧
    (waitingAt .activation .busy 1 [true]).cfg.busyTimeoutMs = 0 ∧ 1 < ({ panel 16 8 with busyTimeoutMs := 2 } : Params).busyTimeoutMs := by
  refine ⟨rfl, rfl, rfl, rfl, by decide⟩

/-- The waiting block with a timeout of 2 ms. -/
def timed (n : Nat) : State :=
  { waitingAt .activation .busy n [true] with cfg := { panel 16 8 with attached := .oracle, busyTimeoutMs := 2 } }

/-- The same wait on a reference controller in a busy period of five more samples. -/
def timedReference : State :=
  { timed 2 with
    cfg := { panel 16 8 with busyTimeoutMs := 2 }
    ctl := { preparedCtl with busy := true, busyLeft := 5 } }

/-- U22: a `STALL` abort leaves the reference controller's RAM undefined. -/
theorem test_stall_loses_controller :
    look (fun t => (t.ctl.ramBw, t.draws, t.result))
      (step { timedReference with ctl := { timedReference.ctl with ramBw := [(513, 0xFF)] } }) = some ([], 1, 0x80000003) := by decide

theorem witness_WaitStallsAtTimeout :
    (timed 2).micro = .waiting .activation 2 ∧ SequentialHost (timed 2) ∧ busyAsserted (timed 2).cfg (sampleLevel (timed 2)) = true ∧
    (timed 2).cfg.busyTimeoutMs ≠ 0 ∧ (timed 2).cfg.busyTimeoutMs ≤ 2 ∧
    (csManaged (timed 2).cfg = true → (timed 2).lines.cs ≠ some (timed 2).cfg.csActive) ∧ (timed 2).cfg.attached = .oracle ∧
    timedReference.micro = .waiting .activation 2 ∧ SequentialHost timedReference ∧
    busyAsserted timedReference.cfg (sampleLevel timedReference) = true ∧ timedReference.cfg.busyTimeoutMs ≠ 0 ∧
    timedReference.cfg.busyTimeoutMs ≤ 2 ∧
    (csManaged timedReference.cfg = true → timedReference.lines.cs ≠ some timedReference.cfg.csActive) ∧
    timedReference.cfg.attached = .reference := by decide

theorem witness_StuckBusyNeverCompletes :
    (waitingAt .softReset .reset 0 [true, true, true, false]).micro = .waiting .softReset 0 ∧
    SequentialHost (waitingAt .softReset .reset 0 [true, true, true, false]) ∧
    (waitingAt .softReset .reset 0 [true, true, true, false]).cfg.attached = .oracle ∧
    (waitingAt .softReset .reset 0 [true, true, true, false]).cfg.busyTimeoutMs = 0 ∧
    (waitingAt .softReset .reset 0 [true, true, true, false]).env.samples = List.replicate 3 true ++ [false] :=
  ⟨rfl, rfl, rfl, rfl, rfl⟩

/-- The prepared block with a `DISPLAY_IMAGE` of one buffer next. -/
def imageReady : State := oneOp ready 0x0110 (List.replicate 16 0x5A) []

theorem witness_FullFrameRuns :
    FrameOp imageReady .clearDisplay (List.replicate 16 0xFF) (List.replicate 16 0x00) ∧
    FrameOp imageReady .fillBlack (List.replicate 16 0x00) (List.replicate 16 0x00) ∧
    FrameOp imageReady (.displayImage true false) (List.replicate 16 0x5A) (List.replicate 16 0x00) ∧
    Idle imageReady ∧ imageReady.stat.begun = true ∧ Reliable imageReady ∧ SequentialHost imageReady ∧ imageReady.cfg.wf :=
  ⟨.inl ⟨rfl, rfl, rfl⟩, .inr (.inl ⟨rfl, rfl, rfl⟩), .inr (.inr ⟨_, true, false, rfl, rfl, rfl, rfl, rfl, rfl⟩), rfl, rfl, rfl, rfl,
    by decide⟩

theorem witness_BestEffortProceeds :
    Idle (oracle 16 8 [false]) ∧ (oracle 16 8 [false]).stat.begun = true ∧ (oracle 16 8 [false]).cfg.errorMode = .bestEffort ∧
    (oracle 16 8 [false]).cfg.wf ∧ FrameOp (oracle 16 8 [false]) .fillBlack (List.replicate 16 0x00) (List.replicate 16 0x00) ∧
    (oracle 16 8 [false]).cfg.attached = .oracle ∧ (oracle 16 8 [false]).env.samples.head? = some (!(oracle 16 8 [false]).cfg.busyActive) ∧
    UpdateOp .displayFast .fast :=
  ⟨rfl, rfl, rfl, by decide, .inr (.inl ⟨rfl, rfl, rfl⟩), rfl, rfl, .inr ⟨rfl, rfl⟩⟩

theorem witness_ClearAndFillAreDisplayImage :
    (oneOp ready 0x0110 (List.replicate 16 0x00) []).fetch = some { word := 0x0110, imgBw := List.replicate 16 0x00, imgRed := [] } ∧
    List.replicate 16 0x00#8 = List.replicate (planeBytes ready.cfg) 0x00#8 := ⟨rfl, rfl⟩

theorem witness_FrameLandsInRam :
    FrameOp imageReady (.displayImage true false) (List.replicate 16 0x5A) (List.replicate 16 0x00) ∧ Idle imageReady ∧
    imageReady.stat.begun = true ∧ Reliable imageReady ∧ SequentialHost imageReady ∧ imageReady.cfg.wf ∧ Listening imageReady ∧
    CommandDone imageReady.ctl ∧ imageReady.ctl.dem = 0x01#8 ∧ imageReady.ctl.xs = 0 ∧
    imageReady.ctl.xe = BitVec.ofNat 8 (stride imageReady.cfg - 1) ∧ imageReady.ctl.ys = BitVec.ofNat 16 (imageReady.cfg.height - 1) ∧
    imageReady.ctl.ye = 0 ∧ 1 < stride imageReady.cfg ∧ 7 < imageReady.cfg.height :=
  ⟨.inr (.inr ⟨_, true, false, rfl, rfl, rfl, rfl, rfl, rfl⟩), rfl, rfl, rfl, rfl, by decide, ⟨rfl, rfl, rfl, by decide⟩, fun _ => rfl, rfl,
    rfl, rfl, rfl, rfl, by decide, by decide⟩

theorem witness_FullFrameEventCount :
    referenceParams.wf ∧ csManaged referenceParams = true ∧ (List.replicate 15000 0xFF#8).length = planeBytes referenceParams ∧
    FrameOp ready .clearDisplay (List.replicate 16 0xFF) (List.replicate 16 0x00) ∧ csManaged ready.cfg = true ∧
    referenceParams.width = 400 ∧ referenceParams.height = 300 ∧ referenceParams.maxChunk = 4096 :=
  ⟨by decide, rfl, List.length_replicate.trans (by decide), .inl ⟨rfl, rfl, rfl⟩, rfl, rfl, rfl, rfl⟩

/-- The prepared block with CS unmanaged and an empty `DEEP_SLEEP_DATA`. -/
def bareReady : State :=
  { ready with cfg := { panel 16 8 with lineCs := none, proto := { Proto.reference with deepSleepData := [] } } }

theorem witness_UpdateRunsToAsleep :
    UpdateOp .displayFast .fast ∧ (∀ s ∈ [ready, bareReady], Idle s ∧ s.stat.begun = true ∧ Reliable s ∧ SequentialHost s ∧ s.cfg.wf ∧
      ListensIfReference s ∧ FirstSampleClear s) ∧
    csManaged bareReady.cfg = false ∧ bareReady.cfg.proto.deepSleepData = [] ∧
    csManaged ready.cfg = true ∧ ready.cfg.proto.deepSleepData ≠ [] := by
  refine ⟨.inr ⟨rfl, rfl⟩, fun s hs => ?_, by decide, rfl, by decide, by decide⟩
  simp only [List.mem_cons, List.not_mem_nil, or_false] at hs
  rcases hs with rfl | rfl <;> exact ⟨rfl, rfl, rfl, rfl, by decide, fun _ => ⟨rfl, rfl, rfl, by decide⟩, rfl⟩

/-- The prepared block with the last byte of each plane defined. -/
def shownReady : State := { ready with ctl := { preparedCtl with ramBw := [(1793, 0xF0)], ramRed := [(1793, 0x30)] } }

/-- The same block with a `PROTO` table whose normal settings are the fast ones, or differ in the control-1 list alone. -/
def shownWith (duc1 : List Byte) : State :=
  { shownReady with cfg := { panel 16 8 with proto := { Proto.reference with duc1Fast := duc1, duc2Fast := Proto.reference.duc2Normal } } }

theorem witness_UpdateShowsTheFrame :
    (∀ s ∈ [shownReady, shownWith Proto.reference.duc1Normal, shownWith [0x40]], Idle s ∧ s.stat.begun = true ∧ Reliable s ∧
      SequentialHost s ∧ s.cfg.wf ∧ Listening s ∧ CommandDone s.ctl ∧ FirstSampleClear s ∧
      planeRead s.cfg s.ctl.ramBw (BitVec.ofNat 8 (15 / 8)) (BitVec.ofNat 16 7) = some 0xF0 ∧
      planeRead s.cfg s.ctl.ramRed (BitVec.ofNat 8 (15 / 8)) (BitVec.ofNat 16 7) = some 0x30 ∧
      s.ctl.border = borderByte s.cfg.proto .white ∧
      (∀ j, borderByte s.cfg.proto j = borderByte s.cfg.proto .white → j = .white)) ∧
    UpdateOp .displayNormal .normal ∧ UpdateOp .displayFast .fast ∧
    shownReady.cfg.proto.duc2Normal ≠ shownReady.cfg.proto.duc2Fast ∧
    ((shownWith [0x40]).cfg.proto.duc1Normal ≠ (shownWith [0x40]).cfg.proto.duc1Fast ∧
      (shownWith [0x40]).cfg.proto.duc2Normal = (shownWith [0x40]).cfg.proto.duc2Fast) := by
  refine ⟨fun s hs => ?_, .inl ⟨rfl, rfl⟩, .inr ⟨rfl, rfl⟩, by decide, by decide⟩
  simp only [List.mem_cons, List.not_mem_nil, or_false] at hs
  rcases hs with rfl | rfl | rfl <;>
    exact ⟨rfl, rfl, rfl, rfl, by decide, ⟨rfl, rfl, rfl, by decide⟩, fun _ => rfl, rfl, by decide, by decide, rfl,
      fun j => by cases j <;> decide⟩

theorem witness_OutOfRangePixelIsNothing :
    Idle (built 16 8) ∧ inRange (panel 16 8) .deg0 (-1) 0 = false ∧ inRange (panel 16 8) .deg0 16 0 = false ∧
    inRange (panel 16 8) .deg90 8 0 = false ∧ inRange (panel 16 8) .deg0 0 8 = false ∧ inRange (panel 16 8) .deg90 7 15 = true := by
  decide

theorem witness_PixelReadsThenWrites :
    Idle ready ∧ ready.stat.begun = true ∧ Reliable ready ∧ SequentialHost ready ∧ ready.cfg.wf ∧
    inRange ready.cfg ready.surf.rot 0 0 = true ∧ inRange ready.cfg ready.surf.rot 15 7 = true := by
  refine ⟨rfl, rfl, rfl, rfl, by decide, by decide, by decide⟩

theorem witness_PixelChangesItsBit :
    Idle shownReady ∧ shownReady.stat.begun = true ∧ Reliable shownReady ∧ SequentialHost shownReady ∧ shownReady.cfg.wf ∧
    Listening shownReady ∧ CommandDone shownReady.ctl ∧
    inRange shownReady.cfg shownReady.surf.rot 15 7 = true ∧
    planeRead shownReady.cfg shownReady.ctl.ramBw (BitVec.ofNat 8 (15 / 8)) (BitVec.ofNat 16 7) = some 0xF0 ∧
    planeRead shownReady.cfg shownReady.ctl.ramRed (BitVec.ofNat 8 (15 / 8)) (BitVec.ofNat 16 7) = some 0x30 :=
  ⟨rfl, rfl, rfl, rfl, by decide, ⟨rfl, rfl, rfl, by decide⟩, fun _ => rfl, by decide, by decide, by decide⟩

theorem witness_LinesIteratePixels :
    Idle (built 16 8) ∧ SequentialHost (built 16 8) ∧ NoBusAbort (built 16 8) ∧ Idle ready ∧ NoBusAbort ready :=
  ⟨rfl, rfl, .inr rfl, rfl, .inl rfl⟩

theorem witness_EmptyLineDrawsNothing : Idle ready ∧ (0 : Int) ≤ 0 ∧ (-32768 : Int) ≤ 0 := by decide

theorem witness_FlipIsItsOwnInverse :
    [0xA0#8, 0xB1#8, 0xC2#8].length = planeBytes (panel 8 3) ∧ 2 < (panel 8 3).height ∧ 0 < stride (panel 8 3) := by decide

theorem witness_ChunksConcatenate :
    (chunks 2 [1, 2, 3])[1]? = some [3] ∧ Reliable ready ∧ SequentialHost ready ∧ 1 ≤ ready.cfg.maxChunk := by
  refine ⟨rfl, rfl, rfl, by decide⟩

theorem witness_RotationIsABijection :
    toNative (panel 16 8) .deg270 0 0 = (0, 7) ∧ (0 : Int) < (logicalWidth (panel 16 8) .deg270 : Int) ∧
    (15 : Int) < (logicalHeight (panel 16 8) .deg270 : Int) ∧ (15 : Int) < (panel 16 8).width ∧ (7 : Int) < (panel 16 8).height := by
  decide

theorem witness_BusCommandsSendTheirGroups :
    isHostOp .readRam = false ∧ isHostOp (.writeRamBw [0]) = false ∧ Reliable ready ∧ SequentialHost ready ∧ ready.cfg.wf ∧
    ({ ready.cfg with attached := .oracle } : Params).attached = .oracle := ⟨rfl, rfl, rfl, rfl, by decide, rfl⟩

theorem witness_SettingCommandsWriteTheirField :
    Listening ready ∧ Reliable ready ∧ SequentialHost ready ∧ ready.cfg.wf ∧ CommandDone ready.ctl ∧ [0x40#8] ≠ [] ∧
    (0x00#8) = ready.cfg.proto.rroBw ∧ (0x01#8) = ready.cfg.proto.rroRed :=
  ⟨⟨rfl, rfl, rfl, by decide⟩, rfl, rfl, by decide, fun _ => rfl, by decide, rfl, rfl⟩

theorem witness_PowerCommandsActOnController :
    Listening ready ∧ Reliable ready ∧ SequentialHost ready ∧ ready.cfg.wf ∧ CommandDone ready.ctl ∧
    [0x01#8].length = ready.cfg.proto.deepSleepData.length ∧ ready.ctl.busyPlan.head? = some 0 :=
  ⟨⟨rfl, rfl, rfl, by decide⟩, rfl, rfl, by decide, fun _ => rfl, rfl, rfl⟩

/-- The prepared block with its counters at the last byte of the planes. -/
def cornerReady : State := { shownReady with ctl := { shownReady.ctl with xc := 1, yc := 7 } }

theorem witness_RamWriteCommandsStore :
    Listening cornerReady ∧ Reliable cornerReady ∧ SequentialHost cornerReady ∧ cornerReady.cfg.wf ∧ CommandDone cornerReady.ctl ∧
    cornerReady.ctl.dem = 0x01#8 ∧ inPlane cornerReady.cfg cornerReady.ctl.xc cornerReady.ctl.yc = true ∧
    inPlane cornerReady.cfg 2 7 = false :=
  ⟨⟨rfl, rfl, rfl, by decide⟩, rfl, rfl, by decide, fun _ => rfl, rfl, by decide, by decide⟩

theorem witness_ReadRamReturnsTheByte :
    Listening cornerReady ∧ Reliable cornerReady ∧ SequentialHost cornerReady ∧ cornerReady.cfg.wf ∧ CommandDone cornerReady.ctl ∧
    cornerReady.ctl.dem = 0x01#8 ∧
    planeRead cornerReady.cfg (Controller.plane cornerReady.ctl cornerReady.ctl.readSel) cornerReady.ctl.xc cornerReady.ctl.yc = some 0xF0 :=
  ⟨⟨rfl, rfl, rfl, by decide⟩, rfl, rfl, by decide, fun _ => rfl, rfl, by decide⟩

theorem witness_CountersWalkThePlane :
    (panel 16 8).wf ∧ (({ preparedCtl with xc := 0, yc := 7 } : Controller).dem = 0x01#8 ∧
      ({ preparedCtl with xc := 0, yc := 7 } : Controller).xs = 0 ∧
      ({ preparedCtl with xc := 0, yc := 7 } : Controller).xe = BitVec.ofNat 8 (stride (panel 16 8) - 1) ∧
      ({ preparedCtl with xc := 0, yc := 7 } : Controller).ys = BitVec.ofNat 16 ((panel 16 8).height - 1) ∧
      ({ preparedCtl with xc := 0, yc := 7 } : Controller).ye = 0 ∧ ({ preparedCtl with xc := 0, yc := 7 } : Controller).xc = 0 ∧
      ({ preparedCtl with xc := 0, yc := 7 } : Controller).yc = BitVec.ofNat 16 ((panel 16 8).height - 1)) ∧
    15 < planeBytes (panel 16 8) := by decide

theorem witness_SleepingControllerIgnores :
    isHostOp (.writeRamBw [0]) = false ∧ Reliable ready ∧ SequentialHost ready ∧ ready.cfg.wf ∧ ready.cfg.attached = .reference ∧
    ({ ready with ctl := { preparedCtl with mode := .asleep } } : State).ctl.mode = .asleep ∧
    heldInReset { ready with lines := { dc := none, rst := some false, cs := none } } = true ∧
    (built 16 8).ctl.mode = .off ∧ (built 16 8).cfg.attached = .reference ∧
    look (fun t => t.ctl.mode) (exec .readRam (built 16 8)) = some .off :=
  ⟨rfl, rfl, rfl, by decide, rfl, rfl, by decide, rfl, rfl, by decide⟩

/-- The prepared block in `Strict` mode with no plane marked, its transfer number `k` the first to fail. -/
def strictAt (k : Nat) : State :=
  { ready with
    cfg := { panel 16 8 with errorMode := .strict }
    stat := { cstate := .ready, begun := true, ramvBw := false, ramvRed := false, inop := false }
    env := { calm with backend := .scripted [] (List.replicate k true ++ false :: [true]) } }

/-- A `Strict` block waiting for an update, the second transfer after its wait failing. -/
def strictWaiting : State :=
  { waitingAt .activation .busy 3 [false] with
    cfg := { panel 16 8 with attached := .oracle, errorMode := .strict }
    env := { calm with backend := .scripted [] [true, false], samples := [false] } }

/-- V3.12: the RED plane's first transfer fails, so `RAMV_BW = 1` and `RAMV_RED = 0`. -/
theorem test_strict_red_plane_fails :
    look (fun t => (packStat t.stat, packFault t.fault, t.result)) (exec .clearDisplay (strictAt 7)) = some (0x18, 0x02, 0x80000002) := by
  decide

theorem witness_StrictBusFailureAborts :
    SequentialHost (strictAt 5) ∧ (strictAt 5).cfg.wf ∧ (strictAt 5).cfg.errorMode = .strict ∧ Idle (strictAt 0) ∧
    (strictAt 0).stat.begun = true ∧ (strictAt 0).env.backend = .scripted [] (false :: [true]) ∧
    look (fun t => t.result) (exec .displayNormal (strictAt 5)) = some 0x80000002 ∧
    SequentialHost strictWaiting ∧ strictWaiting.cfg.wf ∧ strictWaiting.cfg.errorMode = .strict ∧
    look (fun t => (packStat t.stat, t.result)) (step strictWaiting) = some (0x38, 0x80000002) := by
  refine ⟨rfl, by decide, rfl, rfl, rfl, rfl, by decide, rfl, by decide, rfl, by decide⟩

theorem witness_StrictFrameFailureKeepsRamv :
    (∀ k, Idle (strictAt k) ∧ (strictAt k).stat.begun = true ∧ SequentialHost (strictAt k) ∧ (strictAt k).cfg.wf ∧
      (strictAt k).cfg.errorMode = .strict ∧ (strictAt k).env.backend = .scripted [] (List.replicate k true ++ false :: [true]) ∧
      FrameOp (strictAt k) .fillBlack (List.replicate 16 0x00) (List.replicate 16 0x00)) ∧
    (6 + (chunks (panel 16 8).maxChunk (List.replicate 16 0x00#8)).length = 7 ∧ 13 < 2 * 7) :=
  have hwf : (strictAt 0).cfg.wf := by decide
  have hframe : FrameOp (strictAt 0) .fillBlack (List.replicate 16 0x00) (List.replicate 16 0x00) := .inr (.inl ⟨rfl, rfl, rfl⟩)
  ⟨fun _ => ⟨rfl, rfl, rfl, hwf, rfl, rfl, hframe⟩, by decide⟩

/-- A `BestEffort` block whose transactions are of up to 6 bytes, the second and third transfers failing. -/
def bestEffortFails : State :=
  { ready with
    cfg := { panel 16 8 with maxChunk := 6 }
    env := { calm with backend := .scripted [] ([true, false, false] ++ [false]) } }

theorem witness_BestEffortLogsOnce :
    SequentialHost bestEffortFails ∧ bestEffortFails.cfg.wf ∧ bestEffortFails.cfg.errorMode = .bestEffort ∧
    bestEffortFails.env.backend = .scripted [] ([true, false, false] ++ [false]) ∧
    [true, false, false].length = (chunks bestEffortFails.cfg.maxChunk (List.replicate 16 0x5A#8)).length ∧
    (∀ ok, ({ bestEffortFails with env := { calm with backend := .scripted [] (ok :: []) } } : State).env.backend =
      .scripted [] (ok :: [])) := by
  refine ⟨rfl, by decide, rfl, rfl, by decide, fun _ => rfl⟩

theorem witness_FaultsAreSticky :
    (oneOp (built 8 8) 0x13 [] []).cfg.wf ∧ (look (fun _ => ()) (step (oneOp (built 8 8) 0x13 [] []))).isSome = true ∧
    faultGet (refusedWith .illegalOp (built 8 8)).fault .illegalOp = true := by decide

theorem witness_LifetimeFactsHold :
    ({ panel 8 8 with lineCs := none } : Params).wf ∧ csManaged { panel 8 8 with lineCs := none } = false ∧
    (oneOp ready 0x01 [] []).stat.begun = true ∧ (look (fun t => t.opIdx) (step (oneOp ready 0x01 [] []))) = some 1 ∧
    (look (fun t => t.surf) (step (oneOp ready 0x0240 [] []))) = some { rot := .deg180, border := .white } ∧
    (look (fun t => t.surf) (step (oneOp ready 0x41 [] []))) = some { rot := .deg0, border := .white } ∧
    (look (fun t => t.surf) (step (oneOp ready 0x42 [] []))) = some { rot := .deg0, border := .black } ∧
    (look (fun t => t.surf) (step (oneOp ready 0x43 [] []))) = some { rot := .deg0, border := .red } := by decide

theorem witness_InvariantAtConstruction :
    (panel 1 1).wf ∧ (panel 1 1).attached = .reference ∧ calm.backend = .reliable ∧ calm.early = [] := ⟨by decide, rfl, rfl, rfl⟩

/-- The prepared block as a run reaches it: one operation done, its result in `RESULT`, and a query next. -/
def running : State :=
  { ready with
    program := [{ word := 2, imgBw := [], imgRed := [] }, { word := 0x53, imgBw := [], imgRed := [] }]
    opIdx := 1
    results := [0] }

theorem witness_StepKeepsInvariant :
    BlockInv running ∧ look (fun t => t.result) (step running) = some 0x00003A00 := by
  refine ⟨?_, by decide⟩
  exact { params := by decide, ramBw := rfl, ramRed := rfl, inop := ⟨(fun h => by cases h), (fun ⟨_, _, h⟩ => by cases h)⟩,
          waitReset := (fun _ h => by cases h), waitBusy := (fun _ h => by cases h), seen := (fun _ => by decide),
          notBegun := (fun h => by cases h), count := rfl, last := rfl, csUnmanaged := (fun h => by cases h),
          csIdle := (fun _ => by decide), buffer := rfl }

/-- A block of any controller waiting, its sample deasserted next, as a run reaches it. -/
theorem waiting_inv (p : WaitPoint) (c : CState) (h1 : p = .softReset → c = .reset) (h2 : p = .activation → c = .busy) :
    BlockInv (waitingAt p c 3 [false]) :=
  have hwf : (oracle 16 8 [false]).cfg.wf := by decide
  have hb : (oracle 16 8 [false]).tb.length = planeBytes (oracle 16 8 [false]).cfg := by decide
  { params := hwf, ramBw := rfl, ramRed := rfl, inop := ⟨fun _ => ⟨p, 3, rfl⟩, fun _ => rfl⟩,
    waitReset := (fun _ h => h1 (by cases h; rfl)), waitBusy := (fun _ h => h2 (by cases h; rfl)), seen := (fun h => by cases h),
    notBegun := (fun h => by cases h), count := rfl, last := rfl, csUnmanaged := (fun h => by cases h),
    csIdle := (fun _ => by show (none : Option Level) ≠ _; simp), buffer := hb }

theorem witness_CstateChangesOnlyByRule :
    (oracle 8 8 [false]).cfg.wf ∧
    look (fun t => t.stat.cstate) (exec .displayFast (oracle 8 8 [false])) = some .asleep ∧
    BlockInv (waitingAt .softReset .reset 3 [false]) ∧ look (fun t => t.stat.cstate) (step (waitingAt .softReset .reset 3 [false])) = some .ready ∧
    BlockInv (waitingAt .activation .busy 3 [false]) ∧
    look (fun t => t.stat.cstate) (step (waitingAt .activation .busy 3 [false])) = some .asleep ∧
    BlockInv running ∧ look (fun t => t.stat.cstate) (step { running with program := [{ word := 2, imgBw := [], imgRed := [] }], opIdx := 0 }) =
      some .ready := by
  refine ⟨by decide, by decide, waiting_inv _ _ (fun _ => rfl) (fun h => by cases h), by decide,
    waiting_inv _ _ (fun h => by cases h) (fun _ => rfl), by decide, witness_StepKeepsInvariant.1, by decide⟩

theorem witness_StepsAreWellFramed : BlockInv running ∧ look (fun t => t.trace) (step running) = some [] :=
  ⟨witness_StepKeepsInvariant.1, by decide⟩

theorem witness_StepKeepsAgreement :
    BlockInv running ∧ Agrees running ∧ (∀ b, faultGet running.fault b = false) ∧ look (fun t => t.opIdx) (step running) = some 2 ∧
    look (fun t => (t.stat.cstate, t.ctl.mode, t.ctl.busy))
      (step { running with program := [{ word := 0x20, imgBw := [], imgRed := [] }], opIdx := 0, ctl := { preparedCtl with busyPlan := [2] } }) =
      some (.busy, .active, true) := by
  refine ⟨witness_StepKeepsInvariant.1, ?_, fun b => by cases b <;> rfl, by decide, by decide⟩
  exact { attached := rfl, codes := by decide, reliable := rfl, sequential := rfl, released := by decide,
          notSending := (fun _ h => by cases h), view := fun _ => ⟨rfl, rfl⟩ }

end Sys2Proof.Tests
end

namespace Sys2Proof.Machine

/-! ## How an operation's ending leaves `FAULT` -/

@[simp] theorem refuse_fault (f : FaultBit) (s : State) : (refuse f s).fault = faultSet s.fault f := rfl
@[simp] theorem complete_fault (r : ResultWord) (s : State) : (complete r s).fault = s.fault := rfl
@[simp] theorem aborted_fault (f : FaultBit) (s : State) : (aborted f s).fault = s.fault := rfl

theorem Did.faults {s t : State} (h : Did s t) : faultLe s.fault t.fault := h.adds.faults

theorem Traffic.faults {s t : State} (h : Traffic s t) : faultLe s.fault t.fault := h.adds.faults

theorem Broken.faults {s u : State} (h : Broken s u) : faultLe s.fault u.fault := by
  obtain ⟨t, traffic, -, -, -, rfl⟩ := h
  simpa using traffic.faults

/-- However an operation ends, what it did before the end has only set bits, and the end itself writes none. -/
theorem Ended.faults {C : State → Prop} {W : WaitPoint → State → Prop} {s u : State} (h : Ended C W s u) :
    faultLe s.fault u.fault := by
  cases h with
  | completed t did _ e => subst e; simpa using did.faults
  | failed t did _ _ _ e => subst e; simpa using did.faults
  | stalled t did _ _ e => subst e; simpa using did.faults
  | waits t p n did _ e => subst e; simpa using did.faults

/-! ## What an instruction and a step do to `FAULT` -/

/-- Rule R32 for one instruction: a refusal sets its bit, and nothing an instruction does clears one. -/
theorem Ran.faults {i : Instr} {s t : State} (h : Ran i s t) : faultLe s.fault t.fault := by
  cases h with
  | refused f _ _ e => subst e; exact faultLe_faultSet _ _
  | surface _ _ f r _ e => subst e; exact faultLe_refl _
  | acquired _ _ begun r v w before _ after _ e =>
    subst e
    have hv : faultLe s.fault v.fault := before.faults
    have hw : faultLe v.fault w.fault := by cases begun <;> exact after.faults
    exact hv.trans hw
  | ended _ _ _ ended => exact ended.faults
  | bus _ traffic =>
    rcases traffic with whole | broken
    · exact whole.faults
    · exact broken.faults

/-- Rule R32 for one step, along what a step can do (`step_spec`). -/
theorem step_faults {s t : State} (hp : s.cfg.wf) (h : step s = .next t) : faultLe s.fault t.fault := by
  have hchunk : 1 ≤ s.cfg.maxChunk := by
    obtain ⟨-, -, -, -, hmax, -⟩ := hp
    omega
  rcases step_spec hp h with ⟨p, n, -, rfl⟩ | ⟨g, i, -, -, ran⟩ | ⟨op, i, -, -, -, -, ran⟩ | ⟨-, rfl⟩
  · exact (resumeWait_spec p n (s.setMicro .idle) hchunk).faults
  · exact ran.faults
  · exact ran.faults
  · exact faultLe_faultSet _ _

/-! ## Construction -/

theorem construct_of_wf {c : Params} (h : c.wf) : State.construct c = some (State.fresh c) := if_pos h

theorem faultGet_fresh (c : Params) (b : FaultBit) : faultGet (State.fresh c).fault b = false := by cases b <;> rfl

/-! The packed registers of a fresh block are 0 (rule R39); its registers do not depend on the parameters, so each is one closed
computation. -/

theorem packSurf_fresh (c : Params) : packSurf (State.fresh c).surf = 0 := by
  change packSurf (State.fresh referenceParams).surf = 0
  decide

theorem packStat_fresh (c : Params) : packStat (State.fresh c).stat = 0 := by
  change packStat (State.fresh referenceParams).stat = 0
  decide

theorem packFault_fresh (c : Params) : packFault (State.fresh c).fault = 0 := by
  change packFault (State.fresh referenceParams).fault = 0
  decide

/-- Settles O53: the step lemma for `FAULT`, and the register a constructed block starts with. -/
theorem faultsAreSticky : Obligations.FaultsAreSticky :=
  ⟨fun _ _ hp h => step_faults hp h, faultGet_fresh⟩

/-- Settles O11: legal parameters construct the fresh state, whose fields are the table's values. -/
theorem constructionState : Obligations.ConstructionState := by
  intro c hc
  exact ⟨State.fresh c, construct_of_wf hc, rfl, rfl, rfl, packSurf_fresh c, rfl, rfl, rfl, rfl, rfl, packStat_fresh c,
    packFault_fresh c, rfl, rfl, rfl, rfl, rfl⟩

end Sys2Proof.Machine

namespace Sys2Proof

/-! ## The worked encodings -/

/-- Settles O4, along the rows of rule R89: each legal word is one run of the decoder and one of the encoder, and each illegal
word meets its own ground of rule R79. -/
theorem workedEncodings : Obligations.WorkedEncodings := by
  refine ⟨?legal, ?colourThree, ?reservedBits⟩
  case legal =>
    intro wi row
    fin_cases row <;> exact ⟨by decide, by decide⟩
  case colourThree => decide
  case reservedBits => decide

end Sys2Proof

namespace Sys2Proof.Machine

/-! ## The chunks of a payload (rule R104) -/

@[simp] theorem chunks_length (size : Nat) (payload : List Byte) :
    (chunks size payload).length = chunkCount size payload.length := by simp [chunks]

@[simp] theorem chunk_length (size : Nat) (payload : List Byte) (k : Nat) :
    (chunk size payload k).length = min size (payload.length - k * size) := by simp [chunk]

theorem chunks_getElem?_eq_some {size : Nat} {payload ch : List Byte} {k : Nat} :
    (chunks size payload)[k]? = some ch ↔ k < chunkCount size payload.length ∧ chunk size payload k = ch := by
  simp [chunks, List.getElem?_eq_some_iff]

/-- A payload has a chunk number `k` exactly when chunk `k` would start inside it. -/
theorem lt_chunkCount_iff {size len k : Nat} (h : 1 ≤ size) : k < chunkCount size len ↔ k * size < len := by
  have hceil : chunkCount size len = len ⌈/⌉ size := (Nat.ceilDiv_eq_add_pred_div len size).symm
  rw [hceil, ← not_le, ceilDiv_le_iff_le_mul h, not_le, Nat.mul_comm]

/-- The sizes of the chunks: chunk `k` starts inside the payload, and a chunk `k + 1` exists exactly when bytes remain past the
`size` bytes of chunk `k`. -/
theorem chunk_sizes {size : Nat} {payload ch : List Byte} {k : Nat} (h : 1 ≤ size) (hk : (chunks size payload)[k]? = some ch) :
    (k + 1 < (chunks size payload).length → ch.length = size) ∧
    (k + 1 = (chunks size payload).length → ch.length = payload.length - k * size) ∧ 1 ≤ ch.length ∧ ch.length ≤ size := by
  obtain ⟨hlt, rfl⟩ := chunks_getElem?_eq_some.mp hk
  have hstart : k * size < payload.length := (lt_chunkCount_iff h).mp hlt
  have hnext := lt_chunkCount_iff (len := payload.length) (k := k + 1) h
  rw [Nat.succ_mul] at hnext
  rw [chunks_length, chunk_length]
  refine ⟨?full, ?last, ?nonempty, ?bounded⟩
  case full =>
    intro hmore
    have : k * size + size < payload.length := hnext.mp hmore
    omega
  case last =>
    intro hend
    have : ¬ k * size + size < payload.length := fun hmore => absurd (hnext.mpr hmore) (by omega)
    omega
  case nonempty => omega
  case bounded => exact min_le_left _ _

/-- Settles O41: the sizes follow from where each chunk starts, and the window is the trace of a reliable transaction. -/
theorem chunksConcatenate : Obligations.ChunksConcatenate := by
  refine ⟨fun size payload h => ⟨chunks_length size payload, chunks_flatten payload h, fun _ _ => chunk_sizes h⟩, ?window⟩
  case window =>
    intro s payload r hr hs hc
    refine ⟨s.sent r payload, frame_reliable hr hs hc, ?_⟩
    simp only [State.sent_trace, transactionEvents, List.append_assoc]

end Sys2Proof.Machine

namespace Sys2Proof.Machine

/-! ## What an acquisition and a deasserted CS do (rules R102, R117, R118) -/

section acquireNext
variable (s : State)

@[simp] theorem acquireNext_cfg : (acquireNext s).cfg = s.cfg := (acquireNext_adds s).1.cfg
@[simp] theorem acquireNext_stat : (acquireNext s).stat = s.stat := (acquireNext_adds s).2.stat
@[simp] theorem acquireNext_lines : (acquireNext s).lines = s.lines := (acquireNext_adds s).2.lines
@[simp] theorem acquireNext_trace : (acquireNext s).trace = s.trace := by unfold acquireNext; split <;> rfl

end acquireNext

/-- The backend answers `Acquire()` without looking at `INOP`. -/
theorem acquireOk_setInop (b : Bool) (s : State) : acquireOk (s.setInop b) = acquireOk s := rfl

theorem acquireNext_setInop (b : Bool) (s : State) : acquireNext (s.setInop b) = (acquireNext s).setInop b := by
  unfold acquireNext
  rw [State.setInop_env]
  split <;> rfl

theorem acquireNext_sequential {s : State} (hs : SequentialHost s) : SequentialHost (acquireNext s) :=
  (acquireNext_adds s).1.early hs

/-- `Acquire()` with the sequential host. -/
theorem acquire_sequential {s : State} (hs : SequentialHost s) :
    acquire s = (acquireNext s).record (.acquire (acquireOk s)) :=
  emit_sequential (acquireNext_sequential hs)

/-- Only RST reaches the reference controller by its level (rules R120, R222). -/
theorem lineEffect_cs (v : Level) (s : State) : lineEffect .cs v s = s := if_neg (by simp)

/-- The state after CS is driven to its inactive level, where the block manages it (rule R102). -/
def State.csReleased (s : State) : State :=
  { s with
    trace := s.trace ++ (if csManaged s.cfg then [.line .cs (!s.cfg.csActive)] else [])
    lines := { s.lines with cs := if csManaged s.cfg then some (!s.cfg.csActive) else s.lines.cs } }

theorem csDeassert_sequential {s : State} (hs : SequentialHost s) : csDeassert s = s.csReleased := by
  unfold csDeassert State.csReleased
  split
  case isTrue managed =>
    unfold driveLine
    rw [lineEffect_cs]
    exact emit_sequential hs
  case isFalse free => rw [List.append_nil]

/-! ## `BEGIN` (rule R117) -/

theorem complete_eq_completedWith (r : ResultWord) (s : State) : complete r s = completedWith r s := rfl

/-- A completion clears `INOP`, so nothing is left of the value the operation ran under (rule R256 step 5). -/
theorem completedWith_setInop (r : ResultWord) (b : Bool) (s : State) :
    completedWith r (s.setInop b) = completedWith r s := rfl

theorem exec_beginOp_idle {s : State} (h : Idle s) : exec .beginOp s = .next (beginBody (s.setInop true)) :=
  hostOp_idle h

theorem beginBody_begun {s : State} (hb : s.stat.begun = true) : beginBody s = completedWith 1 s := by
  unfold beginBody
  rw [if_pos hb]
  exact complete_eq_completedWith 1 s

theorem beginBody_acquired {s : State} (hs : SequentialHost s) (hb : s.stat.begun = false) (ha : acquireOk s = true) :
    beginBody s = completedWith 1 (((acquireNext s).record (.acquire true)).setBegun.csReleased) := by
  have hs' : SequentialHost ((acquireNext s).record (.acquire true)).setBegun := acquireNext_sequential hs
  unfold beginBody
  rw [if_neg (by simp [hb]), if_pos ha, acquire_sequential hs, ha, csDeassert_sequential hs']
  exact complete_eq_completedWith 1 _

theorem beginBody_refused {s : State} (hs : SequentialHost s) (hb : s.stat.begun = false) (ha : acquireOk s = false) :
    beginBody s = completedWith 0 (((acquireNext s).record (.acquire false)).raise .setupFail) := by
  unfold beginBody
  rw [if_neg (by simp [hb]), if_neg (by simp [ha]), acquire_sequential hs, ha]
  exact complete_eq_completedWith 0 _

/-- Settles O20: the body of `BEGIN` runs under `INOP = 1`, in one of three cases; the completion clears `INOP` again. -/
theorem beginAcquires : Obligations.BeginAcquires := by
  refine ⟨fun s idle sequential => ?_, by decide, fun _ => rfl⟩
  have sequential' : SequentialHost (s.setInop true) := sequential
  rw [exec_beginOp_idle idle]
  refine ⟨fun begun => ?already, fun notBegun granted => ?acquired, fun notBegun denied => ?notAcquired⟩
  case already => rw [beginBody_begun (s := s.setInop true) begun, completedWith_setInop]
  case acquired =>
    rw [beginBody_acquired sequential' notBegun (by rwa [acquireOk_setInop]), acquireNext_setInop]
    simp [State.csReleased, State.record, State.setBegun, State.setInop, completedWith]
  case notAcquired =>
    rw [beginBody_refused sequential' notBegun (by rwa [acquireOk_setInop]), acquireNext_setInop]
    simp [State.record, State.raise, faultSet, State.setInop, completedWith, acquireNext_fault]

end Sys2Proof.Machine

namespace Sys2Proof.Machine

/-! ## The rows of a flip (rules R141, R142) -/

/-- Row `y` of the source is row `z` of the flip, where `y + z = h - 1`. -/
theorem flipRows_row {s y z i : Nat} (hi : i < s) : ∀ {h : Nat} {buf : List Byte}, buf.length = s * h → y + z + 1 = h →
    (flipRows s h buf)[z * s + i]? = buf[y * s + i]? := by
  intro h
  induction h generalizing y with
  | zero => intro buf _ hyz; omega
  | succ h ih =>
    intro buf hlen hyz
    rw [Nat.mul_succ] at hlen
    have rest : (buf.drop s).length = s * h := by rw [List.length_drop, hlen, Nat.add_sub_cancel]
    have front : (flipRows s h (buf.drop s)).length = s * h := flipRows_length s h _ rest
    rw [flipRows]
    cases y with
    | zero =>
      -- The first row of the source stands last, after the flip of the others.
      obtain rfl : z = h := by omega
      rw [List.getElem?_append_right (by rw [front, Nat.mul_comm]; exact Nat.le_add_right _ _), front, Nat.mul_comm s,
        Nat.add_sub_cancel_left, List.getElem?_take_of_lt hi, Nat.zero_mul, Nat.zero_add]
    | succ y =>
      have inside : z * s + i < s * h := calc
        z * s + i < (z + 1) * s := by rw [Nat.succ_mul]; omega
        _ ≤ h * s := Nat.mul_le_mul_right s (by omega)
        _ = s * h := Nat.mul_comm h s
      rw [List.getElem?_append_left (by rwa [front]), ih (y := y) rest (by omega), List.getElem?_drop, Nat.succ_mul]
      congr 1
      omega

/-- Rule R141: row `y` of a plane is row `H-1-y` of its flip. -/
theorem flip_row {c : Params} {buf : List Byte} {y i : Nat} (hlen : buf.length = planeBytes c) (hy : y < c.height)
    (hi : i < stride c) : (flip c buf)[(c.height - 1 - y) * stride c + i]? = buf[y * stride c + i]? :=
  flipRows_row hi hlen (by omega)

/-- Rule R142, row by row: the two flips move row `y` to row `H-1-y` and back. -/
theorem flip_flip_row {c : Params} {buf : List Byte} {y i : Nat} (hlen : buf.length = planeBytes c) (hy : y < c.height)
    (hi : i < stride c) : (flip c (flip c buf))[y * stride c + i]? = buf[y * stride c + i]? := by
  have back := flip_row (flip_length hlen) (show c.height - 1 - y < c.height by omega) hi
  rw [Nat.sub_sub_self (Nat.le_sub_one_of_lt hy)] at back
  rw [back, flip_row hlen hy hi]

/-- Byte `k` of a plane is byte `k mod S` of row `k div S`. -/
theorem planeBytes_row {c : Params} {k : Nat} (hk : k < planeBytes c) :
    k / stride c < c.height ∧ k % stride c < stride c ∧ k = k / stride c * stride c + k % stride c := by
  have hpos : 0 < stride c := Nat.pos_of_mul_pos_right (Nat.zero_lt_of_lt hk)
  exact ⟨Nat.div_lt_of_lt_mul hk, Nat.mod_lt k hpos, (Nat.div_add_mod' k (stride c)).symm⟩

theorem flip_flip {c : Params} {buf : List Byte} (hlen : buf.length = planeBytes c) : flip c (flip c buf) = buf := by
  have hlen2 : (flip c (flip c buf)).length = planeBytes c := flip_length (flip_length hlen)
  apply List.ext_getElem?
  intro k
  by_cases hk : k < planeBytes c
  · obtain ⟨hrow, hcol, hsplit⟩ := planeBytes_row hk
    rw [hsplit]
    exact flip_flip_row hlen hrow hcol
  · rw [List.getElem?_eq_none (by omega), List.getElem?_eq_none (by omega)]

/-- Settles O40: a byte of row `y` moves to row `H-1-y`, and back to row `y` under the second flip. -/
theorem flipIsItsOwnInverse : Obligations.FlipIsItsOwnInverse :=
  ⟨fun _ _ hlen => flip_flip hlen, fun _ _ _ _ hlen hy hi => ⟨flip_row hlen hy hi, Nat.sub_sub_self (Nat.le_sub_one_of_lt hy)⟩⟩

end Sys2Proof.Machine

namespace Sys2Proof.Machine

/-! ## Full frames on a reliable backend (rules R147 to R152) -/

/-- A full-frame operation writes two whole planes. -/
theorem FrameOp.lengths {s : State} {i : Instr} {bw red : List Byte} (h : FrameOp s i bw red) :
    bw.length = planeBytes s.cfg ∧ red.length = planeBytes s.cfg := by
  rcases h with ⟨-, rfl, rfl⟩ | ⟨-, rfl, rfl⟩ | ⟨op, bwP, redP, -, -, -, -, hbw, hred⟩
  · exact ⟨List.length_replicate, List.length_replicate⟩
  · exact ⟨List.length_replicate, List.length_replicate⟩
  · exact ⟨hbw, hred⟩

theorem planeSource_bw (c : Params) (op : HostOp) (present : Bool) :
    planeSource c (some op) present .bw = if present then op.imgBw else List.replicate (planeBytes c) 0xFF#8 := by
  cases present <;> rfl

theorem planeSource_red (c : Params) (op : HostOp) (present : Bool) :
    planeSource c (some op) present .red = if present then op.imgRed else List.replicate (planeBytes c) 0x00#8 := by
  cases present <;> rfl

/-- The buffers of a word fit exactly when each plane it writes from them is a whole plane (rule R81). -/
theorem currentImageFits_iff {s : State} {op : HostOp} (hop : s.fetch = some op) (bwP redP : Bool) :
    currentImageFits bwP redP s = true ↔ (planeSource s.cfg (some op) bwP .bw).length = planeBytes s.cfg ∧
      (planeSource s.cfg (some op) redP .red).length = planeBytes s.cfg := by
  rw [planeSource_bw, planeSource_red]
  cases bwP <;> cases redP <;> simp [currentImageFits, hop, imageFits]

/-- The three full-frame operations run one body on the planes they write. -/
theorem exec_frameOp {s : State} {i : Instr} {bw red : List Byte} (h : FrameOp s i bw red) :
    exec i s = hostOp (frameBody bw red) s := by
  rcases h with ⟨rfl, rfl, rfl⟩ | ⟨rfl, rfl, rfl⟩ | ⟨op, bwP, redP, hop, rfl, rfl, rfl, hbw, hred⟩
  · rfl
  · rfl
  · rw [← planeSource_bw] at hbw
    rw [← planeSource_red] at hred
    change execDisplayImage bwP redP s = _
    rw [execDisplayImage, if_pos ((currentImageFits_iff hop bwP redP).mpr ⟨hbw, hred⟩), hop, planeSource_bw, planeSource_red]
    rfl

section noteSequence
variable (ground : Bool) (s : State)

@[simp] theorem noteSequence_cfg : (noteSequence ground s).cfg = s.cfg := by cases ground <;> rfl
@[simp] theorem noteSequence_env : (noteSequence ground s).env = s.env := by cases ground <;> rfl
@[simp] theorem noteSequence_trace : (noteSequence ground s).trace = s.trace := by cases ground <;> rfl

end noteSequence

theorem frameBody_reliable {bw red : List Byte} {s : State} (hb : s.stat.begun = true) (hr : Reliable s) (hs : SequentialHost s)
    (hc : 1 ≤ s.cfg.maxChunk) (hbw : bw.length = planeBytes s.cfg) (hred : red.length = planeBytes s.cfg) :
    frameBody bw red s = complete 0#32 ((noteSequence (notReady s) s).frameWritten bw red) := by
  have hr' : Reliable (noteSequence (notReady s) s) := by rwa [Reliable, noteSequence_env]
  have hs' : SequentialHost (noteSequence (notReady s) s) := by rwa [SequentialHost, noteSequence_env]
  rw [← noteSequence_cfg (notReady s) s] at hc hbw hred
  rw [frameBody, requireBegun_begun hb, writeFrame_reliable hr' hs' hc hbw hred, Flow.finish_cont]

/-- The whole next state of a full-frame operation. -/
theorem exec_frameOp_reliable {s : State} {i : Instr} {bw red : List Byte} (h : FrameOp s i bw red) (hidle : Idle s)
    (hb : s.stat.begun = true) (hr : Reliable s) (hs : SequentialHost s) (hc : 1 ≤ s.cfg.maxChunk) :
    exec i s = .next (complete 0#32 ((noteSequence (notReady s) (s.setInop true)).frameWritten bw red)) := by
  obtain ⟨hbw, hred⟩ := h.lengths
  rw [exec_frameOp h, hostOp_idle hidle, frameBody_reliable (s := s.setInop true) hb hr hs hc hbw hred]
  rfl

@[simp] theorem complete_trace (r : ResultWord) (s : State) : (complete r s).trace = s.trace := rfl

/-- The trace of a full-frame operation (rules R145, R147). -/
theorem frameOp_trace {s : State} (bw red : List Byte) (hc : 1 ≤ s.cfg.maxChunk) :
    (complete 0#32 ((noteSequence (notReady s) (s.setInop true)).frameWritten bw red)).trace =
      s.trace ++ frameEvents s.cfg bw red := by
  rw [complete_trace, State.frameWritten_trace bw red (by simpa using hc)]
  simp

/-! ## How many events a transfer takes with CS managed (rules R113, R154) -/

section eventCounts
variable {c : Params} (managed : csManaged c = true)
include managed

/-- DC, CS asserted, the transfers, CS deasserted. -/
theorem transactionEvents_length (r : Role) (parts : List (List Byte)) :
    (transactionEvents c r parts).length = 3 + parts.length := by
  simp [transactionEvents, managed]
  omega

theorem cmdEvents_length (b : Byte) : (cmdEvents c b).length = 4 := transactionEvents_length managed .cmd [[b]]

theorem dataEvents_length (b : Byte) : (dataEvents c b).length = 4 := transactionEvents_length managed .data [[b]]

theorem blockEvents_length (bytes : List Byte) :
    (blockEvents c bytes).length = 3 + chunkCount c.maxChunk bytes.length := by
  rw [blockEvents, transactionEvents_length managed, chunks_length]

/-- A group is one transaction for its code and one for each data byte. -/
theorem groupEvents_length (code : Byte) (d : List Byte) : (groupEvents c code d).length = 4 * (1 + d.length) := by
  simp [groupEvents, cmdEvents_length managed, dataEvents_length managed, List.length_flatMap]
  omega

/-- The reseed is five one-byte transactions: two for X, three for Y. -/
theorem seedEvents_length (xb yr : Nat) : (seedEvents c xb yr).length = 20 := by
  rw [seedEvents, List.length_append, groupEvents_length managed, groupEvents_length managed]
  rfl

theorem planeEvents_length (p : Plane) (tb : List Byte) :
    (planeEvents c p tb).length = 27 + chunkCount c.maxChunk tb.length := by
  rw [planeEvents, List.length_append, List.length_append, seedEvents_length managed, cmdEvents_length managed,
    blockEvents_length managed]
  omega

theorem frameEvents_length {bw red : List Byte} (hbw : bw.length = planeBytes c) (hred : red.length = planeBytes c) :
    (frameEvents c bw red).length = 2 * (27 + chunkCount c.maxChunk (planeBytes c)) := by
  rw [frameEvents, List.length_append, planeEvents_length managed, planeEvents_length managed, flip_length hbw,
    flip_length hred]
  omega

end eventCounts

/-- The reference panel sends a plane in four transfers. -/
theorem chunkCount_referencePanel {c : Params} (hw : c.width = 400) (hh : c.height = 300) (hm : c.maxChunk = 4096) :
    chunkCount c.maxChunk (planeBytes c) = 4 := by
  rw [planeBytes, stride, hw, hh, hm]
  rfl

/-- Settles O32: the trace of the operation is the two planes' events, and each plane is counted transaction by transaction. -/
theorem fullFrameEventCount : Obligations.FullFrameEventCount := by
  refine ⟨?plane, ?frame⟩
  case plane =>
    intro c _ managed p tb hlen
    rw [planeEvents_length managed, hlen]
    rfl
  case frame =>
    intro s i bw red hframe hidle hb hr hs hwf managed
    obtain ⟨-, -, -, -, hmax, -⟩ := hwf
    have hc : 1 ≤ s.cfg.maxChunk := by omega
    obtain ⟨hbw, hred⟩ := hframe.lengths
    have count := congrArg List.length (frameOp_trace bw red hc)
    rw [List.length_append, frameEvents_length managed hbw hred] at count
    refine ⟨_, exec_frameOp_reliable hframe hidle hb hr hs hc, count, fun hw hh hm => ?_⟩
    have four := chunkCount_referencePanel hw hh hm
    rw [four] at count
    exact ⟨congrArg (27 + ·) four, count⟩

end Sys2Proof.Machine

namespace Sys2Proof.Machine

/-! ## The rotation maps and the bounds check (rules R168 to R170) -/

theorem inRange_iff_logical {c : Params} {r : Rotation} {x y : Int} : inRange c r x y = true ↔
    0 ≤ x ∧ x < (logicalWidth c r : Int) ∧ 0 ≤ y ∧ y < (logicalHeight c r : Int) := decide_eq_true_iff

/-- The logical grid is the preimage of the native grid: a quarter turn swaps the two axes along with the two extents, and a
reflection maps an extent to itself. -/
theorem inRange_iff_native {c : Params} {r : Rotation} {x y : Int} : inRange c r x y = true ↔
    0 ≤ (toNative c r x y).1 ∧ (toNative c r x y).1 < c.width ∧ 0 ≤ (toNative c r x y).2 ∧ (toNative c r x y).2 < c.height := by
  rw [inRange_iff_logical]
  cases r with
  | deg0 => exact Iff.rfl
  | deg90 | deg180 | deg270 =>
    simp only [toNative, logicalWidth, logicalHeight, rotEven, if_true, if_false, Bool.false_eq_true]
    omega

@[simp] theorem toLogical_toNative (c : Params) (r : Rotation) (x y : Int) :
    toLogical c r (toNative c r x y).1 (toNative c r x y).2 = (x, y) := by
  cases r <;> simp only [toNative, toLogical, sub_sub_cancel]

@[simp] theorem toNative_toLogical (c : Params) (r : Rotation) (nx ny : Int) :
    toNative c r (toLogical c r nx ny).1 (toLogical c r nx ny).2 = (nx, ny) := by
  cases r <;> simp only [toNative, toLogical, sub_sub_cancel]

theorem toNative_injective {c : Params} {r : Rotation} {x y x' y' : Int} (h : toNative c r x y = toNative c r x' y') :
    x = x' ∧ y = y' := by
  have back : (x, y) = (x', y') := by rw [← toLogical_toNative c r x y, h, toLogical_toNative]
  exact Prod.mk.inj back

/-- Settles O42: `toLogical` is a two-sided inverse, so `toNative` is one-to-one and reaches every pair, and the two grids
correspond (`inRange_iff_native`). -/
theorem rotationIsABijection : Obligations.RotationIsABijection := by
  refine ⟨fun _ _ _ => ⟨rfl, rfl, rfl, rfl⟩, toLogical_toNative, fun _ _ _ _ _ _ => toNative_injective,
    fun _ _ _ _ inside => inRange_iff_native.mp (inRange_iff_logical.mpr inside), ?onto⟩
  case onto =>
    intro c r nx ny inside
    have there := toNative_toLogical c r nx ny
    refine ⟨(toLogical c r nx ny).1, (toLogical c r nx ny).2, inRange_iff_logical.mp (inRange_iff_native.mpr ?_), there⟩
    rwa [there]

/-! ## `SET_PIXEL` outside the range (rule R170) -/

theorem pixelBody_outOfRange {x y : Int} {c : Colour} {s : State} (h : inRange s.cfg s.surf.rot x y = false) :
    pixelBody x y c s = .cont s := if_neg (by simp [h])

theorem exec_setPixel_idle {x y : Int} {c : Colour} {s : State} (h : Idle s) :
    exec (.setPixel x y c) s = .next ((pixelBody x y c (s.setInop true)).finish 0) :=
  hostOp_idle h

/-- Settles O35: both readings of the bounds check, and an out-of-range body that only completes. -/
theorem outOfRangePixelIsNothing : Obligations.OutOfRangePixelIsNothing := by
  refine ⟨fun _ _ _ _ => by rw [inRange_iff_logical, and_assoc], fun _ _ _ _ => by rw [inRange_iff_native, and_assoc], ?noOp⟩
  case noOp =>
    intro s x y c idle outside
    rw [exec_setPixel_idle idle, pixelBody_outOfRange (s := s.setInop true) outside, Flow.finish_cont,
      complete_eq_completedWith, completedWith_setInop]

/-! ## The pixel masks (rule R172) -/

/-- The shift count stays below 8, so the one bit is not shifted out of the byte. -/
theorem pixelMask_getLsbD (nx i : Nat) : (pixelMask nx).getLsbD i = true ↔ i = 7 - nx % 8 := by
  have inByte : 7 - nx % 8 < 8 := by omega
  rw [pixelMask, ← BitVec.twoPow_eq, BitVec.getLsbD_twoPow]
  simp [inByte, eq_comm]

/-- Equal masks have their one bit at the same place. -/
theorem pixelMask_eq_iff (nx nx' : Nat) : pixelMask nx = pixelMask nx' ↔ nx % 8 = nx' % 8 := by
  constructor
  · intro same
    have bit : (pixelMask nx').getLsbD (7 - nx % 8) = true := same ▸ (pixelMask_getLsbD nx _).mpr rfl
    have := (pixelMask_getLsbD nx' _).mp bit
    omega
  · intro residue
    rw [pixelMask, pixelMask, residue]

/-- Settles O43: the table is one closed computation, and a mask is determined by the place of its one bit. -/
theorem pixelMasksAreSingleBits : Obligations.PixelMasksAreSingleBits :=
  ⟨by decide, pixelMask_getLsbD, pixelMask_eq_iff⟩

end Sys2Proof.Machine

namespace Sys2Proof.Machine

/-! ## The surface operations and the queries (rules R189 to R196) -/

/-- A surface operation or a query: the whole next state of a body that only completes and does not look at `INOP`. -/
theorem hostOp_completes {s : State} {r : State → ResultWord} {f : State → State} (idle : Idle s)
    (hr : r (s.setInop true) = r s) (hf : f (s.setInop true) = (f s).setInop true) :
    hostOp (fun s => complete (r s) (f s)) s = .next (completedWith (r s) (f s)) := by
  rw [hostOp_idle idle, hr, hf, complete_eq_completedWith, completedWith_setInop]

/-- The three border setters run one body. -/
theorem hostOp_setBorder {s : State} (idle : Idle s) (c : Colour) :
    hostOp (fun s => complete 0#32 (setBorder c s)) s =
      .next (completedWith 0 { s with surf := { s.surf with border := c } }) :=
  hostOp_completes (r := fun _ => 0#32) idle rfl rfl

/-- A query changes nothing but the results. -/
theorem hostOp_query {s : State} {r : State → ResultWord} (idle : Idle s) (hr : r (s.setInop true) = r s) :
    hostOp (fun s => complete (r s) s) s = .next (completedWith (r s) s) :=
  hostOp_completes (f := id) idle hr rfl

/-- With a white border, `SURF` is the code of `ROT` alone (rule R23). -/
theorem packSurf_white (r : Rotation) : packSurf { rot := r, border := .white } = 0x00#8 ||| r.code.setWidth 8 := by
  cases r <;> decide

/-- Settles O14: one body for the three colours; the encodings and the examples are closed computations. -/
theorem borderSettersWriteBorder : Obligations.BorderSettersWriteBorder :=
  ⟨fun _ idle => ⟨hostOp_setBorder idle .white, hostOp_setBorder idle .black, hostOp_setBorder idle .red⟩,
    fun _ => ⟨rfl, rfl, rfl⟩, by decide, by decide, by decide, packSurf_white, by decide, by decide⟩

theorem rotEven_iff {r : Rotation} : rotEven r = true ↔ r = .deg0 ∨ r = .deg180 := by cases r <;> decide

theorem rotCode_eq_code (r : Rotation) : rotCode r = r.code := by cases r <;> rfl

/-- A logical extent is one of the panel's two extents, so the bound of the larger one holds for both (rules R7, R24). -/
theorem logical_le_of_wf {c : Params} (h : c.wf) (r : Rotation) : logicalWidth c r ≤ 32767 ∧ logicalHeight c r ≤ 32767 := by
  obtain ⟨-, hwidth, -, hheight, -⟩ := h
  unfold logicalWidth logicalHeight
  split <;> omega

/-- Settles O15: the three queries are read off `hostOp_query`. -/
theorem queriesReadTheSurface : Obligations.QueriesReadTheSurface := by
  refine ⟨fun s idle => ⟨?width, ?height, ?rotation⟩, fun _ r hwf => logical_le_of_wf hwf r, by decide, by decide, by decide,
    fun _ => ⟨rfl, rfl, rfl⟩⟩
  case width | height =>
    simp only [← rotEven_iff]
    exact hostOp_query idle rfl
  case rotation =>
    rw [← rotCode_eq_code]
    exact hostOp_query (r := fun s => (rotCode s.surf.rot).setWidth 32) idle rfl

/-! ## The status word (rule R196) -/

/-- `STAT'` reads `INOP` as 0, whatever it is. -/
theorem statusWord_setInop (b : Bool) (s : State) : statusWord (s.setInop b) = statusWord s := rfl

/-- A byte shifted by `n` has no bit at place `n + 8` or above. -/
theorem byte_shiftLeft_getLsbD (b : Byte) {n i : Nat} (h : n + 8 ≤ i) : (b.setWidth 32 <<< n).getLsbD i = false := by
  have above : b.getLsbD (i - n) = false := BitVec.getLsbD_of_ge b _ (by omega)
  rw [BitVec.getLsbD_shiftLeft, BitVec.getLsbD_setWidth, above, Bool.and_false, Bool.and_false]

/-- The three packed bytes of the status word end at bit 23. -/
theorem statusWord_getLsbD_of_ge (s : State) {i : Nat} (h : 24 ≤ i) : (statusWord s).getLsbD i = false := by
  have fault := byte_shiftLeft_getLsbD (packFault s.fault) (n := 16) h
  have stat := byte_shiftLeft_getLsbD (packStat { s.stat with inop := false }) (n := 8) (show 16 ≤ i by omega)
  have surf := byte_shiftLeft_getLsbD (packSurf s.surf) (n := 0) (show 8 ≤ i by omega)
  rw [BitVec.shiftLeft_zero] at surf
  rw [statusWord, BitVec.getLsbD_or, BitVec.getLsbD_or, fault, stat, surf, Bool.or_false, Bool.or_false]

/-- In a fresh block `FAULT` and `SURF` are 0 (rule R39), so the status word is `STAT'` alone. -/
theorem statusWord_fresh_stat (c : Params) (cstate : CState) (begun bw red inop : Bool) :
    statusWord { State.fresh c with stat := ⟨cstate, begun, bw, red, inop⟩ } =
      (packStat ⟨cstate, begun, bw, red, false⟩).setWidth 32 <<< 8 := by
  rw [statusWord, packFault_fresh, packSurf_fresh]
  simp

/-- Settles O16: the query returns the status word as it is packed, and the examples differ from a fresh block in `STAT` alone. -/
theorem getStatusReadsTheRegisters : Obligations.GetStatusReadsTheRegisters := by
  refine ⟨fun s idle => hostOp_query idle (statusWord_setInop true s), ?highByte, by decide, fun _ => rfl, ?fresh, ?examples⟩
  case highByte =>
    intro s
    apply BitVec.eq_of_getLsbD_eq
    intro i hi
    rw [BitVec.getLsbD_extractLsb', statusWord_getLsbD_of_ge s (by omega), Bool.and_false, BitVec.getLsbD_zero]
  case fresh => exact fun c => (statusWord_fresh_stat c .uninitialized false false false false).trans (by decide)
  case examples =>
    exact fun c b v =>
      ⟨(statusWord_fresh_stat c .uninitialized true false false b).trans (by decide),
        (statusWord_fresh_stat c .ready true false false v).trans (by decide),
        (statusWord_fresh_stat c .ready true true true v).trans (by decide),
        (statusWord_fresh_stat c .asleep true false false v).trans (by decide)⟩

end Sys2Proof.Machine

namespace Sys2Proof

/-! ## Decoding what was encoded (rules R75 to R78, R83 to R85) -/

/-- The decoder reads the fields that were joined. -/
theorem decodeHost_join (f : HostFields) : decodeHost (HostFields.join f) = decodeFields f := by
  rw [decodeHost, HostFields.split_join]

/-- A `SUB` byte with its reserved bits zero splits into them and its operand (rule R76). -/
theorem extractLsb'_sub (v : BitVec 2) :
    (0#6 ++ v : Byte).extractLsb' 2 6 = 0#6 ∧ (0#6 ++ v : Byte).extractLsb' 0 2 = v := by
  revert v; decide

theorem colourOfCode_code (c : Colour) : colourOfCode c.code = some c := by cases c <;> decide

/-- A pixel row reads the colour it was encoded with (rule R77). -/
theorem decodePixel_code (opc : Byte) (x y l : Half) (c : Colour) (i : Colour → Instr) :
    decodePixel { opc := opc, sub := 0#6 ++ c.code, x := x, y := y, l := l } i = .ok (i c) := by
  obtain ⟨reserved, operand⟩ := extractLsb'_sub c.code
  rw [decodePixel, if_pos (by exact reserved), HostFields.sub2, operand, colourOfCode_code]

/-- A host operation comes back from its word. -/
theorem decode_encode_host {p : Proto} {i : Instr} (hw : i.wf = true) (hh : Machine.isHostOp i = true) :
    decode p (encode p i) = .ok i := by
  cases i
  case setPixel x y c =>
    simp only [Instr.wf, Bool.and_eq_true] at hw
    obtain ⟨hx, hy⟩ := hw
    refine (decodeHost_join _).trans ((decodePixel_code _ _ _ _ c _).trans ?_)
    rw [toInt_ofInt_of_fits hx, toInt_ofInt_of_fits hy]
  case drawHline x y l c | drawVline x y l c =>
    simp only [Instr.wf, Bool.and_eq_true] at hw
    obtain ⟨⟨hx, hy⟩, hl⟩ := hw
    refine (decodeHost_join _).trans ((decodePixel_code _ _ _ _ c _).trans ?_)
    rw [toInt_ofInt_of_fits hx, toInt_ofInt_of_fits hy, toInt_ofInt_of_fits hl]
  case displayImage bwP redP => cases bwP <;> cases redP <;> rfl
  case setRotation r => cases r <;> rfl
  case beginOp | prepare | clearDisplay | fillBlack | displayNormal | displayFast | setWhiteBorder | setBlackBorder
    | setRedBorder | getWidth | getHeight | getRotation | getStatus => rfl
  all_goals cases hh

/-- A bus command comes back from its group, since its code is no other command's (rule R219). -/
theorem decode_encode_bus {p : Proto} {i : Instr} (hp : p.codes.Nodup) (hw : i.wf = true)
    (hh : Machine.isHostOp i = false) : decode p (encode p i) = .ok i := by
  cases i
  case displayUpdateControl1 d =>
    obtain ⟨a, d, rfl⟩ := List.exists_cons_of_ne_nil (l := d) (by rintro rfl; cases hw)
    exact Machine.decodeGroup_code hp .displayUpdateControl1 _
  case writeRamBw d =>
    obtain ⟨a, d, rfl⟩ := List.exists_cons_of_ne_nil (l := d) (by rintro rfl; cases hw)
    exact Machine.decodeGroup_code hp .writeRamBw _
  case writeRamRed d =>
    obtain ⟨a, d, rfl⟩ := List.exists_cons_of_ne_nil (l := d) (by rintro rfl; cases hw)
    exact Machine.decodeGroup_code hp .writeRamRed _
  case swReset => exact Machine.decodeGroup_code hp .swReset _
  case driverOutputControl => exact Machine.decodeGroup_code hp .driverOutputControl _
  case dataEntryMode => exact Machine.decodeGroup_code hp .dataEntryMode _
  case setRamXWindow => exact Machine.decodeGroup_code hp .setRamXWindow _
  case setRamYWindow => exact Machine.decodeGroup_code hp .setRamYWindow _
  case borderWaveform => exact Machine.decodeGroup_code hp .borderWaveform _
  case tempSensorSelect => exact Machine.decodeGroup_code hp .tempSensorSelect _
  case displayUpdateControl2 => exact Machine.decodeGroup_code hp .displayUpdateControl2 _
  case masterActivation => exact Machine.decodeGroup_code hp .masterActivation _
  case deepSleep => exact Machine.decodeGroup_code hp .deepSleep _
  case readRamOption => exact Machine.decodeGroup_code hp .readRamOption _
  case readRam => exact Machine.decodeGroup_code hp .readRam _
  case setRamXCounter => exact Machine.decodeGroup_code hp .setRamXCounter _
  case setRamYCounter => exact Machine.decodeGroup_code hp .setRamYCounter _
  all_goals cases hh

/-- Settles O1: a host operation's word splits into the fields it was joined from, and a bus group starts with a code that no
other command has. -/
theorem decodeOfEncode : Obligations.DecodeOfEncode := by
  intro p i hp hw
  obtain ⟨hcodes, -⟩ := hp
  cases hh : Machine.isHostOp i with
  | true => exact decode_encode_host hw hh
  | false => exact decode_encode_bus hcodes hw hh

/-! ## Encoding what was decoded -/

theorem code_rotationOfCode (v : BitVec 2) : (rotationOfCode v).code = v := by revert v; decide

/-- The presence bits of `DISPLAY_IMAGE` are the two bits of its operand (rule R81). -/
theorem ofBool_sub (v : Byte) : BitVec.ofBool (v.getLsbD 1) ++ BitVec.ofBool (v.getLsbD 0) = v.extractLsb' 0 2 := by
  revert v; decide

theorem code_of_colourOfCode {v : BitVec 2} {c : Colour} (h : colourOfCode v = some c) : c.code = v := by
  revert v c; decide

/-- A `SUB` byte with its reserved bits zero is its operand. -/
theorem sub_of_subHigh {v : Byte} (h : v.extractLsb' 2 6 = 0#6) : v = 0#6 ++ v.extractLsb' 0 2 := by
  revert v; decide

/-- A decoded row with no operand: the word is its opcode alone. -/
theorem decodePlain_ok {f : HostFields} {i j : Instr} (h : decodePlain f i = .ok j) :
    i = j ∧ HostFields.join f = plainWord f.opc := by
  obtain ⟨o, s, x, y, l⟩ := f
  unfold decodePlain at h
  split at h
  case isTrue zero =>
    obtain ⟨rfl, rfl, rfl, rfl⟩ := zero
    exact ⟨Decoded.ok.inj h, rfl⟩
  case isFalse => cases h

/-- A decoded row whose operand is `SUB[1:0]`: the word is its opcode and that operand. -/
theorem decodeSub_ok {f : HostFields} {i j : Instr} (h : decodeSub f i = .ok j) :
    i = j ∧ HostFields.join f = subWord f.opc f.sub2 := by
  obtain ⟨o, s, x, y, l⟩ := f
  unfold decodeSub at h
  split at h
  case isTrue zero =>
    obtain ⟨reserved, rfl, rfl, rfl⟩ := zero
    refine ⟨Decoded.ok.inj h, ?_⟩
    rw [subWord, HostFields.sub2, ← sub_of_subHigh reserved]
    rfl
  case isFalse => cases h

/-- A decoded pixel row: the word is its opcode, its colour and its operands. -/
theorem decodePixel_ok {f : HostFields} {i : Colour → Instr} {j : Instr} (h : decodePixel f i = .ok j) :
    ∃ c, i c = j ∧ HostFields.join f = pixelWord f.opc c f.x.toInt f.y.toInt f.l.toInt := by
  obtain ⟨o, s, x, y, l⟩ := f
  unfold decodePixel at h
  split at h
  case isTrue reserved =>
    split at h
    case h_1 c hc =>
      refine ⟨c, Decoded.ok.inj h, ?_⟩
      rw [pixelWord, code_of_colourOfCode hc, BitVec.ofInt_toInt, BitVec.ofInt_toInt, BitVec.ofInt_toInt,
        HostFields.sub2, ← sub_of_subHigh reserved]
    case h_2 => cases h
  case isFalse => cases h

/-- What a decoded word's instruction must meet: it has an encoding, and that encoding is the word. -/
def EncodesTo (i : Instr) (w : HostWord) : Prop := i.wf = true ∧ ∀ p, encode p i = .word w

section rows
variable {f : HostFields} {j : Instr} {o : Byte} (hopc : f.opc = o)
include hopc

theorem EncodesTo.of_plain {i : Instr} (h : decodePlain f i = .ok j) (hi : EncodesTo i (plainWord o)) :
    EncodesTo j (HostFields.join f) := by
  obtain ⟨rfl, e⟩ := decodePlain_ok h
  rwa [e, hopc]

theorem EncodesTo.of_sub {i : Instr} (h : decodeSub f i = .ok j) (hi : EncodesTo i (subWord o f.sub2)) :
    EncodesTo j (HostFields.join f) := by
  obtain ⟨rfl, e⟩ := decodeSub_ok h
  rwa [e, hopc]

theorem EncodesTo.of_pixel {i : Colour → Instr} (h : decodePixel f i = .ok j)
    (hi : ∀ c, EncodesTo (i c) (pixelWord o c f.x.toInt f.y.toInt f.l.toInt)) : EncodesTo j (HostFields.join f) := by
  obtain ⟨c, rfl, e⟩ := decodePixel_ok h
  rw [e, hopc]
  exact hi c

end rows

theorem ite_split {α : Type} {c : Prop} [Decidable c] {a b x : α} {Q : Prop} (h : (if c then a else b) = x)
    (ha : c → a = x → Q) (hb : b = x → Q) : Q := by
  split at h
  case isTrue hc => exact ha hc h
  case isFalse => exact hb h

/-- Row by row of the opcode map (rule R78). -/
theorem EncodesTo.of_decodeFields {f : HostFields} {i : Instr} (h : decodeFields f = .ok i) :
    EncodesTo i (HostFields.join f) := by
  unfold decodeFields at h
  refine ite_split h (fun e h => .of_plain e h ⟨rfl, fun _ => rfl⟩) fun h => ?_
  refine ite_split h (fun e h => .of_plain e h ⟨rfl, fun _ => rfl⟩) fun h => ?_
  refine ite_split h (fun e h => .of_sub e h ⟨rfl, fun _ => by rw [HostFields.sub2, ← ofBool_sub]; rfl⟩) fun h => ?_
  refine ite_split h (fun e h => .of_plain e h ⟨rfl, fun _ => rfl⟩) fun h => ?_
  refine ite_split h (fun e h => .of_plain e h ⟨rfl, fun _ => rfl⟩) fun h => ?_
  refine ite_split h (fun e h => .of_plain e h ⟨rfl, fun _ => rfl⟩) fun h => ?_
  refine ite_split h (fun e h => .of_plain e h ⟨rfl, fun _ => rfl⟩) fun h => ?_
  refine ite_split h (fun e h => ite_split h (fun hl h => .of_pixel e h fun c => ?_) fun h => by cases h) fun h => ?_
  · exact ⟨by simp [Instr.wf, fits_toInt], fun _ => by rw [hl]; rfl⟩
  refine ite_split h (fun e h => .of_pixel e h fun c => ⟨by simp [Instr.wf, fits_toInt], fun _ => rfl⟩) fun h => ?_
  refine ite_split h (fun e h => .of_pixel e h fun c => ⟨by simp [Instr.wf, fits_toInt], fun _ => rfl⟩) fun h => ?_
  refine ite_split h (fun e h => .of_sub e h ⟨rfl, fun _ => by rw [encode, code_rotationOfCode]; rfl⟩) fun h => ?_
  refine ite_split h (fun e h => .of_plain e h ⟨rfl, fun _ => rfl⟩) fun h => ?_
  refine ite_split h (fun e h => .of_plain e h ⟨rfl, fun _ => rfl⟩) fun h => ?_
  refine ite_split h (fun e h => .of_plain e h ⟨rfl, fun _ => rfl⟩) fun h => ?_
  refine ite_split h (fun e h => .of_plain e h ⟨rfl, fun _ => rfl⟩) fun h => ?_
  refine ite_split h (fun e h => .of_plain e h ⟨rfl, fun _ => rfl⟩) fun h => ?_
  refine ite_split h (fun e h => .of_plain e h ⟨rfl, fun _ => rfl⟩) fun h => ?_
  refine ite_split h (fun e h => .of_plain e h ⟨rfl, fun _ => rfl⟩) fun h => ?_
  cases h

theorem encode_of_decodeHost {w : HostWord} {i : Instr} (h : decodeHost w = .ok i) : EncodesTo i w := by
  have joined : EncodesTo i (HostFields.join (HostFields.split w)) := .of_decodeFields h
  rwa [HostFields.join_split] at joined

/-- A command and data that assemble are the encoding of what they assemble to. -/
theorem encode_of_assembleGroup {p : Proto} {c : BusCmd} {d : List Byte} {i : Instr} (h : assembleGroup c d = .ok i) :
    i.wf = true ∧ encode p i = .group (p.code c :: d) := by
  cases c
  case swReset | masterActivation | readRam =>
    rcases d with _ | ⟨a, d⟩ <;> cases h
    exact ⟨rfl, rfl⟩
  case dataEntryMode | borderWaveform | tempSensorSelect | displayUpdateControl2 | readRamOption | setRamXCounter =>
    rcases d with _ | ⟨a, _ | ⟨b, d⟩⟩ <;> cases h
    exact ⟨rfl, rfl⟩
  case setRamXWindow | setRamYCounter =>
    rcases d with _ | ⟨a, _ | ⟨b, _ | ⟨e, d⟩⟩⟩ <;> cases h
    exact ⟨rfl, rfl⟩
  case driverOutputControl =>
    rcases d with _ | ⟨a, _ | ⟨b, _ | ⟨e, _ | ⟨g, d⟩⟩⟩⟩ <;> cases h
    exact ⟨rfl, rfl⟩
  case setRamYWindow =>
    rcases d with _ | ⟨a, _ | ⟨b, _ | ⟨e, _ | ⟨g, _ | ⟨k, d⟩⟩⟩⟩⟩ <;> cases h
    exact ⟨rfl, rfl⟩
  case displayUpdateControl1 | writeRamBw | writeRamRed =>
    rcases d with _ | ⟨a, d⟩ <;> cases h
    exact ⟨rfl, rfl⟩
  case deepSleep =>
    cases h
    exact ⟨rfl, rfl⟩

/-- Settles O2: a word is joined from the fields its instruction is encoded into, and a group starts with the code that was
looked up. -/
theorem encodeOfDecode : Obligations.EncodeOfDecode := by
  intro p x i h
  cases x with
  | word w =>
    obtain ⟨wf, encodes⟩ := encode_of_decodeHost h
    exact ⟨wf, encodes p⟩
  | group g =>
    cases g with
    | nil => cases h
    | cons b d =>
      change decodeGroup p (b :: d) = .ok i at h
      rw [decodeGroup] at h
      split at h
      case h_1 c hc =>
        rw [← Machine.Proto.code_command hc]
        exact encode_of_assembleGroup h
      case h_2 => cases h

end Sys2Proof

namespace Sys2Proof

/-! ## The rows of the opcode table (rules R78, R79) -/

/-- A joined word meets a joined mask and match exactly when each field does. -/
theorem join_and_join_iff {f m b : HostFields} : HostFields.join f &&& HostFields.join m = HostFields.join b ↔
    { opc := f.opc &&& m.opc, sub := f.sub &&& m.sub, x := f.x &&& m.x, y := f.y &&& m.y, l := f.l &&& m.l } = b := by
  rw [Laws.TableRow.join_and_mask]
  constructor
  · intro h
    rw [← HostFields.split_join b, ← h, HostFields.split_join]
  · rintro rfl
    rfl

/-- The encoding of a host operation lies in the row of its mnemonic. -/
theorem hostRow_of_isHostOp {i : Instr} (h : Machine.isHostOp i = true) : Laws.TableRow.Statement i := by
  cases i
  case beginOp => exact Laws.TableRow.beginOp
  case prepare => exact Laws.TableRow.prepare
  case displayImage => exact Laws.TableRow.displayImage _ _
  case clearDisplay => exact Laws.TableRow.clearDisplay
  case fillBlack => exact Laws.TableRow.fillBlack
  case displayNormal => exact Laws.TableRow.displayNormal
  case displayFast => exact Laws.TableRow.displayFast
  case setPixel => exact Laws.TableRow.setPixel _ _ _
  case drawHline => exact Laws.TableRow.drawHline _ _ _ _
  case drawVline => exact Laws.TableRow.drawVline _ _ _ _
  case setRotation => exact Laws.TableRow.setRotation _
  case setWhiteBorder => exact Laws.TableRow.setWhiteBorder
  case setBlackBorder => exact Laws.TableRow.setBlackBorder
  case setRedBorder => exact Laws.TableRow.setRedBorder
  case getWidth => exact Laws.TableRow.getWidth
  case getHeight => exact Laws.TableRow.getHeight
  case getRotation => exact Laws.TableRow.getRotation
  case getStatus => exact Laws.TableRow.getStatus
  all_goals cases h

/-- Bits [9:8] of a word are the operand of its `SUB` byte (rule R76). -/
theorem extractLsb'_8_2 (w : HostWord) : w.extractLsb' 8 2 = (HostFields.split w).sub2 := by
  apply BitVec.eq_of_getLsbD_eq
  intro i hi
  simp only [HostFields.sub2, HostFields.split, BitVec.getLsbD_extractLsb', Nat.zero_add]
  simp [hi, show i < 8 by omega]

/-- A pixel word does not carry colour code 3. -/
theorem pixelWord_colour (o : Byte) (c : Colour) (x y l : Int) : (pixelWord o c x y l).extractLsb' 8 2 ≠ 3#2 := by
  rw [extractLsb'_8_2, pixelWord, HostFields.split_join, HostFields.sub2, (extractLsb'_sub c.code).2]
  cases c <;> decide

/-- The rows where colour code 3 is illegal. -/
theorem mnemonic_of_colour : ∀ r ∈ hostRows, r.colour = true → r.mnemonic ∈ ["SET_PIXEL", "DRAW_HLINE", "DRAW_VLINE"] := by
  decide

theorem EncodesTo.colour {i : Instr} {w : HostWord} (h : EncodesTo i w)
    (hm : i.mnemonic ∈ ["SET_PIXEL", "DRAW_HLINE", "DRAW_VLINE"]) : w.extractLsb' 8 2 ≠ 3#2 := by
  have e := h.2 Proto.reference
  cases i
  case setPixel | drawHline | drawVline =>
    rw [← Code.word.inj e]
    exact pixelWord_colour _ _ _ _ _
  all_goals simp [Instr.mnemonic] at hm

/-- A word that decodes meets its row. -/
theorem row_of_decodeHost {w : HostWord} {i : Instr} (h : decodeHost w = .ok i) :
    ∃ r ∈ hostRows, r.mnemonic = i.mnemonic ∧ w &&& r.mask = r.bits ∧ (r.colour = true → w.extractLsb' 8 2 ≠ 3#2) := by
  have encodes := encode_of_decodeHost h
  have row := hostRow_of_isHostOp (Machine.isHostOp_of_decodeHost h) encodes.1
  rw [encodes.2] at row
  obtain ⟨r, mem, name, meets⟩ := row
  exact ⟨r, mem, name, meets, fun hc => encodes.colour (name ▸ mnemonic_of_colour r mem hc)⟩

/-- Every word that meets a row, with no colour code 3 where the row excludes it, decodes to that row. -/
def HostRow.Decodes (r : HostRow) : Prop :=
  ∀ w : HostWord, w &&& r.mask = r.bits → (r.colour = true → w.extractLsb' 8 2 ≠ 3#2) →
    ∃ i, decodeHost w = .ok i ∧ i.mnemonic = r.mnemonic

/-- A row with no operand is one word. -/
theorem HostRow.decodes_plain {r : HostRow} (i : Instr) (hmask : r.mask = BitVec.allOnes 64) (h : decodeHost r.bits = .ok i)
    (hi : i.mnemonic = r.mnemonic) : r.Decodes := by
  intro w meets _
  rw [hmask, BitVec.and_allOnes] at meets
  exact ⟨i, meets ▸ h, hi⟩

theorem sub_of_mask {v : Byte} (h : v &&& 0xFC#8 = 0#8) : v = 0#6 ++ v.extractLsb' 0 2 := by
  revert v; decide

/-- A word of a row with an operand in `SUB[1:0]`: its opcode, that operand, and what the row leaves of the other fields. -/
theorem fields_of_row {w : HostWord} {o : Byte} {mx my ml : Half}
    (h : w &&& HostFields.join { opc := 0xFF, sub := 0xFC, x := mx, y := my, l := ml } =
      HostFields.join { opc := o, sub := 0, x := 0, y := 0, l := 0 }) :
    ∃ (v : BitVec 2) (x y l : Half), w = HostFields.join { opc := o, sub := 0#6 ++ v, x := x, y := y, l := l } ∧
      x &&& mx = 0 ∧ y &&& my = 0 ∧ l &&& ml = 0 := by
  rw [← HostFields.join_split w, join_and_join_iff] at h
  obtain ⟨opc, sub, hx, hy, hl⟩ := HostFields.mk.inj h
  have opc' : (HostFields.split w).opc = o := (BitVec.and_allOnes).symm.trans opc
  refine ⟨(HostFields.split w).sub2, _, _, _, ?_, hx, hy, hl⟩
  rw [← opc', HostFields.sub2, ← sub_of_mask sub]
  exact (HostFields.join_split w).symm

/-- A row whose operand is `SUB[1:0]` reads no other bit. -/
theorem decodeSub_code (o : Byte) (v : BitVec 2) (i : Instr) :
    decodeSub { opc := o, sub := 0#6 ++ v, x := 0, y := 0, l := 0 } i = .ok i :=
  if_pos ⟨(extractLsb'_sub v).1, rfl, rfl, rfl⟩

/-- A row whose operand is `SUB[1:0]` is four words. -/
theorem HostRow.decodes_sub {r : HostRow} {o : Byte}
    (hmask : r.mask = HostFields.join { opc := 0xFF, sub := 0xFC, x := 0xFFFF, y := 0xFFFF, l := 0xFFFF })
    (hbits : r.bits = HostFields.join { opc := o, sub := 0, x := 0, y := 0, l := 0 })
    (h : ∀ v : BitVec 2, ∃ i, decodeFields { opc := o, sub := 0#6 ++ v, x := 0, y := 0, l := 0 } = .ok i ∧
      i.mnemonic = r.mnemonic) : r.Decodes := by
  intro w meets _
  rw [hmask, hbits] at meets
  obtain ⟨v, x, y, l, rfl, hx, hy, hl⟩ := fields_of_row meets
  obtain rfl : x = 0 := (BitVec.and_allOnes).symm.trans hx
  obtain rfl : y = 0 := (BitVec.and_allOnes).symm.trans hy
  obtain rfl : l = 0 := (BitVec.and_allOnes).symm.trans hl
  rw [decodeHost_join]
  exact h v

/-- A code other than 3 is a colour's (rule R77). -/
theorem exists_code {v : BitVec 2} (h : v ≠ 3#2) : ∃ c : Colour, v = c.code := by
  revert v
  have : ∀ v : BitVec 2, v ≠ 3#2 → v = Colour.white.code ∨ v = Colour.black.code ∨ v = Colour.red.code := by decide
  intro v h
  rcases this v h with h | h | h
  · exact ⟨_, h⟩
  · exact ⟨_, h⟩
  · exact ⟨_, h⟩

/-- A pixel row: any coordinates, a colour, and a length where the row leaves it free. -/
theorem HostRow.decodes_pixel {r : HostRow} {o : Byte} {ml : Half} (hc : r.colour = true)
    (hmask : r.mask = HostFields.join { opc := 0xFF, sub := 0xFC, x := 0, y := 0, l := ml })
    (hbits : r.bits = HostFields.join { opc := o, sub := 0, x := 0, y := 0, l := 0 })
    (h : ∀ c x y l, l &&& ml = 0 →
      ∃ i, decodeFields { opc := o, sub := 0#6 ++ Colour.code c, x := x, y := y, l := l } = .ok i ∧
        i.mnemonic = r.mnemonic) : r.Decodes := by
  intro w meets colour
  rw [hmask, hbits] at meets
  obtain ⟨v, x, y, l, rfl, -, -, hl⟩ := fields_of_row meets
  have hv := colour hc
  rw [extractLsb'_8_2, HostFields.split_join, HostFields.sub2, (extractLsb'_sub v).2] at hv
  obtain ⟨c, rfl⟩ := exists_code hv
  rw [decodeHost_join]
  exact h c x y l hl

/-- Each of the 18 rows decodes. -/
theorem hostRows_decode : ∀ r ∈ hostRows, r.Decodes := by
  intro r hr
  fin_cases hr
  · exact HostRow.decodes_plain .beginOp rfl rfl rfl
  · exact HostRow.decodes_plain .prepare rfl rfl rfl
  · exact HostRow.decodes_sub (o := 0x10) (by decide) (by decide) fun v => ⟨_, decodeSub_code _ v _, rfl⟩
  · exact HostRow.decodes_plain .clearDisplay rfl rfl rfl
  · exact HostRow.decodes_plain .fillBlack rfl rfl rfl
  · exact HostRow.decodes_plain .displayNormal rfl rfl rfl
  · exact HostRow.decodes_plain .displayFast rfl rfl rfl
  · refine HostRow.decodes_pixel (o := 0x30) (ml := 0xFFFF) rfl (by decide) (by decide) fun c x y l hl => ?_
    obtain rfl : l = 0 := (BitVec.and_allOnes).symm.trans hl
    exact ⟨_, decodePixel_code _ _ _ _ c _, rfl⟩
  · exact HostRow.decodes_pixel (o := 0x31) (ml := 0) rfl (by decide) (by decide) fun c _ _ _ _ =>
      ⟨_, decodePixel_code _ _ _ _ c _, rfl⟩
  · exact HostRow.decodes_pixel (o := 0x32) (ml := 0) rfl (by decide) (by decide) fun c _ _ _ _ =>
      ⟨_, decodePixel_code _ _ _ _ c _, rfl⟩
  · exact HostRow.decodes_sub (o := 0x40) (by decide) (by decide) fun v => ⟨_, decodeSub_code _ v _, rfl⟩
  · exact HostRow.decodes_plain .setWhiteBorder rfl rfl rfl
  · exact HostRow.decodes_plain .setBlackBorder rfl rfl rfl
  · exact HostRow.decodes_plain .setRedBorder rfl rfl rfl
  · exact HostRow.decodes_plain .getWidth rfl rfl rfl
  · exact HostRow.decodes_plain .getHeight rfl rfl rfl
  · exact HostRow.decodes_plain .getRotation rfl rfl rfl
  · exact HostRow.decodes_plain .getStatus rfl rfl rfl

end Sys2Proof

namespace Sys2Proof.Machine

/-! ## One step, between operations and at a bus group (rules R18, R21, R249) -/

/-- A refusal is the state the refusing rules describe (rules R245, R258). -/
theorem refuse_eq_refusedWith (f : FaultBit) (s : State) : refuse f s = refusedWith f s := rfl

theorem step_idle_ok {s : State} {op : HostOp} {i : Instr} (hm : s.micro = .idle) (hf : s.fetch = some op)
    (hd : decodeHost op.word = .ok i) : step s = exec i s := by
  simp only [step, hm, hf, hd]

theorem step_idle_illegal {s : State} {op : HostOp} {e : DecodeError} (hm : s.micro = .idle) (hf : s.fetch = some op)
    (hd : decodeHost op.word = .illegal e) : step s = .next (refusedWith .illegalOp s) := by
  simp only [step, hm, hf, hd, refuse_eq_refusedWith]

theorem step_sending_ok {s : State} {g : List Byte} {i : Instr} (hm : s.micro = .sending g)
    (hd : decodeGroup s.cfg.proto g = .ok i) : step s = exec i (s.setMicro .idle) := by
  simp only [step, hm, hd]

/-- Settles O3: a decoded word meets the row of its instruction's encoding, and each row decodes by its own kind of operand. -/
theorem hostDecodingFollowsTable : Obligations.HostDecodingFollowsTable :=
  ⟨fun _ _ => row_of_decodeHost, fun w r mem => hostRows_decode r mem w, fun _ _ _ => step_idle_illegal⟩

/-- Settles O6. -/
theorem stepRunsHostWord : Obligations.StepRunsHostWord := fun _ _ _ => step_idle_ok

/-- Settles O7. -/
theorem stepRunsBusGroup : Obligations.StepRunsBusGroup := fun _ _ _ => step_sending_ok

/-- Settles O9: past the last word nothing is fetched, and bytes that are no group are refused where they would be sent. -/
theorem endOfProgramStops : Obligations.EndOfProgramStops := by
  refine ⟨fun s hm hend => ?programEnded, fun s g e hm hd => ?notABusGroup⟩
  case programEnded =>
    have nothing : s.fetch = none := List.getElem?_eq_none hend.ge
    simp only [step, hm, nothing]
  case notABusGroup => simp only [step, hm, hd]

/-- A pixel row excludes colour code 3, by its opcode (rule R79). -/
theorem colour_of_opcode : ∀ r ∈ hostRows, r.mask.extractLsb' 0 8 = 0xFF#8 ∧
    (r.bits.extractLsb' 0 8 = 0x30#8 ∨ r.bits.extractLsb' 0 8 = 0x31#8 ∨ r.bits.extractLsb' 0 8 = 0x32#8 →
      r.colour = true) := by
  decide

/-- A word that meets a row has its opcode. -/
theorem opcode_of_row {w : HostWord} {r : HostRow} (mem : r ∈ hostRows) (meets : w &&& r.mask = r.bits) :
    w.extractLsb' 0 8 = r.bits.extractLsb' 0 8 := by
  rw [← meets, BitVec.extractLsb'_and, (colour_of_opcode r mem).1]
  exact (BitVec.and_allOnes).symm

/-- A word that decodes to nothing is illegal. -/
theorem illegal_of_not_ok {w : HostWord} (h : ∀ i, decodeHost w ≠ .ok i) : ∃ e, decodeHost w = .illegal e := by
  cases hd : decodeHost w with
  | ok i => exact absurd hd (h i)
  | illegal e => exact ⟨e, rfl⟩

/-- A buffer of another length than a plane does not fit (rule R81). -/
theorem currentImageFits_false {s : State} {op : HostOp} {bwP redP : Bool} (hf : s.fetch = some op)
    (h : (bwP = true ∧ op.imgBw.length ≠ planeBytes s.cfg) ∨ (redP = true ∧ op.imgRed.length ≠ planeBytes s.cfg)) :
    currentImageFits bwP redP s = false := by
  rcases h with ⟨rfl, hl⟩ | ⟨rfl, hl⟩ <;> simp [currentImageFits, hf, imageFits, hl]

/-- Settles O8: a word that decodes would meet its row, with a colour in the pixel rows; and the buffers are checked first. -/
theorem illegalWordRefused : Obligations.IllegalWordRefused := by
  refine ⟨fun _ _ _ => step_idle_illegal, fun w none => ?noRow, fun w hopc hc => ?colourThree, fun s op bwP redP hf bad => ?buffer⟩
  case noRow =>
    refine illegal_of_not_ok fun i hi => ?_
    obtain ⟨r, mem, -, meets, -⟩ := row_of_decodeHost hi
    exact none r mem meets
  case colourThree =>
    refine illegal_of_not_ok fun i hi => ?_
    obtain ⟨r, mem, -, meets, colour⟩ := row_of_decodeHost hi
    rw [opcode_of_row mem meets] at hopc
    exact colour ((colour_of_opcode r mem).2 hopc) hc
  case buffer =>
    change execDisplayImage bwP redP s = _
    rw [execDisplayImage, currentImageFits_false hf bad]
    rfl

/-- Settles O5, command by command of rule R200. -/
theorem busCodesDecode : Obligations.BusCodesDecode := by
  intro r hr
  fin_cases hr <;> exact ⟨rfl, _, rfl, rfl⟩

end Sys2Proof.Machine

namespace Sys2Proof.Machine

/-! ## Placed words (log entry 6) -/

/-- The placed operation stands at its index. -/
theorem placeOp_getElem? (program : List HostOp) (k : Nat) (op : HostOp) : (placeOp program k op)[k]? = some op := by
  have before : (program.take k ++ List.replicate (k - program.length) ({ word := 0#64, imgBw := [], imgRed := [] } : HostOp)).length =
      k := by
    rw [List.length_append, List.length_take, List.length_replicate]
    omega
  rw [placeOp, List.getElem?_append_right before.le, before, Nat.sub_self]
  rfl

theorem withFetchWord_word (s : State) (w : HostWord) : s.withFetchWord 64 w.toNat = placeCode s (.word w) := by
  simp [State.withFetchWord, tableCode]

theorem withFetchWord_group (s : State) (b : Byte) :
    s.withFetchWord 8 b.toNat = s.setMicro (.sending (zeroGroup s.cfg.proto b)) := by
  simp [State.withFetchWord, tableCode, placeCode]

/-- Settles O10: a placed word is fetched at `opIdx`, and a placed group is the one about to be sent. -/
theorem placedWordIsRun : Obligations.PlacedWordIsRun := by
  refine ⟨fun s w i hi => ?word, fun s b i hi => ?group⟩
  case word =>
    rw [withFetchWord_word]
    exact step_idle_ok (op := zeroHostOp s.cfg w) rfl (placeOp_getElem? _ _ _) hi
  case group =>
    rw [withFetchWord_group]
    exact step_sending_ok rfl hi

/-! ## Construction -/

/-- Settles O12: `construct` checks exactly the bounds of rules R7, R9, R200 and R219. -/
theorem onlyLegalParametersConstruct : Obligations.OnlyLegalParametersConstruct := by
  intro c
  have check : (State.construct c).isSome = true ↔ c.wf := by
    unfold State.construct
    split
    case isTrue h => exact iff_of_true rfl h
    case isFalse h => exact iff_of_false (by simp) h
  rw [check]
  unfold Params.wf Proto.wf
  tauto

/-- A block that has run nothing has the invariant: every condition is one on the fields of the fresh state. -/
theorem blockInv_fresh {c : Params} (h : c.wf) (prog : List HostOp) (env : Env) :
    BlockInv { State.fresh c with program := prog, env := env } where
  params := h
  ramBw := rfl
  ramRed := rfl
  inop := ⟨(fun h => by cases h), (fun ⟨_, _, h⟩ => by cases h)⟩
  waitReset _ h := by cases h
  waitBusy _ h := by cases h
  seen _ := ⟨by simp [State.fresh], by simp [State.fresh]⟩
  notBegun _ := ⟨rfl, rfl, rfl⟩
  count := rfl
  last := rfl
  csUnmanaged _ := rfl
  csIdle _ := by simp [State.fresh]
  buffer := List.length_replicate

theorem referenceParams_wf : referenceParams.wf := by decide

/-- Settles O56: `BlockInv` and `Agrees` speak of fields that construction sets, whatever the program and the environment. -/
theorem invariantAtConstruction : Obligations.InvariantAtConstruction :=
  ⟨fun _ prog env h => blockInv_fresh h prog env, blockInv_fresh referenceParams_wf [] Env.initial,
    fun _ _ _ h attached reliable sequential =>
      { attached := attached, codes := h.2.2.2.2.2, reliable := reliable, sequential := sequential, released := rfl,
        notSending := (fun _ h => by cases h), view := fun _ => rfl }⟩

/-! ## Refusals at the entry checks (rules R251, R255, R256) -/

/-- Settles O17: each operation's entry check refuses it while another one runs. -/
theorem concurrentWordRefused : Obligations.ConcurrentWordRefused := by
  intro i s hh hinop fits
  cases i
  case displayImage bwP redP =>
    change execDisplayImage bwP redP s = _
    rw [execDisplayImage, if_pos (fits bwP redP rfl), enterOp, if_pos hinop]
    rfl
  case beginOp | prepare | clearDisplay | fillBlack | displayNormal | displayFast | setPixel | drawHline | drawVline
    | setRotation | setWhiteBorder | setBlackBorder | setRedBorder | getWidth | getHeight | getRotation | getStatus =>
    exact hostOp_busy hinop
  all_goals cases hh

/-- The state after the refusal of a line-or-bus operation before `BEGIN` (rule R251). -/
theorem complete_notBegun (s : State) :
    complete 0#32 ((s.setInop true).raise .notBegun) =
      completedWith 0 { s with fault := { s.fault with notBegun := true } } := rfl

theorem hostOp_notBegun {s : State} (idle : Idle s) (hb : s.stat.begun = false) (body : State → State) :
    hostOp (requireBegun body) s = .next (completedWith 0 { s with fault := { s.fault with notBegun := true } }) := by
  rw [hostOp_idle idle, requireBegun_not (s := s.setInop true) hb, complete_notBegun]

theorem pixelBody_refused {x y : Int} {c : Colour} {s : State} (h : inRange s.cfg s.surf.rot x y = true)
    (hb : s.stat.begun = false) : pixelBody x y c s = .cont (s.raise .notBegun) := by
  rw [pixelBody, if_pos h, if_neg (by simp [hb])]

/-! ## Lines as runs of pixels (rules R179, R180) -/

/-- `n` steps from position `x` on. -/
def runFrom (f : Int → State → Flow) : Nat → Int → State → Flow
  | 0, _, s => .cont s
  | n + 1, x, s => (f x s).bind (runFrom f n (x + 1))

theorem hRun_eq_runFrom (y : Int) (c : Colour) (n : Nat) : hRun y c n = runFrom (fun x => pixelBody x y c) n := by
  induction n with
  | zero => rfl
  | succ n ih => funext x s; rw [hRun, runFrom, ih]

theorem vRun_eq_runFrom (x : Int) (c : Colour) (n : Nat) : vRun x c n = runFrom (fun y => pixelBody x y c) n := by
  induction n with
  | zero => rfl
  | succ n ih => funext y s; rw [vRun, runFrom, ih]

theorem exec_drawHline_idle {x y w : Int} {c : Colour} {s : State} (h : Idle s) : exec (.drawHline x y w c) s =
    .next ((runFrom (fun x => pixelBody x y c) w.toNat x (s.setInop true)).finish 0#32) := by
  rw [← hRun_eq_runFrom]
  exact hostOp_idle h

theorem exec_drawVline_idle {x y l : Int} {c : Colour} {s : State} (h : Idle s) : exec (.drawVline x y l c) s =
    .next ((runFrom (fun y => pixelBody x y c) l.toNat y (s.setInop true)).finish 0#32) := by
  rw [← vRun_eq_runFrom]
  exact hostOp_idle h

theorem range_succ_any (p : Int → Bool) (n : Nat) (x : Int) :
    (List.range (n + 1)).any (fun k => p (x + k)) = (p x || (List.range n).any (fun k => p (x + 1 + k))) := by
  rw [List.range_succ_eq_map, List.any_cons, List.any_map]
  simp [Function.comp_def, add_assoc, add_comm (1 : Int)]

/-- The positions of a run that are in range, and what refusing them does: the bit is set once or not at all. -/
theorem runFrom_refused {f : Int → State → Flow} {p : Int → Bool} {s : State}
    (hin : ∀ x t, t = s ∨ t = s.raise .notBegun → p x = true → f x t = .cont (s.raise .notBegun))
    (hout : ∀ x t, t = s ∨ t = s.raise .notBegun → p x = false → f x t = .cont t) (n : Nat) : ∀ x t,
    t = s ∨ t = s.raise .notBegun → runFrom f n x t =
      .cont (if (List.range n).any (fun k => p (x + k)) then s.raise .notBegun else t) := by
  induction n with
  | zero => intro x t _; rfl
  | succ n ih =>
    intro x t ht
    rw [runFrom, range_succ_any]
    cases hp : p x with
    | true =>
      rw [hin x t ht hp, Flow.bind_cont, ih _ _ (.inr rfl)]
      simp
    | false =>
      rw [hout x t ht hp, Flow.bind_cont, ih _ _ ht]
      simp

/-- A run of pixels before `BEGIN` (rule R251). -/
theorem completedWith_run_refused {f : Int → State → Flow} {p : Int → Bool} {s : State}
    (hin : ∀ x t, t.cfg = s.cfg → t.surf = s.surf → t.stat.begun = false → p x = true → f x t = .cont (t.raise .notBegun))
    (hout : ∀ x t, t.cfg = s.cfg → t.surf = s.surf → p x = false → f x t = .cont t) (hb : s.stat.begun = false) (n : Nat)
    (x : Int) : (runFrom f n x (s.setInop true)).finish 0#32 = completedWith 0
      (if (List.range n).any (fun k => p (x + k)) then { s with fault := { s.fault with notBegun := true } } else s) := by
  rw [runFrom_refused (s := s.setInop true) (p := p) ?_ ?_ n x _ (.inl rfl), Flow.finish_cont]
  · split <;> rfl
  · rintro x t (rfl | rfl) hp
    · exact hin x _ rfl rfl hb hp
    · exact hin x _ rfl rfl hb hp
  · rintro x t (rfl | rfl) hp
    · exact hout x _ rfl rfl hp
    · exact hout x _ rfl rfl hp

theorem exec_setPixel_refused {x y : Int} {c : Colour} {s : State} (idle : Idle s) (hb : s.stat.begun = false)
    (inside : inRange s.cfg s.surf.rot x y = true) : exec (.setPixel x y c) s =
      .next (completedWith 0 { s with fault := { s.fault with notBegun := true } }) := by
  rw [exec_setPixel_idle idle, pixelBody_refused (s := s.setInop true) inside hb, Flow.finish_cont]
  exact congrArg _ (complete_notBegun s)

/-- Settles O18: before `BEGIN` each body refuses, and a line refuses at its pixels in range. -/
theorem notBegunRefused : Obligations.NotBegunRefused := by
  intro s idle hb
  refine ⟨?operations, fun bwP redP fits => ?image, fun _ _ _ inside => exec_setPixel_refused idle hb inside, fun x y w c => ?hline, fun x y h c => ?vline⟩
  case operations =>
    intro i hi
    simp only [List.mem_cons, List.not_mem_nil, or_false] at hi
    rcases hi with rfl | rfl | rfl | rfl | rfl <;> exact hostOp_notBegun idle hb _
  case image =>
    change execDisplayImage bwP redP s = _
    rw [execDisplayImage, if_pos fits]
    exact hostOp_notBegun idle hb _
  case hline =>
    rw [exec_drawHline_idle idle]
    refine congrArg _ (completedWith_run_refused (p := fun x => inRange s.cfg s.surf.rot x y) ?_ ?_ hb w.toNat x)
    · exact fun x t hc hs hb hp => pixelBody_refused (by rwa [hc, hs]) hb
    · exact fun x t hc hs hp => pixelBody_outOfRange (by rwa [hc, hs])
  case vline =>
    rw [exec_drawVline_idle idle]
    refine congrArg _ (completedWith_run_refused (p := fun y => inRange s.cfg s.surf.rot x y) ?_ ?_ hb h.toNat y)
    · exact fun y t hc hs hb hp => pixelBody_refused (by rwa [hc, hs]) hb
    · exact fun y t hc hs hp => pixelBody_outOfRange (by rwa [hc, hs])

/-- Settles O39: a length of zero or less is a run of no pixel. -/
theorem emptyLineDrawsNothing : Obligations.EmptyLineDrawsNothing := by
  intro s x y w c idle hw
  rw [exec_drawHline_idle idle, exec_drawVline_idle idle, Int.toNat_of_nonpos hw]
  exact ⟨rfl, rfl⟩

/-- Settles O30: without a buffer the frame operations write the same default fills, whatever word is fetched. -/
theorem clearAndFillAreDisplayImage : Obligations.ClearAndFillAreDisplayImage := by
  refine ⟨fun s => ?clear, fun s op hf hbw => ?fill⟩
  case clear =>
    have fits : currentImageFits false false s = true := by
      unfold currentImageFits
      split <;> rfl
    change _ = execDisplayImage false false s
    rw [execDisplayImage, if_pos fits]
    cases s.fetch <;> rfl
  case fill =>
    have fits : currentImageFits true false s = true := by simp [currentImageFits, hf, imageFits, hbw]
    change _ = execDisplayImage true false s
    rw [execDisplayImage, if_pos fits, hf, planeSource_bw, if_pos rfl, hbw]
    rfl

/-! ## `SET_ROTATION` (rule R187) -/

theorem exec_setRotation_idle {r : Rotation} {s : State} (idle : Idle s) :
    exec (.setRotation r) s = .next (completedWith 0 { s with surf := { s.surf with rot := r } }) :=
  hostOp_completes (r := fun _ => 0#32) idle rfl rfl

/-- The row of opcode `0x40` leaves bits [63:10] zero. -/
theorem reserved_of_rotationRow : ∀ r ∈ hostRows, r.bits.extractLsb' 0 8 = 0x40#8 →
    r.mask.extractLsb' 10 54 = BitVec.allOnes 54 ∧ r.bits.extractLsb' 10 54 = 0#54 := by
  decide

theorem illegal_of_rotationReserved {w : HostWord} (hopc : w.extractLsb' 0 8 = 0x40#8) (hr : w.extractLsb' 10 54 ≠ 0#54) :
    ∃ e, decodeHost w = .illegal e := by
  refine illegal_of_not_ok fun i hi => hr ?_
  obtain ⟨r, mem, -, meets, -⟩ := row_of_decodeHost hi
  obtain ⟨ones, zero⟩ := reserved_of_rotationRow r mem ((opcode_of_row mem meets).symm.trans hopc)
  have := congrArg (BitVec.extractLsb' 10 54) meets
  rwa [BitVec.extractLsb'_and, ones, zero, BitVec.and_allOnes] at this

/-- Settles O13: the setter's whole next state, and what the next pixel sees of it. -/
theorem setRotationWritesRot : Obligations.SetRotationWritesRot := by
  refine ⟨fun p r => ?encoding, fun r s idle => exec_setRotation_idle idle, fun s op hm hf hopc hr => ?reserved,
    fun c r => ?extents, fun r s idle => ?pixels⟩
  case encoding => cases r <;> exact ⟨rfl, by decide⟩
  case reserved =>
    obtain ⟨e, he⟩ := illegal_of_rotationReserved hopc hr
    exact step_idle_illegal hm hf he
  case extents =>
    refine ⟨fun h => ?_, fun h => ?_⟩ <;> rcases h with rfl | rfl <;> exact ⟨rfl, rfl⟩
  case pixels =>
    obtain ⟨-, -, outOfRange⟩ := outOfRangePixelIsNothing
    exact ⟨_, exec_setRotation_idle idle, rfl, fun _ _ => rfl, fun x y c outside => outOfRange _ x y c rfl outside,
      fun x y c inside hb => exec_setPixel_refused rfl hb inside⟩

/-! ## A word issued while `BEGIN` runs (rules R255, R257) -/

/-- The concurrent host issues its next word after this event. -/
theorem hostTick_issues {s : State} {op : HostOp} (hi : s.stat.inop = true) (he : s.env.early = [0])
    (hp : s.program[s.opIdx + 1]? = some op) :
    hostTick s = refuse (if legalOp s.cfg op then .concurrent else .illegalOp) (s.setEnv { s.env with early := [] }) := by
  simp only [hostTick, hi, he, if_true, issueEarly, State.setEnv_program, State.setEnv_opIdx, State.setEnv_cfg, hp]
  exact (apply_ite (fun f => refuse f _) _ _ _).symm

section acquireNext
variable (s : State)

@[simp] theorem acquireNext_program : (acquireNext s).program = s.program := (acquireNext_adds s).1.program
@[simp] theorem acquireNext_surf : (acquireNext s).surf = s.surf := (acquireNext_adds s).1.surf
@[simp] theorem acquireNext_tb : (acquireNext s).tb = s.tb := (acquireNext_adds s).2.tb
@[simp] theorem acquireNext_opIdx : (acquireNext s).opIdx = s.opIdx := by unfold acquireNext; split <;> rfl
@[simp] theorem acquireNext_results : (acquireNext s).results = s.results := by unfold acquireNext; split <;> rfl
@[simp] theorem acquireNext_ctl : (acquireNext s).ctl = s.ctl := by unfold acquireNext; split <;> rfl
@[simp] theorem acquireNext_early : (acquireNext s).env.early = s.env.early := by unfold acquireNext; split <;> rfl

end acquireNext

/-- Settles O19: the acquisition's event is the one after which the word comes, and from there the host is sequential. -/
theorem earlyWordRefused : Obligations.EarlyWordRefused := by
  intro s op rest idle hb granted early hrest hop
  subst hrest
  have issued : acquire (s.setInop true) = refuse (if legalOp s.cfg op then .concurrent else .illegalOp)
      (((acquireNext (s.setInop true)).record (.acquire true)).setEnv
        { (acquireNext (s.setInop true)).env with early := [] }) := by
    unfold acquire emit
    rw [acquireOk_setInop, granted]
    refine (hostTick_issues (op := op) ?_ ?_ ?_).trans ?_
    · simp
    · simpa using early
    · simpa using hop
    · simp
  refine ⟨_, exec_beginOp_idle idle, ?_⟩
  rw [beginBody, if_neg (by simp [hb]), if_pos (by exact granted), issued, csDeassert_sequential rfl]
  simp [State.csReleased, complete, refuse, acquireNext_fault]

/-! ## Turns of a busy wait (rules R126, R127) -/

theorem step_waiting {s : State} {p : WaitPoint} {n : Nat} (h : s.micro = .waiting p n) :
    step s = .next (resumeWait p n (s.setMicro .idle)) := by
  simp only [step, h]

/-- The next sample does not look at the micro-sequencer. -/
theorem sampleNext_setMicro (m : Micro) (s : State) : sampleNext (s.setMicro m) = (sampleNext s).setMicro m := by
  have held : heldInReset (s.setMicro m) = heldInReset s := rfl
  unfold sampleNext
  rw [State.setMicro_cfg, State.setMicro_ctl, State.setMicro_env, held]
  by_cases h : s.cfg.attached = .reference ∧ Controller.answersBusy (heldInReset s) s.ctl = true
  · rw [if_pos h, if_pos h]
    rfl
  · rw [if_neg h, if_neg h]
    cases s.env.samples <;> rfl

/-- Settles O25: an asserted sample within the timeout ends the turn after its delay. -/
theorem waitKeepsPolling : Obligations.WaitKeepsPolling := by
  intro s p n hm hs asserted within
  have turn := poll_waits (p := p) (n := n) (rest := afterWait p) (s := s.setMicro .idle) hs asserted within
  rw [step_waiting hm, resumeWait, turn, Flow.finish_stop, sampleNext_setMicro]
  simp [State.setMicro, State.record]

/-- Losing the controller changes it and the draws alone. -/
theorem controllerLost_eq (s : State) : controllerLost s = s.setCtl (controllerLost s).ctl (controllerLost s).draws := by
  unfold controllerLost
  split <;> rfl

theorem controllerLost_oracle {s : State} (h : s.cfg.attached = .oracle) : controllerLost s = s := by
  unfold controllerLost
  rw [h]

theorem sampleNext_ctl_oracle {s : State} (h : s.cfg.attached = .oracle) : (sampleNext s).ctl = s.ctl := by
  unfold sampleNext
  rw [if_neg (by simp [h])]
  split <;> rfl

/-- A waiting operation where an asserted sample comes at the timeout: the bit and the log record, before the abort. -/
def State.stalled (s : State) : State :=
  { sampleNext s with
    trace := s.trace ++ [.sample s.cfg.busyActive, .log .stall]
    fault := { s.fault with stall := true }
    micro := .idle }

theorem step_stalls {s : State} {p : WaitPoint} {n : Nat} (hm : s.micro = .waiting p n) (hs : SequentialHost s)
    (asserted : busyAsserted s.cfg (sampleLevel s) = true) (hT : s.cfg.busyTimeoutMs ≠ 0) (reached : s.cfg.busyTimeoutMs ≤ n) :
    step s = .next (abort .stall (controllerLost s.stalled)) := by
  have turn := poll_stalls (p := p) (n := n) (rest := afterWait p) (s := s.setMicro .idle) hs asserted hT reached
  have same : ((((sampleNext (s.setMicro .idle)).record (.sample (s.setMicro .idle).cfg.busyActive)).raise .stall).record
      (.log .stall)) = s.stalled := by
    rw [sampleNext_setMicro]
    simp [State.stalled, State.record, State.raise, State.setMicro, faultSet]
  rw [same] at turn
  rw [step_waiting hm, resumeWait, turn, Flow.finish_stop]

/-- Settles O26: the stall's bit and record, and an abort with CS not asserted; only the controller is then any value. -/
theorem waitStallsAtTimeout : Obligations.WaitStallsAtTimeout := by
  intro s p n hm hs asserted hT reached hcs
  have csIdle : CsIdle (controllerLost s.stalled) := by
    rw [controllerLost_eq s.stalled]
    simpa [CsIdle, State.stalled] using hcs
  refine ⟨(controllerLost s.stalled).ctl, (controllerLost s.stalled).draws, fun ha => ?_, ?_⟩
  · rw [controllerLost_oracle (by simpa [State.stalled] using ha)]
    exact ⟨sampleNext_ctl_oracle ha, rfl⟩
  · rw [step_stalls hm hs asserted hT reached, abort_outside csIdle]
    generalize (controllerLost s.stalled).ctl = c, (controllerLost s.stalled).draws = d, controllerLost_eq s.stalled = e
    rw [e]
    simp [aborted, State.stalled, State.setCtl, State.setMicro, State.setCstate, State.finish, State.setInop, abortResult,
      faultCode]

/-- One asserted level of an oracle's script (log entry 5). -/
theorem step_waiting_oracle {s : State} {p : WaitPoint} {n : Nat} {rest : List Level} (hm : s.micro = .waiting p n)
    (hs : SequentialHost s) (ha : s.cfg.attached = .oracle) (hT : s.cfg.busyTimeoutMs = 0)
    (hl : s.env.samples = s.cfg.busyActive :: rest) : step s = .next { s with
      trace := s.trace ++ [.sample s.cfg.busyActive, .delay 1]
      micro := .waiting p (n + 1)
      env := { s.env with samples := rest } } := by
  have level : sampleLevel s = s.cfg.busyActive := sampleLevel_oracle ha (by rw [hl]; rfl)
  have taken : sampleNext s = s.setEnv { s.env with samples := rest } := by
    unfold sampleNext
    rw [if_neg (by simp [ha]), hl]
  rw [waitKeepsPolling s p n hm hs (by simp [busyAsserted, level]) (.inl hT), taken]
  rfl

/-- Settles O27, by induction on the number of asserted levels. -/
theorem stuckBusyNeverCompletes : Obligations.StuckBusyNeverCompletes := by
  intro k
  induction k with
  | zero =>
    intro s p n rest hm _ _ _ hl
    simp only [List.replicate_zero, List.nil_append, List.flatten_nil, List.append_nil, Nat.add_zero] at hl ⊢
    rw [← hl, ← hm]
    rfl
  | succ k ih =>
    intro s p n rest hm hs ha hT hl
    rw [run_next (M := core) (step_waiting_oracle hm hs ha hT hl)]
    refine Eq.trans (ih _ p (n + 1) rest ?_ ?_ ?_ ?_ ?_) ?_
    exacts [rfl, hs, ha, hT, rfl, by simp [List.replicate_succ, Nat.add_assoc, Nat.add_comm 1]]

end Sys2Proof.Machine

namespace Sys2Proof.Machine

/-! ## What every step keeps, and what it adds -/

/-- Going on from `s` to `t`: the parameters, the program and `BEGUN` stay, whole transactions and results are added, one result for
each advance of `opIdx`, and CS, the RAM and the transfer buffer stay as the invariant asks. -/
structure Advances (s t : State) : Prop where
  cfg : t.cfg = s.cfg
  program : t.program = s.program
  begun : s.stat.begun = true → t.stat.begun = true
  events : ∃ ev, t.trace = s.trace ++ ev ∧ Whole s.cfg ev
  results : ∃ rs, t.results = s.results ++ rs ∧ t.opIdx = s.opIdx + rs.length ∧ t.result = rs.getLastD s.result
  csFree : csManaged s.cfg = false → t.lines.cs = s.lines.cs
  csIdle : CsIdle s → CsIdle t
  ram : Controller.RamWf s.ctl → Controller.RamWf t.ctl
  buffer : s.tb.length = planeBytes s.cfg → t.tb.length = planeBytes s.cfg

theorem Advances.trans {s t u : State} (h1 : Advances s t) (h2 : Advances t u) : Advances s u where
  cfg := h2.cfg.trans h1.cfg
  program := h2.program.trans h1.program
  begun h := h2.begun (h1.begun h)
  events := by
    obtain ⟨xs, e1, w1⟩ := h1.events
    obtain ⟨ys, e2, w2⟩ := h2.events
    rw [h1.cfg] at w2
    exact ⟨xs ++ ys, by rw [e2, e1, List.append_assoc], w1.append w2⟩
  results := by
    obtain ⟨xs, e1, n1, l1⟩ := h1.results
    obtain ⟨ys, e2, n2, l2⟩ := h2.results
    refine ⟨xs ++ ys, by rw [e2, e1, List.append_assoc], by rw [n2, n1, List.length_append, Nat.add_assoc], ?_⟩
    rw [l2, l1]
    cases ys using List.reverseRecOn <;> simp
  csFree h := (h2.csFree (by rw [h1.cfg]; exact h)).trans (h1.csFree h)
  csIdle h := h2.csIdle (h1.csIdle h)
  ram h := h2.ram (h1.ram h)
  buffer h := by
    rw [← h1.cfg]
    exact h2.buffer (by rw [h1.cfg]; exact h1.buffer h)

/-- A change that emits nothing and gives the results `rs`. -/
theorem Advances.quiet {s t : State} (rs : List ResultWord) (cfg : t.cfg = s.cfg) (program : t.program = s.program)
    (begun : s.stat.begun = true → t.stat.begun = true) (trace : t.trace = s.trace) (results : t.results = s.results ++ rs)
    (opIdx : t.opIdx = s.opIdx + rs.length) (result : t.result = rs.getLastD s.result) (lines : t.lines = s.lines)
    (ctl : t.ctl = s.ctl) (tb : t.tb = s.tb) : Advances s t where
  cfg := cfg
  program := program
  begun := begun
  events := ⟨[], by rw [trace, List.append_nil], Whole.nil _⟩
  results := ⟨rs, results, opIdx, result⟩
  csFree _ := by rw [lines]
  csIdle h := by rwa [CsIdle, cfg, lines]
  ram h := by rwa [ctl]
  buffer h := by rwa [tb]

theorem Did.advances {s t : State} (h : Did s t) : Advances s t where
  cfg := h.adds.cfg
  program := h.adds.program
  begun hb := by rw [h.adds.begun]; exact hb
  events := h.adds.events
  results := by
    obtain ⟨k, results, opIdx, result, -⟩ := h.adds.words
    refine ⟨List.replicate k 0#32, results, by rw [opIdx, List.length_replicate], result.trans ?_⟩
    cases k with
    | zero => rfl
    | succ k => simp [List.replicate_succ']
  csFree := h.adds.csFree
  csIdle := h.cs
  ram := h.adds.ram
  buffer := h.adds.buffer

theorem setInop_advances (b : Bool) (s : State) : Advances s (s.setInop b) :=
  .quiet [] rfl rfl id rfl (List.append_nil _).symm rfl rfl rfl rfl rfl

theorem setMicro_advances (m : Micro) (s : State) : Advances s (s.setMicro m) :=
  .quiet [] rfl rfl id rfl (List.append_nil _).symm rfl rfl rfl rfl rfl

theorem setSurf_advances (f : Surf) (s : State) : Advances s (s.setSurf f) :=
  .quiet [] rfl rfl id rfl (List.append_nil _).symm rfl rfl rfl rfl rfl

theorem setBegun_advances (s : State) : Advances s s.setBegun :=
  .quiet [] rfl rfl (fun _ => rfl) rfl (List.append_nil _).symm rfl rfl rfl rfl rfl

theorem refuse_advances (f : FaultBit) (s : State) : Advances s (refuse f s) :=
  .quiet [0#32] rfl rfl id rfl rfl rfl rfl rfl rfl rfl

theorem complete_advances (r : ResultWord) (s : State) : Advances s (complete r s) :=
  .quiet [r] rfl rfl id rfl rfl rfl rfl rfl rfl rfl

theorem aborted_advances (f : FaultBit) (s : State) : Advances s (aborted f s) :=
  .quiet [abortResult f] rfl rfl id rfl rfl rfl rfl rfl rfl rfl

theorem Broken.advances {s u : State} (h : Broken s u) : Advances s u := by
  obtain ⟨t, traffic, -, -, -, rfl⟩ := h
  exact traffic.did.advances.trans (aborted_advances _ _)

theorem Ended.advances {C : State → Prop} {W : WaitPoint → State → Prop} {s u : State} (h : Ended C W s u) : Advances s u := by
  cases h with
  | completed t did _ e => exact e ▸ did.advances.trans (complete_advances _ _)
  | failed t did _ _ _ e => exact e ▸ did.advances.trans (aborted_advances _ _)
  | stalled t did _ _ e => exact e ▸ did.advances.trans (aborted_advances _ _)
  | waits t p n did _ e => exact e ▸ did.advances.trans (setMicro_advances _ _)

theorem Ran.advances {i : Instr} {s t : State} (h : Ran i s t) : Advances s t := by
  cases h with
  | refused f _ _ e => exact e ▸ refuse_advances f s
  | surface _ _ f r _ e =>
    exact e ▸ ((setInop_advances true s).trans (setSurf_advances f _)).trans (complete_advances r _)
  | acquired _ _ begun r v w before _ after _ e =>
    have acquisition : Advances v (if begun then v.setBegun else v) := by
      cases begun
      · exact (Did.refl v).advances
      · exact setBegun_advances v
    exact e ▸ ((((setInop_advances true s).trans before.advances).trans acquisition).trans after.advances).trans
      (complete_advances r _)
  | ended _ _ _ ended => exact (setInop_advances true s).trans ended.advances
  | bus _ traffic => exact traffic.elim (fun whole => whole.did.advances) Broken.advances

theorem one_le_maxChunk {c : Params} (h : c.wf) : 1 ≤ c.maxChunk := by
  obtain ⟨-, -, -, -, hmax, -⟩ := h
  omega

theorem step_advances {s t : State} (hp : s.cfg.wf) (h : step s = .next t) : Advances s t := by
  rcases step_spec hp h with ⟨p, n, -, rfl⟩ | ⟨g, i, -, -, ran⟩ | ⟨op, i, -, -, -, -, ran⟩ | ⟨-, rfl⟩
  · exact (setMicro_advances _ s).trans (resumeWait_spec p n (s.setMicro .idle) (one_le_maxChunk hp)).advances
  · exact (setMicro_advances _ s).trans ran.advances
  · exact ran.advances
  · exact refuse_advances _ s

/-- Settles O59: what a step adds is whole transactions. -/
theorem stepsAreWellFramed : Obligations.StepsAreWellFramed := by
  intro s t inv h
  obtain ⟨ev, trace, whole⟩ := (step_advances inv.params h).events
  exact ⟨ev, trace, whole.wellFramed⟩

/-! ## What a step does to `SURF` (rules R23, R199) -/

theorem Broken.surf {s u : State} (h : Broken s u) : u.surf = s.surf := by
  obtain ⟨t, traffic, -, -, -, rfl⟩ := h
  exact traffic.adds.surf

theorem Ended.surf {C : State → Prop} {W : WaitPoint → State → Prop} {s u : State} (h : Ended C W s u) : u.surf = s.surf := by
  cases h with
  | completed t did _ e => exact e ▸ did.adds.surf
  | failed t did _ _ _ e => exact e ▸ did.adds.surf
  | stalled t did _ _ e => exact e ▸ did.adds.surf
  | waits t p n did _ e => exact e ▸ did.adds.surf

theorem Ran.surf {i : Instr} {s t : State} (h : Ran i s t) : SurfaceOp i s.surf t.surf := by
  cases h with
  | refused f _ _ e => exact .inl (e ▸ rfl)
  | surface _ _ f r hf e => exact e ▸ hf
  | acquired _ _ begun r v w before _ after _ e =>
    have kept : w.surf = v.surf := by cases begun <;> exact after.adds.surf
    exact .inl (e ▸ kept.trans before.adds.surf)
  | ended _ _ _ ended => exact .inl ended.surf
  | bus _ traffic => exact .inl (traffic.elim (fun whole => whole.adds.surf) Broken.surf)

/-- A bus command is no surface operation. -/
theorem SurfaceOp.of_bus {i : Instr} {f g : Surf} (h : SurfaceOp i f g) (hh : isHostOp i = false) : g = f := by
  rcases h with h | ⟨r, rfl, -⟩ | ⟨rfl, -⟩ | ⟨rfl, -⟩ | ⟨rfl, -⟩
  · exact h
  all_goals cases hh

/-- Settles O54: what advances, and the surface operation a step may run. -/
theorem lifetimeFactsHold : Obligations.LifetimeFactsHold := by
  intro s t hp h
  have adv := step_advances hp h
  obtain ⟨ev, trace, -⟩ := adv.events
  obtain ⟨rs, results, opIdx, -⟩ := adv.results
  refine ⟨adv.cfg, adv.program, adv.begun, ⟨ev, trace.symm⟩, ⟨rs, results.symm⟩, ?count, by omega, adv.csFree, ?surf⟩
  case count =>
    rw [results, opIdx, List.length_append]
    omega
  case surf =>
    rcases step_spec hp h with ⟨p, n, -, rfl⟩ | ⟨g, i, -, bus, ran⟩ | ⟨op, i, hm, hf, hd, -, ran⟩ | ⟨-, rfl⟩
    · exact .inl (resumeWait_spec p n (s.setMicro .idle) (one_le_maxChunk hp)).surf
    · exact .inl (ran.surf.of_bus bus)
    · rcases ran.surf with same | ⟨r, rfl, e⟩ | ⟨rfl, e⟩ | ⟨rfl, e⟩ | ⟨rfl, e⟩
      · exact .inl same
      · exact .inr ⟨op, hm, hf, .inl ⟨r, hd, e⟩⟩
      · exact .inr ⟨op, hm, hf, .inr (.inl ⟨hd, e⟩)⟩
      · exact .inr ⟨op, hm, hf, .inr (.inr (.inl ⟨hd, e⟩))⟩
      · exact .inr ⟨op, hm, hf, .inr (.inr (.inr ⟨hd, e⟩))⟩
    · exact .inl rfl

/-! ## `STAT` and the busy wait (rules R27 to R29) -/

/-- `CSTATE` in a busy wait. -/
def waitState : WaitPoint → CState
  | .softReset => .reset
  | .activation => .busy

/-- The conditions of `BlockInv` on `STAT` and the micro-sequencer. -/
structure StatInv (st : Stat) (m : Micro) : Prop where
  inop : st.inop = true ↔ ∃ p n, m = .waiting p n
  waitReset : ∀ n, m = .waiting .softReset n → st.cstate = .reset
  waitBusy : ∀ n, m = .waiting .activation n → st.cstate = .busy
  seen : st.inop = false → st.cstate ≠ .reset ∧ st.cstate ≠ .busy
  notBegun : st.begun = false → st.cstate = .uninitialized ∧ st.ramvBw = false ∧ st.ramvRed = false

theorem BlockInv.stat {s : State} (h : BlockInv s) : StatInv s.stat s.micro :=
  ⟨h.inop, h.waitReset, h.waitBusy, h.seen, h.notBegun⟩

theorem BlockInv.of_advances {s t : State} (h : BlockInv s) (adv : Advances s t) (stat : StatInv t.stat t.micro) : BlockInv t where
  params := by rw [adv.cfg]; exact h.params
  ramBw := (adv.ram ⟨h.ramBw, h.ramRed⟩).1
  ramRed := (adv.ram ⟨h.ramBw, h.ramRed⟩).2
  inop := stat.inop
  waitReset := stat.waitReset
  waitBusy := stat.waitBusy
  seen := stat.seen
  notBegun := stat.notBegun
  count := by
    obtain ⟨rs, results, opIdx, -⟩ := adv.results
    rw [results, opIdx, List.length_append, h.count]
  last := by
    obtain ⟨rs, results, -, result⟩ := adv.results
    rw [result, results, h.last]
    cases rs using List.reverseRecOn <;> simp
  csUnmanaged hm := by
    rw [adv.cfg] at hm
    exact (adv.csFree hm).trans (h.csUnmanaged hm)
  csIdle := adv.csIdle h.csIdle
  buffer := by
    rw [adv.cfg]
    exact adv.buffer h.buffer

/-- A state that is not waiting, as the host sees it between operations. -/
theorem StatInv.of_idle {st : Stat} (hi : st.inop = false) (seen : st.cstate ≠ .reset ∧ st.cstate ≠ .busy)
    (notBegun : st.begun = false → st.cstate = .uninitialized ∧ st.ramvBw = false ∧ st.ramvRed = false) : StatInv st .idle where
  inop := ⟨(fun h => by rw [hi] at h; cases h), (fun ⟨_, _, h⟩ => by cases h)⟩
  waitReset _ h := by cases h
  waitBusy _ h := by cases h
  seen _ := seen
  notBegun := notBegun

/-- A state that waits after `BEGIN`. -/
theorem StatInv.of_waiting {st : Stat} {p : WaitPoint} {n : Nat} (hi : st.inop = true) (hb : st.begun = true)
    (hc : st.cstate = waitState p) : StatInv st (.waiting p n) where
  inop := ⟨fun _ => ⟨p, n, rfl⟩, fun _ => hi⟩
  waitReset _ h := by cases h; exact hc
  waitBusy _ h := by cases h; exact hc
  seen h := by rw [hi] at h; cases h
  notBegun h := by rw [hb] at h; cases h

theorem complete_statInv {r : ResultWord} {u : State} (seen : u.stat.cstate ≠ .reset ∧ u.stat.cstate ≠ .busy)
    (notBegun : u.stat.begun = false → u.stat.cstate = .uninitialized ∧ u.stat.ramvBw = false ∧ u.stat.ramvRed = false) :
    StatInv (complete r u).stat (complete r u).micro :=
  .of_idle rfl seen notBegun

theorem aborted_statInv {f : FaultBit} {u : State}
    (notBegun : u.stat.begun = false → u.stat.ramvBw = false ∧ u.stat.ramvRed = false) :
    StatInv (aborted f u).stat (aborted f u).micro :=
  .of_idle rfl ⟨by simp [aborted], by simp [aborted]⟩ fun h => ⟨rfl, notBegun h⟩

theorem setMicro_waiting_statInv {u : State} {p : WaitPoint} {n : Nat} (hi : u.stat.inop = true) (hb : u.stat.begun = true)
    (hc : u.stat.cstate = waitState p) :
    StatInv (u.setMicro (.waiting p n)).stat (u.setMicro (.waiting p n)).micro :=
  .of_waiting hi hb hc

/-- However an operation that has begun ends, `STAT` is as the invariant asks, if it is where it completes and where it waits. -/
theorem Ended.statInv {C : State → Prop} {W : WaitPoint → State → Prop} {s u : State} (h : Ended C W s u)
    (hb : s.stat.begun = true) (hi : s.stat.inop = true) (hC : ∀ t, C t → t.stat.cstate ≠ .reset ∧ t.stat.cstate ≠ .busy)
    (hW : ∀ p t, W p t → t.stat.cstate = waitState p) :
    StatInv u.stat u.micro := by
  have begun : ∀ t, Did s t → t.stat.begun = true := fun t did => did.adds.begun.trans hb
  have never : ∀ t, Did s t → ∀ {Q : Prop}, t.stat.begun = false → Q := fun t did _ h => by
    rw [begun t did] at h
    cases h
  cases h with
  | completed t did c e => exact e ▸ complete_statInv (hC t c) (never t did)
  | failed t did _ _ _ e => exact e ▸ aborted_statInv (never t did)
  | stalled t did _ _ e => exact e ▸ aborted_statInv (never t did)
  | waits t p n did w e => exact e ▸ setMicro_waiting_statInv (did.adds.inop.trans hi) (begun t did) (hW p t w)

/-- Where an operation completes, it does not stand in a wait. -/
theorem StatAfter.seen {i : Instr} {s : State} {st : Stat} (h : StatAfter i s st)
    (seen : s.stat.cstate ≠ .reset ∧ s.stat.cstate ≠ .busy) : st.cstate ≠ .reset ∧ st.cstate ≠ .busy := by
  rcases h with rfl | ⟨-, rfl⟩ | ⟨-, -, rfl⟩ | ⟨-, -, rfl⟩
  · exact seen
  · exact seen
  · exact ⟨by simp, by simp⟩
  · exact ⟨by simp, by simp⟩

theorem StatWaiting.cstate {i : Instr} {s : State} {p : WaitPoint} {st : Stat} (h : StatWaiting i s p st) :
    st.cstate = waitState p := by
  rcases h with ⟨-, -, rfl, rfl⟩ | ⟨-, -, rfl, rfl⟩ <;> rfl

theorem Ran.statInv {i : Instr} {s t : State} (h : Ran i s t) (inv : StatInv s.stat s.micro) (idle : s.micro = .idle) :
    StatInv t.stat t.micro := by
  have hi : s.stat.inop = false := by
    cases hinop : s.stat.inop with
    | false => rfl
    | true =>
      obtain ⟨p, n, waiting⟩ := inv.inop.mp hinop
      rw [idle] at waiting
      cases waiting
  have seen := inv.seen hi
  cases h with
  | refused f _ _ e => exact e ▸ inv
  | surface _ _ f r _ e => exact e ▸ complete_statInv seen inv.notBegun
  | acquired _ _ begun r v w _ before _ after e =>
    subst e
    refine complete_statInv ?_ fun h => ?_
    · rw [after]
      cases begun <;> (rw [apply_ite State.stat, State.setBegun_stat, before]; exact seen)
    · rw [after] at h ⊢
      cases begun with
      | true => cases h
      | false =>
        rw [if_neg (by simp), before] at h ⊢
        exact inv.notBegun h
  | ended _ _ hb ended =>
    cases begun : s.stat.begun with
    | false =>
      obtain ⟨u, rfl, hu⟩ := hb begun
      refine complete_statInv ?_ ?_ <;> rw [hu]
      · exact seen
      · exact inv.notBegun
    | true => exact ended.statInv begun rfl (fun _ after => after.seen seen) fun _ _ waits => waits.cstate
  | bus _ traffic =>
    rcases traffic with whole | ⟨u, whole, -, -, -, rfl⟩
    · rw [whole.stat, whole.adds.micro]
      exact inv
    · refine aborted_statInv fun h => ?_
      rw [whole.stat] at h ⊢
      exact (inv.notBegun h).2

/-- A wait has begun: before `BEGIN`, `CSTATE` is `Uninitialized`. -/
theorem StatInv.begun_of_waiting {st : Stat} {p : WaitPoint} {n : Nat} (h : StatInv st (.waiting p n)) : st.begun = true := by
  cases hb : st.begun with
  | true => rfl
  | false =>
    have := (h.notBegun hb).1
    cases p
    · rw [h.waitReset n rfl] at this; cases this
    · rw [h.waitBusy n rfl] at this; cases this

theorem StatInv.cstate_of_waiting {st : Stat} {p : WaitPoint} {n : Nat} (h : StatInv st (.waiting p n)) :
    st.cstate = waitState p := by
  cases p
  · exact h.waitReset n rfl
  · exact h.waitBusy n rfl

theorem resumeWait_statInv {s : State} {p : WaitPoint} {n : Nat} (hc : 1 ≤ s.cfg.maxChunk)
    (inv : StatInv s.stat (.waiting p n)) : StatInv (resumeWait p n s).stat (resumeWait p n s).micro := by
  refine (resumeWait_spec p n s hc).statInv inv.begun_of_waiting (inv.inop.mpr ⟨p, n, rfl⟩) (fun t done => ?_)
    fun q t waits => ?_
  · rw [done.1]
    cases p <;> exact ⟨by simp, by simp⟩
  · obtain ⟨rfl, stat⟩ := waits
    rw [stat]
    exact inv.cstate_of_waiting

/-- Settles O57: what advances keeps the invariant's other conditions, and each way a step goes keeps those on `STAT`. -/
theorem stepKeepsInvariant : Obligations.StepKeepsInvariant := by
  intro s t inv h
  have adv := step_advances inv.params h
  have stat := inv.stat
  refine inv.of_advances adv ?_
  rcases step_spec inv.params h with ⟨p, n, waiting, rfl⟩ | ⟨g, i, sending, -, ran⟩ | ⟨op, i, idle, -, -, -, ran⟩ | ⟨-, rfl⟩
  · rw [waiting] at stat
    exact resumeWait_statInv (s := s.setMicro .idle) (one_le_maxChunk inv.params) stat
  · rw [sending] at stat
    refine ran.statInv ?_ rfl
    have hi : s.stat.inop = false := by
      cases hinop : s.stat.inop with
      | false => rfl
      | true =>
        obtain ⟨p, n, waiting⟩ := stat.inop.mp hinop
        cases waiting
    exact .of_idle hi (stat.seen hi) stat.notBegun
  · exact ran.statInv stat idle
  · exact stat

end Sys2Proof.Machine

namespace Sys2Proof.Machine

/-! ## The changes of `CSTATE` (rule R28) -/

/-- An operation has aborted, with the abort's result (rules R247, R248, R252). -/
def AbortShown (t : State) : Prop :=
  t.stat.cstate = .uninitialized ∧ t.stat.inop = false ∧
    (t.result = 0x80000002#32 ∧ t.fault.busFail = true ∨ t.result = 0x80000003#32 ∧ t.fault.stall = true)

theorem aborted_busFail_shown {u : State} (h : u.fault.busFail = true) : AbortShown (aborted .busFail u) :=
  ⟨rfl, rfl, .inl ⟨rfl, h⟩⟩

theorem aborted_stall_shown {u : State} (h : u.fault.stall = true) : AbortShown (aborted .stall u) :=
  ⟨rfl, rfl, .inr ⟨rfl, h⟩⟩

theorem Broken.shown {s u : State} (h : Broken s u) : AbortShown u := by
  obtain ⟨t, -, -, fault, -, rfl⟩ := h
  exact aborted_busFail_shown fault

/-- How an operation that `CSTATE` tells of ends: it waits, or it has completed, or it has aborted. -/
def CstateMoved (i : Instr) (s t : State) : Prop :=
  (i = .prepare ∧ s.stat.begun = true ∧
    (t.stat.cstate = .reset ∧ t.stat.inop = true ∨ t.stat.cstate = .ready ∧ t.stat.inop = false)) ∨
  ((i = .displayNormal ∨ i = .displayFast) ∧ s.stat.begun = true ∧
    (t.stat.cstate = .busy ∧ t.stat.inop = true ∨ t.stat.cstate = .asleep ∧ t.stat.inop = false)) ∨
  AbortShown t

theorem StatAfter.moved {i : Instr} {s u : State} (h : StatAfter i s u.stat) (r : ResultWord)
    (ne : u.stat.cstate ≠ s.stat.cstate) : CstateMoved i s (complete r u) := by
  rcases h with e | ⟨-, e⟩ | ⟨begun, hi, e⟩ | ⟨begun, hi, e⟩
  · exact absurd (by rw [e]) ne
  · exact absurd (by rw [e]) ne
  · exact .inl ⟨hi, begun, .inr ⟨congrArg Stat.cstate e, rfl⟩⟩
  · exact .inr (.inl ⟨hi, begun, .inr ⟨congrArg Stat.cstate e, rfl⟩⟩)

theorem StatWaiting.moved {i : Instr} {s u : State} {p : WaitPoint} (h : StatWaiting i s p u.stat) (m : Micro) :
    CstateMoved i s (u.setMicro m) := by
  rcases h with ⟨begun, hi, -, e⟩ | ⟨begun, hi, -, e⟩
  · exact .inl ⟨hi, begun, .inl ⟨congrArg Stat.cstate e, congrArg Stat.inop e⟩⟩
  · exact .inr (.inl ⟨hi, begun, .inl ⟨congrArg Stat.cstate e, congrArg Stat.inop e⟩⟩)

theorem Ran.cstateMoved {i : Instr} {s t : State} (h : Ran i s t) (ne : t.stat.cstate ≠ s.stat.cstate) : CstateMoved i s t := by
  cases h with
  | refused f _ _ e => exact absurd (by rw [e]; rfl) ne
  | surface _ _ f r _ e => exact absurd (by rw [e]; rfl) ne
  | acquired _ _ begun r v w _ before _ after e =>
    have kept : w.stat.cstate = s.stat.cstate := by
      rw [after]
      cases begun <;> (rw [apply_ite State.stat, State.setBegun_stat, before]; rfl)
    exact absurd (by rw [e]; exact kept) ne
  | ended _ _ _ ended =>
    cases ended with
    | completed u _ after e =>
      subst e
      exact after.moved _ ne
    | failed u _ _ fault _ e => exact .inr (.inr (e ▸ aborted_busFail_shown fault))
    | stalled u _ _ fault e => exact .inr (.inr (e ▸ aborted_stall_shown fault))
    | waits u p n _ waits e => exact e ▸ waits.moved _
  | bus _ traffic =>
    rcases traffic with whole | broken
    · exact absurd (by rw [whole.stat]) ne
    · exact .inr (.inr broken.shown)

/-- A bus command changes `CSTATE` by an abort alone. -/
theorem CstateMoved.of_bus {i : Instr} {s t : State} (h : CstateMoved i s t) (hh : isHostOp i = false) : AbortShown t := by
  rcases h with ⟨rfl, -⟩ | ⟨rfl | rfl, -⟩ | shown
  · cases hh
  · cases hh
  · cases hh
  · exact shown

/-- `CSTATE` when the operation that waited has completed. -/
def doneState : WaitPoint → CState
  | .softReset => .ready
  | .activation => .asleep

/-- A turn of a wait that ends it leaves `Ready` or `Asleep`. -/
theorem resumeWait_moved {p : WaitPoint} {n : Nat} {s : State} (hc : 1 ≤ s.cfg.maxChunk)
    (ne : (resumeWait p n s).stat.cstate ≠ s.stat.cstate) :
    ((resumeWait p n s).stat.cstate = doneState p ∧
      (resumeWait p n s).stat.inop = false) ∨ AbortShown (resumeWait p n s) := by
  rcases resumeWait_spec p n s hc with ⟨u, -, done, e⟩ | ⟨u, -, -, fault, -, e⟩ | ⟨u, -, -, fault, e⟩ | ⟨u, q, k, -, waits, e⟩
  · exact .inl (e ▸ ⟨by cases p <;> exact done.1, rfl⟩)
  · exact .inr (e ▸ aborted_busFail_shown fault)
  · exact .inr (e ▸ aborted_stall_shown fault)
  · exact absurd (by rw [e, State.setMicro_stat, waits.2]) ne

/-- Settles O55: each way an instruction and a step go, with what they leave in `CSTATE`. -/
theorem cstateChangesOnlyByRule : Obligations.CstateChangesOnlyByRule := by
  constructor
  · intro i s t hp h ne
    rcases (exec_spec hp h).cstateMoved ne with ⟨hi, begun, waits | done⟩ | ⟨hi, begun, waits | done⟩ | ⟨cstate, -, shown⟩
    · exact .inl ⟨hi, begun, .inl waits⟩
    · exact .inl ⟨hi, begun, .inr done.1⟩
    · exact .inr (.inl ⟨hi, begun, .inl waits⟩)
    · exact .inr (.inl ⟨hi, begun, .inr done.1⟩)
    · exact .inr (.inr ⟨cstate, shown.imp And.left And.left⟩)
  · intro s t inv h ne
    rcases step_spec inv.params h with ⟨p, n, waiting, rfl⟩ | ⟨g, i, -, bus, ran⟩ | ⟨op, i, hm, hf, hd, -, ran⟩ | ⟨-, rfl⟩
    · rcases resumeWait_moved (s := s.setMicro .idle) (one_le_maxChunk inv.params) ne with done | shown
      · cases p with
        | softReset => exact .inr (.inr (.inl ⟨⟨n, waiting⟩, inv.waitReset n waiting, done⟩))
        | activation => exact .inr (.inr (.inr (.inl ⟨⟨n, waiting⟩, inv.waitBusy n waiting, done⟩)))
      · exact .inr (.inr (.inr (.inr shown)))
    · exact .inr (.inr (.inr (.inr ((ran.cstateMoved ne).of_bus bus))))
    · rcases ran.cstateMoved ne with ⟨rfl, begun, moved⟩ | ⟨hi, begun, moved⟩ | shown
      · exact .inl ⟨op, hm, hf, hd, begun, moved⟩
      · exact .inr (.inl ⟨op, hm, hf, hi.imp (fun (e : i = .displayNormal) => e ▸ hd) (fun (e : i = .displayFast) => e ▸ hd), begun, moved⟩)
      · exact .inr (.inr (.inr (.inr shown)))
    · exact absurd rfl ne

end Sys2Proof.Machine

namespace Sys2Proof.Machine

/-! ## The bus commands on a reliable backend (rules R83, R85, R105, R109) -/

theorem busGroup_reliable {code : Byte} {d : List Byte} {s : State} (hr : Reliable s) (hs : SequentialHost s)
    (hc : 1 ≤ s.cfg.maxChunk) : busGroup code d s = .next (s.sentGroup code d) := by
  rw [busGroup, group_reliable hr hs hc]
  rfl

theorem busBlock_reliable {code : Byte} {d : List Byte} {s : State} (hr : Reliable s) (hs : SequentialHost s)
    (hc : 1 ≤ s.cfg.maxChunk) : busBlock code d s = .next ((s.sent .cmd [code]).sent .data d) := by
  have data : frame .data d (s.sent .cmd [code]) = .cont ((s.sent .cmd [code]).sent .data d) := frame_reliable hr hs hc
  rw [busBlock, sendCommand, frame_reliable hr hs hc, Flow.bind_cont, sendDataBlock, List.take_length, data]
  rfl

theorem exec_readRam_reliable {s : State} (hr : Reliable s) (hs : SequentialHost s) (hc : 1 ≤ s.cfg.maxChunk) :
    exec .readRam s = .next ((s.sent .cmd [s.cfg.proto.readRam]).received 2) := by
  show execReadRam s = _
  rw [execReadRam, sendCommand, frame_reliable hr hs hc, Flow.bind_cont, readFrame_reliable (by exact hr) (by exact hs)]
  rfl

/-- The three forms of a bus command: a group, a RAM-write block, and the RAM read. -/
inductive BusForm (i : Instr) : Prop where
  | group (cmd : BusCmd) (d : List Byte) (exec : ∀ s, exec i s = busGroup (s.cfg.proto.code cmd) d s)
      (events : ∀ c rx, busEvents c rx i = groupEvents c (c.proto.code cmd) d)
  | block (pl : Plane) (d : List Byte) (exec : ∀ s, exec i s = busBlock (writeCode s.cfg.proto pl) d s)
      (events : ∀ c rx, busEvents c rx i = cmdEvents c (writeCode c.proto pl) ++ blockEvents c d)
  | read (e : i = .readRam)

theorem busForm {i : Instr} (h : isHostOp i = false) : BusForm i := by
  cases i
  case swReset => exact .group .swReset [] (fun _ => rfl) fun _ _ => rfl
  case driverOutputControl a b d => exact .group .driverOutputControl [a, b, d] (fun _ => rfl) fun _ _ => rfl
  case dataEntryMode a => exact .group .dataEntryMode [a] (fun _ => rfl) fun _ _ => rfl
  case setRamXWindow a b => exact .group .setRamXWindow [a, b] (fun _ => rfl) fun _ _ => rfl
  case setRamYWindow a b d e => exact .group .setRamYWindow [a, b, d, e] (fun _ => rfl) fun _ _ => rfl
  case borderWaveform a => exact .group .borderWaveform [a] (fun _ => rfl) fun _ _ => rfl
  case displayUpdateControl1 d => exact .group .displayUpdateControl1 d (fun _ => rfl) fun _ _ => rfl
  case tempSensorSelect a => exact .group .tempSensorSelect [a] (fun _ => rfl) fun _ _ => rfl
  case displayUpdateControl2 a => exact .group .displayUpdateControl2 [a] (fun _ => rfl) fun _ _ => rfl
  case masterActivation => exact .group .masterActivation [] (fun _ => rfl) fun _ _ => rfl
  case deepSleep d => exact .group .deepSleep d (fun _ => rfl) fun _ _ => rfl
  case writeRamBw d => exact .block .bw d (fun _ => rfl) fun _ _ => rfl
  case writeRamRed d => exact .block .red d (fun _ => rfl) fun _ _ => rfl
  case readRamOption a => exact .group .readRamOption [a] (fun _ => rfl) fun _ _ => rfl
  case readRam => exact .read rfl
  case setRamXCounter a => exact .group .setRamXCounter [a] (fun _ => rfl) fun _ _ => rfl
  case setRamYCounter a b => exact .group .setRamYCounter [a, b] (fun _ => rfl) fun _ _ => rfl
  all_goals cases h

/-- An oracle controller is no part of the state: bus traffic leaves `ctl` as it is. -/
theorem ctlAfter_oracle {s : State} (h : s.cfg.attached = .oracle) (r : Role) (bytes : List Byte) : ctlAfter s r bytes = s.ctl := by
  rw [ctlAfter, h]

theorem State.sentGroup_ctl_oracle {s : State} (h : s.cfg.attached = .oracle) (code : Byte) (d : List Byte) :
    (s.sentGroup code d).ctl = s.ctl := by
  rw [State.sentGroup_ctl, h]

theorem State.received_ctl_oracle {s : State} (h : s.cfg.attached = .oracle) (n : Nat) : (s.received n).ctl = s.ctl := by
  show (busIn true n s).ctl = s.ctl
  simp only [busIn, anyBytes_eq, h]
  rfl

theorem State.received_ctl_reference {s : State} (h : s.cfg.attached = .reference) (n : Nat) :
    (s.received n).ctl = (Controller.bytesOut s.cfg (heldInReset s) (anyBytes n s).2.draws s.ctl (anyBytes n s).1).2 := by
  show (busIn true n s).ctl = _
  simp only [busIn, anyBytes_eq, h]
  rfl

/-- Settles O44: the three forms, each by the lemma for its transactions. -/
theorem busCommandsSendTheirGroups : Obligations.BusCommandsSendTheirGroups := by
  intro s i hi hr hs hp
  have hc := one_le_maxChunk hp
  cases busForm hi with
  | group cmd d exec events =>
    refine ⟨_, (exec s).trans (busGroup_reliable hr hs hc), ?_, ?_⟩
    · rw [State.sentGroup_trace hc, events]
    · simp only [SameBlock, State.sentGroup_cs]
      refine ⟨by simp, by simp, by simp, by simp, by simp, by simp, by simp, fun ho => State.sentGroup_ctl_oracle ho _ _⟩
  | block pl d exec events =>
    refine ⟨_, (exec s).trans (busBlock_reliable hr hs hc), ?_, ?_⟩
    · rw [events, State.sent_trace, State.sent_trace, cmdEvents, blockEvents, State.sent_cfg, chunks_singleton _ hc, List.append_assoc]
    · refine ⟨by simp [SameBlock], rfl, rfl, rfl, rfl, rfl, ?_, fun ho => ?_⟩
      · by_cases hm : csManaged s.cfg <;> simp [hm]
      · rw [State.sent_ctl, ctlAfter_oracle (by exact ho), State.sent_ctl, ctlAfter_oracle ho]
  | read e =>
    subst e
    refine ⟨_, exec_readRam_reliable hr hs hc, ?_, ?_⟩
    · rw [State.received_trace, State.sent_trace, busEvents, cmdEvents, State.sent_cfg, chunks_singleton _ hc, List.append_assoc]
    · refine ⟨by simp [SameBlock], rfl, rfl, rfl, rfl, rfl, ?_, fun ho => ?_⟩
      · by_cases hm : csManaged s.cfg <;> simp [hm]
      · rw [State.received_ctl_oracle (by exact ho), State.sent_ctl, ctlAfter_oracle ho]

/-! ## The controllers that ignore the bus (rules R221, R222, R228) -/

/-- A controller that takes no bus byte: asleep, or held in reset. -/
abbrev Deaf (s : State) : Prop := s.ctl.mode = .asleep ∨ heldInReset s = true

theorem ctlAfter_deaf {s : State} (h : Deaf s) (r : Role) (bytes : List Byte) : ctlAfter s r bytes = s.ctl := by
  unfold ctlAfter
  split
  · rfl
  · exact Controller.bytesIn_ignored _ _ _ _ _ h

theorem ctlAfter_off {s : State} (h : s.ctl.mode = .off) (r : Role) (bytes : List Byte) : (ctlAfter s r bytes).mode = .off := by
  unfold ctlAfter
  split
  · exact h
  · exact Controller.bytesIn_off _ _ _ _ _ h

theorem State.sent_deaf {s : State} (h : Deaf s) (r : Role) (bytes : List Byte) :
    (s.sent r bytes).ctl = s.ctl ∧ Deaf (s.sent r bytes) := by
  have e : (s.sent r bytes).ctl = s.ctl := ctlAfter_deaf h r bytes
  exact ⟨e, by rwa [Deaf, e, heldInReset_sent]⟩

theorem State.sentGroup_deaf {s : State} (h : Deaf s) (code : Byte) (d : List Byte) : (s.sentGroup code d).ctl = s.ctl := by
  have cmd := State.sent_deaf h .cmd [code]
  rw [State.sentGroup, State.sentEach_ctl, ctlAfter_deaf cmd.2, cmd.1]

theorem State.sentGroup_off {s : State} (h : s.ctl.mode = .off) (code : Byte) (d : List Byte) :
    (s.sentGroup code d).ctl.mode = .off := by
  rw [State.sentGroup, State.sentEach_ctl]
  exact ctlAfter_off (ctlAfter_off h .cmd [code]) .data d

theorem State.received_deaf {s : State} (h : Deaf s) (n : Nat) : (s.received n).ctl = s.ctl := by
  cases ha : s.cfg.attached with
  | oracle => exact State.received_ctl_oracle ha n
  | reference =>
    rw [State.received_ctl_reference ha]
    exact Controller.bytesOut_ignored _ _ _ _ h

theorem State.received_off {s : State} (h : s.ctl.mode = .off) (n : Nat) : (s.received n).ctl.mode = .off := by
  cases ha : s.cfg.attached with
  | oracle => rwa [State.received_ctl_oracle ha n]
  | reference =>
    rw [State.received_ctl_reference ha]
    exact Controller.bytesOut_off _ _ _ _ h

/-- Settles O50: the three forms, each transaction ignored. -/
theorem sleepingControllerIgnores : Obligations.SleepingControllerIgnores := by
  intro s i hi hr hs hp _
  have hc := one_le_maxChunk hp
  cases busForm hi with
  | group cmd d exec _ =>
    exact ⟨_, (exec s).trans (busGroup_reliable hr hs hc), fun h => State.sentGroup_deaf h _ _, fun h => State.sentGroup_off h _ _⟩
  | block pl d exec _ =>
    refine ⟨_, (exec s).trans (busBlock_reliable hr hs hc), fun h => ?_, fun h => ctlAfter_off (ctlAfter_off h .cmd _) .data d⟩
    have cmd := State.sent_deaf h .cmd [writeCode s.cfg.proto pl]
    exact (State.sent_deaf cmd.2 .data d).1.trans cmd.1
  | read e =>
    subst e
    refine ⟨_, exec_readRam_reliable hr hs hc, fun h => ?_, fun h => State.received_off (ctlAfter_off h .cmd _) 2⟩
    have cmd := State.sent_deaf h .cmd [s.cfg.proto.readRam]
    exact (State.received_deaf cmd.2 2).trans cmd.1

/-! ## The bus commands on a listening controller (rules R201 to R217) -/

theorem proto_wf {c : Params} (h : c.wf) : c.proto.wf := by
  obtain ⟨-, -, -, -, -, hp⟩ := h
  exact hp

theorem attends_of_listening {s : State} (hl : Listening s) (hp : s.cfg.wf) (hd : CommandDone s.ctl) : Attends s := by
  obtain ⟨attached, active, idle, released⟩ := hl
  exact ⟨attached, (proto_wf hp).1, released, ⟨active, idle, hd⟩⟩

/-- A group on a controller that attends: the next state, and the controller after its bytes. -/
theorem Attends.busGroup {s : State} (h : Attends s) (hr : Reliable s) (hs : SequentialHost s) (hp : s.cfg.wf) {cmd : BusCmd}
    {d : List Byte} {c : Controller}
    (e : Controller.bytesIn s.cfg false .data (s.draws + 1) (Controller.byteIn s.cfg false .cmd s.draws s.ctl (s.cfg.proto.code cmd)) d = c) :
    ∃ t, Machine.busGroup (s.cfg.proto.code cmd) d s = .next t ∧ t.ctl = c :=
  ⟨_, busGroup_reliable hr hs (one_le_maxChunk hp), (h.group_ctl cmd d).trans e⟩

/-- A command with no data on a controller that attends. -/
theorem Attends.busCommand {s : State} (h : Attends s) (hr : Reliable s) (hs : SequentialHost s) (hp : s.cfg.wf) (cmd : BusCmd) :
    ∃ t, Machine.busGroup (s.cfg.proto.code cmd) [] s = .next t ∧
      t.ctl = Controller.start s.cfg { s.ctl with cmd := some cmd, got := 0 } s.draws cmd :=
  h.busGroup hr hs hp (Controller.group_eq h.codes h.ready _ cmd [])

theorem optionPlane_bw (p : Params) (n : Nat) : Controller.optionPlane p n p.proto.rroBw = .bw := by
  rw [Controller.optionPlane, if_pos rfl]

theorem optionPlane_red {p : Params} (h : p.proto.rroBw ≠ p.proto.rroRed) (n : Nat) :
    Controller.optionPlane p n p.proto.rroRed = .red := by
  rw [Controller.optionPlane, if_neg h.symm, if_pos rfl]

/-- Settles O45: each register command by the lemma for its group. -/
theorem settingCommandsWriteTheirField : Obligations.SettingCommandsWriteTheirField := by
  intro s hl hr hs hp hd
  have att := attends_of_listening hl hp hd
  have codes := att.codes
  have ready := att.ready
  refine ⟨?_, ?_, ?_, ?_, ?_, ?_, ?_, ?_, ?_, ?_, ?_⟩
  · exact fun a b d => att.busGroup hr hs hp (Controller.group_driverOutputControl codes ready _ a b d)
  · exact fun a => att.busGroup hr hs hp (Controller.group_dataEntryMode codes ready _ a)
  · exact fun a b => att.busGroup hr hs hp (Controller.group_setRamXWindow codes ready _ a b)
  · exact fun a b d e => att.busGroup hr hs hp (Controller.group_setRamYWindow codes ready _ a b d e)
  · exact fun a => att.busGroup hr hs hp (Controller.group_borderWaveform codes ready _ a)
  · exact fun d nonempty => att.busGroup hr hs hp (Controller.group_displayUpdateControl1 codes ready _ d nonempty)
  · exact fun a => att.busGroup hr hs hp (Controller.group_tempSensorSelect codes ready _ a)
  · exact fun a => att.busGroup hr hs hp (Controller.group_displayUpdateControl2 codes ready _ a)
  · intro a
    obtain ⟨t, e, ctl⟩ := att.busGroup hr hs hp (Controller.group_readRamOption codes ready _ a)
    refine ⟨t, _, e, ctl, ?_, ?_⟩ <;> rintro rfl
    · exact optionPlane_bw s.cfg _
    · exact optionPlane_red (proto_wf hp).2.1 _
  · exact fun a => att.busGroup hr hs hp (Controller.group_setRamXCounter codes ready _ a)
  · exact fun a b => att.busGroup hr hs hp (Controller.group_setRamYCounter codes ready _ a b)

@[simp] theorem Controller.startBusy_shown (c : Controller) (n : Nat) : (c.startBusy n).shown = c.shown := by
  unfold Controller.startBusy
  split <;> rfl

/-- The busy period that begins, whatever the plan (rule R226). -/
theorem Controller.startBusy_eq (c : Controller) (n : Nat) :
    ∃ k, (∀ m, c.busyPlan.head? = some m → k = m) ∧
      c.startBusy n = { c with busy := true, busyLeft := k, busyPlan := c.busyPlan.tail } := by
  unfold Controller.startBusy
  split
  · next k ks hp => exact ⟨k, by simp [hp], by rw [hp]; rfl⟩
  · next hp => exact ⟨Config.freeNat n 0, by simp [hp], by rw [hp]; rfl⟩

/-- Settles O46: the command byte of each power command, and the sleep at the end of its data. -/
theorem powerCommandsActOnController : Obligations.PowerCommandsActOnController := by
  intro s hl hr hs hp hd
  have att := attends_of_listening hl hp hd
  refine ⟨?_, ?_, fun d hlen => ?_⟩
  · obtain ⟨t, e, ctl⟩ := att.busCommand hr hs hp .swReset
    refine ⟨t, e, ?_⟩
    rw [ctl]
    simp only [Controller.start, Controller.startBusy_busy, Controller.startBusy_mode, Controller.startBusy_ramBw,
      Controller.startBusy_ramRed, Controller.startBusy_shown]
    exact ⟨trivial, att.ready.active, rfl, rfl, rfl⟩
  · obtain ⟨t, e, ctl⟩ := att.busCommand hr hs hp .masterActivation
    obtain ⟨k, plan, busy⟩ := Controller.startBusy_eq
      { s.ctl with cmd := some .masterActivation, got := 0, shown := some (Controller.image s.cfg s.ctl s.draws) } s.draws
    exact ⟨t, k, e, plan, ctl.trans busy⟩
  · obtain ⟨k, sleep⟩ := Controller.group_deepSleep att.codes att.ready s.draws (s.draws + 1) d hlen
    obtain ⟨t, e, ctl⟩ := att.busGroup hr hs hp sleep
    exact ⟨t, e, by rw [ctl]; rfl, by rw [ctl]; rfl, by rw [ctl]; rfl, by rw [ctl]; rfl⟩

/-! ## RAM writes and reads by themselves (rules R212, R213, R215) -/

/-- A RAM-write command on a controller that attends, in entry mode `0x01`. -/
theorem Attends.busBlock {s : State} (h : Attends s) (hr : Reliable s) (hs : SequentialHost s) (hp : s.cfg.wf) (hdem : s.ctl.dem = 0x01#8)
    (pl : Plane) (d : List Byte) :
    ∃ t, Machine.busBlock (writeCode s.cfg.proto pl) d s = .next t ∧
      t.ctl = { d.foldl (fun c b => Controller.ramWrite s.cfg c 0 pl b) s.ctl with cmd := some (writeCommand pl), got := d.length } :=
  ⟨_, busBlock_reliable hr hs (one_le_maxChunk hp), (h.ramWritten hdem pl d (t := s.sent .cmd [writeCode s.cfg.proto pl]) rfl rfl rfl).1⟩

@[simp] theorem Controller.ramWrite_bw (p : Params) (c : Controller) (n : Nat) (b : Byte) :
    (Controller.ramWrite p c n .bw b).ramBw = planeWrite p c.ramBw c.xc c.yc b ∧ (Controller.ramWrite p c n .bw b).ramRed = c.ramRed :=
  ⟨Controller.advance_ramBw _ n, Controller.advance_ramRed _ n⟩

@[simp] theorem Controller.ramWrite_red (p : Params) (c : Controller) (n : Nat) (b : Byte) :
    (Controller.ramWrite p c n .red b).ramRed = planeWrite p c.ramRed c.xc c.yc b ∧ (Controller.ramWrite p c n .red b).ramBw = c.ramBw :=
  ⟨Controller.advance_ramRed _ n, Controller.advance_ramBw _ n⟩

/-- Settles O47: the block byte by byte, and the read of a plane after a write. -/
theorem ramWriteCommandsStore : Obligations.RamWriteCommandsStore := by
  intro s hl hr hs hp hd hdem
  have block := (attends_of_listening hl hp hd).busBlock hr hs hp hdem
  refine ⟨fun b => ?_, fun b => ?_, block .bw, block .red⟩
  · obtain ⟨t, e, ctl⟩ := block .bw [b]
    have ram := Controller.ramWrite_bw s.cfg s.ctl 0 b
    have hbw : t.ctl.ramBw = _ := (congrArg Controller.ramBw ctl).trans ram.1
    refine ⟨t, e, fun inside => ?_, fun X Y other => ?_, (congrArg Controller.ramRed ctl).trans ram.2⟩
    · rw [hbw, planeRead_planeWrite_same _ _ inside]
    · rw [hbw, planeRead_planeWrite_other _ _ other]
  · obtain ⟨t, e, ctl⟩ := block .red [b]
    have ram := Controller.ramWrite_red s.cfg s.ctl 0 b
    have hred : t.ctl.ramRed = _ := (congrArg Controller.ramRed ctl).trans ram.1
    refine ⟨t, e, fun inside => ?_, fun X Y other => ?_, (congrArg Controller.ramBw ctl).trans ram.2⟩
    · rw [hred, planeRead_planeWrite_same _ _ inside]
    · rw [hred, planeRead_planeWrite_other _ _ other]

/-- In entry mode `0x01` the advance does not look at the command and the read phase. -/
theorem Controller.advance_command {c : Controller} (h : c.dem = 0x01#8) (n : Nat) (k : Option BusCmd) (g r : Nat) :
    Controller.advance { c with cmd := k, got := g, rdPhase := r } n = { Controller.advance c 0 with cmd := k, got := g, rdPhase := r } := by
  rw [Controller.advance_eq (by exact h), Controller.advance_eq h]
  simp only
  split
  · rfl
  · split <;> rfl

/-- Settles O48: the read command, then its two inbound bytes. -/
theorem readRamReturnsTheByte : Obligations.ReadRamReturnsTheByte := by
  intro s v hl hr hs hp hd hdem hv
  have att := attends_of_listening hl hp hd
  have started : (s.sent .cmd [s.cfg.proto.readRam]).ctl = { s.ctl with cmd := some .readRam, got := 0, rdPhase := 0 } := by
    rw [State.sent_ctl, ctlAfter, att.attached, att.released]
    exact Controller.byteIn_cmd att.codes att.ready s.draws .readRam
  obtain ⟨ctl, a0, a1, rx⟩ := State.received_readRam (s := s.sent .cmd [s.cfg.proto.readRam]) att.attached att.released
    (by rw [started]; exact att.ready.active) (by rw [started]; exact att.ready.idle) (by rw [started]) (by rw [started])
    (by rw [started]; exact hdem)
  refine ⟨_, a0, exec_readRam_reliable hr hs (one_le_maxChunk hp), ?_, ?_⟩
  · have same : Controller.plane { s.ctl with cmd := some .readRam, got := 0, rdPhase := 0 } s.ctl.readSel = Controller.plane s.ctl s.ctl.readSel := by
      cases s.ctl.readSel <;> rfl
    rw [rx, started, State.sent_cfg]
    simp only [same, hv, Option.getD_some]
  · rw [ctl, started, Controller.advance_command hdem]

end Sys2Proof.Machine

namespace Sys2Proof.Machine

/-! ## The state a noted sequence fault and a completion leave -/

section noteSequence
variable (ground : Bool) (s : State)

@[simp] theorem noteSequence_program : (noteSequence ground s).program = s.program := by cases ground <;> rfl
@[simp] theorem noteSequence_opIdx : (noteSequence ground s).opIdx = s.opIdx := by cases ground <;> rfl
@[simp] theorem noteSequence_surf : (noteSequence ground s).surf = s.surf := by cases ground <;> rfl
@[simp] theorem noteSequence_stat : (noteSequence ground s).stat = s.stat := by cases ground <;> rfl
@[simp] theorem noteSequence_result : (noteSequence ground s).result = s.result := by cases ground <;> rfl
@[simp] theorem noteSequence_results : (noteSequence ground s).results = s.results := by cases ground <;> rfl
@[simp] theorem noteSequence_lines : (noteSequence ground s).lines = s.lines := by cases ground <;> rfl
@[simp] theorem noteSequence_tb : (noteSequence ground s).tb = s.tb := by cases ground <;> rfl
@[simp] theorem noteSequence_micro : (noteSequence ground s).micro = s.micro := by cases ground <;> rfl
@[simp] theorem noteSequence_ctl : (noteSequence ground s).ctl = s.ctl := by cases ground <;> rfl
@[simp] theorem noteSequence_draws : (noteSequence ground s).draws = s.draws := by cases ground <;> rfl

theorem noteSequence_fault : (noteSequence ground s).fault = if ground then { s.fault with seqViol := true } else s.fault := by
  cases ground <;> rfl

end noteSequence

/-- The ground of `SEQ_VIOL` for a display or pixel operation (rule R250). -/
theorem noteSequence_notReady_fault (s t : State) :
    (noteSequence (notReady s) t).fault = if s.stat.cstate = .ready then t.fault else { t.fault with seqViol := true } := by
  rw [noteSequence_fault]
  by_cases h : s.stat.cstate = .ready <;> simp [notReady, h]

section complete
variable (r : ResultWord) (s : State)

@[simp] theorem complete_cfg : (complete r s).cfg = s.cfg := rfl
@[simp] theorem complete_program : (complete r s).program = s.program := rfl
@[simp] theorem complete_surf : (complete r s).surf = s.surf := rfl
@[simp] theorem complete_stat : (complete r s).stat = { s.stat with inop := false } := rfl
@[simp] theorem complete_tb : (complete r s).tb = s.tb := rfl
@[simp] theorem complete_lines : (complete r s).lines = s.lines := rfl
@[simp] theorem complete_ctl : (complete r s).ctl = s.ctl := rfl
@[simp] theorem complete_env : (complete r s).env = s.env := rfl
@[simp] theorem complete_draws : (complete r s).draws = s.draws := rfl
@[simp] theorem complete_rx : (complete r s).rx = s.rx := rfl
@[simp] theorem complete_micro : (complete r s).micro = .idle := rfl
@[simp] theorem complete_result : (complete r s).result = r := rfl
@[simp] theorem complete_results : (complete r s).results = s.results ++ [r] := rfl
@[simp] theorem complete_opIdx : (complete r s).opIdx = s.opIdx + 1 := rfl

end complete

/-- Between operations `INOP` reads 0 (rule R26). -/
theorem Idle.stat {s : State} (h : Idle s) : { s.stat with inop := false } = s.stat := by
  cases hs : s.stat with
  | mk cstate begun bw red inop =>
    rw [Idle, hs] at h
    rw [show inop = false from h]

/-! ## The latches after a frame (rules R34, R101, R102) -/

/-- The latches after a data transaction, with earlier transactions before it. -/
theorem linesAfterData_of {s u : State} (hcfg : u.cfg = s.cfg)
    (hcs : u.lines.cs = if csManaged s.cfg then some (!s.cfg.csActive) else s.lines.cs) (rst : Option Level) :
    linesAfterData u rst = linesAfterData s rst := by
  rw [linesAfterData, linesAfterData, hcfg, hcs]
  by_cases hm : csManaged s.cfg <;> simp [hm]

theorem State.seeded_lines (xb yr : Nat) (s : State) : (s.seeded xb yr).lines = linesAfterData s s.lines.rst := by
  rw [State.seeded, State.sentGroup_lines _ (by simp), linesAfterData_of (by simp) (State.sentGroup_cs _ _ _), State.sentGroup_rst]

theorem State.planeSent_lines (p : Plane) (buf : List Byte) (s : State) : (s.planeSent p buf).lines = linesAfterData s s.lines.rst := by
  have seed := State.seeded_lines 0 (s.cfg.height - 1) s
  rw [State.planeSent, State.sent_data_lines, State.sent_rst, State.setTb_lines, seed]
  refine linesAfterData_of (by simp) ?_ _
  rw [State.sent_cs, State.setTb_lines, seed]
  by_cases hm : csManaged s.cfg <;> simp [hm, linesAfterData]

theorem State.frameWritten_lines (bw red : List Byte) (s : State) :
    (s.frameWritten bw red).lines = linesAfterData s s.lines.rst := by
  have first : (markWritten .bw (s.planeSent .bw bw)).lines = linesAfterData s s.lines.rst := by
    rw [markWritten_lines, State.planeSent_lines]
  rw [State.frameWritten, markWritten_lines, State.planeSent_lines, first]
  exact linesAfterData_of (by simp) (by rw [first]; rfl) _

/-- Settles O28: the one body of the three operations, and what the frame leaves. -/
theorem fullFrameRuns : Obligations.FullFrameRuns := by
  intro s i bw red hop idle hb hr hs hp
  have hc := one_le_maxChunk hp
  refine ⟨_, exec_frameOp_reliable hop idle hb hr hs hc, frameOp_trace bw red hc, ?stat, ?fault, ?lines, ?_⟩
  case stat => simpa using idle
  case fault => rw [complete_fault, State.frameWritten_fault, noteSequence_notReady_fault]; rfl
  case lines =>
    rw [complete_lines, State.frameWritten_lines]
    simp [linesAfterData]
  exact ⟨by simp, by simp, rfl, by simp, by simp, rfl, by simp, by simp⟩

end Sys2Proof.Machine

namespace Sys2Proof.Machine

/-! ## The walk of the counters over a plane (rule R224) -/

theorem ofNat_inj_of_lt {w a b : Nat} (ha : a < 2 ^ w) (hb : b < 2 ^ w) : BitVec.ofNat w a = BitVec.ofNat w b ↔ a = b := by
  rw [← BitVec.toNat_inj, BitVec.toNat_ofNat, BitVec.toNat_ofNat, Nat.mod_eq_of_lt ha, Nat.mod_eq_of_lt hb]

/-- A legal panel: rows of 1 to 256 bytes, and 1 to 32767 rows (rule R7). -/
theorem panel_bounds {p : Params} (h : p.wf) : 0 < stride p ∧ stride p ≤ 256 ∧ 0 < p.height ∧ p.height ≤ 32767 := by
  obtain ⟨w1, w2, h1, h2, -⟩ := h
  unfold stride
  omega

/-- The entry mode and the windows that `PREPARE` sets (rules R130, R203 to R205). -/
structure Controller.Windowed (p : Params) (c : Controller) : Prop where
  dem : c.dem = 0x01#8
  xs : c.xs = 0
  xe : c.xe = BitVec.ofNat 8 (stride p - 1)
  ys : c.ys = BitVec.ofNat 16 (p.height - 1)
  ye : c.ye = 0

/-- The column and the row of byte number `k` of the walk: from the left, and from the last row up. -/
def walkColumn (p : Params) (k : Nat) : Byte := BitVec.ofNat 8 (k % stride p)
def walkRow (p : Params) (k : Nat) : Half := BitVec.ofNat 16 (p.height - 1 - k / stride p)

/-- The controller with its counters at byte number `k` of the walk. -/
def Controller.walkAt (p : Params) (c : Controller) (k : Nat) : Controller := { c with xc := walkColumn p k, yc := walkRow p k }

/-- The byte after byte `k` of a row that goes on. -/
theorem next_in_row {k s : Nat} (h : k % s + 1 < s) : (k + 1) % s = k % s + 1 ∧ (k + 1) / s = k / s := by
  have e : k + 1 = (k % s + 1) + s * (k / s) := by
    have := Nat.mod_add_div k s
    omega
  constructor
  · rw [e, Nat.add_mul_mod_self_left, Nat.mod_eq_of_lt h]
  · rw [e, Nat.add_mul_div_left _ _ (by omega), Nat.div_eq_of_lt h, Nat.zero_add]

/-- The byte after the last byte of a row. -/
theorem next_of_row_end {k s : Nat} (hs : 0 < s) (h : k % s + 1 = s) : (k + 1) % s = 0 ∧ (k + 1) / s = k / s + 1 := by
  have e : k + 1 = s * (k / s + 1) := by
    have := Nat.mod_add_div k s
    rw [Nat.mul_succ]
    omega
  constructor
  · rw [e, Nat.mul_mod_right]
  · rw [e, Nat.mul_div_cancel_left _ hs]

/-- One byte of the walk, and after the last the walk begins again (rule R224). -/
theorem Controller.advance_walkAt {p : Params} {c : Controller} (hp : p.wf) (hw : c.Windowed p) (n : Nat) {k : Nat} (hk : k < planeBytes p) :
    (c.walkAt p k).advance n = c.walkAt p ((k + 1) % planeBytes p) := by
  obtain ⟨s1, s2, h1, h2⟩ := panel_bounds hp
  obtain ⟨row, column, -⟩ := planeBytes_row hk
  have atEnd : walkColumn p k = c.xe ↔ k % stride p = stride p - 1 := by
    rw [hw.xe]
    exact ofNat_inj_of_lt (by omega) (by omega)
  have atTop : walkRow p k = c.ye ↔ p.height - 1 - k / stride p = 0 := by
    have bound : p.height - 1 - k / stride p < 2 ^ 16 := (Nat.sub_le _ _).trans_lt (by omega)
    rw [show c.ye = BitVec.ofNat 16 0 from hw.ye]
    exact ofNat_inj_of_lt bound (by decide)
  have split : k = stride p * (k / stride p) + k % stride p := (Nat.div_add_mod _ _).symm
  rw [Controller.advance_eq (by exact hw.dem)]
  by_cases hx : k % stride p + 1 < stride p
  · -- The row goes on.
    obtain ⟨modNext, divNext⟩ := next_in_row hx
    have inside : k + 1 < planeBytes p := by
      have : stride p * (k / stride p + 1) ≤ stride p * p.height := Nat.mul_le_mul_left _ row
      rw [Nat.mul_succ] at this
      unfold planeBytes
      omega
    rw [if_pos (by exact fun e => absurd (atEnd.mp e) (by omega)), Nat.mod_eq_of_lt inside]
    simp only [Controller.walkAt, walkColumn, walkRow, modNext, divNext, BitVec.ofNat_add]
    rfl
  · have last : k % stride p + 1 = stride p := by omega
    obtain ⟨modNext, divNext⟩ := next_of_row_end s1 last
    rw [if_neg (by exact fun ne => ne (atEnd.mpr (by omega)))]
    by_cases hy : k / stride p + 1 < p.height
    · -- The next row up begins.
      have inside : k + 1 < planeBytes p := by
        have : stride p * (k / stride p + 2) ≤ stride p * p.height := Nat.mul_le_mul_left _ hy
        rw [Nat.mul_add] at this
        unfold planeBytes
        omega
      have up : walkRow p (k + 1) = walkRow p k - 1 := by
        rw [walkRow, walkRow, divNext]
        apply BitVec.eq_of_toNat_eq
        rw [BitVec.toNat_sub, BitVec.toNat_ofNat, BitVec.toNat_ofNat, show (1 : Half).toNat = 1 from rfl]
        omega
      rw [if_pos (by exact fun e => absurd (atTop.mp e) (by omega)), Nat.mod_eq_of_lt inside]
      simp only [Controller.walkAt, up, walkColumn, modNext, hw.xs]
      rfl
    · -- The plane is at its end.
      have full : k + 1 = planeBytes p := by
        have : k / stride p + 1 = p.height := by omega
        rw [planeBytes, ← this, Nat.mul_succ]
        omega
      rw [if_neg (by exact fun ne => ne (atTop.mpr (by omega))), full, Nat.mod_self]
      simp only [Controller.walkAt, walkColumn, walkRow, hw.xs, hw.ys, Nat.zero_mod, Nat.zero_div, Nat.sub_zero]
      rfl

theorem Controller.iterate_advance {p : Params} {c : Controller} (hp : p.wf) (hw : c.Windowed p) (n : Nat) :
    ∀ k, k ≤ planeBytes p → Nat.iterate (fun c => Controller.advance c n) k (c.walkAt p 0) = c.walkAt p (k % planeBytes p) := by
  intro k
  induction k with
  | zero => intro _; rw [Nat.zero_mod]; rfl
  | succ k ih =>
    intro hk
    rw [Function.iterate_succ_apply', ih (by omega), Nat.mod_eq_of_lt (by omega)]
    exact Controller.advance_walkAt hp hw n (by omega)

theorem Controller.walkAt_zero {p : Params} {c : Controller} (hx : c.xc = 0) (hy : c.yc = BitVec.ofNat 16 (p.height - 1)) :
    c.walkAt p 0 = c := by
  have column : walkColumn p 0 = c.xc := by rw [hx, walkColumn, Nat.zero_mod]; rfl
  have row : walkRow p 0 = c.yc := by rw [hy, walkRow, Nat.zero_div, Nat.sub_zero]
  rw [Controller.walkAt, column, row]

/-- Settles O49: byte by byte along the walk. -/
theorem countersWalkThePlane : Obligations.CountersWalkThePlane := by
  refine ⟨fun c n h => Controller.advance_eq h n, ?_⟩
  intro p c n hp dem xs xe ys ye hx hy
  have walk := Controller.iterate_advance hp (c := c) ⟨dem, xs, xe, ys, ye⟩ n
  rw [Controller.walkAt_zero hx hy] at walk
  refine ⟨fun k hk => ?_, ?_⟩
  · rw [walk k (by omega), Nat.mod_eq_of_lt hk]
    rfl
  · rw [walk _ le_rfl, Nat.mod_self, Controller.walkAt_zero hx hy]

/-! ## A frame in the controller's RAM (rule R146) -/

/-- The controller with one plane replaced. -/
def Controller.setPlane (c : Controller) (m : Memory) : Plane → Controller
  | .bw => { c with ramBw := m }
  | .red => { c with ramRed := m }

theorem Controller.setPlane_windowed {p : Params} {c : Controller} (h : c.Windowed p) (m : Memory) (pl : Plane) :
    (c.setPlane m pl).Windowed p := by
  cases pl <;> exact ⟨h.dem, h.xs, h.xe, h.ys, h.ye⟩

/-- A plane with the bytes of the walk from number `k` on written. -/
def walkWrites (p : Params) : Nat → List Byte → Memory → Memory
  | _, [], m => m
  | k, b :: bs, m => walkWrites p (k + 1) bs (planeWrite p m (walkColumn p k) (walkRow p k) b)

/-- RAM data along the walk. -/
theorem foldl_ramWrite_walk {p : Params} {c : Controller} (hp : p.wf) (hw : c.Windowed p) (pl : Plane) :
    ∀ (bs : List Byte) (k : Nat) (m : Memory), k + bs.length ≤ planeBytes p → k < planeBytes p →
      bs.foldl (fun c b => Controller.ramWrite p c 0 pl b) ((c.setPlane m pl).walkAt p k) =
        (c.setPlane (walkWrites p k bs m) pl).walkAt p ((k + bs.length) % planeBytes p) := by
  intro bs
  induction bs with
  | nil =>
    intro k m _ hk
    rw [List.length_nil, Nat.add_zero, Nat.mod_eq_of_lt hk]
    rfl
  | cons b bs ih =>
    intro k m hlen hk
    rw [List.length_cons] at hlen
    have one : Controller.ramWrite p ((c.setPlane m pl).walkAt p k) 0 pl b =
        (c.setPlane (planeWrite p m (walkColumn p k) (walkRow p k) b) pl).walkAt p ((k + 1) % planeBytes p) := by
      rw [← Controller.advance_walkAt hp (Controller.setPlane_windowed hw _ pl) 0 hk]
      cases pl <;> rfl
    rw [List.foldl_cons, one]
    by_cases more : k + 1 < planeBytes p
    · rw [Nat.mod_eq_of_lt more, ih (k + 1) _ (by omega) more, List.length_cons, walkWrites, Nat.add_assoc, Nat.add_comm 1]
    · obtain rfl : bs = [] := List.length_eq_zero_iff.mp (by omega)
      rfl

/-- The number on the walk of the byte `(x, y)`. -/
def walkIndex (p : Params) (x y : Nat) : Nat := (p.height - 1 - y) * stride p + x

/-- Byte `(x, y)` is byte number `k` of the walk exactly when `k` is its number. -/
theorem walk_position_iff {p : Params} (hp : p.wf) {x y k : Nat} (hx : x < stride p) (hy : y < p.height) (hk : k < planeBytes p) :
    (BitVec.ofNat 8 x = walkColumn p k ∧ BitVec.ofNat 16 y = walkRow p k) ↔ k = walkIndex p x y := by
  obtain ⟨s1, s2, h1, h2⟩ := panel_bounds hp
  obtain ⟨row, column, split⟩ := planeBytes_row hk
  have bound : p.height - 1 - k / stride p < 2 ^ 16 := (Nat.sub_le _ _).trans_lt (by omega)
  rw [walkColumn, walkRow, ofNat_inj_of_lt (by omega) (by omega), ofNat_inj_of_lt (by omega) bound, walkIndex]
  constructor
  · rintro ⟨rfl, rfl⟩
    rw [Nat.sub_sub_self (by omega)]
    exact split
  · rintro rfl
    have mod : ((p.height - 1 - y) * stride p + x) % stride p = x := by rw [Nat.mul_add_mod_self_right, Nat.mod_eq_of_lt hx]
    have div : ((p.height - 1 - y) * stride p + x) / stride p = p.height - 1 - y := by
      rw [Nat.add_comm, Nat.add_mul_div_right _ _ s1, Nat.div_eq_of_lt hx, Nat.zero_add]
    rw [mod, div]
    omega

/-- What the plane holds after bytes of the walk (rules R146, R223). -/
theorem planeRead_walkWrites {p : Params} (hp : p.wf) {x y : Nat} (hx : x < stride p) (hy : y < p.height) :
    ∀ (bs : List Byte) (k : Nat) (m : Memory), k + bs.length ≤ planeBytes p → 
      planeRead p (walkWrites p k bs m) (BitVec.ofNat 8 x) (BitVec.ofNat 16 y) =
        if k ≤ walkIndex p x y ∧ walkIndex p x y < k + bs.length then bs[walkIndex p x y - k]?
        else planeRead p m (BitVec.ofNat 8 x) (BitVec.ofNat 16 y) := by
  obtain ⟨s1, s2, h1, h2⟩ := panel_bounds hp
  intro bs
  induction bs with
  | nil =>
    intro k m _
    rw [if_neg (by rw [List.length_nil]; omega)]
    rfl
  | cons b bs ih =>
    intro k m hlen
    rw [List.length_cons] at hlen ⊢
    have position := walk_position_iff hp hx hy (k := k) (by omega)
    rw [walkWrites, ih (k + 1) _ (by omega)]
    by_cases here : k = walkIndex p x y
    · -- The byte is the one just written, and no later byte of the walk comes here.
      obtain ⟨column, row⟩ := position.mpr here
      have inside : inPlane p (BitVec.ofNat 8 x) (BitVec.ofNat 16 y) = true := by
        rw [inPlane, BitVec.toNat_ofNat, BitVec.toNat_ofNat, Nat.mod_eq_of_lt (by omega), Nat.mod_eq_of_lt (by omega)]
        exact decide_eq_true ⟨hx, hy⟩
      rw [if_neg (by omega), if_pos (by omega), ← column, ← row, planeRead_planeWrite_same _ _ inside, ← here, Nat.sub_self]
      rfl
    · have other : BitVec.ofNat 8 x ≠ walkColumn p k ∨ BitVec.ofNat 16 y ≠ walkRow p k := by
        by_contra same
        push Not at same
        exact here (position.mp same)
      rw [planeRead_planeWrite_other _ _ other]
      by_cases later : k + 1 ≤ walkIndex p x y ∧ walkIndex p x y < k + 1 + bs.length
      · rw [if_pos later, if_pos (by omega), show walkIndex p x y - k = (walkIndex p x y - (k + 1)) + 1 by omega, List.getElem?_cons_succ]
      · rw [if_neg later, if_neg (by omega)]

/-- A whole flipped plane lands in the host's own row order (rule R146). -/
theorem planeRead_walkWrites_flip {p : Params} (hp : p.wf) {buf : List Byte} (hlen : buf.length = planeBytes p) (m : Memory) {x y : Nat}
    (hx : x < stride p) (hy : y < p.height) :
    planeRead p (walkWrites p 0 (flip p buf) m) (BitVec.ofNat 8 x) (BitVec.ofNat 16 y) = buf[y * stride p + x]? := by
  have index : walkIndex p x y < planeBytes p := by
    have : (p.height - 1 - y + 1) * stride p ≤ p.height * stride p := Nat.mul_le_mul_right _ (by omega)
    rw [Nat.succ_mul, Nat.mul_comm p.height] at this
    unfold walkIndex planeBytes
    omega
  rw [planeRead_walkWrites hp hx hy _ _ _ (by rw [flip_length hlen, Nat.zero_add]), flip_length hlen, if_pos (by omega), Nat.sub_zero,
    walkIndex]
  exact flip_row hlen hy hx

/-- A plane write on a controller that `PREPARE` has set up (rules R145, R146). -/
theorem State.planeSent_walk {s : State} (h : Attends s) (hp : s.cfg.wf) (hw : s.ctl.Windowed s.cfg) (pl : Plane) {buf : List Byte}
    (hlen : buf.length = planeBytes s.cfg) :
    (s.planeSent pl buf).ctl = { (s.ctl.setPlane (walkWrites s.cfg 0 (flip s.cfg buf) (s.ctl.plane pl)) pl).walkAt s.cfg 0 with
      cmd := some (writeCommand pl), got := planeBytes s.cfg } ∧ Attends (s.planeSent pl buf) := by
  obtain ⟨s1, s2, h1, h2⟩ := panel_bounds hp
  obtain ⟨ctl, att⟩ := State.planeSent_ctl h hw.dem pl buf
  refine ⟨ctl.trans ?_, att⟩
  have start : { s.ctl with xc := lo 0, yc := hi (s.cfg.height - 1) ++ lo (s.cfg.height - 1), cmd := some .setRamYCounter, got := 2 } =
      ({ s.ctl with cmd := some .setRamYCounter, got := 2 }.setPlane (s.ctl.plane pl) pl).walkAt s.cfg 0 := by
    rw [hi_append_lo (by omega)]
    cases pl <;> simp [Controller.walkAt, walkColumn, walkRow, Controller.setPlane, Controller.plane, lo]
  have walk := foldl_ramWrite_walk hp (c := { s.ctl with cmd := some .setRamYCounter, got := 2 })
    ⟨hw.dem, hw.xs, hw.xe, hw.ys, hw.ye⟩ pl (flip s.cfg buf) 0 (s.ctl.plane pl) (by rw [flip_length hlen, Nat.zero_add])
    (Nat.mul_pos s1 h1)
  rw [start, walk, flip_length hlen, Nat.zero_add, Nat.mod_self]
  cases pl <;> rfl

/-- Settles O31: the BW plane along its walk, then the RED plane along its own. -/
theorem frameLandsInRam : Obligations.FrameLandsInRam := by
  intro s i bw red hop idle hb hr hs hp hl hd dem xs xe ys ye
  obtain ⟨hbw, hred⟩ := hop.lengths
  have att : Attends (noteSequence (notReady s) (s.setInop true)) :=
    (attends_of_listening hl hp hd).after (by simp) (by simp) (by simp) hl.2.1 hl.2.2.1 hd
  generalize hu : noteSequence (notReady s) (s.setInop true) = u at att
  have cfg : u.cfg = s.cfg := by rw [← hu]; simp
  have ctl : u.ctl = s.ctl := by rw [← hu]; simp
  have windowed : u.ctl.Windowed u.cfg := by rw [ctl, cfg]; exact ⟨dem, xs, xe, ys, ye⟩
  obtain ⟨first, att1⟩ := State.planeSent_walk att (by rwa [cfg]) windowed .bw (buf := bw) (by rwa [cfg])
  generalize hv : u.planeSent .bw bw = v at first att1
  have cfgv : v.cfg = u.cfg := by rw [← hv]; simp
  obtain ⟨second, -⟩ := State.planeSent_walk (s := markWritten .bw v) (att1.after (by simp) (by simp) (by simp) att1.ready.active
    att1.ready.idle att1.ready.done) (by simpa [cfgv, cfg]) (by
      rw [markWritten_ctl, markWritten_cfg, first, cfgv]
      exact ⟨windowed.dem, windowed.xs, windowed.xe, windowed.ys, windowed.ye⟩) .red (buf := red) (by simpa [cfgv, cfg])
  refine ⟨_, exec_frameOp_reliable hop idle hb hr hs (one_le_maxChunk hp), ?_⟩
  rw [hu, complete_ctl, State.frameWritten, hv, markWritten_ctl, second, markWritten_ctl, first, markWritten_cfg, cfgv, cfg, ctl]
  refine ⟨fun x y hx hy => ⟨planeRead_walkWrites_flip hp hbw _ hx hy, planeRead_walkWrites_flip hp hred _ hx hy⟩, ?_, ?_, rfl, hl.2.2.1⟩
  · show walkColumn s.cfg 0 = 0
    rw [walkColumn, Nat.zero_mod]
    rfl
  · show walkRow s.cfg 0 = _
    rw [walkRow, Nat.zero_div, Nat.sub_zero]

end Sys2Proof.Machine

namespace Sys2Proof.Machine

/-! ## `PREPARE` and the updates up to their wait, and after it (rules R121, R133, R158) -/

section pulsed
variable (s : State)

@[simp] theorem State.pulsed_cfg : s.pulsed.cfg = s.cfg := rfl
@[simp] theorem State.pulsed_program : s.pulsed.program = s.program := rfl
@[simp] theorem State.pulsed_opIdx : s.pulsed.opIdx = s.opIdx := rfl
@[simp] theorem State.pulsed_surf : s.pulsed.surf = s.surf := rfl
@[simp] theorem State.pulsed_stat : s.pulsed.stat = s.stat := rfl
@[simp] theorem State.pulsed_fault : s.pulsed.fault = s.fault := rfl
@[simp] theorem State.pulsed_result : s.pulsed.result = s.result := rfl
@[simp] theorem State.pulsed_results : s.pulsed.results = s.results := rfl
@[simp] theorem State.pulsed_tb : s.pulsed.tb = s.tb := rfl
@[simp] theorem State.pulsed_micro : s.pulsed.micro = s.micro := rfl
@[simp] theorem State.pulsed_env : s.pulsed.env = s.env := rfl
@[simp] theorem State.pulsed_trace : s.pulsed.trace = s.trace ++ resetEvents := rfl
@[simp] theorem State.pulsed_lines : s.pulsed.lines = { s.lines with rst := some true } := rfl
@[simp] theorem heldInReset_pulsed : heldInReset s.pulsed = false := rfl

end pulsed

/-- The state in which `PREPARE` begins its wait. -/
def State.resetSent (s : State) : State :=
  (((s.setCstate .reset).setRamv false false).pulsed).sent .cmd [s.cfg.proto.swReset]

/-- The state after a deasserted sample. -/
def State.sampledClear (s : State) : State := (sampleNext s).record (.sample (!s.cfg.busyActive))

/-- The state in which `PREPARE` completes. -/
def State.prepared (s : State) : State := ((s.record (.delay s.cfg.tSwrstSettle)).initialised).setCstate .ready

/-- The state in which an update completes. -/
def State.slept (s : State) : State :=
  (((s.record (.delay s.cfg.tPostAct)).sentGroup s.cfg.proto.deepSleep s.cfg.proto.deepSleepData).setCstate .asleep).setRamv false false

theorem prepareHead_reliable {s : State} (hr : Reliable s) (hs : SequentialHost s) (hc : 1 ≤ s.cfg.maxChunk) :
    prepareHead s = .cont s.resetSent := by
  have pulse : hardReset ((s.setCstate .reset).setRamv false false) = ((s.setCstate .reset).setRamv false false).pulsed :=
    hardReset_sequential hs
  rw [prepareHead, pulse, sendCommand]
  exact frame_reliable hr hs hc

theorem prepareTail_reliable {s : State} (hr : Reliable s) (hs : SequentialHost s) (hc : 1 ≤ s.cfg.maxChunk) :
    prepareTail s = .cont s.prepared := by
  have init : initSequence (s.record (.delay s.cfg.tSwrstSettle)) = _ := initSequence_reliable hr hs hc
  rw [prepareTail, delay_sequential _ hs, init]
  rfl

theorem updateTail_reliable {s : State} (hr : Reliable s) (hs : SequentialHost s) (hc : 1 ≤ s.cfg.maxChunk) :
    updateTail s = .cont s.slept := by
  have sleep : group s.cfg.proto.deepSleep s.cfg.proto.deepSleepData (s.record (.delay s.cfg.tPostAct)) = _ :=
    group_reliable hr hs hc
  rw [updateTail, delay_sequential _ hs, sleep]
  rfl

/-- `PREPARE` after `BEGIN` is its reset and then its wait. -/
theorem exec_prepare_begun {s : State} (idle : Idle s) (hb : s.stat.begun = true) (hr : Reliable s) (hs : SequentialHost s)
    (hc : 1 ≤ s.cfg.maxChunk) :
    exec .prepare s = .next ((poll .softReset 0 prepareTail (s.setInop true).resetSent).finish 0#32) := by
  show hostOp prepareBody s = _
  rw [hostOp_idle idle, prepareBody, requireBegun_begun (by exact hb), prepareHead_reliable (by exact hr) (by exact hs) (by exact hc),
    Flow.bind_cont]

/-- The state in which an update begins its wait. -/
def State.activationSent (m : UpdateMode) (s : State) : State :=
  ((noteSequence (updateUnprepared s) s).activated m).setCstate .busy

theorem exec_updateOp {i : Instr} {m : UpdateMode} (h : UpdateOp i m) (s : State) : exec i s = hostOp (updateBody m) s := by
  rcases h with ⟨rfl, rfl⟩ | ⟨rfl, rfl⟩ <;> rfl

/-- An update after `BEGIN` is its activation and then its wait. -/
theorem exec_update_begun {s : State} {i : Instr} {m : UpdateMode} (hu : UpdateOp i m) (idle : Idle s) (hb : s.stat.begun = true)
    (hr : Reliable s) (hs : SequentialHost s) (hc : 1 ≤ s.cfg.maxChunk) :
    exec i s = .next ((poll .activation 0 updateTail ((s.setInop true).activationSent m)).finish 0#32) := by
  have head : updateHead m (noteSequence (updateUnprepared (s.setInop true)) (s.setInop true)) =
      .cont ((s.setInop true).activationSent m) :=
    updateHead_reliable (by rwa [Reliable, noteSequence_env]) (by rwa [SequentialHost, noteSequence_env]) (by rwa [noteSequence_cfg])
  rw [exec_updateOp hu, hostOp_idle idle, updateBody, requireBegun_begun (by exact hb), head, Flow.bind_cont]

/-- What a wait leaves when its sample is deasserted. -/
def State.waitDone (p : WaitPoint) (s : State) : State :=
  complete 0#32 (match p with
    | .softReset => s.sampledClear.prepared
    | .activation => s.sampledClear.slept)

theorem poll_done {s : State} (p : WaitPoint) (n : Nat) (hr : Reliable s) (hs : SequentialHost s) (hc : 1 ≤ s.cfg.maxChunk)
    (clear : busyAsserted s.cfg (sampleLevel s) = false) : (poll p n (afterWait p) s).finish 0#32 = s.waitDone p := by
  have hr' : Reliable s.sampledClear := by simpa [State.sampledClear, Reliable] using hr
  have hs' : SequentialHost s.sampledClear := by simpa [State.sampledClear, SequentialHost] using hs
  have hc' : 1 ≤ s.sampledClear.cfg.maxChunk := by simpa [State.sampledClear] using hc
  have rest : poll p n (afterWait p) s = afterWait p s.sampledClear := poll_clear hs clear
  rw [rest]
  cases p
  · rw [afterWait, prepareTail_reliable hr' hs' hc']
    rfl
  · rw [afterWait, updateTail_reliable hr' hs' hc']
    rfl

/-- What a wait leaves when its sample is asserted and no timeout has come. -/
def State.waitGoesOn (p : WaitPoint) (n : Nat) (s : State) : State :=
  (((sampleNext s).record (.sample s.cfg.busyActive)).record (.delay 1)).setMicro (.waiting p (n + 1))

/-! ## The first sample of a wait (rules R125, R226) -/

/-- The first BUSY sample of a wait the operation starts reads the level `v`. -/
def FirstLevel (s : State) (v : Level) : Prop :=
  match s.cfg.attached with
  | .oracle => s.env.samples.head? = some v
  | .reference => ∃ k, s.ctl.busyPlan.head? = some k ∧ v = if k = 0 then !s.cfg.busyActive else s.cfg.busyActive

theorem FirstSampleClear.level {s : State} (h : FirstSampleClear s) : FirstLevel s (!s.cfg.busyActive) := by
  cases ha : s.cfg.attached <;> rw [FirstSampleClear, ha] at h <;> rw [FirstLevel, ha]
  · exact h
  · exact ⟨0, h, rfl⟩

theorem FirstSampleBusy.level {s : State} (h : FirstSampleBusy s) : FirstLevel s s.cfg.busyActive := by
  cases ha : s.cfg.attached <;> rw [FirstSampleBusy, ha] at h <;> rw [FirstLevel, ha]
  · exact h
  · obtain ⟨k, hk⟩ := h
    exact ⟨k + 1, hk, rfl⟩

theorem FirstLevel.oracle {s : State} {v : Level} (h : FirstLevel s v) (ha : s.cfg.attached = .oracle) : s.env.samples.head? = some v := by
  rwa [FirstLevel, ha] at h

theorem FirstLevel.reference {s : State} {v : Level} (h : FirstLevel s v) (ha : s.cfg.attached = .reference) :
    ∃ k, s.ctl.busyPlan.head? = some k ∧ v = if k = 0 then !s.cfg.busyActive else s.cfg.busyActive := by
  rwa [FirstLevel, ha] at h

/-- The next sample in a busy period of the environment's plan. -/
theorem sampleLevel_busyPeriod {s : State} {c : Controller} {k n : Nat} (ha : s.cfg.attached = .reference) (hh : heldInReset s = false)
    (hctl : s.ctl = c.startBusy n) (hm : c.mode = .active) (hk : c.busyPlan.head? = some k) :
    sampleLevel s = if k = 0 then !s.cfg.busyActive else s.cfg.busyActive := by
  rw [sampleLevel_reference ha hh (by rw [hctl, Controller.startBusy_mode, hm]), hctl, Controller.startBusy_plan hk]
  by_cases hz : k = 0 <;> simp [Controller.busyNow, hz]

/-- A busy period with no further asserted sample ends by its first sample. -/
theorem sampleNext_busyPeriod {s : State} {c : Controller} {n : Nat} (ha : s.cfg.attached = .reference) (hh : heldInReset s = false)
    (hctl : s.ctl = c.startBusy n) (hm : c.mode = .active) (hk : c.busyPlan.head? = some 0) :
    (sampleNext s).ctl = { c with busy := false, busyLeft := 0, busyPlan := c.busyPlan.tail } := by
  have answers : s.cfg.attached = .reference ∧ Controller.answersBusy (heldInReset s) s.ctl = true :=
    ⟨ha, by simp [Controller.answersBusy, hh, hctl, hm]⟩
  rw [sampleNext, if_pos answers, State.setCtl_ctl, hctl, Controller.startBusy_plan hk]
  rfl

/-- A command byte on a controller that attends (rule R218). -/
theorem Attends.command_ctl {s : State} (h : Attends s) (cmd : BusCmd) :
    (s.sent .cmd [s.cfg.proto.code cmd]).ctl = Controller.start s.cfg { s.ctl with cmd := some cmd, got := 0 } s.draws cmd := by
  rw [State.sent_ctl, ctlAfter, h.attached, h.released]
  exact Controller.byteIn_cmd h.codes h.ready s.draws cmd

/-- A command byte on a listening controller, which may cut the command before it short (rule R218). -/
theorem Listening.command_ctl {s : State} (h : Listening s) (hp : s.cfg.proto.codes.Nodup) (cmd : BusCmd) :
    (s.sent .cmd [s.cfg.proto.code cmd]).ctl =
      Controller.start s.cfg { Controller.cutShort s.ctl s.draws with cmd := some cmd, got := 0 } s.draws cmd := by
  obtain ⟨attached, active, idle, released⟩ := h
  rw [State.sent_ctl, ctlAfter, attached, released]
  simp [Controller.bytesIn, Controller.byteIn, active, idle, Controller.command, Proto.command_code hp]

/-- The controller after the hardware reset (rule R222): listening, with no command; its plan of busy periods and the image stay. -/
theorem State.pulsed_ctl {s : State} (ha : s.cfg.attached = .reference) : ∃ c n, s.pulsed.ctl = Controller.hardReset c n ∧
    c.busyPlan = s.ctl.busyPlan ∧ c.shown = s.ctl.shown := by
  simp only [State.pulsed, ha, true_and, if_true]
  refine ⟨_, _, rfl, ?_⟩
  split <;> exact ⟨rfl, rfl⟩

theorem State.pulsed_attends {s : State} (ha : s.cfg.attached = .reference) (hp : s.cfg.proto.codes.Nodup) : Attends s.pulsed := by
  obtain ⟨c, n, ctl, -⟩ := State.pulsed_ctl ha
  exact ⟨ha, hp, rfl, by rw [ctl]; exact ⟨rfl, rfl, fun _ => rfl⟩⟩

/-- The controller when `PREPARE` begins its wait: a busy period begins, after the two resets. -/
theorem State.resetSent_ctl {s : State} (ha : s.cfg.attached = .reference) (hp : s.cfg.proto.codes.Nodup) :
    ∃ c n, s.resetSent.ctl = Controller.startBusy c n ∧ c.mode = .active ∧ c.busyPlan = s.ctl.busyPlan ∧ c.shown = s.ctl.shown ∧
      c.ramBw = [] ∧ c.ramRed = [] ∧ c.cmd = some .swReset := by
  obtain ⟨c, n, pulse, plan, shown⟩ := State.pulsed_ctl (s := (s.setCstate .reset).setRamv false false) ha
  have ctl := (State.pulsed_attends (s := (s.setCstate .reset).setRamv false false) ha hp).command_ctl .swReset
  rw [pulse] at ctl
  exact ⟨_, _, ctl, rfl, plan, shown, rfl, rfl, rfl⟩

theorem State.resetSent_level {s : State} {v : Level} (hp : s.cfg.proto.codes.Nodup) (h : FirstLevel s v) :
    sampleLevel s.resetSent = v := by
  cases ha : s.cfg.attached with
  | oracle => exact sampleLevel_oracle (s := s.resetSent) ha (h.oracle ha)
  | reference =>
    obtain ⟨c, n, ctl, active, plan, -⟩ := State.resetSent_ctl ha hp
    obtain ⟨k, first, rfl⟩ := h.reference ha
    exact sampleLevel_busyPeriod (s := s.resetSent) ha rfl ctl active (by rw [plan, first])

/-- A quiet group keeps the power state, the plan and the image of a listening controller. -/
theorem sentGroup_keeps {s : State} (hl : Listening s) (hp : s.cfg.proto.codes.Nodup) {cmd : BusCmd} (hq : isQuiet cmd = true) (d : List Byte) :
    Controller.Keeps s.ctl (s.sentGroup (s.cfg.proto.code cmd) d).ctl ∧ Listening (s.sentGroup (s.cfg.proto.code cmd) d) := by
  obtain ⟨attached, active, idle, released⟩ := hl
  have keeps : Controller.Keeps s.ctl (s.sentGroup (s.cfg.proto.code cmd) d).ctl := by
    rw [State.sentGroup_ctl, attached, released]
    exact Controller.group_keeps hp active idle _ _ cmd hq d
  exact ⟨keeps, by simpa using attached, keeps.mode.trans active, keeps.busy.trans idle, by simpa using released⟩

/-- The state after the three groups that stage an update (rule R158). -/
def State.staged (m : UpdateMode) (s : State) : State :=
  ((s.sentGroup s.cfg.proto.tempSensorSelect [s.cfg.proto.tempInternal]).sentGroup s.cfg.proto.displayUpdateControl1
    (duc1Of s.cfg.proto m)).sentGroup s.cfg.proto.displayUpdateControl2 [duc2Of s.cfg.proto m]

@[simp] theorem State.staged_cfg (m : UpdateMode) (s : State) : (s.staged m).cfg = s.cfg := by simp [State.staged]

theorem State.activated_eq (m : UpdateMode) (s : State) :
    s.activated m = (s.staged m).sent .cmd [(s.staged m).cfg.proto.code .masterActivation] := by
  rw [State.staged_cfg]
  rfl

theorem State.staged_keeps {s : State} (hl : Listening s) (hp : s.cfg.proto.codes.Nodup) (m : UpdateMode) :
    Controller.Keeps s.ctl (s.staged m).ctl ∧ Listening (s.staged m) := by
  obtain ⟨k1, l1⟩ := sentGroup_keeps hl hp (cmd := .tempSensorSelect) rfl [s.cfg.proto.tempInternal]
  obtain ⟨k2, l2⟩ := sentGroup_keeps l1 (by simpa using hp) (cmd := .displayUpdateControl1) rfl (duc1Of s.cfg.proto m)
  obtain ⟨k3, l3⟩ := sentGroup_keeps l2 (by simpa using hp) (cmd := .displayUpdateControl2) rfl [duc2Of s.cfg.proto m]
  simp only [State.sentGroup_cfg] at k2 k3 l3
  exact ⟨(k1.trans k2).trans k3, l3⟩

/-- The controller when an update begins its wait: a busy period begins. -/
theorem State.activated_ctl {s : State} (hl : Listening s) (hp : s.cfg.proto.codes.Nodup) (m : UpdateMode) :
    ∃ c n, (s.activated m).ctl = Controller.startBusy c n ∧ c.mode = .active ∧ c.busyPlan = s.ctl.busyPlan := by
  obtain ⟨keeps, listens⟩ := State.staged_keeps hl hp m
  have cut := keeps.trans (Controller.cutShort_keeps (s.staged m).ctl (s.staged m).draws)
  rw [State.activated_eq, Listening.command_ctl listens (by simpa using hp) .masterActivation]
  exact ⟨_, _, rfl, cut.mode.trans hl.2.1, cut.plan⟩

theorem State.activationSent_level {s : State} {v : Level} (hp : s.cfg.proto.codes.Nodup) (hl : ListensIfReference s) (m : UpdateMode)
    (h : FirstLevel s v) : sampleLevel (s.activationSent m) = v := by
  cases ha : s.cfg.attached with
  | oracle =>
    exact sampleLevel_oracle (by simpa [State.activationSent] using ha) (by simpa [State.activationSent] using h.oracle ha)
  | reference =>
    have listens : Listening (noteSequence (updateUnprepared s) s) := by simpa [Listening, heldInReset] using hl ha
    obtain ⟨c, n, ctl, active, plan⟩ := State.activated_ctl listens (by simpa using hp) m
    obtain ⟨k, first, rfl⟩ := h.reference ha
    have level := sampleLevel_busyPeriod (s := s.activationSent m) (by simpa [State.activationSent] using ha)
      (by simpa [State.activationSent, heldInReset] using (hl ha).2.2.2) ctl active (by simpa [plan] using first)
    simpa [State.activationSent] using level

end Sys2Proof.Machine

namespace Sys2Proof.Machine

/-! ## `PREPARE` and the updates with their first sample given (rules R121, R126, R127, R133, R157 to R160) -/

theorem busyAsserted_clear (c : Params) : busyAsserted c (!c.busyActive) = false := by
  cases h : c.busyActive <;> simp [busyAsserted, h]

theorem busyAsserted_active (c : Params) : busyAsserted c c.busyActive = true := by
  simp [busyAsserted]

section sampledClear
variable (s : State)

@[simp] theorem State.sampledClear_cfg : s.sampledClear.cfg = s.cfg := by simp [State.sampledClear]
@[simp] theorem State.sampledClear_program : s.sampledClear.program = s.program := by simp [State.sampledClear]
@[simp] theorem State.sampledClear_opIdx : s.sampledClear.opIdx = s.opIdx := by simp [State.sampledClear]
@[simp] theorem State.sampledClear_surf : s.sampledClear.surf = s.surf := by simp [State.sampledClear]
@[simp] theorem State.sampledClear_stat : s.sampledClear.stat = s.stat := by simp [State.sampledClear]
@[simp] theorem State.sampledClear_fault : s.sampledClear.fault = s.fault := by simp [State.sampledClear]
@[simp] theorem State.sampledClear_results : s.sampledClear.results = s.results := by simp [State.sampledClear]
@[simp] theorem State.sampledClear_lines : s.sampledClear.lines = s.lines := by simp [State.sampledClear]
@[simp] theorem State.sampledClear_tb : s.sampledClear.tb = s.tb := by simp [State.sampledClear]
@[simp] theorem State.sampledClear_ctl : s.sampledClear.ctl = (sampleNext s).ctl := rfl
@[simp] theorem State.sampledClear_trace : s.sampledClear.trace = s.trace ++ [.sample (!s.cfg.busyActive)] := by simp [State.sampledClear]

end sampledClear

theorem State.prepared_trace {s : State} (hc : 1 ≤ s.cfg.maxChunk) :
    s.prepared.trace = s.trace ++ [.delay s.cfg.tSwrstSettle] ++ initEvents s.cfg s.surf.border := by
  rw [State.prepared, State.setCstate_trace, State.initialised_trace (by exact hc)]
  rfl

theorem State.slept_trace {s : State} (hc : 1 ≤ s.cfg.maxChunk) : s.slept.trace = s.trace ++ sleepEvents s.cfg := by
  rw [State.slept, State.setRamv_trace, State.setCstate_trace, State.sentGroup_trace (by exact hc)]
  simp [sleepEvents]

section waitDone
variable (s : State)

@[simp] theorem State.prepared_cfg : s.prepared.cfg = s.cfg := by simp [State.prepared]
@[simp] theorem State.prepared_program : s.prepared.program = s.program := by simp [State.prepared]
@[simp] theorem State.prepared_opIdx : s.prepared.opIdx = s.opIdx := by simp [State.prepared]
@[simp] theorem State.prepared_surf : s.prepared.surf = s.surf := by simp [State.prepared]
@[simp] theorem State.prepared_stat : s.prepared.stat = { s.stat with cstate := .ready } := by simp [State.prepared]
@[simp] theorem State.prepared_fault : s.prepared.fault = s.fault := by simp [State.prepared]
@[simp] theorem State.prepared_results : s.prepared.results = s.results := by simp [State.prepared]
@[simp] theorem State.prepared_tb : s.prepared.tb = s.tb := by simp [State.prepared]
@[simp] theorem State.slept_cfg : s.slept.cfg = s.cfg := by simp [State.slept]
@[simp] theorem State.slept_program : s.slept.program = s.program := by simp [State.slept]
@[simp] theorem State.slept_opIdx : s.slept.opIdx = s.opIdx := by simp [State.slept]
@[simp] theorem State.slept_surf : s.slept.surf = s.surf := by simp [State.slept]
@[simp] theorem State.slept_stat : s.slept.stat = { s.stat with cstate := .asleep, ramvBw := false, ramvRed := false } := by
  simp [State.slept]
@[simp] theorem State.slept_fault : s.slept.fault = s.fault := by simp [State.slept]
@[simp] theorem State.slept_results : s.slept.results = s.results := by simp [State.slept]
@[simp] theorem State.slept_tb : s.slept.tb = s.tb := by simp [State.slept]

end waitDone

theorem State.initialised_lines {s : State} (hd : s.cfg.proto.duc1Init ≠ []) : s.initialised.lines = linesAfterData s s.lines.rst := by
  rw [State.initialised, State.sentGroup_lines _ hd, linesAfterData_of (s := s)]
  · simp
  · simp
  · simp only [State.sentGroup_cs, State.sentGroup_cfg]
    by_cases hm : csManaged s.cfg <;> simp [hm]

/-- The latches `PREPARE` leaves (rules R34, R101, R102). -/
theorem State.prepared_lines {s : State} (hd : s.cfg.proto.duc1Init ≠ []) : s.prepared.lines = linesAfterData s s.lines.rst := by
  have init := State.initialised_lines (s := s.record (.delay s.cfg.tSwrstSettle)) hd
  rw [State.prepared, State.setCstate_lines, init]
  rfl

/-- Settles O21: the reset, the deasserted sample, and the init groups. -/
theorem prepareRunsToReady : Obligations.PrepareRunsToReady := by
  intro s idle hb hr hs hp first
  have hc := one_le_maxChunk hp
  obtain ⟨codes, -, -, duc1, -⟩ := proto_wf hp
  have level := State.resetSent_level (s := s.setInop true) codes first.level
  have done := poll_done (s := (s.setInop true).resetSent) .softReset 0 hr hs hc (by rw [level]; exact busyAsserted_clear _)
  refine ⟨_, (exec_prepare_begun idle hb hr hs hc).trans (congrArg _ done), ?trace, ?stat, ?lines, ?_⟩
  case trace =>
    rw [State.waitDone, complete_trace, State.prepared_trace (by simpa [State.resetSent] using hc)]
    simp [State.resetSent, cmdEvents, chunks_singleton _ hc]
  case stat => simpa [State.waitDone, State.resetSent] using idle
  case lines =>
    rw [State.waitDone, complete_lines, State.prepared_lines (by simpa [State.resetSent] using duc1)]
    rw [linesAfterData_of (s := s) (by simp [State.resetSent]) (by rw [State.sampledClear_lines]; rfl)]
    simp [State.resetSent]
  simp [State.waitDone, State.resetSent]

/-- Settles O22: the two resets, the end of the busy period, and the init groups. -/
theorem prepareProgramsController : Obligations.PrepareProgramsController := by
  intro s idle hb hr hs hp ha first
  have hc := one_le_maxChunk hp
  obtain ⟨s1, s2, h1, h2⟩ := panel_bounds hp
  obtain ⟨codes, -, -, duc1, -⟩ := proto_wf hp
  have level := State.resetSent_level (s := s.setInop true) codes first.level
  have done := poll_done (s := (s.setInop true).resetSent) .softReset 0 hr hs hc (by rw [level]; exact busyAsserted_clear _)
  obtain ⟨c, n, ctl, active, plan, shown, bw, red, cmd⟩ := State.resetSent_ctl (s := s.setInop true) ha codes
  have head : c.busyPlan.head? = some 0 := by
    rw [FirstSampleClear, ha] at first
    rw [plan]
    exact first
  have after := sampleNext_busyPeriod (s := (s.setInop true).resetSent) ha rfl ctl active head
  have att : Attends ((s.setInop true).resetSent.sampledClear.record (.delay s.cfg.tSwrstSettle)) := by
    refine ⟨by simpa [State.resetSent] using ha, by simpa [State.resetSent] using codes, ?_, ?_⟩
    · simp [heldInReset, State.resetSent, Config.rstActive]
    · rw [State.record_ctl, State.sampledClear_ctl, after]
      exact ⟨active, rfl, commandDone_of cmd (by simp)⟩
  have init := State.initialised_ctl att (by simpa [State.resetSent] using duc1)
  refine ⟨_, (exec_prepare_begun idle hb hr hs hc).trans (congrArg _ done), ?_⟩
  have final : (State.waitDone .softReset (s.setInop true).resetSent).ctl =
      ((s.setInop true).resetSent.sampledClear.record (.delay s.cfg.tSwrstSettle)).initialised.ctl := by
    simp [State.waitDone, State.prepared, State.resetSent]
  rw [final, init, State.record_ctl, State.sampledClear_ctl, after]
  simp only [State.record_cfg, State.record_surf, State.sampledClear_cfg, State.sampledClear_surf]
  rw [hi_append_lo (v := (s.setInop true).resetSent.cfg.height - _) ((Nat.sub_le _ _).trans_lt (by simp [State.resetSent]; omega)),
    hi_append_lo (v := (s.setInop true).resetSent.cfg.height - 1) ((Nat.sub_le _ _).trans_lt (by simp [State.resetSent]; omega))]
  have bytes : 1 ≤ s.cfg.proto.duc1Init.length := List.length_pos_of_ne_nil duc1
  exact ⟨active, trivial, rfl, rfl, trivial, rfl, rfl, rfl, rfl, rfl, bw, red, shown, commandDone_of rfl (by simpa [State.resetSent] using bytes)⟩

/-- Settles O24: the rest of the operation after the sample. -/
theorem waitEndsAndResumes : Obligations.WaitEndsAndResumes := by
  constructor
  · intro s n hm hr hs hp clear
    have hc := one_le_maxChunk hp
    have done := poll_done (s := s.setMicro .idle) .softReset n hr hs hc clear
    refine ⟨_, (step_waiting hm).trans (congrArg _ done), ?_, ?_⟩
    · rw [State.waitDone, complete_trace, State.prepared_trace (by simpa using hc)]
      simp
    · simp [State.waitDone]
  · intro s n hm hr hs hp clear
    have hc := one_le_maxChunk hp
    have done := poll_done (s := s.setMicro .idle) .activation n hr hs hc clear
    refine ⟨_, (step_waiting hm).trans (congrArg _ done), ?_, ?_⟩
    · rw [State.waitDone, complete_trace, State.slept_trace (by simpa using hc)]
      simp
    · simp [State.waitDone]

end Sys2Proof.Machine

namespace Sys2Proof.Machine

/-! ## The updates, and a first sample that reads asserted (rules R126, R127, R157 to R160) -/

section activationSent
variable (m : UpdateMode) (s : State)

@[simp] theorem State.activationSent_cfg : (s.activationSent m).cfg = s.cfg := by simp [State.activationSent]
@[simp] theorem State.activationSent_program : (s.activationSent m).program = s.program := by simp [State.activationSent]
@[simp] theorem State.activationSent_opIdx : (s.activationSent m).opIdx = s.opIdx := by simp [State.activationSent]
@[simp] theorem State.activationSent_surf : (s.activationSent m).surf = s.surf := by simp [State.activationSent]
@[simp] theorem State.activationSent_stat : (s.activationSent m).stat = { s.stat with cstate := .busy } := by simp [State.activationSent]
@[simp] theorem State.activationSent_result : (s.activationSent m).result = s.result := by simp [State.activationSent]
@[simp] theorem State.activationSent_results : (s.activationSent m).results = s.results := by simp [State.activationSent]
@[simp] theorem State.activationSent_tb : (s.activationSent m).tb = s.tb := by simp [State.activationSent]
@[simp] theorem State.activationSent_rst : (s.activationSent m).lines.rst = s.lines.rst := by simp [State.activationSent]
@[simp] theorem State.activationSent_backend : (s.activationSent m).env.backend = s.env.backend := by simp [State.activationSent]
@[simp] theorem State.activationSent_early : (s.activationSent m).env.early = s.env.early := by simp [State.activationSent]

theorem State.activationSent_fault : (s.activationSent m).fault =
    if updateUnprepared s then { s.fault with seqViol := true } else s.fault := by
  rw [← noteSequence_fault]
  simp [State.activationSent]

theorem State.activationSent_trace {s : State} (hc : 1 ≤ s.cfg.maxChunk) :
    (s.activationSent m).trace = s.trace ++ activateEvents s.cfg m := by
  rw [State.activationSent, State.setCstate_trace, State.activated_trace m (by simpa using hc)]
  simp

theorem State.activationSent_cs : (s.activationSent m).lines.cs = if csManaged s.cfg then some (!s.cfg.csActive) else s.lines.cs := by
  rw [State.activationSent, State.setCstate_lines, State.activated, State.sent_cs]
  simp only [State.sentGroup_cs, State.sentGroup_cfg, noteSequence_cfg, noteSequence_lines]
  by_cases hm : csManaged s.cfg <;> simp [hm]

end activationSent

/-- The ground of `SEQ_VIOL` for an update (rule R157). -/
theorem updateUnprepared_iff (s : State) : updateUnprepared s = false ↔
    s.stat.cstate = .ready ∧ s.stat.ramvBw = true ∧ s.stat.ramvRed = true := by
  simp [updateUnprepared, notReady, and_assoc]

theorem poll_goesOn {s : State} (p : WaitPoint) {n : Nat} (rest : State → Flow) (r : ResultWord) (hs : SequentialHost s)
    (asserted : busyAsserted s.cfg (sampleLevel s) = true) (hn : s.cfg.busyTimeoutMs = 0 ∨ n < s.cfg.busyTimeoutMs) :
    (poll p n rest s).finish r = s.waitGoesOn p n := by
  rw [poll_waits hs asserted hn]
  rfl

/-- Settles O23: one asserted sample and one delay, from the state in which the wait begins. -/
theorem assertedBusySuspends : Obligations.AssertedBusySuspends := by
  constructor
  · intro s idle hb hr hs hp first
    have hc := one_le_maxChunk hp
    obtain ⟨codes, -⟩ := proto_wf hp
    have level := State.resetSent_level (s := s.setInop true) codes first.level
    have waits := poll_goesOn (s := (s.setInop true).resetSent) .softReset prepareTail 0#32 hs
      (by rw [level]; exact busyAsserted_active _) (Nat.eq_zero_or_pos _)
    refine ⟨_, (exec_prepare_begun idle hb hr hs hc).trans (congrArg _ waits), rfl, ?_⟩
    simp [State.waitGoesOn, State.resetSent, cmdEvents, chunks_singleton _ hc, hb]
  · intro s i m hu idle hb hr hs hp hl first
    have hc := one_le_maxChunk hp
    obtain ⟨codes, -⟩ := proto_wf hp
    have level := State.activationSent_level (s := s.setInop true) codes hl m first.level
    have waits := poll_goesOn (s := (s.setInop true).activationSent m) .activation updateTail 0#32
      (by rw [SequentialHost, State.activationSent_early]; exact hs)
      (by rw [level, State.activationSent_cfg]; exact busyAsserted_active _) (Nat.eq_zero_or_pos _)
    refine ⟨_, (exec_update_begun hu idle hb hr hs hc).trans (congrArg _ waits), rfl, ?trace, ?stat, ?fault, ?_⟩
    case trace => simp [State.waitGoesOn, State.activationSent_trace _ (s := s.setInop true) hc]
    case stat => simp [State.waitGoesOn]
    case fault =>
      simp only [State.waitGoesOn, State.setMicro_fault, State.record_fault, sampleNext_fault, State.activationSent_fault]
      rfl
    simp [State.waitGoesOn]

/-- The end of an update whose first sample is deasserted. -/
theorem exec_update_done {s : State} {i : Instr} {m : UpdateMode} (hu : UpdateOp i m) (idle : Idle s) (hb : s.stat.begun = true)
    (hr : Reliable s) (hs : SequentialHost s) (hp : s.cfg.wf) (hl : ListensIfReference s) (first : FirstSampleClear s) :
    exec i s = .next (((s.setInop true).activationSent m).waitDone .activation) := by
  have hc := one_le_maxChunk hp
  obtain ⟨codes, -⟩ := proto_wf hp
  have level := State.activationSent_level (s := s.setInop true) codes hl m first.level
  have done := poll_done (s := (s.setInop true).activationSent m) .activation 0
    (by rw [Reliable, State.activationSent_backend]; exact hr) (by rw [SequentialHost, State.activationSent_early]; exact hs)
    (by rw [State.activationSent_cfg]; exact hc) (by rw [level, State.activationSent_cfg]; exact busyAsserted_clear _)
  exact (exec_update_begun hu idle hb hr hs hc).trans (congrArg _ done)

/-- Settles O33: the activation, the deasserted sample, and the deep sleep. -/
theorem updateRunsToAsleep : Obligations.UpdateRunsToAsleep := by
  intro s i m hu idle hb hr hs hp hl first
  have hc := one_le_maxChunk hp
  refine ⟨_, exec_update_done hu idle hb hr hs hp hl first, ?trace, ?stat, ?fault, ?surf, ?tb, rfl, ?results, ?opIdx, rfl, ?cfg,
    ?program, ?rst, ?cs, ?dc⟩
  case trace =>
    rw [State.waitDone, complete_trace, State.slept_trace (by simpa using hc)]
    simp [State.activationSent_trace _ (s := s.setInop true) hc]
  case stat => simpa [State.waitDone] using idle
  case fault =>
    simp only [State.waitDone, complete_fault, State.slept_fault, State.sampledClear_fault, State.activationSent_fault]
    by_cases h : s.stat.cstate = .ready ∧ s.stat.ramvBw = true ∧ s.stat.ramvRed = true
    · have prepared : updateUnprepared (s.setInop true) = false := (updateUnprepared_iff s).mpr h
      rw [prepared, if_pos h]
      rfl
    · have unprepared : updateUnprepared (s.setInop true) = true := by
        rw [← Bool.not_eq_false]
        exact fun e => h ((updateUnprepared_iff s).mp e)
      rw [unprepared, if_neg h]
      rfl
  case surf => simp [State.waitDone]
  case tb => simp [State.waitDone]
  case results => simp [State.waitDone]
  case opIdx => simp [State.waitDone]
  case cfg => simp [State.waitDone]
  case program => simp [State.waitDone]
  case rst => simp [State.waitDone, State.slept]
  case cs =>
    simp only [State.waitDone, complete_lines, State.slept, State.setRamv_lines, State.setCstate_lines, State.sentGroup_cs,
      State.record_cfg, State.record_lines, State.sampledClear_cfg, State.sampledClear_lines, State.activationSent_cfg,
      State.activationSent_cs, State.setInop_cfg, State.setInop_lines]
    by_cases hm : csManaged s.cfg <;> simp [hm]
  case dc => simp [State.waitDone, State.slept, State.sentGroup_dc]

/-! ## What an update shows (rules R210, R211, R227, R228) -/

theorem duc1Of_ne_nil {p : Proto} (h : p.wf) (m : UpdateMode) : duc1Of p m ≠ [] := by
  obtain ⟨-, -, -, -, normal, fast⟩ := h
  cases m
  · exact normal
  · exact fast

/-- The controller with an update staged (rules R208, R207, R209). -/
theorem State.staged_ctl {s : State} (h : Attends s) (hp : s.cfg.proto.wf) (m : UpdateMode) :
    (s.staged m).ctl = { s.ctl with temp := s.cfg.proto.tempInternal, duc1 := duc1Of s.cfg.proto m, duc2 := duc2Of s.cfg.proto m,
                                    cmd := some .displayUpdateControl2, got := 1 } ∧ Attends (s.staged m) := by
  have e1 := (h.group_ctl .tempSensorSelect [s.cfg.proto.tempInternal]).trans (Controller.group_tempSensorSelect h.codes h.ready _ _)
  have h1 := h.after (by simp) (by simp) e1 h.ready.active h.ready.idle (commandDone_of rfl (by simp))
  have e2 := (h1.group_ctl .displayUpdateControl1 (duc1Of s.cfg.proto m)).trans
    (Controller.group_displayUpdateControl1 h1.codes h1.ready _ _ (duc1Of_ne_nil hp m))
  rw [e1] at e2
  have bytes : 1 ≤ (duc1Of s.cfg.proto m).length := List.length_pos_of_ne_nil (duc1Of_ne_nil hp m)
  have h2 := h1.after (by simp) (by simp) e2 h.ready.active h.ready.idle (commandDone_of rfl (by simpa using bytes))
  have e3 := (h2.group_ctl .displayUpdateControl2 [duc2Of s.cfg.proto m]).trans
    (Controller.group_displayUpdateControl2 h2.codes h2.ready _ _)
  rw [e2] at e3
  have h3 := h2.after (by simp) (by simp) e3 h.ready.active h.ready.idle (commandDone_of rfl (by simp))
  simp only [State.sentGroup_cfg, Proto.code] at e3 h3
  exact ⟨e3, h3⟩

/-- What `planeRead` gives for a native pixel's byte is the byte the image looks at (rule R52). -/
theorem pixelByte_eq_planeRead {p : Params} (hp : p.wf) {nx ny : Nat} (hx : nx < p.width) (hy : ny < p.height) (m : Memory) :
    pixelByte m nx ny = planeRead p m (BitVec.ofNat 8 (nx / 8)) (BitVec.ofNat 16 ny) := by
  obtain ⟨s1, s2, h1, h2⟩ := panel_bounds hp
  have column : nx / 8 < stride p := by
    unfold stride
    omega
  have x : (BitVec.ofNat 8 (nx / 8)).toNat = nx / 8 := by rw [BitVec.toNat_ofNat, Nat.mod_eq_of_lt (by omega)]
  have y : (BitVec.ofNat 16 ny).toNat = ny := by rw [BitVec.toNat_ofNat, Nat.mod_eq_of_lt (by omega)]
  rw [planeRead, inPlane, x, y, if_pos (decide_eq_true ⟨column, hy⟩), ramAddr, x, y, pixelByte]

/-- The colour of a pixel both of whose bytes are defined (rule R227). -/
theorem Controller.pixelColour_defined {p : Params} {c : Controller} {nx ny : Nat} {b r : Byte} (n : Nat)
    (hb : pixelByte c.ramBw nx ny = some b) (hr : pixelByte c.ramRed nx ny = some r) :
    Controller.pixelColour p c n nx ny =
      if r.getLsbD (7 - nx % 8) = true ∧ (Controller.holdsFast p c = false ∨ p.fastShowsRed = true) then .red
      else if b.getLsbD (7 - nx % 8) = true then .white else .black := by
  rw [Controller.pixelColour, hb, hr]
  simp only [Option.map_some, pixelBit]
  cases Controller.holdsFast p c <;> cases p.fastShowsRed <;> cases r.getLsbD (7 - nx % 8) <;> cases b.getLsbD (7 - nx % 8) <;> rfl

/-- The border colour, where one colour alone has the byte (rule R227). -/
theorem Controller.borderColour_unique {p : Params} {c : Controller} {k : Colour} (n : Nat) (hk : c.border = borderByte p.proto k)
    (only : ∀ j, borderByte p.proto j = borderByte p.proto k → j = k) : Controller.borderColour p c n = k := by
  have others : [Colour.white, Colour.black, Colour.red].filter (fun j => borderByte p.proto j == c.border) =
      [Colour.white, Colour.black, Colour.red].filter (fun j => j == k) := by
    refine List.filter_congr fun j _ => ?_
    rw [hk, Bool.eq_iff_iff, beq_iff_eq, beq_iff_eq]
    exact ⟨only j, fun e => e ▸ rfl⟩
  rw [Controller.borderColour, others]
  cases k <;> rfl

/-- The staged settings tell the fast mode from the normal one (rule R227). -/
theorem holdsFast_staged {p : Params} {m : UpdateMode} {c : Controller} (h1 : c.duc1 = duc1Of p.proto m) (h2 : c.duc2 = duc2Of p.proto m)
    (differ : m = .normal → p.proto.duc1Normal ≠ p.proto.duc1Fast ∨ p.proto.duc2Normal ≠ p.proto.duc2Fast) :
    Controller.holdsFast p c = false ↔ m = .normal := by
  rw [Controller.holdsFast, h1, h2, decide_eq_false_iff_not, not_and_or]
  cases m with
  | normal => exact ⟨fun _ => rfl, differ⟩
  | fast => simp [duc1Of, duc2Of]

/-- The sleep at the end of an update keeps the image (rules R211, R228). -/
theorem State.slept_ctl {s : State} (h : Attends s) : ∃ k, s.slept.ctl =
    { Controller.sleep s.ctl k with cmd := some .deepSleep, got := s.cfg.proto.deepSleepData.length } := by
  have delayed : Attends (s.record (.delay s.cfg.tPostAct)) := h.after rfl rfl rfl h.ready.active h.ready.idle h.ready.done
  obtain ⟨k, sleep⟩ := Controller.group_deepSleep h.codes h.ready s.draws (s.draws + 1) s.cfg.proto.deepSleepData rfl
  exact ⟨k, (delayed.group_ctl .deepSleep s.cfg.proto.deepSleepData).trans sleep⟩

/-- The controller when an update whose first sample is deasserted completes: it sleeps, and shows the image of the staged RAM. -/
theorem State.waitDone_activation_ctl {s : State} (h : Attends s) (hp : s.cfg.proto.wf) (first : s.ctl.busyPlan.head? = some 0)
    (m : UpdateMode) : ∃ c n, c.ramBw = s.ctl.ramBw ∧ c.ramRed = s.ctl.ramRed ∧ c.border = s.ctl.border ∧ c.duc1 = duc1Of s.cfg.proto m ∧
      c.duc2 = duc2Of s.cfg.proto m ∧ ((s.activationSent m).waitDone .activation).ctl.shown = some (Controller.image s.cfg c n) ∧
      ((s.activationSent m).waitDone .activation).ctl.mode = .asleep ∧
      ((s.activationSent m).waitDone .activation).ctl.ramBw = [] ∧ ((s.activationSent m).waitDone .activation).ctl.ramRed = [] := by
  have noted : Attends (noteSequence (updateUnprepared s) s) :=
    h.after (by simp) (by simp) (noteSequence_ctl _ s) h.ready.active h.ready.idle h.ready.done
  obtain ⟨staged, att⟩ := State.staged_ctl noted (by simpa using hp) m
  have busy := att.command_ctl .masterActivation
  rw [← State.activated_eq, staged] at busy
  simp only [noteSequence_ctl, noteSequence_cfg, State.staged_cfg] at busy
  have after := sampleNext_busyPeriod (s := s.activationSent m) (by simpa using h.attached) (by simpa [heldInReset] using h.released)
    busy h.ready.active first
  have awake : Attends (s.activationSent m).sampledClear :=
    h.after (by simp) (by simp) after h.ready.active rfl (commandDone_of rfl (by simp))
  obtain ⟨k, sleep⟩ := State.slept_ctl awake
  rw [State.sampledClear_ctl, after] at sleep
  rw [State.waitDone, complete_ctl, sleep]
  exact ⟨{ s.ctl with temp := s.cfg.proto.tempInternal, duc1 := duc1Of s.cfg.proto m, duc2 := duc2Of s.cfg.proto m,
                      cmd := some .masterActivation, got := 0 }, _, rfl, rfl, rfl, rfl, rfl, rfl, rfl, rfl, rfl⟩

/-- The pixels of an image, native row by native row. -/
theorem Controller.image_pixel {p : Params} {c : Controller} {n nx ny : Nat} (hx : nx < p.width) (hy : ny < p.height) :
    (Controller.image p c n).pixels[ny * p.width + nx]? = some (Controller.pixelColour p c n nx ny) := by
  have inside : ny * p.width + nx < p.width * p.height := by
    have : (ny + 1) * p.width ≤ p.height * p.width := Nat.mul_le_mul_right _ hy
    rw [Nat.succ_mul, Nat.mul_comm p.height] at this
    omega
  have column : (ny * p.width + nx) % p.width = nx := by rw [Nat.mul_add_mod_self_right, Nat.mod_eq_of_lt hx]
  have row : (ny * p.width + nx) / p.width = ny := by
    rw [Nat.add_comm, Nat.add_mul_div_right _ _ (by omega), Nat.div_eq_of_lt hx, Nat.zero_add]
  simp [Controller.image, List.getElem?_map, List.getElem?_range inside, column, row]

/-- Settles O34: the image of the staged RAM, kept through the end of the busy period and the sleep. -/
theorem updateShowsTheFrame : Obligations.UpdateShowsTheFrame := by
  intro s i m hu idle hb hr hs hp hl hd first differ
  have plan : s.ctl.busyPlan.head? = some 0 := by
    rw [FirstSampleClear, hl.1] at first
    exact first
  have att : Attends (s.setInop true) :=
    (attends_of_listening hl hp hd).after rfl rfl rfl hl.2.1 hl.2.2.1 hd
  obtain ⟨c, n, bw, red, border, duc1, duc2, shown, asleep⟩ :=
    State.waitDone_activation_ctl att (proto_wf hp) plan m
  refine ⟨_, Controller.image s.cfg c n, exec_update_done hu idle hb hr hs hp (fun _ => hl) first, shown, asleep.1, asleep.2.1,
    asleep.2.2, by simp [Controller.image], ?_, ?_⟩
  · intro nx ny b r hx hy hbw hred
    rw [← pixelByte_eq_planeRead hp hx hy] at hbw hred
    rw [Controller.image_pixel hx hy, Controller.pixelColour_defined n (by rw [bw]; exact hbw) (by rw [red]; exact hred)]
    have shows : Controller.holdsFast s.cfg c = false ↔ m = .normal := holdsFast_staged duc1 duc2 differ
    simp only [shows]
  · intro k hk only
    exact Controller.borderColour_unique n (by rw [border]; exact hk) only

end Sys2Proof.Machine

namespace Sys2Proof.Machine

/-! ## Quiet traffic on a listening controller (rules R202 to R209, R212 to R217) -/

/-- Traffic that leaves a listening controller listening, with its power state, busy plan and image as before. -/
def Quiet (s t : State) : Prop := Controller.Keeps s.ctl t.ctl ∧ Listening t

theorem Quiet.trans {s t u : State} (h1 : Quiet s t) (h2 : Quiet t u) : Quiet s u := ⟨h1.1.trans h2.1, h2.2⟩

theorem quiet_of_keeps {s t : State} (hl : Listening s) (keeps : Controller.Keeps s.ctl t.ctl) (cfg : t.cfg = s.cfg)
    (rst : t.lines.rst = s.lines.rst) : Quiet s t := by
  obtain ⟨attached, active, idle, released⟩ := hl
  refine ⟨keeps, by rwa [cfg], keeps.mode.trans active, keeps.busy.trans idle, ?_⟩
  rwa [heldInReset, rst]

theorem seeded_quiet {s : State} (hl : Listening s) (hp : s.cfg.proto.codes.Nodup) (xb yr : Nat) : Quiet s (s.seeded xb yr) := by
  obtain h1 : Quiet _ _ := sentGroup_keeps hl hp (cmd := .setRamXCounter) rfl [lo xb]
  obtain h2 : Quiet _ _ := sentGroup_keeps h1.2 (by simpa using hp) (cmd := .setRamYCounter) rfl [lo yr, hi yr]
  rw [State.sentGroup_cfg] at h2
  exact h1.trans h2

/-- A RAM-write command and its data. -/
theorem sentBlock_quiet {s : State} (hl : Listening s) (hp : s.cfg.proto.codes.Nodup) (pl : Plane) (d : List Byte) :
    Quiet s ((s.sent .cmd [writeCode s.cfg.proto pl]).sent .data d) := by
  obtain ⟨attached, active, idle, released⟩ := hl
  refine quiet_of_keeps ⟨attached, active, idle, released⟩ ?_ rfl rfl
  have code : writeCode s.cfg.proto pl = s.cfg.proto.code (writeCommand pl) := by cases pl <;> rfl
  have quiet : isQuiet (writeCommand pl) = true := by cases pl <;> rfl
  rw [State.sent_ctl, ctlAfter, State.sent_cfg, attached, heldInReset_sent, released, State.sent_ctl, ctlAfter, attached, released, code]
  exact Controller.group_keeps hp active idle s.draws _ _ quiet d

theorem planeSent_quiet {s : State} (hl : Listening s) (hp : s.cfg.proto.codes.Nodup) (pl : Plane) (buf : List Byte) :
    Quiet s (s.planeSent pl buf) := by
  have seed := seeded_quiet hl hp 0 (s.cfg.height - 1)
  have block := sentBlock_quiet (s := (s.seeded 0 (s.cfg.height - 1)).setTb (flip s.cfg buf)) seed.2 (by simpa using hp) pl (flip s.cfg buf)
  rw [State.setTb_cfg, State.seeded_cfg] at block
  exact seed.trans block

theorem frameWritten_quiet {s : State} (hl : Listening s) (hp : s.cfg.proto.codes.Nodup) (bw red : List Byte) :
    Quiet s (s.frameWritten bw red) := by
  have first := planeSent_quiet hl hp .bw bw
  have second := planeSent_quiet (s := markWritten .bw (s.planeSent .bw bw)) first.2
    (by simpa using hp) .red red
  exact ⟨first.1.trans second.1, second.2⟩

/-- Inbound bytes after `READ_RAM` (rule R225). -/
theorem Controller.bytesOut_keeps (p : Params) : ∀ (as : List Byte) (n : Nat) {c : Controller}, c.mode = .active → c.busy = false →
    c.cmd = some .readRam → Controller.Keeps c (Controller.bytesOut p false n c as).2 := by
  intro as
  induction as with
  | nil => intro n c _ _ _; exact Controller.Keeps.refl c
  | cons a as ih =>
    intro n c active idle cmd
    have one : Controller.Keeps c (Controller.ramByte p n c a).2 ∧ (Controller.ramByte p n c a).2.cmd = c.cmd := by
      unfold Controller.ramByte
      split
      · exact ⟨⟨rfl, rfl, rfl, rfl⟩, rfl⟩
      · exact ⟨(Controller.advance_keeps c n).trans ⟨rfl, rfl, rfl, rfl⟩, Controller.advance_cmd c n⟩
    simp only [Controller.bytesOut, Controller.byteOut_readRam active idle cmd]
    exact one.1.trans (ih (n + 1) (one.1.mode.trans active) (one.1.busy.trans idle) (one.2.trans cmd))

theorem ramReadDone_quiet {s : State} (hl : Listening s) (hp : s.cfg.proto.codes.Nodup) (pl : Plane) (xb yr : Nat) :
    Quiet s (s.ramReadDone pl xb yr) := by
  obtain option : Quiet _ _ := sentGroup_keeps hl hp (cmd := .readRamOption) rfl [readOption s.cfg.proto pl]
  have seed := option.trans (seeded_quiet option.2 (by simpa using hp) xb yr)
  generalize hu : (s.sentGroup (s.cfg.proto.code .readRamOption) [readOption s.cfg.proto pl]).seeded xb yr = u at seed
  have cfg : u.cfg = s.cfg := by rw [← hu]; simp
  have command := Listening.command_ctl seed.2 (by rwa [cfg]) .readRam
  have started := Controller.start_keeps u.cfg { Controller.cutShort u.ctl u.draws with cmd := some .readRam, got := 0 } u.draws .readRam rfl
  have keeps : Controller.Keeps u.ctl (u.sent .cmd [u.cfg.proto.code .readRam]).ctl := by
    have cut : Controller.Keeps u.ctl { Controller.cutShort u.ctl u.draws with cmd := some .readRam, got := 0 } :=
      (Controller.cutShort_keeps u.ctl u.draws).trans ⟨rfl, rfl, rfl, rfl⟩
    rw [command]
    exact cut.trans started.1
  have sent : Quiet u (u.sent .cmd [u.cfg.proto.code .readRam]) := quiet_of_keeps seed.2 keeps rfl rfl
  have read : Quiet u ((u.sent .cmd [u.cfg.proto.code .readRam]).received 2) := by
    obtain ⟨attached, active, idle, released⟩ := sent.2
    refine sent.trans (quiet_of_keeps sent.2 ?_ rfl rfl)
    rw [State.received_ctl_reference attached, released]
    exact Controller.bytesOut_keeps _ _ _ active idle (by rw [command]; exact started.2)
  rw [cfg, ← hu] at read
  rw [← hu] at seed
  exact seed.trans read

theorem ramWriteDone_quiet {s : State} (hl : Listening s) (hp : s.cfg.proto.codes.Nodup) (pl : Plane) (xb yr : Nat) (v : Byte) :
    Quiet s (s.ramWriteDone pl xb yr v) := by
  have seed := seeded_quiet hl hp xb yr
  have block := sentBlock_quiet seed.2 (by simpa using hp) pl [v]
  rw [State.seeded_cfg] at block
  exact seed.trans block

theorem pixelDone_quiet {s : State} (hl : Listening s) (hp : s.cfg.proto.codes.Nodup) (nx ny : Nat) (c : Colour) :
    Quiet s (s.pixelDone nx ny c) := by
  have readBw := ramReadDone_quiet hl hp .bw (byteColumn nx) ny
  have readRed := readBw.trans (ramReadDone_quiet readBw.2 (by simpa using hp) .red (byteColumn nx) ny)
  have writeBw := readRed.trans (ramWriteDone_quiet readRed.2 (by simpa using hp) .bw (byteColumn nx) ny
    (modifyBw ((s.ramReadDone .bw (byteColumn nx) ny).ramReadDone .red (byteColumn nx) ny).cfg
      (readByte (s.ramReadDone .bw (byteColumn nx) ny)) (pixelMask nx) c))
  exact writeBw.trans (ramWriteDone_quiet writeBw.2 (by simpa using hp) .red (byteColumn nx) ny _)

theorem initialised_quiet {s : State} (hl : Listening s) (hp : s.cfg.proto.codes.Nodup) : Quiet s s.initialised := by
  obtain h1 : Quiet _ _ := sentGroup_keeps hl hp (cmd := .driverOutputControl) rfl (docData s.cfg)
  obtain h2 : Quiet _ _ := sentGroup_keeps h1.2 (by simpa using hp) (cmd := .dataEntryMode) rfl [s.cfg.proto.dem]
  obtain h3 : Quiet _ _ := sentGroup_keeps h2.2 (by simpa using hp) (cmd := .setRamXWindow) rfl (xWindowData s.cfg)
  obtain h4 : Quiet _ _ := sentGroup_keeps h3.2 (by simpa using hp) (cmd := .setRamYWindow) rfl (yWindowData s.cfg)
  obtain h5 : Quiet _ _ := sentGroup_keeps h4.2 (by simpa using hp) (cmd := .borderWaveform) rfl [borderByte s.cfg.proto s.surf.border]
  obtain h6 : Quiet _ _ := sentGroup_keeps h5.2 (by simpa using hp) (cmd := .displayUpdateControl1) rfl s.cfg.proto.duc1Init
  have all := ((((h1.trans h2).trans h3).trans h4).trans h5).trans h6
  simp only [State.sentGroup_cfg] at all
  exact all

/-- A whole `DEEP_SLEEP` group puts a listening controller to sleep, whatever command was before (rules R211, R218, R228). -/
theorem Controller.group_deepSleep_mode {p : Params} {c : Controller} (hp : p.proto.codes.Nodup) (active : c.mode = .active)
    (idle : c.busy = false) (n m : Nat) :
    (Controller.bytesIn p false .data m (Controller.byteIn p false .cmd n c (p.proto.code .deepSleep)) p.proto.deepSleepData).mode =
      .asleep := by
  have cut := Controller.cutShort_keeps c n
  have command : Controller.byteIn p false .cmd n c (p.proto.code .deepSleep) =
      Controller.start p { Controller.cutShort c n with cmd := some .deepSleep, got := 0 } n .deepSleep := by
    simp [Controller.byteIn, active, idle, Controller.command, Proto.command_code hp]
  rw [command, Controller.start]
  by_cases hz : p.proto.deepSleepData.length = 0
  · rw [if_pos hz, List.length_eq_zero_iff.mp hz]
    rfl
  · rw [if_neg hz]
    obtain ⟨k, e⟩ := Controller.bytesIn_deepSleep p p.proto.deepSleepData m
      (c := { Controller.cutShort c n with cmd := some .deepSleep, got := 0 }) (cut.mode.trans active) (cut.busy.trans idle) rfl
      (fun e => hz (List.length_eq_zero_iff.mpr e)) (Nat.zero_add _)
    rw [e]
    rfl

theorem slept_mode {s : State} (hl : Listening s) (hp : s.cfg.proto.codes.Nodup) : s.slept.ctl.mode = .asleep := by
  obtain ⟨attached, active, idle, released⟩ := hl
  show ((s.record (.delay s.cfg.tPostAct)).sentGroup _ _).ctl.mode = _
  rw [State.sentGroup_ctl]
  simp only [State.record_cfg, attached, State.record_ctl, State.record_draws]
  rw [show heldInReset (s.record (.delay s.cfg.tPostAct)) = false from released]
  exact Controller.group_deepSleep_mode hp active idle _ _

end Sys2Proof.Machine

namespace Sys2Proof.Machine

/-! ## `CSTATE` and the controller's mode agree (rule R229) -/

/-- What `CSTATE` says of the reference controller. -/
def CState.Says : CState → Controller → Prop
  | .uninitialized, c => c.mode = .off
  | .reset, c => c.mode = .active
  | .ready, c => c.mode = .active ∧ c.busy = false
  | .busy, c => c.mode = .active ∧ c.busy = true
  | .asleep, c => c.mode = .asleep

/-- No fault bit is set. -/
def NoFault (s : State) : Prop := ∀ b, faultGet s.fault b = false

theorem not_noFault {s : State} (b : FaultBit) (h : faultGet s.fault b = true) : ¬ NoFault s := fun none => by
  rw [none b] at h
  cases h

/-- The agreement inside an operation: `Agrees` without the position of the micro-sequencer. -/
structure Accord (s : State) : Prop where
  attached : s.cfg.attached = .reference
  codes : s.cfg.proto.wf
  reliable : Reliable s
  sequential : SequentialHost s
  released : heldInReset s = false
  view : NoFault s → s.stat.cstate.Says s.ctl

theorem Agrees.accord {s : State} (h : Agrees s) : Accord s where
  attached := h.attached
  codes := h.codes
  reliable := h.reliable
  sequential := h.sequential
  released := h.released
  view none := by
    have view := h.view none
    cases hc : s.stat.cstate <;> simpa only [hc, CState.Says] using view

theorem Accord.agrees {s : State} (h : Accord s) (hm : ∀ g, s.micro ≠ .sending g) : Agrees s where
  attached := h.attached
  codes := h.codes
  reliable := h.reliable
  sequential := h.sequential
  released := h.released
  notSending := hm
  view none := by
    have view := h.view none
    cases hc : s.stat.cstate <;> simpa only [hc, CState.Says] using view

/-- The parameters, the backend, the host and the RST latch are as before. -/
structure SameWire (s t : State) : Prop where
  cfg : t.cfg = s.cfg
  backend : t.env.backend = s.env.backend
  early : t.env.early = s.env.early
  rst : t.lines.rst = s.lines.rst

/-- The wire stays in accord; the view is to be shown. -/
theorem Accord.of_wire {s t : State} (h : Accord s) (wire : SameWire s t) (view : NoFault t → t.stat.cstate.Says t.ctl) : Accord t where
  attached := by rw [wire.cfg]; exact h.attached
  codes := by rw [wire.cfg]; exact h.codes
  reliable := wire.backend.trans h.reliable
  sequential := wire.early.trans h.sequential
  released := by rw [heldInReset, wire.rst]; exact h.released
  view := view

/-- A fault bit is set: nothing more is claimed. -/
theorem Accord.of_fault {s t : State} (h : Accord s) (wire : SameWire s t) (bad : ¬ NoFault t) : Accord t :=
  h.of_wire wire fun none => absurd none bad

/-- What agreement looks at is as before. -/
theorem Accord.of_same {s t : State} (h : Accord s) (wire : SameWire s t) (cstate : t.stat.cstate = s.stat.cstate)
    (fault : t.fault = s.fault) (ctl : t.ctl = s.ctl) : Accord t :=
  h.of_wire wire fun none => by
    rw [cstate, ctl]
    exact h.view fun b => by rw [← fault]; exact none b

theorem Accord.complete {s : State} (h : Accord s) (r : ResultWord) : Agrees (complete r s) :=
  (h.of_same (t := Machine.complete r s) ⟨rfl, rfl, rfl, rfl⟩ rfl rfl rfl).agrees fun _ e => by cases e

theorem Accord.listening {s : State} (h : Accord s) (none : NoFault s) (ready : s.stat.cstate = .ready) : Listening s := by
  have told := h.view none
  rw [ready] at told
  exact ⟨h.attached, told.1, told.2, h.released⟩

/-- Quiet traffic from `Ready`. -/
theorem Accord.of_quiet {s t : State} (h : Accord s) (ready : NoFault s → s.stat.cstate = .ready) (wire : SameWire s t)
    (cstate : t.stat.cstate = s.stat.cstate) (fault : t.fault = s.fault) (quiet : Listening s → Quiet s t) : Accord t :=
  h.of_wire wire fun none => by
    have none' : NoFault s := fun b => by rw [← fault]; exact none b
    obtain ⟨-, -, active, idle, -⟩ := quiet (h.listening none' (ready none'))
    rw [cstate, ready none']
    exact ⟨active, idle⟩

/-- A ground of `SEQ_VIOL` is recorded; without it the operation is where it should be (rule R250). -/
theorem Accord.noteSequence {s : State} (h : Accord s) (g : Bool) : Accord (noteSequence g s) := by
  have wire : SameWire s (Machine.noteSequence g s) := ⟨by simp, by simp, by simp, by simp⟩
  cases g with
  | false => exact h
  | true => exact h.of_fault wire (not_noFault .seqViol rfl)

theorem ready_of_noFault {s : State} (none : NoFault (noteSequence (notReady s) s)) : s.stat.cstate = .ready := by
  by_contra ne
  have ground : notReady s = true := decide_eq_true ne
  rw [ground] at none
  exact not_noFault .seqViol rfl none

/-! ### The operations that start no wait -/

theorem agrees_refuse {s : State} (h : Accord s) (hm : s.micro = .idle) (f : FaultBit) : Agrees (refuse f s) :=
  (h.of_fault (t := refuse f s) ⟨rfl, rfl, rfl, rfl⟩ (not_noFault f (faultGet_faultSet_same _ _))).agrees fun g e => by
    rw [show (refuse f s).micro = s.micro from rfl, hm] at e
    cases e

/-- A surface operation or a query completes at once. -/
theorem agrees_of_surface {s t : State} {body : State → State} (h : Accord s) (idle : Idle s)
    (hbody : ∀ u, ∃ r f, body u = complete r (u.setSurf f)) (e : hostOp body s = .next t) : Agrees t := by
  rw [hostOp_idle idle] at e
  obtain ⟨r, f, hu⟩ := hbody (s.setInop true)
  rw [hu] at e
  cases e
  exact (h.of_same (t := (s.setInop true).setSurf f) ⟨rfl, rfl, rfl, rfl⟩ rfl rfl rfl).complete r

theorem agrees_of_notBegun {s t : State} {body : State → State} (h : Accord s) (idle : Idle s) (hb : s.stat.begun = false)
    (e : hostOp (requireBegun body) s = .next t) : Agrees t := by
  rw [hostOp_idle idle, requireBegun_not (by exact hb)] at e
  cases e
  exact (h.of_fault (t := (s.setInop true).raise .notBegun) ⟨rfl, rfl, rfl, rfl⟩ (not_noFault .notBegun rfl)).complete _

theorem Accord.setInop {s : State} (h : Accord s) (b : Bool) : Accord (s.setInop b) :=
  h.of_same ⟨rfl, rfl, rfl, rfl⟩ rfl rfl rfl

theorem agrees_begin {s t : State} (h : Accord s) (idle : Idle s) (e : exec .beginOp s = .next t) : Agrees t := by
  rw [exec_beginOp_idle idle] at e
  have accord := h.setInop true
  have answers : acquireOk (s.setInop true) = true := by rw [acquireOk, accord.reliable]
  have same : acquireNext (s.setInop true) = s.setInop true := by rw [acquireNext, accord.reliable]
  cases hb : s.stat.begun with
  | true =>
    rw [beginBody_begun (by exact hb)] at e
    cases e
    exact accord.complete 1#32
  | false =>
    rw [beginBody_acquired accord.sequential (by exact hb) answers, same] at e
    cases e
    exact (accord.of_same (t := ((s.setInop true).record (.acquire true)).setBegun.csReleased) ⟨rfl, rfl, rfl, rfl⟩ rfl rfl rfl).complete 1#32

theorem agrees_frame {s t : State} {bw red : List Byte} (h : Accord s) (idle : Idle s) (hc : 1 ≤ s.cfg.maxChunk)
    (hbw : bw.length = planeBytes s.cfg) (hred : red.length = planeBytes s.cfg) (e : hostOp (frameBody bw red) s = .next t) :
    Agrees t := by
  cases hb : s.stat.begun with
  | false => exact agrees_of_notBegun h idle hb e
  | true =>
    rw [hostOp_idle idle, frameBody_reliable (s := s.setInop true) hb h.reliable h.sequential hc hbw hred] at e
    cases e
    have noted := (h.setInop true).noteSequence (notReady (s.setInop true))
    refine (noted.of_quiet (fun none => ?_) ⟨by simp, by simp, by simp, by simp⟩ (by simp) (by simp)
      fun hl => frameWritten_quiet hl noted.codes.1 bw red).complete _
    rw [noteSequence_stat]
    exact ready_of_noFault none

theorem pixelBody_accord {x y : Int} {c : Colour} {s : State} (h : Accord s) (hc : 1 ≤ s.cfg.maxChunk) :
    ∃ t, pixelBody x y c s = .cont t ∧ Accord t ∧ t.cfg = s.cfg := by
  cases inside : inRange s.cfg s.surf.rot x y with
  | false => exact ⟨s, pixelBody_outOfRange inside, h, rfl⟩
  | true =>
    cases hb : s.stat.begun with
    | false =>
      exact ⟨_, pixelBody_refused inside hb, h.of_fault ⟨rfl, rfl, rfl, rfl⟩ (not_noFault .notBegun rfl), rfl⟩
    | true =>
      have noted := h.noteSequence (notReady s)
      rw [pixelBody, if_pos inside, if_pos hb, modifyPixel_reliable noted.reliable noted.sequential (by simpa using hc)]
      refine ⟨_, rfl, noted.of_quiet (fun none => ?_) ⟨by simp, by simp, by simp, by simp⟩ (by simp) (by simp)
        fun hl => pixelDone_quiet hl noted.codes.1 _ _ c, by simp⟩
      rw [noteSequence_stat]
      exact ready_of_noFault none

theorem runFrom_accord {f : Int → State → Flow} {P : State → Prop} (hf : ∀ x s, P s → ∃ t, f x s = .cont t ∧ P t) (n : Nat) :
    ∀ x s, P s → ∃ t, runFrom f n x s = .cont t ∧ P t := by
  induction n with
  | zero => exact fun x s h => ⟨s, rfl, h⟩
  | succ n ih =>
    intro x s h
    obtain ⟨t, e, ht⟩ := hf x s h
    rw [runFrom, e, Flow.bind_cont]
    exact ih (x + 1) t ht

/-- A run of pixels, in a row or in a column. -/
theorem agrees_run {s t : State} {f : Int → State → Flow} (h : Accord s) (hc : 1 ≤ s.cfg.maxChunk)
    (hf : ∀ k u, Accord u → 1 ≤ u.cfg.maxChunk → ∃ v, f k u = .cont v ∧ Accord v ∧ v.cfg = u.cfg) (n : Nat) (x : Int)
    (e : Host.Outcome.next ((runFrom f n x (s.setInop true)).finish 0#32) = (.next t : Host.Outcome State Fault Refusal)) : Agrees t := by
  obtain ⟨u, hu, accord, -⟩ := runFrom_accord (P := fun u => Accord u ∧ 1 ≤ u.cfg.maxChunk)
    (fun k u hu => by
      obtain ⟨v, e, accord, cfg⟩ := hf k u hu.1 hu.2
      exact ⟨v, e, accord, by rw [cfg]; exact hu.2⟩) n x (s.setInop true) ⟨h.setInop true, hc⟩
  rw [hu] at e
  cases e
  exact accord.complete _

/-! ### The waits -/

/-- A sample that reads asserted is answered by a busy controller, which stays busy (rule R226). -/
theorem sampleNext_asserted {s : State} (ha : s.cfg.attached = .reference) (hh : heldInReset s = false) (hm : s.ctl.mode = .active)
    (asserted : busyAsserted s.cfg (sampleLevel s) = true) : (sampleNext s).ctl.busy = true := by
  have answers : s.cfg.attached = .reference ∧ Controller.answersBusy (heldInReset s) s.ctl = true :=
    ⟨ha, by simp [Controller.answersBusy, hh, hm]⟩
  have now : Controller.busyNow s.ctl = true := by
    rw [sampleLevel_reference ha hh hm] at asserted
    by_contra free
    rw [if_neg free, busyAsserted_clear] at asserted
    cases asserted
  simp only [Controller.busyNow, Bool.and_eq_true, decide_eq_true_eq] at now
  rw [sampleNext, if_pos answers, State.setCtl_ctl, Controller.afterSample, if_pos now.1, if_neg now.2]
  exact now.1

/-- A sample that reads deasserted ends the busy period (rule R226). -/
theorem sampleNext_clear {s : State} (ha : s.cfg.attached = .reference) (hh : heldInReset s = false) (hm : s.ctl.mode = .active)
    (clear : busyAsserted s.cfg (sampleLevel s) = false) : (sampleNext s).ctl.busy = false := by
  have answers : s.cfg.attached = .reference ∧ Controller.answersBusy (heldInReset s) s.ctl = true :=
    ⟨ha, by simp [Controller.answersBusy, hh, hm]⟩
  have now : Controller.busyNow s.ctl = false := by
    rw [sampleLevel_reference ha hh hm] at clear
    by_contra busy
    rw [if_pos (by simpa using busy), busyAsserted_active] at clear
    cases clear
  rw [sampleNext, if_pos answers, State.setCtl_ctl, Controller.afterSample]
  cases hb : s.ctl.busy with
  | false => rw [if_neg (by simp), hb]
  | true =>
    have ended : s.ctl.busyLeft = 0 := by simpa [Controller.busyNow, hb] using now
    rw [if_pos rfl, if_pos ended]

theorem Says.active_of_wait {p : WaitPoint} {c : Controller} (h : (waitState p).Says c) : c.mode = .active := by
  cases p
  · exact h
  · exact h.1

/-- One turn of a wait keeps the agreement. -/
theorem poll_agrees {s : State} {p : WaitPoint} {n : Nat} (h : Accord s) (hc : 1 ≤ s.cfg.maxChunk) (cstate : s.stat.cstate = waitState p)
    (csIdle : CsIdle s) : Agrees ((poll p n (afterWait p) s).finish 0#32) := by
  have view : NoFault s → (waitState p).Says s.ctl := fun none => cstate ▸ h.view none
  cases asserted : busyAsserted s.cfg (sampleLevel s) with
  | false =>
    rw [poll_done p n h.reliable h.sequential hc asserted]
    have listens : NoFault s → Listening s.sampledClear := fun none => by
      have active := Says.active_of_wait (view none)
      refine ⟨by simpa using h.attached, ?_, sampleNext_clear h.attached h.released active asserted, ?_⟩
      · rw [State.sampledClear_ctl, sampleNext_ctl_mode, active]
      · simpa [heldInReset] using h.released
    cases p with
    | softReset =>
      refine (h.of_wire (t := s.sampledClear.prepared) ⟨by simp, ?_, ?_, ?_⟩ fun none => ?_).complete _
      · simp [State.prepared, State.sampledClear]
      · simp [State.prepared, State.sampledClear]
      · simp [State.prepared, State.sampledClear]
      · have listens' := listens fun b => by simpa using none b
        obtain ⟨-, -, active, idle, -⟩ := initialised_quiet (s := s.sampledClear.record (.delay s.sampledClear.cfg.tSwrstSettle))
          listens' (by simpa using h.codes.1)
        rw [State.prepared_stat]
        exact ⟨active, idle⟩
    | activation =>
      refine (h.of_wire (t := s.sampledClear.slept) ⟨by simp, ?_, ?_, ?_⟩ fun none => ?_).complete _
      · simp [State.slept, State.sampledClear]
      · simp [State.slept, State.sampledClear]
      · simp [State.slept, State.sampledClear]
      · have listens' := listens fun b => by simpa using none b
        rw [State.slept_stat]
        exact slept_mode listens' (by simpa using h.codes.1)
  | true =>
    by_cases within : s.cfg.busyTimeoutMs = 0 ∨ n < s.cfg.busyTimeoutMs
    · rw [poll_goesOn p _ _ h.sequential asserted within]
      refine (h.of_wire (t := s.waitGoesOn p n) ⟨by simp [State.waitGoesOn], by simp [State.waitGoesOn], by simp [State.waitGoesOn],
        by simp [State.waitGoesOn]⟩ fun none => ?_).agrees fun g e => by cases e
      have told := view fun b => by simpa [State.waitGoesOn] using none b
      have active := Says.active_of_wait told
      have stays : (sampleNext s).ctl.mode = .active := by rw [sampleNext_ctl_mode, active]
      have cstate' : (s.waitGoesOn p n).stat.cstate = waitState p := by simpa [State.waitGoesOn] using cstate
      rw [cstate']
      cases p
      · exact stays
      · exact ⟨stays, sampleNext_asserted h.attached h.released active asserted⟩
    · obtain ⟨hT, reached⟩ : s.cfg.busyTimeoutMs ≠ 0 ∧ s.cfg.busyTimeoutMs ≤ n := by omega
      rw [poll_stalls h.sequential asserted hT reached, Flow.finish_stop, controllerLost_eq, abort_outside (by simpa [CsIdle] using csIdle)]
      refine (h.of_fault ⟨?_, ?_, ?_, ?_⟩ (not_noFault .stall ?_)).agrees fun g e => by cases e
      all_goals simp [aborted, State.raise, faultSet, faultGet]

/-- After a transaction CS is inactive (rule R102). -/
theorem csIdle_of_released {s u : State} (cfg : u.cfg = s.cfg)
    (cs : u.lines.cs = if csManaged s.cfg then some (!s.cfg.csActive) else s.lines.cs) : CsIdle u := by
  intro managed
  rw [cfg] at managed
  rw [cs, if_pos managed, cfg]
  simp

theorem agrees_prepare {s t : State} (h : Accord s) (idle : Idle s) (hc : 1 ≤ s.cfg.maxChunk) (e : exec .prepare s = .next t) :
    Agrees t := by
  cases hb : s.stat.begun with
  | false => exact agrees_of_notBegun (body := _) h idle hb e
  | true =>
    rw [exec_prepare_begun idle hb h.reliable h.sequential hc] at e
    cases e
    refine poll_agrees (p := .softReset) ⟨h.attached, h.codes, h.reliable, h.sequential, rfl, fun _ => ?_⟩ hc rfl
      (csIdle_of_released (s := s) rfl rfl)
    obtain ⟨c, n, ctl, active, -⟩ := State.resetSent_ctl (s := s.setInop true) h.attached h.codes.1
    show (s.setInop true).resetSent.ctl.mode = .active
    rw [ctl, Controller.startBusy_mode, active]

/-- The state in which an update's wait begins is in accord. -/
theorem Accord.activationSent {s : State} (h : Accord s) (m : UpdateMode) : Accord (s.activationSent m) := by
  refine h.of_wire ⟨by simp, by simp, by simp, by simp⟩ fun none => ?_
  have prepared : updateUnprepared s = false := by
    rw [← Bool.not_eq_true]
    intro unprepared
    refine not_noFault .seqViol ?_ none
    rw [State.activationSent_fault, unprepared]
    rfl
  have none' : NoFault s := fun b => by
    have := none b
    rwa [State.activationSent_fault, prepared] at this
  have listens := h.listening none' ((updateUnprepared_iff s).mp prepared).1
  obtain ⟨c, n, ctl, active, -⟩ := State.activated_ctl listens h.codes.1 m
  have ctl' : (s.activationSent m).ctl = Controller.startBusy c n := by
    rw [State.activationSent, prepared]
    exact ctl
  rw [State.activationSent_stat, ctl']
  exact ⟨(Controller.startBusy_mode c n).trans active, Controller.startBusy_busy c n⟩

theorem agrees_update {s t : State} {i : Instr} {m : UpdateMode} (hu : UpdateOp i m) (h : Accord s) (idle : Idle s)
    (hc : 1 ≤ s.cfg.maxChunk) (e : exec i s = .next t) : Agrees t := by
  cases hb : s.stat.begun with
  | false =>
    rw [exec_updateOp hu] at e
    exact agrees_of_notBegun (body := _) h idle hb e
  | true =>
    rw [exec_update_begun hu idle hb h.reliable h.sequential hc] at e
    cases e
    exact poll_agrees (p := .activation) ((h.setInop true).activationSent m) (by simpa using hc) (by simp [waitState])
      (csIdle_of_released (s := s.setInop true) (by simp) (State.activationSent_cs m _))

/-- Each host operation keeps the accord. -/
theorem exec_agrees {i : Instr} {s t : State} (hi : isHostOp i = true) (h : Accord s) (hp : s.cfg.wf) (idle : Idle s)
    (hm : s.micro = .idle) (e : exec i s = .next t) : Agrees t := by
  have hc := one_le_maxChunk hp
  cases i
  case beginOp => exact agrees_begin h idle e
  case prepare => exact agrees_prepare h idle hc e
  case displayImage bwP redP =>
    have e' : execDisplayImage bwP redP s = .next t := e
    by_cases fits : currentImageFits bwP redP s = true
    · rw [execDisplayImage, if_pos fits] at e'
      obtain ⟨hbw, hred⟩ := planeSource_length fits
      exact agrees_frame h idle hc hbw hred e'
    · rw [execDisplayImage, if_neg fits] at e'
      cases e'
      exact agrees_refuse h hm .illegalOp
  case clearDisplay => exact agrees_frame h idle hc (by simp) (by simp) e
  case fillBlack => exact agrees_frame h idle hc (by simp) (by simp) e
  case displayNormal => exact agrees_update (.inl ⟨rfl, rfl⟩) h idle hc e
  case displayFast => exact agrees_update (.inr ⟨rfl, rfl⟩) h idle hc e
  case setPixel x y c =>
    rw [exec_setPixel_idle idle] at e
    obtain ⟨u, hu, accord, -⟩ := pixelBody_accord (x := x) (y := y) (c := c) (h.setInop true) hc
    rw [hu] at e
    cases e
    exact accord.complete 0
  case drawHline x y w c =>
    rw [exec_drawHline_idle idle] at e
    exact agrees_run h hc (fun k u => pixelBody_accord) _ _ e
  case drawVline x y l c =>
    rw [exec_drawVline_idle idle] at e
    exact agrees_run h hc (fun k u => pixelBody_accord) _ _ e
  case setRotation | setWhiteBorder | setBlackBorder | setRedBorder | getWidth | getHeight | getRotation | getStatus =>
    exact agrees_of_surface h idle (fun u => ⟨_, _, rfl⟩) e
  all_goals cases hi

/-- Settles O58: each operation, and each turn of a wait, keeps the accord. -/
theorem stepKeepsAgreement : Obligations.StepKeepsAgreement := by
  intro s t inv agrees e
  have h := agrees.accord
  cases hm : s.micro with
  | sending g => exact absurd hm (agrees.notSending g)
  | waiting p n =>
    rw [step_waiting hm] at e
    cases e
    refine poll_agrees (h.of_same (t := s.setMicro .idle) ⟨rfl, rfl, rfl, rfl⟩ rfl rfl rfl) (one_le_maxChunk inv.params) ?_ inv.csIdle
    cases p
    · exact inv.waitReset n hm
    · exact inv.waitBusy n hm
  | idle =>
    have idle : Idle s := by
      rw [Idle, ← Bool.not_eq_true, inv.inop]
      rintro ⟨p, n, waiting⟩
      rw [hm] at waiting
      cases waiting
    rcases step_spec inv.params e with ⟨p, n, waiting, -⟩ | ⟨g, i, sending, -⟩ | ⟨op, i, -, hf, hd, hi, -⟩ | ⟨-, rfl⟩
    · rw [hm] at waiting
      cases waiting
    · rw [hm] at sending
      cases sending
    · rw [step_idle_ok hm hf hd] at e
      exact exec_agrees hi h inv.params idle hm e
    · exact agrees_refuse h hm .illegalOp

end Sys2Proof.Machine

namespace Sys2Proof.Machine

/-! ## One pixel on a reliable backend (rules R171, R174 to R178) -/

/-- CS is inactive after a transaction, also where others came before it. -/
theorem cs_released_trans {s t u : State} (cfg : t.cfg = s.cfg)
    (h1 : t.lines.cs = if csManaged s.cfg then some (!s.cfg.csActive) else s.lines.cs)
    (h2 : u.lines.cs = if csManaged t.cfg then some (!t.cfg.csActive) else t.lines.cs) :
    u.lines.cs = if csManaged s.cfg then some (!s.cfg.csActive) else s.lines.cs := by
  rw [h2, cfg, h1]
  by_cases hm : csManaged s.cfg <;> simp [hm]

theorem State.seeded_cs (xb yr : Nat) (s : State) :
    (s.seeded xb yr).lines.cs = if csManaged s.cfg then some (!s.cfg.csActive) else s.lines.cs := by
  rw [State.seeded_lines]
  rfl

theorem State.ramReadDone_cs (pl : Plane) (xb yr : Nat) (s : State) :
    (s.ramReadDone pl xb yr).lines.cs = if csManaged s.cfg then some (!s.cfg.csActive) else s.lines.cs :=
  cs_released_trans (by simp)
    (cs_released_trans (by simp) (cs_released_trans (by simp) (State.sentGroup_cs _ _ s) (State.seeded_cs xb yr _)) (State.sent_cs _ _ _))
    (State.received_cs _ _)

theorem State.ramWriteDone_lines (pl : Plane) (xb yr : Nat) (v : Byte) (s : State) :
    (s.ramWriteDone pl xb yr v).lines = linesAfterData s s.lines.rst := by
  rw [State.ramWriteDone, State.sent_data_lines,
    linesAfterData_of (by simp) (cs_released_trans (by simp) (State.seeded_cs xb yr s) (State.sent_cs _ _ _))]
  simp

theorem State.pixelDone_lines (nx ny : Nat) (c : Colour) (s : State) : (s.pixelDone nx ny c).lines = linesAfterData s s.lines.rst := by
  have reads := cs_released_trans (by simp) (State.ramReadDone_cs .bw (byteColumn nx) ny s)
    (State.ramReadDone_cs .red (byteColumn nx) ny (s.ramReadDone .bw (byteColumn nx) ny))
  rw [State.pixelDone, State.ramWriteDone_lines, linesAfterData_of (s := s) (by simp)]
  · simp
  · rw [State.ramWriteDone_lines]
    exact cs_released_trans (t := (s.ramReadDone .bw (byteColumn nx) ny).ramReadDone .red (byteColumn nx) ny)
      (u := { s with lines := linesAfterData ((s.ramReadDone .bw (byteColumn nx) ny).ramReadDone .red (byteColumn nx) ny) none })
      (by simp) reads rfl

/-- The native coordinates of a pixel in range (rules R168, R170). -/
theorem toNative_inRange {p : Params} {r : Rotation} {x y : Int} (h : inRange p r x y = true) :
    ∃ nx ny : Nat, toNative p r x y = ((nx : Int), (ny : Int)) ∧ nx < p.width ∧ ny < p.height := by
  obtain ⟨x0, x1, y0, y1⟩ := inRange_iff_native.mp h
  obtain ⟨nx, hx⟩ := Int.eq_ofNat_of_zero_le x0
  obtain ⟨ny, hy⟩ := Int.eq_ofNat_of_zero_le y0
  refine ⟨nx, ny, Prod.ext hx hy, ?_, ?_⟩ <;> omega

theorem column_lt_stride {p : Params} {nx : Nat} (h : nx < p.width) : nx / 8 < stride p := by
  unfold stride
  omega

/-- The whole next state of a pixel in range after `BEGIN`. -/
theorem exec_setPixel_begun {s : State} {x y : Int} {c : Colour} {nx ny : Nat} (idle : Idle s) (hb : s.stat.begun = true)
    (hr : Reliable s) (hs : SequentialHost s) (hc : 1 ≤ s.cfg.maxChunk) (inside : inRange s.cfg s.surf.rot x y = true)
    (native : toNative s.cfg s.surf.rot x y = ((nx : Int), (ny : Int))) :
    exec (.setPixel x y c) s = .next (complete 0#32 ((noteSequence (notReady s) (s.setInop true)).pixelDone nx ny c)) := by
  have modified : modifyPixel nx ny c (noteSequence (notReady s) (s.setInop true)) =
      .cont ((noteSequence (notReady s) (s.setInop true)).pixelDone nx ny c) :=
    modifyPixel_reliable (by rwa [Reliable, noteSequence_env]) (by rwa [SequentialHost, noteSequence_env]) (by rwa [noteSequence_cfg])
  have body : pixelBody x y c (s.setInop true) = .cont ((noteSequence (notReady s) (s.setInop true)).pixelDone nx ny c) := by
    rw [pixelBody, if_pos (by exact inside), if_pos (by exact hb), State.setInop_cfg, State.setInop_surf, native]
    exact modified
  rw [exec_setPixel_idle idle, body]
  rfl

/-- Settles O36: the body of a pixel in range, and its trace. -/
theorem pixelReadsThenWrites : Obligations.PixelReadsThenWrites := by
  intro s x y c idle hb hr hs hp inside
  have hc := one_le_maxChunk hp
  obtain ⟨nx, ny, native, hx, hy⟩ := toNative_inRange inside
  obtain ⟨b, r, hbl, hrl, trace⟩ := State.pixelDone_trace (s := noteSequence (notReady s) (s.setInop true)) nx ny c (by simpa using hc)
  refine ⟨_, b, r, nx, ny, exec_setPixel_begun idle hb hr hs hc inside native, native, column_lt_stride hx, hy, ?trace, hbl, hrl, ?stat,
    ?fault, ?surf, ?tb, ?lines, rfl, ?results, ?opIdx, rfl⟩
  case trace =>
    rw [complete_trace, trace, noteSequence_trace, noteSequence_cfg]
    rfl
  case stat => rw [complete_stat, State.pixelDone_stat, noteSequence_stat]; exact Idle.stat idle
  case fault => rw [complete_fault, State.pixelDone_fault, noteSequence_notReady_fault]; rfl
  case surf => simp
  case tb => simp
  case lines =>
    rw [complete_lines, State.pixelDone_lines]
    simp [linesAfterData]
  case results => simp
  case opIdx => simp

/-! ## What a pixel does to the controller's RAM, whatever the entry mode (rules R173, R174, R223, R225) -/

/-- A command after the counters are seeded (rules R175, R177). -/
theorem Attends.seeded_command {s : State} (h : Attends s) (xb yr : Nat) (cmd : BusCmd) : ∃ n,
    ((s.seeded xb yr).sent .cmd [s.cfg.proto.code cmd]).ctl =
      Controller.start s.cfg { s.ctl with xc := lo xb, yc := hi yr ++ lo yr, cmd := some cmd, got := 0 } n cmd := by
  obtain ⟨ctl, att⟩ := State.seeded_ctl h xb yr
  have command := att.command_ctl cmd
  rw [ctl, State.seeded_cfg] at command
  exact ⟨_, command⟩

/-- A data byte of a RAM-write command, in any entry mode (rules R212, R213). -/
theorem Controller.byteIn_writeRam {p : Params} {c : Controller} {pl : Plane} (active : c.mode = .active) (idle : c.busy = false)
    (cmd : c.cmd = some (writeCommand pl)) (n : Nat) (v : Byte) :
    Controller.byteIn p false .data n c v = { Controller.ramWrite p c n pl v with got := c.got + 1 } := by
  rw [Controller.byteIn_data active idle cmd]
  cases pl <;> rfl

/-- The one-byte RAM write, but for where it leaves the counters (rules R177, R223). -/
theorem State.ramWriteDone_planes {s : State} (h : Attends s) (pl : Plane) (xb yr : Nat) (v : Byte) :
    (∀ q, Controller.plane (s.ramWriteDone pl xb yr v).ctl q =
      if q = pl then planeWrite s.cfg (Controller.plane s.ctl q) (lo xb) (hi yr ++ lo yr) v else Controller.plane s.ctl q) ∧
    Attends (s.ramWriteDone pl xb yr v) := by
  obtain ⟨n, command⟩ := h.seeded_command xb yr (writeCommand pl)
  have code : s.cfg.proto.code (writeCommand pl) = writeCode s.cfg.proto pl := by cases pl <;> rfl
  have started : Controller.start s.cfg { s.ctl with xc := lo xb, yc := hi yr ++ lo yr, cmd := some (writeCommand pl), got := 0 } n
      (writeCommand pl) = { s.ctl with xc := lo xb, yc := hi yr ++ lo yr, cmd := some (writeCommand pl), got := 0 } := by
    cases pl <;> rfl
  rw [code, started] at command
  have ready : ((s.seeded xb yr).sent .cmd [writeCode s.cfg.proto pl]).ctl.Ready := by
    rw [command]
    exact ⟨h.ready.active, h.ready.idle, commandDone_of (cmd := writeCommand pl) rfl (by cases pl <;> simp [writeCommand])⟩
  generalize ht : (s.seeded xb yr).sent .cmd [writeCode s.cfg.proto pl] = t at command ready
  have held : heldInReset t = false := by rw [← ht]; simpa using h.released
  have cfg : t.cfg = s.cfg := by rw [← ht]; simp
  have ctl : (t.sent .data [v]).ctl = { Controller.ramWrite s.cfg t.ctl t.draws pl v with got := t.ctl.got + 1 } := by
    rw [State.sent_ctl, ctlAfter, cfg, h.attached, held]
    exact Controller.byteIn_writeRam ready.active ready.idle (congrArg Controller.cmd command) t.draws v
  have cmd : (Controller.ramWrite s.cfg t.ctl t.draws pl v).cmd = some (writeCommand pl) := by
    cases pl <;> simp [Controller.ramWrite, command]
  have att : Attends (t.sent .data [v]) := h.after (by simp [cfg]) (by rw [← ht]; simp) ctl
    ((Controller.ramWrite_mode _ _ _ _ _).trans ready.active) ((Controller.ramWrite_busy _ _ _ _ _).trans ready.idle)
    (commandDone_of (cmd := writeCommand pl) cmd (by cases pl <;> simp [writeCommand]))
  rw [show s.ramWriteDone pl xb yr v = t.sent .data [v] by rw [State.ramWriteDone, ht], ctl]
  refine ⟨fun q => ?_, att⟩
  cases pl <;> cases q <;> simp [command, Controller.plane]

theorem State.received_rx_reference {s : State} (h : s.cfg.attached = .reference) (n : Nat) :
    (s.received n).rx = (Controller.bytesOut s.cfg (heldInReset s) (anyBytes n s).2.draws s.ctl (anyBytes n s).1).1 := by
  show (busIn true n s).rx = _
  simp only [busIn, anyBytes_eq, h]
  rfl

/-- The two inbound bytes of a read, in any entry mode (rule R225): the counters advance once. -/
theorem Controller.bytesOut_readTwo {p : Params} {c : Controller} (active : c.mode = .active) (idle : c.busy = false)
    (cmd : c.cmd = some .readRam) (phase : c.rdPhase = 0) (n : Nat) (a0 a1 : Byte) :
    Controller.bytesOut p false n c [a0, a1] = ([a0, (planeRead p (Controller.plane c c.readSel) c.xc c.yc).getD a1],
      { Controller.advance { c with rdPhase := 1 } (n + 1) with rdPhase := 2 }) := by
  have dummy : Controller.ramByte p n c a0 = (a0, { c with rdPhase := 1 }) := by rw [Controller.ramByte, if_pos phase]
  have plane : Controller.plane { c with rdPhase := 1 } c.readSel = Controller.plane c c.readSel := by cases c.readSel <;> rfl
  simp only [Controller.bytesOut]
  rw [Controller.byteOut_readRam active idle cmd, dummy, Controller.byteOut_readRam (c := { c with rdPhase := 1 }) active idle cmd,
    Controller.ramByte, if_neg Nat.one_ne_zero, plane]

/-- The RAM-read sequence of one plane, but for where it leaves the counters (rules R175, R225). -/
theorem State.ramReadDone_planes {s : State} (h : Attends s) (option : s.cfg.proto.rroBw ≠ s.cfg.proto.rroRed) (pl : Plane) (xb yr : Nat) :
    (∀ q, Controller.plane (s.ramReadDone pl xb yr).ctl q = Controller.plane s.ctl q) ∧
    (∃ a0 a1, (s.ramReadDone pl xb yr).rx = [a0, (planeRead s.cfg (Controller.plane s.ctl pl) (lo xb) (hi yr ++ lo yr)).getD a1]) ∧
    Attends (s.ramReadDone pl xb yr) := by
  have selects : Controller.optionPlane s.cfg (s.draws + 1) (readOption s.cfg.proto pl) = pl := by
    cases pl
    · exact optionPlane_bw s.cfg _
    · exact optionPlane_red option _
  have first := (h.group_ctl .readRamOption [readOption s.cfg.proto pl]).trans (Controller.group_readRamOption h.codes h.ready _ _)
  rw [selects] at first
  have chosen : Attends (s.sentGroup (s.cfg.proto.code .readRamOption) [readOption s.cfg.proto pl]) :=
    h.after (by simp) (by simp) first h.ready.active h.ready.idle (commandDone_of rfl (by simp))
  obtain ⟨n, command⟩ := chosen.seeded_command xb yr .readRam
  rw [first, State.sentGroup_cfg] at command
  generalize ht : ((s.sentGroup (s.cfg.proto.code .readRamOption) [readOption s.cfg.proto pl]).seeded xb yr).sent .cmd
    [s.cfg.proto.code .readRam] = t at command
  have done : s.ramReadDone pl xb yr = t.received 2 := by rw [← ht, State.ramReadDone, Proto.code, Proto.code]
  have held : heldInReset t = false := by rw [← ht]; simpa using h.released
  have cfg : t.cfg = s.cfg := by rw [← ht]; simp
  have attached : t.cfg.attached = .reference := by rw [cfg, h.attached]
  obtain ⟨a0, a1, any⟩ := List.length_eq_two.mp (anyBytes_length 2 t)
  have bytes := Controller.bytesOut_readTwo (p := t.cfg) (c := t.ctl) (by rw [command]; exact h.ready.active)
    (by rw [command]; exact h.ready.idle) (by rw [command]; rfl) (by rw [command]; rfl) (anyBytes 2 t).2.draws a0 a1
  have ctl := State.received_ctl_reference attached 2
  have rx := State.received_rx_reference attached 2
  rw [held, any, bytes] at ctl rx
  refine ⟨fun q => ?planes, ⟨a0, a1, ?rx⟩, ?att⟩
  case planes =>
    rw [done, ctl, command]
    cases q <;> simp [Controller.plane, Controller.start]
  case rx =>
    rw [done, rx, cfg, command]
    cases pl <;> rfl
  case att =>
    rw [done]
    refine h.after (by simp [cfg]) (by rw [← ht]; simp) ctl ?_ ?_ (commandDone_of (cmd := .readRam) ?_ (by simp)) <;> rw [command]
    · exact (Controller.advance_mode _ _).trans h.ready.active
    · exact (Controller.advance_busy _ _).trans h.ready.idle
    · exact (Controller.advance_cmd _ _)

/-- The second byte of a read, where the byte read is defined. -/
theorem State.readByte_ramReadDone {s : State} (h : Attends s) (option : s.cfg.proto.rroBw ≠ s.cfg.proto.rroRed) {pl : Plane}
    {xb yr : Nat} {v : Byte} (defined : planeRead s.cfg (Controller.plane s.ctl pl) (lo xb) (hi yr ++ lo yr) = some v) :
    readByte (s.ramReadDone pl xb yr) = v := by
  obtain ⟨-, ⟨a0, a1, rx⟩, -⟩ := State.ramReadDone_planes h option pl xb yr
  rw [readByte, rx, defined]
  rfl

/-- A pixel modifies one byte of each plane (rules R174, R176). -/
theorem State.pixelDone_planes {s : State} (h : Attends s) (option : s.cfg.proto.rroBw ≠ s.cfg.proto.rroRed) {nx ny : Nat} {b r : Byte}
    (hb : planeRead s.cfg (Controller.plane s.ctl .bw) (lo (byteColumn nx)) (hi ny ++ lo ny) = some b)
    (hr : planeRead s.cfg (Controller.plane s.ctl .red) (lo (byteColumn nx)) (hi ny ++ lo ny) = some r) (c : Colour) :
    Controller.plane (s.pixelDone nx ny c).ctl .bw = planeWrite s.cfg (Controller.plane s.ctl .bw) (lo (byteColumn nx)) (hi ny ++ lo ny)
      (modifyBw s.cfg b (pixelMask nx) c) ∧
    Controller.plane (s.pixelDone nx ny c).ctl .red = planeWrite s.cfg (Controller.plane s.ctl .red) (lo (byteColumn nx)) (hi ny ++ lo ny)
      (modifyRed r (pixelMask nx) c) := by
  obtain ⟨planes1, -, att1⟩ := State.ramReadDone_planes h option .bw (byteColumn nx) ny
  have byte1 := State.readByte_ramReadDone h option hb
  rw [← planes1, ← State.ramReadDone_cfg .bw (byteColumn nx) ny s] at hr
  obtain ⟨planes2, -, att2⟩ := State.ramReadDone_planes att1 (by simpa using option) .red (byteColumn nx) ny
  have byte2 := State.readByte_ramReadDone att1 (by simpa using option) hr
  obtain ⟨planes3, att3⟩ := State.ramWriteDone_planes att2 .bw (byteColumn nx) ny (modifyBw s.cfg b (pixelMask nx) c)
  obtain ⟨planes4, -⟩ := State.ramWriteDone_planes att3 .red (byteColumn nx) ny (modifyRed r (pixelMask nx) c)
  simp only [State.pixelDone, byte1, byte2, State.ramReadDone_cfg, planes4, planes3, planes2, planes1]
  simp

/-- A byte that reads as defined lies in the plane. -/
theorem inPlane_of_planeRead {p : Params} {m : Memory} {x : Byte} {y : Half} {v : Byte} (h : planeRead p m x y = some v) :
    inPlane p x y = true := by
  by_contra out
  rw [planeRead, if_neg out] at h
  cases h

/-- Settles O37: the two modified bytes, read back. -/
theorem pixelChangesItsBit : Obligations.PixelChangesItsBit := by
  intro s x y c b r idle hbegun hrel hs hp hl hd inside
  obtain ⟨nx, ny, native, hx, hy⟩ := toNative_inRange inside
  simp only [native, Int.toNat_natCast]
  intro hb hr
  obtain ⟨-, -, -, height⟩ := panel_bounds hp
  have row : hi ny ++ lo ny = BitVec.ofNat 16 ny := hi_append_lo (by omega)
  have inPlane := inPlane_of_planeRead hb
  have quiet : Quiet _ _ := pixelDone_quiet (s := noteSequence (notReady s) (s.setInop true)) (by simpa [Listening, heldInReset] using hl)
    (by simpa using (proto_wf hp).1) nx ny c
  have att : Attends (noteSequence (notReady s) (s.setInop true)) := attends_of_listening (by simpa [Listening, heldInReset] using hl)
    (by simpa using hp) (by simpa using hd)
  obtain ⟨bw, red⟩ := State.pixelDone_planes att (by simpa using (proto_wf hp).2.1) (nx := nx) (ny := ny) (b := b) (r := r)
    (by rw [row]; simpa [lo, byteColumn, Controller.plane] using hb) (by rw [row]; simpa [lo, byteColumn, Controller.plane] using hr) c
  rw [row] at bw red
  simp only [Controller.plane, noteSequence_cfg, noteSequence_ctl, State.setInop_cfg, State.setInop_ctl] at bw red
  refine ⟨_, exec_setPixel_begun idle hbegun hrel hs (one_le_maxChunk hp) inside native, ?_⟩
  rw [complete_ctl, bw, red]
  exact ⟨planeRead_planeWrite_same _ _ inPlane, planeRead_planeWrite_same _ _ inPlane,
    fun X Y other => ⟨planeRead_planeWrite_other _ _ other, planeRead_planeWrite_other _ _ other⟩,
    by simpa using quiet.1.shown, quiet.2.2.1, quiet.2.2.2.1⟩

end Sys2Proof.Machine

namespace Sys2Proof.Machine

/-! ## Drawing does not look at the operation's own bookkeeping (rules R18, R179, R180)

A pixel reads and writes neither `RESULT`, the list of results, `opIdx` nor the micro-sequencer. So a line may be cut after its first
pixel: the cut changes only these four. -/

/-- The four fields that ending an operation writes, beside `INOP`. -/
structure Label where
  result : ResultWord
  results : List ResultWord
  opIdx : Nat
  micro : Micro

def State.label (s : State) : Label := ⟨s.result, s.results, s.opIdx, s.micro⟩

def State.relabel (s : State) (l : Label) : State :=
  { s with result := l.result, results := l.results, opIdx := l.opIdx, micro := l.micro }

/-- `t` comes after `s` in an operation that cannot abort, on the sequential host. -/
structure Onward (s t : State) : Prop where
  cfg : t.cfg = s.cfg
  stat : t.stat = s.stat
  host : SequentialHost t
  noAbort : NoBusAbort t

theorem Onward.trans {s t u : State} (h1 : Onward s t) (h2 : Onward t u) : Onward s u :=
  ⟨h2.cfg.trans h1.cfg, h2.stat.trans h1.stat, h2.host, h2.noAbort⟩

theorem onward_of_adds {P : List Event → Prop} {s t : State} (h : Adds P s t) (stat : t.stat = s.stat) (hs : SequentialHost s)
    (hn : NoBusAbort s) : Onward s t :=
  ⟨h.cfg, stat, h.early hs, h.noBusAbort hn⟩

/-- A change of state that commutes with a change of labels. -/
def Blind (f : State → State) : Prop :=
  ∀ s, SequentialHost s → NoBusAbort s → Onward s (f s) ∧ ∀ l, f (s.relabel l) = (f s).relabel l

/-- A part of an operation that goes on, and commutes with a change of labels. -/
def Smooth (k : State → Flow) : Prop :=
  ∀ s, SequentialHost s → NoBusAbort s → ∃ t, Onward s t ∧ ∀ l, k (s.relabel l) = .cont (t.relabel l)

theorem Blind.comp {f g : State → State} (hg : Blind g) (hf : Blind f) : Blind (fun s => g (f s)) := by
  intro s hs hn
  obtain ⟨on1, eq1⟩ := hf s hs hn
  obtain ⟨on2, eq2⟩ := hg (f s) on1.host on1.noAbort
  exact ⟨on1.trans on2, fun l => (congrArg g (eq1 l)).trans (eq2 l)⟩

theorem Blind.smooth {f : State → State} (h : Blind f) : Smooth (fun s => .cont (f s)) := by
  intro s hs hn
  obtain ⟨on, eq⟩ := h s hs hn
  exact ⟨_, on, fun l => congrArg Flow.cont (eq l)⟩

theorem Smooth.bind {j k : State → Flow} (hj : Smooth j) (hk : Smooth k) : Smooth (fun s => (j s).bind k) := by
  intro s hs hn
  obtain ⟨t, on1, eq1⟩ := hj s hs hn
  obtain ⟨u, on2, eq2⟩ := hk t on1.host on1.noAbort
  exact ⟨u, on1.trans on2, fun l => (congrArg (Flow.bind · k) (eq1 l)).trans (eq2 l)⟩

theorem smooth_cont : Smooth .cont := fun s hs hn => ⟨s, ⟨rfl, rfl, hs, hn⟩, fun _ => rfl⟩

/-- What a part of an operation does from the state itself: the labels stay. -/
theorem Smooth.run {k : State → Flow} (h : Smooth k) {s : State} (hs : SequentialHost s) (hn : NoBusAbort s) :
    ∃ t, Onward s t ∧ t.label = s.label ∧ k s = .cont t ∧ ∀ l, k (s.relabel l) = .cont (t.relabel l) := by
  obtain ⟨t, on, eq⟩ := h s hs hn
  exact ⟨t.relabel s.label, ⟨on.cfg, on.stat, on.host, on.noAbort⟩, rfl, eq s.label, eq⟩

/-! ### The events -/

theorem emit_blind (e : Event) : Blind (emit e) := by
  intro s hs hn
  have run : ∀ t : State, SequentialHost t → emit e t = t.record e := fun _ => emit_sequential
  rw [run s hs]
  exact ⟨⟨rfl, rfl, hs, hn⟩, fun l => run (s.relabel l) hs⟩

theorem setLine_blind (l : LineName) (v : Level) : Blind (fun s => s.setLine l v) := by
  intro s hs hn
  cases l <;> exact ⟨⟨rfl, rfl, hs, hn⟩, fun _ => rfl⟩

theorem lineEffect_blind (l : LineName) (v : Level) : Blind (lineEffect l v) := by
  intro s hs hn
  refine ⟨onward_of_adds (lineEffect_adds l v s).1 (lineEffect_adds l v s).2.stat hs hn, fun k => ?_⟩
  by_cases h : s.cfg.attached = .reference ∧ l = .rst ∧ heldInReset s = true ∧ v = !Config.rstActive
  · rw [lineEffect, if_pos (by exact h), lineEffect, if_pos h]
    rfl
  · rw [lineEffect, if_neg (by exact h), lineEffect, if_neg h]

theorem driveLine_blind (l : LineName) (v : Level) : Blind (driveLine l v) :=
  (emit_blind _).comp ((setLine_blind l v).comp (lineEffect_blind l v))

/-- Where a change is chosen by something that labels leave alone. -/
theorem Blind.ite {f g : State → State} (hf : Blind f) (hg : Blind g) (b : State → Bool) (hb : ∀ s l, b (s.relabel l) = b s) :
    Blind (fun s => if b s then f s else g s) := by
  intro s hs hn
  simp only [hb]
  cases b s
  · exact hg s hs hn
  · exact hf s hs hn

theorem id_blind : Blind id := fun _ hs hn => ⟨⟨rfl, rfl, hs, hn⟩, fun _ => rfl⟩

/-- A change with a parameter read from what labels leave alone. -/
theorem Blind.reading {α : Type} {f : α → State → State} (hf : ∀ a, Blind (f a)) (g : State → α) (hg : ∀ s l, g (s.relabel l) = g s) :
    Blind (fun s => f (g s) s) := by
  intro s hs hn
  obtain ⟨on, eq⟩ := hf (g s) s hs hn
  exact ⟨on, fun l => by simpa only [hg] using eq l⟩

theorem Smooth.reading {α : Type} {k : α → State → Flow} (hk : ∀ a, Smooth (k a)) (g : State → α) (hg : ∀ s l, g (s.relabel l) = g s) :
    Smooth (fun s => k (g s) s) := by
  intro s hs hn
  obtain ⟨t, on, eq⟩ := hk (g s) s hs hn
  exact ⟨t, on, fun l => by simpa only [hg] using eq l⟩

theorem csAssert_blind : Blind csAssert :=
  ((Blind.reading (f := driveLine .cs) (driveLine_blind .cs) (fun s => s.cfg.csActive) fun _ _ => rfl).ite id_blind
    (fun s => csManaged s.cfg) fun _ _ => rfl)

theorem csDeassert_blind : Blind csDeassert :=
  ((Blind.reading (f := driveLine .cs) (driveLine_blind .cs) (fun s => !s.cfg.csActive) fun _ _ => rfl).ite id_blind
    (fun s => csManaged s.cfg) fun _ _ => rfl)

theorem transferOk_relabel (s : State) (l : Label) : transferOk (s.relabel l) = transferOk s := rfl

theorem transferNext_blind : Blind transferNext := by
  intro s hs hn
  refine ⟨onward_of_adds (transferNext_adds s).1 (transferNext_adds s).2.stat hs hn, fun l => ?_⟩
  cases hb : s.env.backend with
  | reliable => simp [transferNext, State.relabel, hb]
  | scripted as bs => cases bs <;> simp [transferNext, State.relabel, hb, State.setEnv, State.setDraws]

theorem busOut_blind (ok : Bool) (tx : List Byte) : Blind (busOut ok tx) := by
  intro s hs hn
  refine ⟨onward_of_adds (busOut_adds ok tx s).1 (busOut_adds ok tx s).2.stat hs hn, fun l => ?_⟩
  have relabelled : (s.relabel l).cfg = s.cfg := rfl
  cases ha : s.cfg.attached with
  | oracle => simp only [busOut, relabelled, ha]
  | reference => cases ok <;> (simp only [busOut, relabelled, ha]; rfl)

theorem xfer_blind (tx : List Byte) : Blind (xfer tx) :=
  Blind.reading (f := fun ok s => emit (.xfer tx ok) (busOut ok tx (transferNext s)))
    (fun ok => (emit_blind (.xfer tx ok)).comp ((busOut_blind ok tx).comp transferNext_blind)) transferOk transferOk_relabel

theorem busIn_blind (ok : Bool) (n : Nat) : Blind (busIn ok n) := by
  intro s hs hn
  refine ⟨onward_of_adds (busIn_adds ok n s).1 (busIn_adds ok n s).2.stat hs hn, fun l => ?_⟩
  have relabelled : (s.relabel l).cfg = s.cfg := rfl
  cases ha : s.cfg.attached with
  | oracle =>
    simp only [busIn, relabelled, ha, anyBytes_eq]
    rfl
  | reference =>
    cases ok <;> (simp only [busIn, relabelled, ha, anyBytes_eq]; rfl)

theorem xferIn_blind (n : Nat) : Blind (xferIn n) :=
  Blind.reading (f := fun ok s => emit (.xferIn n (busIn ok n (transferNext s)).rx ok) (busIn ok n (transferNext s)))
    (fun ok => (Blind.reading emit_blind (fun t => .xferIn n t.rx ok) fun _ _ => rfl).comp ((busIn_blind ok n).comp transferNext_blind))
    transferOk transferOk_relabel

theorem raise_blind (f : FaultBit) : Blind (fun s => s.raise f) := fun _ hs hn => ⟨⟨rfl, rfl, hs, hn⟩, fun _ => rfl⟩

theorem noteBusFailure_blind : Blind noteBusFailure :=
  (raise_blind .busFail).comp (id_blind.ite (emit_blind (.log .busFail)) (fun s => s.fault.busFail) fun _ _ => rfl)

theorem noteSequence_blind (ground : Bool) : Blind (noteSequence ground) :=
  (raise_blind .seqViol).ite id_blind (fun _ => ground) fun _ _ => rfl

/-! ### The sequences -/

/-- A transfer that fails is only noted, where nothing aborts (rule R247). -/
theorem transfer_smooth {x : State → State} (hx : Blind x) :
    Smooth (fun s => if transferOk s then .cont (x s) else busFailure (x s)) := by
  intro s hs hn
  cases ok : transferOk s with
  | true =>
    obtain ⟨t, on, eq⟩ := hx.smooth s hs hn
    exact ⟨t, on, fun l => by simpa [transferOk_relabel, ok] using eq l⟩
  | false =>
    have mode : s.cfg.errorMode = .bestEffort := hn.resolve_right fun hr => by simp [transferOk, hr] at ok
    obtain ⟨on, eq⟩ := noteBusFailure_blind.comp hx s hs hn
    refine ⟨_, on, fun l => ?_⟩
    have later : (x (s.relabel l)).cfg.errorMode = .bestEffort := by
      rw [(hx s hs hn).2]
      exact (congrArg Params.errorMode (hx s hs hn).1.cfg).trans mode
    simpa [transferOk_relabel, ok, busFailure, later] using eq l

theorem sendChunks_smooth (cs : List (List Byte)) : Smooth (sendChunks cs) := by
  induction cs with
  | nil => exact smooth_cont
  | cons c cs ih => exact (transfer_smooth (xfer_blind c)).bind ih

/-- The start and the end of a transaction, around its transfers. -/
theorem transaction_smooth (r : Role) {k : State → Flow} (hk : Smooth k) :
    Smooth (fun s => (k (csAssert (driveLine .dc (dcLevel s.cfg r) s))).bind fun t => .cont (csDeassert t)) := by
  have opened : Blind (fun s => csAssert (driveLine .dc (dcLevel s.cfg r) s)) :=
    Blind.reading (f := fun v s => csAssert (driveLine .dc v s)) (fun v => csAssert_blind.comp (driveLine_blind .dc v)) _ fun _ _ => rfl
  exact (opened.smooth.bind hk).bind csDeassert_blind.smooth

theorem frame_smooth (r : Role) (payload : List Byte) : Smooth (frame r payload) :=
  Smooth.reading (k := fun cs s => (sendChunks cs (csAssert (driveLine .dc (dcLevel s.cfg r) s))).bind fun t => .cont (csDeassert t))
    (fun cs => transaction_smooth r (sendChunks_smooth cs)) (fun s => chunks s.cfg.maxChunk payload) fun _ _ => rfl

theorem readFrame_smooth (n : Nat) : Smooth (readFrame n) := transaction_smooth .data (transfer_smooth (xferIn_blind n))

theorem sendEach_smooth (d : List Byte) : Smooth (sendEach d) := by
  induction d with
  | nil => exact smooth_cont
  | cons b d ih => exact (frame_smooth .data [b]).bind ih

theorem group_smooth (code : Byte) (d : List Byte) : Smooth (group code d) := (frame_smooth .cmd [code]).bind (sendEach_smooth d)

/-- A sequence whose codes come from the protocol table. -/
theorem Smooth.coded {k : Params → State → Flow} (hk : ∀ c, Smooth (k c)) : Smooth (fun s => k s.cfg s) :=
  Smooth.reading hk (fun s => s.cfg) fun _ _ => rfl

theorem seedCounters_smooth (xb yr : Nat) : Smooth (seedCounters xb yr) :=
  (Smooth.coded (k := fun c => group c.proto.setRamXCounter [lo xb]) fun _ => group_smooth _ _).bind
    (Smooth.coded (k := fun c => group c.proto.setRamYCounter [lo yr, hi yr]) fun _ => group_smooth _ _)

theorem readRam_smooth (p : Plane) (xb yr : Nat) : Smooth (readRam p xb yr) :=
  (((Smooth.coded (k := fun c => group c.proto.readRamOption [readOption c.proto p]) fun _ => group_smooth _ _).bind
    (seedCounters_smooth xb yr)).bind
    (Smooth.coded (k := fun c => sendCommand c.proto.readRam) fun _ => frame_smooth _ _)).bind (readFrame_smooth 2)

theorem writeRam_smooth (p : Plane) (xb yr : Nat) (v : Byte) : Smooth (writeRam p xb yr v) :=
  ((seedCounters_smooth xb yr).bind (Smooth.coded (k := fun c => sendCommand (writeCode c.proto p)) fun _ => frame_smooth _ _)).bind
    (frame_smooth .data [v])

/-- The two writes of a pixel, and before them the second read. -/
theorem modifyPixel_smooth (nx ny : Nat) (c : Colour) : Smooth (modifyPixel nx ny c) := by
  have writes : ∀ a : Byte × Byte, Smooth (fun s => (writeRam .bw (byteColumn nx) ny a.1 s).bind (writeRam .red (byteColumn nx) ny a.2)) :=
    fun a => (writeRam_smooth .bw (byteColumn nx) ny a.1).bind (writeRam_smooth .red (byteColumn nx) ny a.2)
  have second : ∀ b, Smooth (fun s1 => (readRam .red (byteColumn nx) ny s1).bind fun s2 =>
      (writeRam .bw (byteColumn nx) ny (modifyBw s2.cfg b (pixelMask nx) c) s2).bind
        (writeRam .red (byteColumn nx) ny (modifyRed (readByte s2) (pixelMask nx) c))) := fun b =>
    (readRam_smooth .red (byteColumn nx) ny).bind
      (Smooth.reading writes (fun s => (modifyBw s.cfg b (pixelMask nx) c, modifyRed (readByte s) (pixelMask nx) c)) fun _ _ => rfl)
  exact (readRam_smooth .bw (byteColumn nx) ny).bind (Smooth.reading second readByte fun _ _ => rfl)

theorem Smooth.ite {j k : State → Flow} (hj : Smooth j) (hk : Smooth k) (b : State → Bool) (hb : ∀ s l, b (s.relabel l) = b s) :
    Smooth (fun s => if b s then j s else k s) := by
  intro s hs hn
  simp only [hb]
  cases b s
  · exact hk s hs hn
  · exact hj s hs hn

theorem pixelBody_smooth (x y : Int) (c : Colour) : Smooth (pixelBody x y c) := by
  have drawn : Smooth (fun s => modifyPixel (toNative s.cfg s.surf.rot x y).1.toNat (toNative s.cfg s.surf.rot x y).2.toNat c
      (noteSequence (notReady s) s)) :=
    Smooth.reading (k := fun (a : (Int × Int) × Bool) s => modifyPixel a.1.1.toNat a.1.2.toNat c (noteSequence a.2 s))
      (fun a => (noteSequence_blind a.2).smooth.bind (modifyPixel_smooth a.1.1.toNat a.1.2.toNat c))
      (fun s => (toNative s.cfg s.surf.rot x y, notReady s)) fun _ _ => rfl
  exact (drawn.ite (raise_blind .notBegun).smooth (fun s => s.stat.begun) fun _ _ => rfl).ite smooth_cont
    (fun s => inRange s.cfg s.surf.rot x y) fun _ _ => rfl

/-! ### Lines -/

theorem runFrom_smooth {f : Int → State → Flow} (hf : ∀ x, Smooth (f x)) (n : Nat) : ∀ x, Smooth (runFrom f n x) := by
  induction n with
  | zero => exact fun _ => smooth_cont
  | succ n ih => exact fun x => (hf x).bind (ih (x + 1))

/-- A run of `n + 1` pixels, cut after the first. -/
theorem runFrom_cut {f : Int → State → Flow} (hf : ∀ x, Smooth (f x)) {s : State} (hs : SequentialHost s)
    (hn : NoBusAbort s) (n : Nat) (x : Int) : ∃ t1 t,
    runFrom f (n + 1) x (s.setInop true) = .cont t ∧ f x (s.setInop true) = .cont t1 ∧ Idle (complete 0#32 t1) ∧
    runFrom f n (x + 1) ((complete 0#32 t1).setInop true) = .cont (t.relabel ((complete 0#32 t1).setInop true).label) ∧
    t.label = s.label := by
  obtain ⟨t1, on1, label1, first, -⟩ := (hf x).run (s := s.setInop true) hs hn
  obtain ⟨t, on, label, rest, eq⟩ := (runFrom_smooth hf n (x + 1)).run on1.host on1.noAbort
  have again : (complete 0#32 t1).setInop true = t1.relabel ((complete 0#32 t1).setInop true).label := by
    have inop : ({ t1.stat with inop := true } : Stat) = t1.stat := by rw [on1.stat]; rfl
    exact congrArg (fun st => ({ complete 0#32 t1 with stat := st } : State)) inop
  refine ⟨t1, t, ?_, first, rfl, ?_, label.trans label1⟩
  · rw [runFrom, first]
    exact rest
  · rw [again]
    exact eq _

/-- The line, and the line cut after its first pixel, end alike. -/
theorem finish_cut {f : Int → State → Flow} (hf : ∀ x, Smooth (f x)) {s : State} (hs : SequentialHost s)
    (hn : NoBusAbort s) (n : Nat) (x : Int) : ∃ t u v,
    (runFrom f (n + 1) x (s.setInop true)).finish 0#32 = t ∧ (f x (s.setInop true)).finish 0#32 = u ∧ Idle u ∧
    (runFrom f n (x + 1) (u.setInop true)).finish 0#32 = v ∧
      t.trace = v.trace ∧ t.fault = v.fault ∧ t.ctl = v.ctl ∧ t.lines = v.lines ∧ t.stat = v.stat ∧ t.surf = v.surf ∧
      t.tb = v.tb ∧ t.env = v.env ∧ t.draws = v.draws ∧
      t.result = 0 ∧ t.results = s.results ++ [0] ∧ t.opIdx = s.opIdx + 1 := by
  obtain ⟨t1, t, whole, first, idle1, rest, label⟩ := runFrom_cut hf hs hn n x
  refine ⟨complete 0#32 t, complete 0#32 t1, _, ?_, ?_, idle1, rfl, ?_⟩
  · rw [whole, Flow.finish_cont]
  · rw [first, Flow.finish_cont]
  · rw [rest, Flow.finish_cont]
    refine ⟨rfl, rfl, rfl, rfl, rfl, rfl, rfl, rfl, rfl, rfl, ?_, ?_⟩
    · exact congrArg (fun l : Label => l.results ++ [0]) label
    · exact congrArg (fun l : Label => l.opIdx + 1) label

/-- Settles O38: a run of pixels, cut after its first. -/
theorem linesIteratePixels : Obligations.LinesIteratePixels := by
  refine ⟨fun s x y n c idle hs hn => ?_, fun s x y n c idle hs hn => ?_⟩
  · obtain ⟨t, u, v, ht, hu, idleU, hv, same⟩ := finish_cut (fun x => pixelBody_smooth x y c) hs hn n x
    refine ⟨t, u, v, ?_, ?_, ?_, same⟩
    · rw [exec_drawHline_idle idle, Int.toNat_natCast_add_one, ht]
    · exact (exec_setPixel_idle idle).trans (congrArg _ hu)
    · rw [exec_drawHline_idle idleU, Int.toNat_natCast, hv]
  · obtain ⟨t, u, v, ht, hu, idleU, hv, same⟩ := finish_cut (fun y => pixelBody_smooth x y c) hs hn n y
    refine ⟨t, u, v, ?_, ?_, ?_, same⟩
    · rw [exec_drawVline_idle idle, Int.toNat_natCast_add_one, ht]
    · exact (exec_setPixel_idle idle).trans (congrArg _ hu)
    · rw [exec_drawVline_idle idleU, Int.toNat_natCast, hv]

end Sys2Proof.Machine

namespace Sys2Proof.Machine

/-! ## `BestEffort` mode: every operation goes on to its end (rules R247, R252) -/

/-- A part of an operation that cannot abort goes on. -/
theorem Goes.continues {Q : State → Prop} {s : State} {f : Flow} (h : Goes Q s f) (hn : NoBusAbort s) :
    ∃ t, f = .cont t ∧ Did s t ∧ Q t := by
  cases f with
  | cont t => exact ⟨t, rfl, h⟩
  | stop u =>
    obtain ⟨t, -, -, -, abort, -⟩ := h
    exact absurd hn abort

/-- What the statement asks of each operation: it completes with `RESULT = 0`, and `STAT` is `st`. -/
def CompletesWith (o : Host.Outcome State Fault Refusal) (st : Stat) : Prop :=
  ∃ t, o = .next t ∧ t.result = 0 ∧ t.micro = .idle ∧ t.stat = st

/-- A body that goes on, and the `STAT` it leaves. -/
theorem completesWith_of_goes {f : State → Flow} {s : State} {st : Stat}
    (h : Goes (fun t => { t.stat with inop := false } = st) (s.setInop true) (f (s.setInop true))) (hn : NoBusAbort s) :
    CompletesWith (.next ((f (s.setInop true)).finish 0#32)) st := by
  obtain ⟨t, e, -, stat⟩ := h.continues hn
  exact ⟨_, rfl, by rw [e]; rfl, by rw [e]; rfl, by rw [e]; exact stat⟩

/-! ### The scripted BUSY levels survive bus traffic -/

/-- A part of an operation that takes no BUSY sample. -/
def TakesNoSample (k : State → Flow) : Prop :=
  ∀ s, (k s).Ends (fun t => t.env.samples = s.env.samples) (fun _ => True)

theorem TakesNoSample.bind {j k : State → Flow} (hj : TakesNoSample j) (hk : TakesNoSample k) : TakesNoSample (fun s => (j s).bind k) :=
  fun s => (hj s).bind fun t ht => (hk t).mono (fun _ hu => hu.trans ht) fun _ h => h

theorem takesNoSample_cont {f : State → State} (h : ∀ s, (f s).env.samples = s.env.samples) : TakesNoSample (fun s => .cont (f s)) := h

theorem TakesNoSample.reading {α : Type} {k : α → State → Flow} (hk : ∀ a, TakesNoSample (k a)) (g : State → α) :
    TakesNoSample (fun s => k (g s) s) := fun s => hk (g s) s

theorem emit_samples (e : Event) (s : State) : (emit e s).env.samples = s.env.samples := by
  obtain ⟨-, -, -, -, -, samples, -⟩ := hostTick_adds (s.record e)
  exact samples

theorem driveLine_samples (l : LineName) (v : Level) (s : State) : (driveLine l v s).env.samples = s.env.samples := by
  rw [driveLine, emit_samples, lineEffect]
  split <;> cases l <;> rfl

theorem csAssert_samples (s : State) : (csAssert s).env.samples = s.env.samples := by
  rw [csAssert]
  split
  · exact driveLine_samples _ _ s
  · rfl

theorem csDeassert_samples (s : State) : (csDeassert s).env.samples = s.env.samples := by
  rw [csDeassert]
  split
  · exact driveLine_samples _ _ s
  · rfl

theorem xfer_samples (tx : List Byte) (s : State) : (xfer tx s).env.samples = s.env.samples := by
  rw [xfer, emit_samples]
  have next : (transferNext s).env.samples = s.env.samples := by
    unfold transferNext
    split <;> rfl
  rw [← next]
  unfold busOut
  split <;> rfl

theorem noteBusFailure_samples (s : State) : (noteBusFailure s).env.samples = s.env.samples := by
  unfold noteBusFailure
  split
  · rfl
  · exact emit_samples _ s

theorem sendChunks_takesNoSample (cs : List (List Byte)) : TakesNoSample (sendChunks cs) := by
  induction cs with
  | nil => exact takesNoSample_cont fun _ => rfl
  | cons c cs ih =>
    refine TakesNoSample.bind (j := fun s => if transferOk s then .cont (xfer c s) else busFailure (xfer c s)) (fun s => ?_) ih
    beta_reduce
    split
    · exact xfer_samples c s
    · unfold busFailure
      split
      · exact (noteBusFailure_samples _).trans (xfer_samples c s)
      · trivial

theorem frame_takesNoSample (r : Role) (payload : List Byte) : TakesNoSample (frame r payload) := by
  have opened : TakesNoSample (fun s => .cont (csAssert (driveLine .dc (dcLevel s.cfg r) s))) :=
    takesNoSample_cont fun s => (csAssert_samples _).trans (driveLine_samples _ _ s)
  exact TakesNoSample.reading (k := fun cs s => (sendChunks cs (csAssert (driveLine .dc (dcLevel s.cfg r) s))).bind fun t => .cont (csDeassert t))
    (fun cs => (opened.bind (sendChunks_takesNoSample cs)).bind (takesNoSample_cont csDeassert_samples))
    (fun s => chunks s.cfg.maxChunk payload)

theorem group_takesNoSample (code : Byte) (d : List Byte) : TakesNoSample (group code d) := by
  have each : TakesNoSample (sendEach d) := by
    induction d with
    | nil => exact takesNoSample_cont fun _ => rfl
    | cons b d ih => exact (frame_takesNoSample .data [b]).bind ih
  exact (frame_takesNoSample .cmd [code]).bind each

theorem hardReset_samples (s : State) : (hardReset s).env.samples = s.env.samples := by
  simp only [hardReset, delay, emit_samples, driveLine_samples]

theorem prepareHead_takesNoSample : TakesNoSample prepareHead :=
  TakesNoSample.reading (k := fun c s => sendCommand c (hardReset ((s.setCstate .reset).setRamv false false)))
    (fun c => (takesNoSample_cont (f := fun s => hardReset ((s.setCstate .reset).setRamv false false)) fun _ => hardReset_samples _).bind
      (frame_takesNoSample .cmd [c])) (fun s => s.cfg.proto.swReset)

theorem updateHead_takesNoSample (m : UpdateMode) : TakesNoSample (updateHead m) := by
  have coded : ∀ {k : Params → State → Flow}, (∀ c, TakesNoSample (k c)) → TakesNoSample (fun s => k s.cfg s) :=
    fun hk => TakesNoSample.reading hk fun s => s.cfg
  exact ((((coded (k := fun c => group c.proto.tempSensorSelect [c.proto.tempInternal]) fun _ => group_takesNoSample _ _).bind
    (coded (k := fun c => group c.proto.displayUpdateControl1 (duc1Of c.proto m)) fun _ => group_takesNoSample _ _)).bind
    (coded (k := fun c => group c.proto.displayUpdateControl2 [duc2Of c.proto m]) fun _ => group_takesNoSample _ _)).bind
    (coded (k := fun c => sendCommand c.proto.masterActivation) fun _ => frame_takesNoSample _ _)).bind (takesNoSample_cont fun _ => rfl)

/-! ### The operations -/

theorem Did.goes {Q : State → Prop} {s t : State} {f : Flow} (h1 : Did s t) (h2 : Goes Q t f) : Goes Q s f :=
  Flow.Ends.mono h2 (fun _ a => ⟨h1.trans a.1, a.2⟩) (fun _ a => h1.failed a)

/-- Past a wait whose first sample, still the first of the script, is deasserted (rules R125, R127). -/
theorem goes_past_wait {head tail : State → Flow} {Q Q' : State → Prop} {s : State} {p : WaitPoint} (kept : TakesNoSample head)
    (oracle : s.cfg.attached = .oracle) (first : s.env.samples.head? = some (!s.cfg.busyActive)) (hhead : Goes Q s (head s))
    (htail : ∀ t, Did s t → Q t → Goes Q' (sample t) (tail (sample t))) :
    Goes Q' s ((head s).bind (poll p 0 tail)) := by
  have samples := kept s
  cases hf : head s with
  | stop u => rwa [hf] at hhead
  | cont t =>
    rw [hf] at hhead samples
    obtain ⟨did, q⟩ := hhead
    have cfg := did.adds.cfg
    have level : sampleLevel t = !t.cfg.busyActive := sampleLevel_oracle (by rw [cfg, oracle]) (by rw [cfg, samples, first])
    rw [Flow.bind_cont, poll, if_neg (by rw [level, busyAsserted_clear]; decide)]
    exact (did.trans (sample_did t).1).goes (htail t did q)

theorem two_le_maxChunk {c : Params} (h : c.wf) : 2 ≤ c.maxChunk := by
  obtain ⟨-, -, -, -, chunk, -⟩ := h
  exact chunk

/-- Settles O29: each operation by what its body can do, with no abort. -/
theorem bestEffortProceeds : Obligations.BestEffortProceeds := by
  intro s idle hb mode hp
  have hn : NoBusAbort (s.setInop true) := .inl mode
  have hc := one_le_maxChunk hp
  have hc2 : 2 ≤ s.cfg.maxChunk := two_le_maxChunk hp
  have still : ∀ t : State, t.stat = (s.setInop true).stat → { t.stat with inop := false } = s.stat :=
    fun t ht => by rw [ht]; exact Idle.stat idle
  refine ⟨fun i bw red h => ?frame, fun oracle first => ⟨?prepare, fun i m h => ?update⟩, fun x y c => ?pixel, fun x y w c => ?hline,
    fun x y l c => ?vline⟩
  case frame =>
    obtain ⟨hbw, hred⟩ := h.lengths
    obtain ⟨noted, stat, -⟩ := noteSequence_did (notReady (s.setInop true)) (s.setInop true)
    rw [exec_frameOp h, hostOp_idle idle, frameBody, requireBegun_begun (by exact hb)]
    refine completesWith_of_goes (f := fun s => writeFrame bw red (noteSequence (notReady s) s)) (noted.goes ?_) hn
    refine (writeFrame_spec bw red _ (by simpa using hc) (by simpa using hbw) (by simpa using hred)).mono fun t _ ht => ?_
    rw [ht, stat, ← Idle.stat idle]
    rfl
  case prepare =>
    change CompletesWith (hostOp prepareBody s) _
    rw [hostOp_idle idle, prepareBody, requireBegun_begun (by exact hb)]
    refine completesWith_of_goes (f := fun s => (prepareHead s).bind (poll .softReset 0 prepareTail)) ?_ hn
    refine goes_past_wait prepareHead_takesNoSample oracle first (prepareHead_spec _ hc) fun t did ht => ?_
    obtain ⟨sampled, stat, -⟩ := sample_did t
    refine (prepareTail_spec (sample t) (by rw [sampled.adds.cfg, did.adds.cfg]; exact hc)).mono fun u _ hu => ?_
    rw [hu.1, stat, ht.1, ← Idle.stat idle]
    rfl
  case update =>
    obtain ⟨noted, nstat, -⟩ := noteSequence_did (updateUnprepared (s.setInop true)) (s.setInop true)
    rw [exec_updateOp h, hostOp_idle idle, updateBody, requireBegun_begun (by exact hb)]
    refine completesWith_of_goes (f := fun s => (updateHead m (noteSequence (updateUnprepared s) s)).bind (poll .activation 0 updateTail))
      (noted.goes ?_) hn
    refine goes_past_wait (updateHead_takesNoSample m) (by simpa using oracle) (by simpa using first)
      (updateHead_spec m _ (by simpa using hc)) fun t did ht => ?_
    obtain ⟨sampled, stat, -⟩ := sample_did t
    refine (updateTail_spec (sample t) (by rw [sampled.adds.cfg, did.adds.cfg]; simpa using hc)).mono fun u _ hu => ?_
    rw [hu.1, stat, ht.1, nstat, ← Idle.stat idle]
    rfl
  case pixel =>
    rw [exec_setPixel_idle idle]
    exact completesWith_of_goes ((pixelBody_spec x y c (s.setInop true) hc2).mono fun t _ => still t) hn
  case hline =>
    rw [exec_drawHline_idle idle, ← hRun_eq_runFrom]
    exact completesWith_of_goes ((hRun_spec y c w.toNat x (s.setInop true) hc2).mono fun t _ => still t) hn
  case vline =>
    rw [exec_drawVline_idle idle, ← vRun_eq_runFrom]
    exact completesWith_of_goes ((vRun_spec x c l.toNat y (s.setInop true) hc2).mono fun t _ => still t) hn

end Sys2Proof.Machine

namespace Sys2Proof.Machine

/-! ## The bus with scripted answers, on the sequential host (rules R17, R103, R247)

What one event, one transfer, one line and one failure leave of a state, named once for the transactions with failing transfers. -/

/-- The part of the state that bus traffic does not touch, but for the fault bits of its failures. -/
structure Block where
  cfg : Params
  program : List HostOp
  opIdx : Nat
  surf : Surf
  stat : Stat
  fault : FaultReg
  result : ResultWord
  results : List ResultWord
  tb : List Byte
  micro : Micro

def State.block (s : State) : Block :=
  ⟨s.cfg, s.program, s.opIdx, s.surf, s.stat, s.fault, s.result, s.results, s.tb, s.micro⟩

/-- The block after a failed transfer is noted. -/
def Block.failing (b : Block) (failed : Bool) : Block :=
  { b with fault := { b.fault with busFail := b.fault.busFail || failed } }

@[simp] theorem Block.failing_false (b : Block) : b.failing false = b := by
  simp [Block.failing]

@[simp] theorem Block.failing_failing (b : Block) (x y : Bool) : (b.failing x).failing y = b.failing (x || y) := by
  simp [Block.failing, Bool.or_assoc]

theorem sameBlock_of_block {s t : State} {x : Bool} (h : t.block = s.block.failing x) : SameBlock s t :=
  ⟨congrArg Block.cfg h, congrArg Block.program h, congrArg Block.surf h, congrArg Block.stat h, congrArg Block.tb h,
    congrArg Block.micro h⟩

/-- What code on the bus leaves: its events, the block with its failures noted, and the environment but for the backend's answers and
the inbound bytes. -/
structure Emits (ev : List Event) (failed : Bool) (s t : State) : Prop where
  trace : t.trace = s.trace ++ ev
  block : t.block = s.block.failing failed
  host : SequentialHost t

theorem Emits.refl {s : State} (hs : SequentialHost s) : Emits [] false s s := ⟨by simp, by simp, hs⟩

theorem Emits.trans {e1 e2 : List Event} {x y : Bool} {s t u : State} (h1 : Emits e1 x s t) (h2 : Emits e2 y t u) :
    Emits (e1 ++ e2) (x || y) s u :=
  ⟨by rw [h2.trace, h1.trace, List.append_assoc], by rw [h2.block, h1.block, Block.failing_failing], h2.host⟩

theorem Emits.cfg {ev : List Event} {x : Bool} {s t : State} (h : Emits ev x s t) : t.cfg = s.cfg := congrArg Block.cfg h.block

theorem Emits.busFail {ev : List Event} {x : Bool} {s t : State} (h : Emits ev x s t) : t.fault.busFail = (s.fault.busFail || x) :=
  congrArg (fun b => b.fault.busFail) h.block

/-- One event, after a change that bus traffic allows. -/
theorem emit_emits {s t : State} (e : Event) (trace : t.trace = s.trace) (block : t.block = s.block) (hs : SequentialHost t) :
    Emits [e] false s (emit e t) := by
  rw [emit_sequential hs]
  exact ⟨by rw [← trace]; rfl, by rw [Block.failing_false, ← block]; rfl, hs⟩

/-- A line, but for RST. -/
theorem driveLine_emits {s : State} {l : LineName} (v : Level) (hs : SequentialHost s) (hl : l ≠ .rst) :
    Emits [.line l v] false s (driveLine l v s) ∧ (driveLine l v s).env = s.env ∧ (driveLine l v s).rx = s.rx ∧
      (driveLine l v s).lines = s.lines.set l v := by
  have still : lineEffect l v s = s := by
    rw [lineEffect, if_neg]
    exact fun h => hl h.2.1
  have quiet : SequentialHost (s.setLine l v) := by cases l <;> exact hs
  rw [driveLine, still]
  refine ⟨emit_emits _ (by cases l <;> rfl) (by cases l <;> rfl) quiet, ?_, ?_, ?_⟩
  · rw [emit_sequential quiet]
    cases l <;> rfl
  · rw [emit_sequential quiet]
    cases l <;> rfl
  · rw [emit_sequential quiet]
    exact setLine_lines l v s

/-- CS is asserted, where the block manages it. -/
def CsActive (s : State) : Prop := csManaged s.cfg = true → s.lines.cs = some s.cfg.csActive

/-- The opening of a transaction (rules R101, R102). -/
theorem opened_emits {s : State} (r : Role) (hs : SequentialHost s) :
    let t := csAssert (driveLine .dc (dcLevel s.cfg r) s)
    Emits ([.line .dc (dcLevel s.cfg r)] ++ (if csManaged s.cfg then [.line .cs s.cfg.csActive] else [])) false s t ∧ t.env = s.env ∧
      CsActive t ∧ t.lines.dc = some (dcLevel s.cfg r) := by
  obtain ⟨dc, env, -, lines⟩ := driveLine_emits (l := .dc) (dcLevel s.cfg r) hs (by decide)
  by_cases hm : csManaged s.cfg = true
  · obtain ⟨cs, env2, -, lines2⟩ := driveLine_emits (l := .cs) s.cfg.csActive dc.host (by decide)
    rw [csAssert, if_pos (by rw [dc.cfg]; exact hm), dc.cfg, if_pos hm]
    refine ⟨dc.trans cs, env2.trans env, fun _ => ?_, ?_⟩
    · rw [lines2, cs.cfg, dc.cfg]
      rfl
    · rw [lines2, lines]
      rfl
  · rw [csAssert, if_neg (by rw [dc.cfg]; exact hm), if_neg hm]
    refine ⟨by simpa using dc, env, fun managed => absurd (dc.cfg ▸ managed) hm, ?_⟩
    rw [lines]
    rfl

/-- The end of a transaction (rule R102). -/
theorem csDeassert_emits {s : State} (hs : SequentialHost s) :
    Emits (csRelease s.cfg) false s (csDeassert s) ∧ (csDeassert s).env = s.env ∧ (csDeassert s).rx = s.rx := by
  rw [csDeassert, csRelease]
  by_cases hm : csManaged s.cfg = true
  · obtain ⟨cs, env, rx, -⟩ := driveLine_emits (l := .cs) (!s.cfg.csActive) hs (by decide)
    rw [if_pos hm, if_pos hm]
    exact ⟨cs, env, rx⟩
  · rw [if_neg hm, if_neg hm]
    exact ⟨Emits.refl hs, rfl, rfl⟩

/-- The next answers of the backend. -/
def Answers (s : State) (oks : List Bool) : Prop := ∃ as, s.env.backend = .scripted as oks

theorem transferOk_answers {s : State} {ok : Bool} {oks : List Bool} (h : Answers s (ok :: oks)) : transferOk s = ok := by
  obtain ⟨as, backend⟩ := h
  rw [transferOk, backend]

/-- An outbound transfer (rule R17). -/
theorem xfer_emits {s : State} {tx : List Byte} {as oks : List Bool} {ok : Bool} (hs : SequentialHost s)
    (h : s.env.backend = .scripted as (ok :: oks)) :
    Emits [.xfer tx ok] false s (xfer tx s) ∧ (xfer tx s).env = { s.env with backend := .scripted as oks } ∧ (xfer tx s).lines = s.lines := by
  have answer : transferOk s = ok := transferOk_answers ⟨as, h⟩
  have next : transferNext s = s.setEnv { s.env with backend := .scripted as oks } := by rw [transferNext, h]
  obtain ⟨k, n, out⟩ : ∃ k n, busOut ok tx (transferNext s) = (transferNext s).setCtl k n := by
    cases ha : (transferNext s).cfg.attached <;> cases ok <;> simp only [busOut, ha] <;> exact ⟨_, _, rfl⟩
  rw [xfer, answer, out, next]
  exact ⟨emit_emits _ rfl rfl hs, by rw [emit_sequential (by exact hs)]; rfl, by rw [emit_sequential (by exact hs)]; rfl⟩

/-- What an inbound transfer changes, whatever its answer. -/
theorem busIn_form (ok : Bool) (n : Nat) (s : State) : ∃ k bytes d rx,
    busIn ok n s = { s with ctl := k, env := { s.env with bytes := bytes }, draws := d, rx := rx } ∧ rx.length = n := by
  have any := anyBytes_length n s
  rw [anyBytes_eq] at any
  cases ha : s.cfg.attached <;> cases ok <;> simp only [busIn, ha, anyBytes_eq]
  case reference.true =>
    exact ⟨_, _, _, _, rfl, (Controller.bytesOut_length _ _ _ _ _).trans any⟩
  all_goals exact ⟨_, _, _, _, rfl, any⟩

/-- An inbound transfer (rules R17, R109): its bytes stand in `rx`. -/
theorem xferIn_emits {s : State} {n : Nat} {as oks : List Bool} {ok : Bool} (hs : SequentialHost s)
    (h : s.env.backend = .scripted as (ok :: oks)) :
    Emits [.xferIn n (xferIn n s).rx ok] false s (xferIn n s) ∧ (xferIn n s).env.backend = .scripted as oks ∧
      (xferIn n s).rx.length = n := by
  have answer : transferOk s = ok := transferOk_answers ⟨as, h⟩
  have next : transferNext s = s.setEnv { s.env with backend := .scripted as oks } := by rw [transferNext, h]
  obtain ⟨k, bytes, d, rx, received, length⟩ := busIn_form ok n (transferNext s)
  have event : xferIn n s = emit (.xferIn n rx ok) (busIn ok n (transferNext s)) := by rw [xferIn, answer, received]
  have run := emit_sequential (e := .xferIn n rx ok) (s := busIn ok n (transferNext s)) (by rw [received, next]; exact hs)
  have hrx : (xferIn n s).rx = rx := by rw [event, run, received]; rfl
  refine ⟨?_, by rw [event, run, received, next]; rfl, by rw [hrx, length]⟩
  rw [hrx, event]
  exact emit_emits _ (by rw [received, next]; rfl) (by rw [received, next]; rfl) (by rw [received, next]; exact hs)

/-- `BUS_FAIL` noted (rule R247). -/
theorem noteBusFailure_emits {s : State} (hs : SequentialHost s) :
    Emits (busFailLog s) true s (noteBusFailure s) ∧ (noteBusFailure s).env = s.env ∧ (noteBusFailure s).rx = s.rx ∧
      (noteBusFailure s).lines = s.lines := by
  have logged : logRecord .busFail s = s.record (.log .busFail) := emit_sequential hs
  rw [noteBusFailure, logged, busFailLog]
  split
  · refine ⟨⟨by simp [State.raise], ?_, hs⟩, rfl, rfl, rfl⟩
    simp [Block.failing, State.block, State.raise, faultSet]
  · refine ⟨⟨rfl, ?_, hs⟩, rfl, rfl, rfl⟩
    simp [Block.failing, State.block, State.raise, faultSet]

/-! ## `BestEffort` mode -/

/-- A transfer that failed is noted (rule R247). -/
theorem failure_bestEffort {s t : State} {e : Event} (sent : Emits [e] false s t) (mode : s.cfg.errorMode = .bestEffort) :
    ∃ u, busFailure t = .cont u ∧ Emits ([e] ++ busFailLog s) true s u ∧ u.env = t.env ∧ u.rx = t.rx := by
  obtain ⟨noted, env, rx, -⟩ := noteBusFailure_emits sent.host
  have log : busFailLog t = busFailLog s := by rw [busFailLog, busFailLog, sent.busFail, Bool.or_false]
  refine ⟨noteBusFailure t, ?_, log ▸ sent.trans noted, env, rx⟩
  rw [busFailure, sent.cfg, mode]

/-- The transfers of a transaction with their answers (rules R103, R247). -/
theorem sendChunks_bestEffort : ∀ (cs : List (List Byte)) {s : State} {as oks bs : List Bool}, SequentialHost s →
    s.cfg.errorMode = .bestEffort → s.env.backend = .scripted as (oks ++ bs) → oks.length = cs.length →
    ∃ t, sendChunks cs s = .cont t ∧ Emits (chunkEvents s.fault.busFail cs oks) (oks.any fun ok => !ok) s t ∧
      t.env = { s.env with backend := .scripted as bs } := by
  intro cs
  induction cs with
  | nil =>
    intro s as oks bs hs mode backend length
    obtain rfl := List.length_eq_zero_iff.mp length
    exact ⟨s, rfl, by simpa [chunkEvents] using Emits.refl hs, by rw [← show s.env.backend = .scripted as bs from backend]⟩
  | cons c cs ih =>
    intro s as oks bs hs mode backend length
    obtain ⟨ok, oks, rfl⟩ := List.exists_cons_of_length_eq_add_one length
    obtain ⟨sent, env, -⟩ := xfer_emits (tx := c) hs backend
    have first : ∃ u, (if transferOk s then Flow.cont (xfer c s) else busFailure (xfer c s)) = .cont u ∧
        Emits ([.xfer c ok] ++ if ok || s.fault.busFail then [] else [.log .busFail]) (!ok) s u ∧
        u.env = { s.env with backend := .scripted as (oks ++ bs) } := by
      rw [transferOk_answers ⟨as, backend⟩]
      cases ok with
      | true => exact ⟨_, rfl, by simpa using sent, env⟩
      | false =>
        obtain ⟨u, hu, failed, env2, -⟩ := failure_bestEffort sent mode
        exact ⟨u, hu, by simpa [busFailLog] using failed, env2.trans env⟩
    obtain ⟨u, hu, one, env1⟩ := first
    obtain ⟨t, ht, rest, env2⟩ := ih (s := u) (oks := oks) one.host (by rw [one.cfg, mode]) (by rw [env1]) (by simpa using length)
    refine ⟨t, ?_, ?_, by rw [env2, env1]⟩
    · rw [sendChunks, hu, Flow.bind_cont, ht]
    · have all := one.trans rest
      rw [one.busFail] at all
      simpa [chunkEvents] using all

/-- A whole transaction (rule R103). -/
theorem frame_bestEffort {s : State} {r : Role} {payload : List Byte} {as oks bs : List Bool} (hs : SequentialHost s)
    (mode : s.cfg.errorMode = .bestEffort) (backend : s.env.backend = .scripted as (oks ++ bs))
    (length : oks.length = (chunks s.cfg.maxChunk payload).length) :
    ∃ t, frame r payload s = .cont t ∧
      Emits ([.line .dc (dcLevel s.cfg r)] ++ (if csManaged s.cfg then [.line .cs s.cfg.csActive] else []) ++
        chunkEvents s.fault.busFail (chunks s.cfg.maxChunk payload) oks ++ csRelease s.cfg) (oks.any fun ok => !ok) s t ∧
      t.env = { s.env with backend := .scripted as bs } := by
  obtain ⟨start, env1, -⟩ := opened_emits r hs
  obtain ⟨u, hu, middle, env2⟩ := sendChunks_bestEffort (chunks s.cfg.maxChunk payload) (oks := oks) start.host
    (by rw [start.cfg, mode]) (by rw [env1, backend]) length
  obtain ⟨finish, env3, -⟩ := csDeassert_emits middle.host
  refine ⟨csDeassert u, by rw [frame, hu, Flow.bind_cont], ?_, by rw [env3, env2, env1]⟩
  have all := (start.trans middle).trans finish
  rw [start.busFail, middle.cfg, start.cfg] at all
  simpa using all

/-- A whole inbound transaction (rule R109). -/
theorem readFrame_bestEffort {s : State} {n : Nat} {as bs : List Bool} {ok : Bool} (hs : SequentialHost s)
    (mode : s.cfg.errorMode = .bestEffort) (backend : s.env.backend = .scripted as (ok :: bs)) :
    ∃ t, readFrame n s = .cont t ∧ Emits ([.line .dc (!s.cfg.dcCmd)] ++ (if csManaged s.cfg then [.line .cs s.cfg.csActive] else []) ++
      [.xferIn n t.rx ok] ++ (if ok then [] else busFailLog s) ++ csRelease s.cfg) (!ok) s t ∧ t.rx.length = n ∧
      t.env.backend = .scripted as bs := by
  obtain ⟨start, env1, -⟩ := opened_emits .data hs
  generalize hopen : csAssert (driveLine .dc (dcLevel s.cfg .data) s) = o at start env1
  have backend1 : o.env.backend = .scripted as (ok :: bs) := by rw [env1, backend]
  obtain ⟨sent, env2, length⟩ := xferIn_emits (n := n) start.host backend1
  obtain ⟨u, hu, middle, env3, rx3⟩ : ∃ u, (if transferOk o then Flow.cont (xferIn n o) else busFailure (xferIn n o)) = .cont u ∧
      Emits ([.xferIn n (xferIn n o).rx ok] ++ (if ok then [] else busFailLog s)) (!ok) o u ∧ u.env = (xferIn n o).env ∧
      u.rx = (xferIn n o).rx := by
    rw [transferOk_answers ⟨as, backend1⟩]
    cases ok with
    | true => exact ⟨_, rfl, by simpa using sent, rfl, rfl⟩
    | false =>
      have log : busFailLog o = busFailLog s := by rw [busFailLog, busFailLog, start.busFail, Bool.or_false]
      obtain ⟨u, hu, failed, rest⟩ := failure_bestEffort sent (by rw [start.cfg, mode])
      exact ⟨u, hu, log ▸ failed, rest⟩
  obtain ⟨finish, env4, rx4⟩ := csDeassert_emits middle.host
  have rx : (csDeassert u).rx = (xferIn n o).rx := rx4.trans rx3
  refine ⟨csDeassert u, by simp only [readFrame, hopen, hu, Flow.bind_cont], ?_, by rw [rx, length], by rw [env4, env3, env2]⟩
  have all := (start.trans middle).trans finish
  rw [middle.cfg, start.cfg] at all
  rw [rx]
  simpa [dcLevel] using all

/-- Settles O52: a transaction each way, and `MASTER_ACTIVATION`, one transaction of one byte. -/
theorem bestEffortLogsOnce : Obligations.BestEffortLogsOnce := by
  refine ⟨fun s r payload as oks bs hs _ mode backend length => ?_, fun s n as ok bs hs _ mode backend => ?_,
    fun s as bs hs hp mode backend => ?_⟩
  · obtain ⟨t, ht, emits, env⟩ := frame_bestEffort hs mode backend length
    exact ⟨t, ht, by simpa using emits.trace, congrArg Block.fault emits.block, sameBlock_of_block emits.block,
      congrArg Block.result emits.block, congrArg Block.results emits.block, congrArg Block.opIdx emits.block, env⟩
  · obtain ⟨t, ht, emits, length, env⟩ := readFrame_bestEffort (n := n) hs mode backend
    exact ⟨t, ht, by simpa using emits.trace, length, congrArg Block.fault emits.block, sameBlock_of_block emits.block,
      congrArg Block.result emits.block, congrArg Block.results emits.block, congrArg Block.opIdx emits.block, env⟩
  · have one := chunks_singleton s.cfg.proto.masterActivation (one_le_maxChunk hp)
    obtain ⟨t, ht, emits, env⟩ := frame_bestEffort (r := .cmd) (payload := [s.cfg.proto.masterActivation]) (oks := [false]) hs mode backend
      (by rw [one]; rfl)
    rw [one] at emits
    refine ⟨t, ?_, ?_, ?_, sameBlock_of_block emits.block, congrArg Block.result emits.block, congrArg Block.results emits.block,
      congrArg Block.opIdx emits.block, env⟩
    · change busGroup s.cfg.proto.masterActivation [] s = _
      rw [busGroup, group, sendCommand, ht]
      rfl
    · simpa [dcLevel, chunkEvents, csRelease] using emits.trace
    · simpa [Block.failing, State.block] using congrArg Block.fault emits.block

end Sys2Proof.Machine

namespace Sys2Proof.Machine

/-! ## `Strict` mode: a sequence and its first failed transfer (rules R247, R252) -/

/-- Whether an event is an outbound transfer. -/
def isTransfer : Event → Bool
  | .xfer _ _ => true
  | _ => false

theorem isTransfer_iff {e : Event} : isTransfer e = true ↔ ∃ tx ok, e = .xfer tx ok := by
  cases e <;> simp [isTransfer]

/-- The outbound transfers among some events. -/
def transfers (ev : List Event) : Nat := ev.countP isTransfer

@[simp] theorem transfers_append (a b : List Event) : transfers (a ++ b) = transfers a + transfers b := List.countP_append

theorem failAt_cons_other {e : Event} (h : isTransfer e = false) (n : Nat) (es : List Event) :
    failAt n (e :: es) = e :: failAt n es := by
  cases e with
  | xfer => cases h
  | _ => cases n <;> rfl

theorem transfers_cons (e : Event) (es : List Event) : transfers (e :: es) = transfers es + if isTransfer e then 1 else 0 :=
  List.countP_cons

theorem failAt_append_left {a : List Event} (b : List Event) {n : Nat} (h : n < transfers a) : failAt n (a ++ b) = failAt n a := by
  induction a generalizing n with
  | nil => cases h
  | cons e a ih =>
    rw [transfers_cons] at h
    cases he : isTransfer e with
    | false =>
      rw [List.cons_append, failAt_cons_other he, failAt_cons_other he, ih (by simpa [he] using h)]
    | true =>
      obtain ⟨tx, ok, rfl⟩ := isTransfer_iff.mp he
      cases n with
      | zero => rfl
      | succ n => exact congrArg (_ :: ·) (ih (by simpa [he] using h))

theorem failAt_append_right {a : List Event} (b : List Event) {n : Nat} (h : transfers a ≤ n) :
    failAt n (a ++ b) = a ++ failAt (n - transfers a) b := by
  induction a generalizing n with
  | nil => rfl
  | cons e a ih =>
    rw [transfers_cons] at h ⊢
    cases he : isTransfer e with
    | false =>
      rw [List.cons_append, failAt_cons_other he, ih (by simpa [he] using h)]
      simp
    | true =>
      obtain ⟨tx, ok, rfl⟩ := isTransfer_iff.mp he
      obtain ⟨n, rfl⟩ : ∃ m, n = m + 1 := Nat.exists_eq_add_one.mpr (by simp [he] at h; omega)
      have rest := ih (n := n) (by simpa [he] using h)
      simp [failAt, rest]

/-- The backend answers true to `n` more transfers, and then false. -/
def Supply (n : Nat) (s : State) : Prop := ∃ as bs, s.env.backend = .scripted as (List.replicate n true ++ false :: bs)

/-- The last level driven on DC, before which it was `d`. -/
def lastDc (d : Option Level) (ev : List Event) : Option Level :=
  ev.foldl (fun d e => match e with
    | .line .dc v => some v
    | _ => d) d

@[simp] theorem lastDc_append (d : Option Level) (a b : List Event) : lastDc d (a ++ b) = lastDc (lastDc d a) b := List.foldl_append

/-- The block after an abort on a failed transfer (rule R252). -/
def Block.aborted (b : Block) : Block :=
  { b.failing true with
    stat := { b.stat with cstate := .uninitialized, inop := false }
    result := 0x80000002#32
    results := b.results ++ [0x80000002#32]
    opIdx := b.opIdx + 1
    micro := .idle }

/-- A sequence that went through: its events, the block it leaves, and the answers still to come. -/
structure Passes (ev : List Event) (n : Nat) (b : Block) (s t : State) : Prop where
  trace : t.trace = s.trace ++ ev
  block : t.block = b
  host : SequentialHost t
  supply : Supply n t
  dc : t.lines.dc = lastDc s.lines.dc ev

/-- A sequence that ended at a failed transfer, the last of `ev`. -/
structure Snaps (ev : List Event) (s u : State) : Prop where
  trace : u.trace = s.trace ++ ev ++ busFailLog s ++ csRelease s.cfg
  block : u.block = { s.block.aborted with tb := u.tb }
  dc : u.lines.dc = lastDc s.lines.dc ev

/-- A sequence with the events `ev`, when the `n` next transfers succeed and the one after fails: it goes through, or ends at that
transfer. -/
def Delivers (ev : List Event) (n : Nat) (b : Block) (s : State) (f : Flow) : Prop :=
  f.Ends (fun t => transfers ev ≤ n ∧ Passes ev (n - transfers ev) b s t) (fun u => n < transfers ev ∧ Snaps (failAt n ev) s u)

/-- A sequence after another that changed nothing of the block but the buffer. -/
theorem Passes.delivers {e1 e2 : List Event} {n m : Nat} {b1 b2 : Block} {s t : State} {f : Flow} (h1 : Passes e1 m b1 s t)
    (hb : ∀ tb, { b1 with tb := tb } = { s.block with tb := tb }) (hn : n = transfers e1 + m) (h2 : Delivers e2 m b2 t f) :
    Delivers (e1 ++ e2) n b2 s f := by
  have fault : t.fault = s.fault := by rw [show t.fault = t.block.fault from rfl, h1.block]; exact congrArg Block.fault (hb [])
  have cfg : t.cfg = s.cfg := by rw [show t.cfg = t.block.cfg from rfl, h1.block]; exact congrArg Block.cfg (hb [])
  refine Flow.Ends.mono h2 (fun u hu => ?_) fun u hu => ?_
  · obtain ⟨count, rest⟩ := hu
    refine ⟨by rw [transfers_append]; omega, ?_, rest.block, rest.host, ?_, ?_⟩
    · rw [rest.trace, h1.trace, List.append_assoc]
    · rw [transfers_append, show n - (transfers e1 + transfers e2) = m - transfers e2 by omega]
      exact rest.supply
    · rw [rest.dc, h1.dc, lastDc_append]
  · obtain ⟨count, rest⟩ := hu
    rw [transfers_append, failAt_append_right e2 (show transfers e1 ≤ n by omega), show n - transfers e1 = m by omega]
    refine ⟨by omega, ?_, ?_, ?_⟩
    · rw [rest.trace, h1.trace, busFailLog, fault, cfg, List.append_assoc s.trace]
      rfl
    · rw [rest.block, h1.block]
      exact congrArg Block.aborted (hb u.tb)
    · rw [rest.dc, h1.dc, lastDc_append]

theorem Delivers.bind {e1 e2 : List Event} {n : Nat} {b1 b2 : Block} {s : State} {f : Flow} {k : State → Flow}
    (h1 : Delivers e1 n b1 s f) (hb : ∀ tb, { b1 with tb := tb } = { s.block with tb := tb })
    (hk : ∀ t, Passes e1 (n - transfers e1) b1 s t → Delivers e2 (n - transfers e1) b2 t (k t)) :
    Delivers (e1 ++ e2) n b2 s (f.bind k) := by
  cases f with
  | cont t =>
    obtain ⟨count, passes⟩ := h1
    exact passes.delivers hb (by omega) (hk t passes)
  | stop u =>
    obtain ⟨count, snaps⟩ := h1
    refine ⟨by rw [transfers_append]; omega, ?_⟩
    rwa [failAt_append_left e2 count]

/-- Code that emits no transfer. -/
theorem Emits.passes {ev : List Event} {n : Nat} {s t : State} (h : Emits ev false s t) (env : t.env = s.env) (supply : Supply n s)
    (dc : t.lines.dc = lastDc s.lines.dc ev) : Passes ev n s.block s t :=
  ⟨h.trace, by simpa using h.block, h.host, by rwa [Supply, env], dc⟩

theorem csDeassert_dc (s : State) : (csDeassert s).lines.dc = s.lines.dc := by
  by_cases hm : csManaged s.cfg = true
  · obtain ⟨-, -, -, lines⟩ := driveLine_adds .cs (!s.cfg.csActive) s fun _ => hm
    rw [csDeassert, if_pos hm, lines]
    rfl
  · rw [csDeassert, if_neg hm]

/-- An abort inside a transaction deasserts CS, where it is managed (rule R252). -/
theorem abort_active {f : FaultBit} {s : State} (h : CsActive s) : abort f s = aborted f (csDeassert s) := by
  by_cases hm : csManaged s.cfg = true
  · rw [abort, if_pos ⟨hm, h hm⟩, csDeassert, if_pos hm]
    rfl
  · rw [abort, if_neg fun both => hm both.1, csDeassert, if_neg hm]
    rfl

/-- A failed transfer inside a transaction (rules R247, R252). -/
theorem busFailure_snaps {s t : State} {tx : List Byte} (sent : Emits [.xfer tx false] false s t) (lines : t.lines = s.lines)
    (active : CsActive s) (mode : s.cfg.errorMode = .strict) :
    ∃ u, busFailure t = .stop u ∧ Snaps [.xfer tx false] s u := by
  obtain ⟨noted, -, -, lines2⟩ := noteBusFailure_emits sent.host
  obtain ⟨released, -⟩ := csDeassert_emits noted.host
  have all := (sent.trans noted).trans released
  have log : busFailLog t = busFailLog s := by rw [busFailLog, busFailLog, sent.busFail, Bool.or_false]
  have asserted : CsActive (noteBusFailure t) := by rwa [CsActive, noted.cfg, sent.cfg, lines2, lines]
  rw [log, noted.cfg, sent.cfg] at all
  have block : (csDeassert (noteBusFailure t)).block = s.block.failing true := by simpa using all.block
  refine ⟨_, busFailure_strict (by rw [sent.cfg, mode]), ?_⟩
  rw [abort_active asserted]
  refine ⟨?_, ?_, ?_⟩
  · show (csDeassert (noteBusFailure t)).trace = _
    simpa using all.trace
  · have ended : ∀ w : State, (aborted .busFail w).block = { w.block with
        stat := { w.block.stat with cstate := .uninitialized, inop := false }, result := 0x80000002#32,
        results := w.block.results ++ [0x80000002#32], opIdx := w.block.opIdx + 1, micro := .idle } := fun _ => rfl
    have tb : (aborted .busFail (csDeassert (noteBusFailure t))).tb = s.tb := congrArg Block.tb block
    rw [ended, block, tb]
    rfl
  · show (csDeassert (noteBusFailure t)).lines.dc = _
    rw [csDeassert_dc, lines2, lines]
    rfl

/-- The transfers of a transaction (rules R103, R247). -/
theorem sendChunks_delivers (cs : List (List Byte)) : ∀ {n : Nat} {s : State}, SequentialHost s → s.cfg.errorMode = .strict → CsActive s →
    Supply n s → Delivers (cs.map fun c => .xfer c true) n s.block s (sendChunks cs s) := by
  induction cs with
  | nil => exact fun hs _ _ supply => ⟨Nat.zero_le _, (Emits.refl hs).passes rfl supply rfl⟩
  | cons c cs ih =>
    intro n s hs mode active supply
    obtain ⟨as, bs, backend⟩ := supply
    cases n with
    | zero =>
      obtain ⟨sent, env, lines⟩ := xfer_emits (tx := c) hs backend
      obtain ⟨u, hu, snaps⟩ := busFailure_snaps sent lines active mode
      have fails : transferOk s = false := transferOk_answers ⟨as, backend⟩
      rw [sendChunks, fails, if_neg (by decide), hu]
      exact ⟨by simp [transfers, isTransfer], snaps⟩
    | succ n =>
      obtain ⟨sent, env, lines⟩ := xfer_emits (tx := c) hs backend
      have answers : transferOk s = true := transferOk_answers ⟨as, backend⟩
      have supply : Supply n (xfer c s) := ⟨as, bs, congrArg Env.backend env⟩
      have passes : Passes [.xfer c true] n s.block s (xfer c s) :=
        ⟨sent.trace, by simpa using sent.block, sent.host, supply, by rw [lines]; rfl⟩
      have rest := ih sent.host (by rw [sent.cfg, mode]) (by rwa [CsActive, sent.cfg, lines]) supply
      rw [show (xfer c s).block = s.block from passes.block] at rest
      rw [sendChunks, answers, if_pos rfl, Flow.bind_cont]
      exact passes.delivers (fun _ => rfl) (Nat.add_comm _ _) rest

/-- A transaction (rule R103). -/
theorem frame_delivers (r : Role) (payload : List Byte) {n : Nat} {s : State} (hs : SequentialHost s) (mode : s.cfg.errorMode = .strict)
    (supply : Supply n s) : Delivers (transactionEvents s.cfg r (chunks s.cfg.maxChunk payload)) n s.block s (frame r payload s) := by
  obtain ⟨start, env, active, dc⟩ := opened_emits r hs
  generalize hopen : csAssert (driveLine .dc (dcLevel s.cfg r) s) = o at start env active dc
  have begun := start.passes env supply (by
    rw [dc]
    by_cases hm : csManaged s.cfg <;> simp [hm, lastDc])
  have middle := sendChunks_delivers (chunks s.cfg.maxChunk payload) start.host (by rw [start.cfg, mode]) active begun.supply
  rw [begun.block] at middle
  have noTransfer : transfers ([.line .dc (dcLevel s.cfg r)] ++ if csManaged s.cfg then [.line .cs s.cfg.csActive] else []) = 0 := by
    by_cases hm : csManaged s.cfg <;> simp [hm, transfers, isTransfer]
  have sent := begun.delivers (fun _ => rfl) (by rw [noTransfer, Nat.zero_add]) middle
  rw [frame, hopen]
  refine sent.bind (fun _ => rfl) fun t passes => ?_
  obtain ⟨finish, env2, -⟩ := csDeassert_emits passes.host
  have cfg : t.cfg = s.cfg := congrArg Block.cfg passes.block
  have release : transfers (csRelease s.cfg) = 0 := by
    unfold csRelease
    split <;> rfl
  rw [cfg] at finish
  have done := finish.passes env2 passes.supply (by
    rw [csDeassert_dc, csRelease]
    split <;> rfl)
  rw [passes.block] at done
  exact ⟨by rw [csRelease] at release; omega, by rw [csRelease] at release done; rwa [release]⟩

/-- Where a sequence is tried: in `Strict` mode on the sequential host, with `n` transfers to succeed before one fails. -/
structure Trial (n : Nat) (s : State) : Prop where
  host : SequentialHost s
  mode : s.cfg.errorMode = .strict
  chunk : 1 ≤ s.cfg.maxChunk
  supply : Supply n s

/-- A sequence with these events, that leaves the block as it is unless a transfer fails. -/
def Sends (ev : Params → List Event) (k : State → Flow) : Prop :=
  ∀ n s, Trial n s → Delivers (ev s.cfg) n s.block s (k s)

theorem Passes.trial {ev : List Event} {n m : Nat} {s t : State} (h : Passes ev m s.block s t) (trial : Trial n s) : Trial m t := by
  have cfg : t.cfg = s.cfg := congrArg Block.cfg h.block
  exact ⟨h.host, by rw [cfg, trial.mode], by rw [cfg]; exact trial.chunk, h.supply⟩

theorem Sends.bind {e1 e2 : Params → List Event} {j k : State → Flow} (h1 : Sends e1 j) (h2 : Sends e2 k) :
    Sends (fun c => e1 c ++ e2 c) (fun s => (j s).bind k) := by
  intro n s trial
  refine Delivers.bind (h1 n s trial) (fun _ => rfl) fun t passes => ?_
  have rest := h2 _ t (passes.trial trial)
  rwa [passes.block, show t.cfg = s.cfg from congrArg Block.cfg passes.block] at rest

theorem sends_command (code : Params → Byte) : Sends (fun c => cmdEvents c (code c)) (fun s => sendCommand (code s.cfg) s) := by
  intro n s trial
  have h := frame_delivers .cmd [code s.cfg] trial.host trial.mode trial.supply
  rwa [chunks_singleton _ trial.chunk] at h

theorem sends_data (b : Params → Byte) : Sends (fun c => dataEvents c (b c)) (fun s => sendData (b s.cfg) s) := by
  intro n s trial
  have h := frame_delivers .data [b s.cfg] trial.host trial.mode trial.supply
  rwa [chunks_singleton _ trial.chunk] at h

theorem sends_each (d : List Byte) : Sends (fun c => d.flatMap (dataEvents c)) (sendEach d) := by
  induction d with
  | nil => exact fun _ _ trial => ⟨Nat.zero_le _, (Emits.refl trial.host).passes rfl trial.supply rfl⟩
  | cons b d ih => exact (sends_data fun _ => b).bind ih

theorem sends_group (code : Params → Byte) (d : List Byte) :
    Sends (fun c => groupEvents c (code c) d) (fun s => group (code s.cfg) d s) := (sends_command code).bind (sends_each d)

theorem sends_seed (xb yr : Nat) : Sends (fun c => seedEvents c xb yr) (seedCounters xb yr) :=
  (sends_group (fun c => c.proto.setRamXCounter) [lo xb]).bind (sends_group (fun c => c.proto.setRamYCounter) [lo yr, hi yr])

/-! ### A plane and a frame -/

/-- `STAT` after a whole plane (rule R145). -/
def markStat (p : Plane) (st : Stat) : Stat :=
  match p with
  | .bw => { st with ramvBw := true }
  | .red => { st with ramvRed := true }

theorem markWritten_eq (p : Plane) (s : State) : markWritten p s = { s with stat := markStat p s.stat } := by cases p <;> rfl

/-- What is done after the buffer is set, seen from before. -/
theorem Delivers.of_setTb {ev : List Event} {n : Nat} {b : Block} {s : State} {f : Flow} {tb : List Byte}
    (h : Delivers ev n b (s.setTb tb) f) : Delivers ev n b s f :=
  Flow.Ends.mono h (fun _ ⟨count, passes⟩ => ⟨count, passes.trace, passes.block, passes.host, passes.supply, passes.dc⟩)
    fun _ ⟨count, snaps⟩ => ⟨count, snaps.trace, snaps.block, snaps.dc⟩

/-- A plane write (rule R145). -/
theorem writePlane_delivers (p : Plane) {buf : List Byte} {n : Nat} {s : State} (trial : Trial n s) (length : buf.length = planeBytes s.cfg) :
    Delivers (planeEvents s.cfg p (flip s.cfg buf)) n { s.block with tb := flip s.cfg buf, stat := markStat p s.stat } s
      (writePlane p buf s) := by
  have seeded := sends_seed 0 (s.cfg.height - 1) n s trial
  have commanded := seeded.bind (e2 := cmdEvents s.cfg (writeCode s.cfg.proto p)) (b2 := { s.block with tb := flip s.cfg buf })
    (k := fun t => sendCommand (writeCode t.cfg.proto p) (t.setTb (flip t.cfg buf))) (fun _ => rfl) fun t passes => by
      have cfg : t.cfg = s.cfg := congrArg Block.cfg passes.block
      obtain ⟨host, mode, chunk, supply⟩ := passes.trial trial
      have sent := sends_command (fun c => writeCode c.proto p) _ (t.setTb (flip t.cfg buf)) ⟨host, mode, chunk, supply⟩
      have block : (t.setTb (flip t.cfg buf)).block = { s.block with tb := flip s.cfg buf } := by
        rw [← passes.block, ← cfg]
        rfl
      beta_reduce at sent
      rw [block, State.setTb_cfg, cfg] at sent
      rw [cfg]
      exact sent.of_setTb
  have written := commanded.bind (e2 := blockEvents s.cfg (flip s.cfg buf)) (b2 := { s.block with tb := flip s.cfg buf })
    (k := fun t => sendDataBlock t.tb (planeBytes t.cfg) t) (fun _ => rfl) fun t passes => by
      have cfg : t.cfg = s.cfg := congrArg Block.cfg passes.block
      have tb : t.tb = flip s.cfg buf := congrArg Block.tb passes.block
      have sent := frame_delivers .data (flip s.cfg buf) passes.host (by rw [cfg, trial.mode]) passes.supply
      rw [cfg, passes.block] at sent
      rwa [sendDataBlock, cfg, tb, List.take_of_length_le (flip_length length).le]
  have marked := written.bind (e2 := []) (b2 := { s.block with tb := flip s.cfg buf, stat := markStat p s.stat })
    (k := fun t => .cont (markWritten p t)) (fun _ => rfl) fun t passes => by
      have stat : t.stat = s.stat := congrArg Block.stat passes.block
      refine ⟨Nat.zero_le _, ?_⟩
      rw [markWritten_eq, stat]
      exact ⟨(List.append_nil _).symm, congrArg (fun b => { b with stat := markStat p s.stat }) passes.block, passes.host, passes.supply, rfl⟩
  rwa [List.append_nil] at marked

@[simp] theorem transfers_transaction (c : Params) (r : Role) (parts : List (List Byte)) :
    transfers (transactionEvents c r parts) = parts.length := by
  by_cases hm : csManaged c <;> simp [transactionEvents, hm, transfers, isTransfer, List.countP_map, Function.comp_def]

theorem transfers_plane (c : Params) (p : Plane) (tb : List Byte) :
    transfers (planeEvents c p tb) = 6 + (chunks c.maxChunk tb).length := by
  simp [planeEvents, seedEvents, groupEvents, cmdEvents, dataEvents, blockEvents]
  omega

/-- A frame whose transfer number `k` is the first to fail (rules R145, R247, R252). -/
theorem writeFrame_snaps {k : Nat} {s : State} (trial : Trial k s) {bw red : List Byte} (hbw : bw.length = planeBytes s.cfg)
    (hred : red.length = planeBytes s.cfg) (hk : k < 2 * (6 + (chunks s.cfg.maxChunk bw).length)) :
    ∃ u, writeFrame bw red s = .stop u ∧
      u.trace = s.trace ++ failAt k (frameEvents s.cfg bw red) ++ busFailLog s ++ csRelease s.cfg ∧
      u.block = { s.block.aborted with
        tb := u.tb
        stat := { s.stat with
          cstate := .uninitialized
          inop := false
          ramvBw := s.stat.ramvBw || decide (6 + (chunks s.cfg.maxChunk bw).length ≤ k) } } ∧
      u.lines.dc = lastDc s.lines.dc (failAt k (frameEvents s.cfg bw red)) := by
  have first := writePlane_delivers .bw trial hbw
  have count1 := transfers_plane s.cfg .bw (flip s.cfg bw)
  have count2 := transfers_plane s.cfg .red (flip s.cfg red)
  rw [chunks_length, flip_length hbw] at count1
  rw [chunks_length, flip_length hred] at count2
  rw [chunks_length, hbw] at hk ⊢
  rw [writeFrame, frameEvents]
  cases hf : writePlane .bw bw s with
  | stop u =>
    rw [hf] at first
    obtain ⟨early, snaps⟩ := first
    rw [failAt_append_left _ early, decide_eq_false (by omega), Bool.or_false]
    exact ⟨u, rfl, snaps.trace, snaps.block, snaps.dc⟩
  | cont t =>
    rw [hf] at first
    obtain ⟨late, passes⟩ := first
    have cfg : t.cfg = s.cfg := congrArg Block.cfg passes.block
    have second := writePlane_delivers .red (buf := red) (s := t)
      ⟨passes.host, by rw [cfg, trial.mode], by rw [cfg]; exact trial.chunk, passes.supply⟩ (by rw [cfg, hred])
    rw [cfg] at second
    rw [Flow.bind_cont, failAt_append_right _ late, decide_eq_true (by omega), Bool.or_true]
    cases hg : writePlane .red red t with
    | cont v =>
      rw [hg] at second
      obtain ⟨never, -⟩ := second
      omega
    | stop u =>
      rw [hg] at second
      obtain ⟨-, snaps⟩ := second
      have fault : t.fault = s.fault := congrArg Block.fault passes.block
      refine ⟨u, rfl, ?_, ?_, ?_⟩
      · rw [snaps.trace, passes.trace, busFailLog, fault, cfg, List.append_assoc s.trace]
        rfl
      · rw [snaps.block, passes.block]
        rfl
      · rw [snaps.dc, passes.dc, lastDc_append]

/-- A frame operation whose transfer number `k` is the first to fail. -/
theorem exec_frameOp_snaps {k : Nat} {s : State} {i : Instr} {bw red : List Byte} {as bs : List Bool} (h : FrameOp s i bw red) (idle : Idle s)
    (hb : s.stat.begun = true) (hs : SequentialHost s) (hp : s.cfg.wf) (mode : s.cfg.errorMode = .strict)
    (backend : s.env.backend = .scripted as (List.replicate k true ++ false :: bs))
    (hk : k < 2 * (6 + (chunks s.cfg.maxChunk bw).length)) :
    ∃ u, exec i s = .next u ∧
      u.trace = s.trace ++ failAt k (frameEvents s.cfg bw red) ++ busFailLog s ++ csRelease s.cfg ∧
      u.block = { s.block.aborted with
        tb := u.tb
        stat := { s.stat with cstate := .uninitialized, ramvBw := s.stat.ramvBw || decide (6 + (chunks s.cfg.maxChunk bw).length ≤ k) }
        fault := { s.fault with busFail := true, seqViol := s.fault.seqViol || decide (s.stat.cstate ≠ .ready) } } ∧
      u.lines.dc = lastDc s.lines.dc (failAt k (frameEvents s.cfg bw red)) := by
  obtain ⟨hbw, hred⟩ := h.lengths
  have trial : Trial k (noteSequence (notReady s) (s.setInop true)) :=
    ⟨by simpa [SequentialHost] using hs, by simpa using mode, by simpa using one_le_maxChunk hp, as, bs, by simpa using backend⟩
  obtain ⟨u, hu, trace, block, dc⟩ := writeFrame_snaps trial (bw := bw) (red := red) (by simpa using hbw) (by simpa using hred)
    (by simpa using hk)
  refine ⟨u, ?_, ?_, ?_, ?_⟩
  · rw [exec_frameOp h, hostOp_idle idle, frameBody, requireBegun_begun (by exact hb)]
    exact congrArg (fun f => Host.Outcome.next (Flow.finish f 0#32)) hu
  · have log : busFailLog (noteSequence (notReady s) (s.setInop true)) = busFailLog s := by
      unfold busFailLog noteSequence
      split <;> rfl
    simpa [log] using trace
  · have fault : (noteSequence (notReady s) (s.setInop true)).fault =
        { s.fault with seqViol := s.fault.seqViol || decide (s.stat.cstate ≠ .ready) } := by
      rw [noteSequence_notReady_fault]
      by_cases ready : s.stat.cstate = .ready <;> simp [ready]
    have inop : s.stat.inop = false := idle
    rw [block]
    simp [Block.aborted, Block.failing, State.block, inop, fault]
  · simpa using dc

/-- Settles O60: a frame operation, at the transfer that fails. -/
theorem strictFrameFailureKeepsRamv : Obligations.StrictFrameFailureKeepsRamv := by
  intro s i bw red k as bs h idle hb hs hp mode backend hk
  obtain ⟨u, hu, trace, block, -⟩ := exec_frameOp_snaps h idle hb hs hp mode backend hk
  exact ⟨u, hu, trace, congrArg Block.stat block, congrArg Block.fault block, congrArg Block.result block, congrArg Block.results block,
    congrArg Block.opIdx block, congrArg Block.surf block, congrArg Block.micro block, congrArg Block.cfg block, congrArg Block.program block⟩

end Sys2Proof.Machine

namespace Sys2Proof.Machine

/-! ## `Strict` mode: every instruction and every step (rules R247, R252) -/

/-- An operation that only reads `SURF`, `STAT` and `FAULT`, or writes `SURF`. -/
theorem complete_strictEnd {r : ResultWord} {s t : State} (hr : r ≠ 0x80000002#32) (trace : t.trace = s.trace) (fault : t.fault = s.fault)
    (results : t.results = s.results) : StrictEnd s (complete r t) :=
  (Clean.refl s).strictEnd_of hr trace fault (congrArg (· ++ [r]) results)

/-- A small number is no abort result. -/
theorem ofNat_ne_busAbort {n : Nat} (h : n < 2 ^ 31) : BitVec.ofNat 32 n ≠ 0x80000002#32 := by
  intro e
  have toNat := congrArg BitVec.toNat e
  rw [BitVec.toNat_ofNat] at toNat
  simp at toNat
  omega

theorem logical_lt {c : Params} (hp : c.wf) (r : Rotation) : logicalWidth c r < 2 ^ 31 ∧ logicalHeight c r < 2 ^ 31 := by
  obtain ⟨-, w, -, h, -⟩ := hp
  unfold logicalWidth logicalHeight
  split <;> omega

/-- Bit 31 of the status word is clear (rule R196). -/
theorem statusWord_ne_busAbort (s : State) : statusWord s ≠ 0x80000002#32 := by
  intro e
  have top := congrArg (fun w => w.getLsbD 31) e
  simp [statusWord] at top

theorem rotCode_ne_busAbort (r : Rotation) : (rotCode r).setWidth 32 ≠ 0x80000002#32 := by
  cases r <;> decide

/-- The host operations, each by its body. -/
theorem exec_hostOp_strict {i : Instr} (hi : isHostOp i = true) {s : State} (hs : StrictSeq s) (hp : s.cfg.wf) :
    ∃ t, exec i s = .next t ∧ StrictEnd s t := by
  have entered : StrictSeq (s.setInop true) := ⟨hs.seq, hs.strict⟩
  cases i
  case beginOp => exact hostOp_strict (beginBody_strict entered)
  case prepare => exact hostOp_strict (prepareBody_strict entered)
  case displayImage bwP redP =>
    show ∃ t, execDisplayImage bwP redP s = .next t ∧ _
    rw [execDisplayImage]
    split
    · exact hostOp_strict (frameBody_strict _ _ entered)
    · exact ⟨_, rfl, refuse_strictEnd (by decide) s⟩
  case clearDisplay => exact hostOp_strict (frameBody_strict _ _ entered)
  case fillBlack => exact hostOp_strict (frameBody_strict _ _ entered)
  case displayNormal => exact hostOp_strict (updateBody_strict .normal entered)
  case displayFast => exact hostOp_strict (updateBody_strict .fast entered)
  case setPixel x y c => exact hostOp_strict ((pixelBody_strict x y c entered).finish_end (by decide))
  case drawHline x y w c => exact hostOp_strict ((hRun_strict y c _ x entered).finish_end (by decide))
  case drawVline x y l c => exact hostOp_strict ((vRun_strict x c _ y entered).finish_end (by decide))
  case setRotation r => exact hostOp_strict (complete_strictEnd (by decide) rfl rfl rfl)
  case setWhiteBorder => exact hostOp_strict (complete_strictEnd (by decide) rfl rfl rfl)
  case setBlackBorder => exact hostOp_strict (complete_strictEnd (by decide) rfl rfl rfl)
  case setRedBorder => exact hostOp_strict (complete_strictEnd (by decide) rfl rfl rfl)
  case getWidth => exact hostOp_strict (complete_strictEnd (ofNat_ne_busAbort (logical_lt hp _).1) rfl rfl rfl)
  case getHeight => exact hostOp_strict (complete_strictEnd (ofNat_ne_busAbort (logical_lt hp _).2) rfl rfl rfl)
  case getRotation => exact hostOp_strict (complete_strictEnd (rotCode_ne_busAbort _) rfl rfl rfl)
  case getStatus => exact hostOp_strict (complete_strictEnd (statusWord_ne_busAbort _) rfl rfl rfl)
  all_goals cases hi

/-- The bus commands by themselves, in their three forms. -/
theorem exec_bus_strict {i : Instr} (hi : isHostOp i = false) {s : State} (hs : StrictSeq s) :
    ∃ t, exec i s = .next t ∧ StrictEnd s t := by
  cases busForm hi with
  | group cmd d exec _ => exact ⟨_, exec s, (group_strict _ d hs).state_end⟩
  | block pl d exec _ =>
    have block := (frame_strict .cmd [writeCode s.cfg.proto pl] hs).andThen hs fun t ht => frame_strict .data (d.take d.length) ht
    exact ⟨_, exec s, block.state_end⟩
  | read e =>
    subst e
    have read := (frame_strict .cmd [s.cfg.proto.readRam] hs).andThen hs fun t ht => readFrame_strict 2 ht
    exact ⟨_, rfl, read.state_end⟩

theorem exec_strict (i : Instr) {s : State} (hs : StrictSeq s) (hp : s.cfg.wf) : ∃ t, exec i s = .next t ∧ StrictEnd s t := by
  cases hi : isHostOp i with
  | true => exact exec_hostOp_strict hi hs hp
  | false => exact exec_bus_strict hi hs

/-- A step, a turn of a wait too. -/
theorem step_strict {s t : State} (hs : StrictSeq s) (hp : s.cfg.wf) (h : step s = .next t) : StrictEnd s t := by
  have idle : StrictSeq (s.setMicro .idle) := ⟨hs.seq, hs.strict⟩
  have clean := setMicro_clean .idle s
  unfold step at h
  split at h
  · next p n hm =>
    cases h
    exact clean.strictEnd (resumeWait_strict p n idle)
  · split at h
    · next i _ =>
      obtain ⟨u, hu, strict⟩ := exec_strict i idle hp
      cases hu.symm.trans h
      exact clean.strictEnd strict
    · cases h
  · split at h
    · cases h
    · split at h
      · next i _ =>
        obtain ⟨u, hu, strict⟩ := exec_strict i hs hp
        cases hu.symm.trans h
        exact strict
      · cases h
        exact refuse_strictEnd (by decide) s

/-- A sequence that begins with a command, up to its first transfer. -/
theorem failAt_cmdEvents (c : Params) (b : Byte) (rest : List Event) : failAt 0 (cmdEvents c b ++ rest) =
    [.line .dc c.dcCmd] ++ (if csManaged c then [.line .cs c.csActive] else []) ++ [.xfer [b] false] := by
  by_cases hm : csManaged c <;> simp [cmdEvents, transactionEvents, hm, failAt, dcLevel]

/-- Settles O51: every instruction, every step, and the first transfer of `CLEAR_DISPLAY`. -/
theorem strictBusFailureAborts : Obligations.StrictBusFailureAborts := by
  refine ⟨fun i s hs hp mode => exec_strict i ⟨hs, mode⟩ hp, fun s t hs hp mode => step_strict ⟨hs, mode⟩ hp, ?_⟩
  intro s as bs idle hb hs hp mode backend
  obtain ⟨u, hu, trace, block, dc⟩ := exec_frameOp_snaps (k := 0) (.inl ⟨rfl, rfl, rfl⟩) idle hb hs hp mode backend (by omega)
  have first : ∀ bw red, ∃ rest, frameEvents s.cfg bw red = cmdEvents s.cfg s.cfg.proto.setRamXCounter ++ rest := fun bw red =>
    ⟨_, by simp only [frameEvents, planeEvents, seedEvents, groupEvents, List.append_assoc]; rfl⟩
  obtain ⟨rest, events⟩ := first (List.replicate (planeBytes s.cfg) 0xFF#8) (List.replicate (planeBytes s.cfg) 0x00#8)
  rw [events, failAt_cmdEvents] at trace dc
  refine ⟨u, hu, ?_, ?_, congrArg Block.fault block, congrArg Block.result block, congrArg Block.results block, congrArg Block.opIdx block,
    congrArg Block.surf block, congrArg Block.micro block, ?_⟩
  · simpa [busFailLog, csRelease] using trace
  · have stat : u.stat = _ := congrArg Block.stat block
    simpa using stat
  · rw [dc]
    by_cases hm : csManaged s.cfg <;> simp [hm, lastDc]

end Sys2Proof.Machine
